-- ==== Sys2Proof/Word.lean ====
section
/-! DEFINITION. The word types of FCSE (00_scope.md rules R8 and R9): bytes of 8 bits and registers of 32 bits. -/

namespace Sys2Proof

/-- A byte: an 8-bit unsigned value (rule R8). -/
abbrev Byte := BitVec 8

/-- A register, and a command word: 32 bits, bit 0 the least significant (rules R9 and R110). -/
abbrev Word := BitVec 32

end Sys2Proof
end

