-- ==== Sys2Proof/Config.lean ====
section
/-! DEFINITION. What an implementation of FCSE fixes (00_scope.md rule R4) and the free values of the model
(93_implementation_defined.md, treatment "any value").  An `opaque` constant has no body: nothing proves a value of it. -/

namespace Sys2Proof

/-- `CMAC_SUBKEY_ORDER` (rules R4 and R242): which doubling of the cryptogram is used for a full final block. -/
inductive SubkeyOrder where
  /-- FCSE's value: a full block takes the first doubling, a padded one the second. -/
  | nist
  /-- The documented alternative: a full block takes the second doubling, a padded one the first. -/
  | docLiteral
  deriving DecidableEq, Repr

/-- FCSE takes `nist` (rules R4 and R242, 90_conflicts.md C5). -/
def Config.cmacSubkeyOrder : SubkeyOrder := .nist

/-- OPEN (rule R81): which multiple of `0x80000` the platform places FCSE at (notes/assumptions/12.md). -/
opaque Config.baseIndex : Nat

/-- `FCSE_BASE` (rules R4 and R81): the bus address of offset 0, a multiple of `0x80000`. -/
def Config.fcseBase : Nat := 0x80000 * Config.baseIndex

/-- OPEN (rules R4, R276 and R324): byte `i` of the `k`-th draw from the random source, where the state's own list of coming
random bytes has run out. -/
opaque Config.randomByte : Nat → Nat → Byte

/-- "Any value" (93_implementation_defined.md U2 and U3): the byte that the `k`-th unspecified event leaves or shows at
offset `a`. -/
opaque Config.freeByte : Nat → Nat → Byte

end Sys2Proof
end

