-- ==== Sys2Proof/Syntax.lean ====
section
/-! DEFINITION. The command set FCSE-CMD version 1 (00_scope.md rule R2, 30_encoding.md rules R110 to R112): one
constructor per row of spec/opcode_table.json. -/

namespace Sys2Proof

/-- The cipher families that have a key (rules R5 and R6). The cipher type None is `none : Option Family`. -/
inductive Family where
  | des
  | tdes2
  | tdes3
  | aes128
  deriving DecidableEq, Repr

/-- The key-slot selector KSEL of a command word (rule R110). -/
inductive KeySel where
  /-- KSEL = 0: the long-term key. -/
  | ltk
  /-- KSEL = 1: the session key. -/
  | sess
  deriving DecidableEq, Repr

/-- The 17 commands, in the order of rule R112. -/
inductive Instr where
  /-- NOP (rule R319). -/
  | nop
  /-- FENC.ACK (rule R143). -/
  | fencAck
  /-- FENC.NACK (rule R144). -/
  | fencNack
  /-- FENC.ERR (rule R146). -/
  | fencErr
  /-- FENC.INFO (rule R145). -/
  | fencInfo
  /-- FIDENT (rule R148). -/
  | fident
  /-- FDEC (rule R150). -/
  | fdec
  /-- KLOAD (rule R202): CIPH, KEYNO and ARG, the key version. -/
  | kload (ciph : Option Family) (keyno : BitVec 4) (version : Byte)
  /-- CENC (rule R208). -/
  | cenc (ksel : KeySel)
  /-- CDEC (rule R209). -/
  | cdec (ksel : KeySel)
  /-- CMACB (rule R211). -/
  | cmacb (ksel : KeySel)
  /-- CMSUBK (rule R243). -/
  | cmsubk (ksel : KeySel)
  /-- CMAC (rule R247). -/
  | cmac (ksel : KeySel)
  /-- AUTH.START (rule R273). -/
  | authStart
  /-- AUTH.CHAL (rule R276). -/
  | authChal
  /-- AUTH.FINISH (rule R277). -/
  | authFinish
  /-- LOGOUT (rule R279). -/
  | logout
  deriving DecidableEq, Repr

end Sys2Proof
end

