-- ==== Sys2Proof/Machine/State.lean ====
section
/-! DEFINITION. The state of FCSE (10_state.md rules R30 to R54), of the host that drives it and of its environment (00_scope.md
rule R3), as plain data, and the state after power-on reset (70_reset_and_hazards.md rule R350). -/

namespace Sys2Proof.Machine

/-- The command error codes (60_exceptions.md rule R310). -/
inductive ErrCode where
  | ok
  | badOpcode
  | badOperand
  | frameTruncated
  | frameLenChecksum
  | frameDataChecksum
  | frameBadCode
  | frameBadPostamble
  | frameTooLong
  | noKey
  | badBlockLength
  | noSubkeys
  | badTargetLength
  | authBadState
  | authBadStatus
  | authBadLength
  | authMismatch
  deriving DecidableEq, Repr

/-- The handshake states of `STATUS.AUTH_STATE` (rule R47). The reserved value 7 is never written
(93_implementation_defined.md U13) and has no constructor. -/
inductive AuthState where
  | idle
  | challengeSent
  | awaitingChallenge
  | responseSent
  | verifying
  | authenticated
  | failed
  deriving DecidableEq, Repr

/-- The 16 registers (rule R30). -/
inductive Reg where
  | id | version | ctrl | cmd | status | oplen | opoff | opaux | frhdr
  | ltkInfo | sessInfo | subkInfo | res0 | res1 | res2 | res3
  deriving DecidableEq, Repr

/-- The 12 byte windows (rule R43). -/
inductive Window where
  | key | iv | mac | subkPad | subkNopad | ltkKey | sessKey | acTx | acRx | data | fin | fout
  deriving DecidableEq, Repr

/-- A held long-term key (rule R44), less its bytes, which are the LTK_KEY window. -/
structure LongTermKey where
  /-- `LTK_INFO.CIPH`. A held key is never of cipher None (rules R202 and R204). -/
  ciph : Family
  /-- `LTK_INFO.KEYNO`. -/
  keyno : BitVec 4
  /-- `LTK_INFO.VERSION`. -/
  version : Byte
  /-- `STATUS.LTK_DEGEN`. -/
  degen : Bool
  deriving DecidableEq, Repr

/-- An installed session (rule R45), less its key, which is the SESS_KEY window, and its running IV, the IV window. -/
structure Session where
  /-- `SESS_INFO.CIPH`. -/
  ciph : Family
  /-- `SESS_INFO.KEYNO`. -/
  keyno : BitVec 4
  /-- `STATUS.SESS_DEGEN`. -/
  degen : Bool
  deriving DecidableEq, Repr

/-- A derived keychain (rule R46), less its subkeys, which are the SUBK_PAD and SUBK_NOPAD windows. -/
structure Keychain where
  /-- `STATUS.SUBK_SLOT`. -/
  slot : KeySel
  /-- `SUBK_INFO.SUBK_BS`. -/
  bs : BitVec 5
  deriving DecidableEq, Repr

/-- The hidden handshake record (rule R49). -/
structure Handshake where
  /-- The challenge length, 0 when no handshake is in progress. -/
  n : Nat
  /-- RndA, 16 bytes. -/
  rnda : List Byte
  /-- RndB, 16 bytes. -/
  rndb : List Byte
  /-- The chaining value carried between the steps, 16 bytes. -/
  civ : List Byte
  deriving DecidableEq, Repr

/-- The cleared hidden record (rules R49 and R272). -/
def Handshake.clear : Handshake :=
  { n := 0, rnda := List.replicate 16 0, rndb := List.replicate 16 0, civ := List.replicate 16 0 }

/-- The command engine's copies, latched at issue (rules R50 and R88). -/
structure Latch where
  cmd : Word
  oplen : BitVec 17
  opoff : BitVec 16
  opaux : BitVec 17
  tfi : Byte
  fcmd : Byte
  deriving DecidableEq, Repr

/-- One operation of a host script (30_encoding.md rule R118); the offset and the width of an access are any numbers, so that
a script can also make an access the bus refuses (20_memory.md rules R83 to R85). -/
inductive HostOp where
  /-- `MemWrite(off, width, v)` of a constant: `W32 X, v` and `W8 X+i, v`. -/
  | write (width off : Nat) (v : Word)
  /-- `MemWrite` of the value of a host temporary: `W32 X, t`. -/
  | writeTemp (width off t : Nat)
  /-- `MemRead(off, width)` into a host temporary: `R32 X -> t` and `R8 X+i -> t`. -/
  | read (width off t : Nat)
  /-- `BNZ t, m, L`. -/
  | bnz (t : Nat) (mask : Word) (target : Nat)
  /-- `BZ t, m, L`. -/
  | bz (t : Nat) (mask : Word) (target : Nat)
  deriving DecidableEq, Repr

/-- The host agent (rule R3): the script it runs, its place in it, and its temporaries (rule R118). The temporaries are listed
with rising numbers, and one that is not listed is 0. -/
structure HostAgent where
  script : List HostOp
  pc : Nat
  temps : List (Nat × Word)
  deriving DecidableEq, Repr

/-- What the environment supplies, as data the step reads (rules R4, R324 and R361). These fields are the model's own. -/
structure Environment where
  /-- The completion times of the coming commands, in host steps; past its end a command completes at once (rule R361). -/
  schedule : List Nat
  /-- The bytes the random source gives next (rule R324); past its end a draw is `Config.randomByte`. -/
  entropy : List Byte
  /-- How many draws were made. -/
  draws : Nat
  /-- How many unspecified events (93_implementation_defined.md U2 and U3) have occurred; it indexes `Config.freeByte`. -/
  freeEvents : Nat
  deriving DecidableEq, Repr

/-- The state of the machine: FCSE's own, then the host's and the environment's. -/
structure State where
  /-- `CTRL.IRQ_EN` (rule R33). -/
  irqEn : Bool
  /-- `CMD` (rule R34). -/
  cmd : Word
  /-- `STATUS.BUSY` (rules R35 and R50). -/
  busy : Bool
  /-- `STATUS.DONE` (rule R35). -/
  done : Bool
  /-- `STATUS.ERR` (rule R35). -/
  err : Bool
  /-- `STATUS.CMD_OVR` (rule R35). -/
  cmdOvr : Bool
  /-- `STATUS.ERR_CODE` (rules R35 and R310). -/
  errCode : ErrCode
  /-- `STATUS.AUTH_STATE` (rule R47). -/
  authState : AuthState
  /-- `OPLEN` (rule R37). -/
  oplen : BitVec 17
  /-- `OPOFF` (rule R37). -/
  opoff : BitVec 16
  /-- `OPAUX` (rule R37). -/
  opaux : BitVec 17
  /-- `FRHDR` (rule R38): TFI in bits 7:0, FCMD in bits 15:8. -/
  frhdr : BitVec 16
  /-- The long-term key slot (rule R44); none is `LTK_VALID = 0`. -/
  ltk : Option LongTermKey
  /-- The session slot (rule R45); none is `SESS_VALID = 0`. -/
  session : Option Session
  /-- The keychain (rule R46); none is `SUBK_VALID = 0`. -/
  keychain : Option Keychain
  /-- `RES0` (rule R42). -/
  res0 : Word
  /-- `RES1` (rule R42). -/
  res1 : Word
  /-- `RES2` (rule R42). -/
  res2 : Word
  /-- `RES3` (rule R42). -/
  res3 : Word
  /-- The bytes of all windows (rule R43), by byte offset from `FCSE_BASE`, in the canonical form `Memory.wf`. -/
  mem : List Host.Cell
  /-- The hidden handshake record (rule R49). -/
  hidden : Handshake
  /-- The command engine's latched copies (rule R50). -/
  latch : Latch
  /-- How many host steps the running command still takes before its completion step (rules R88 and R361): the model's own. -/
  countdown : Nat
  /-- The host agent (rules R3 and R118). -/
  host : HostAgent
  /-- The environment (rules R3, R324 and R361). -/
  env : Environment
  deriving DecidableEq, Repr

/-- Why the machine stops with a fault. -/
inductive Fault where
  /-- A bus error (20_memory.md rule R85): the host's access of `width` bytes at `offset` is unmapped, misaligned, of a bad
  width, or crosses a window's end.  Raised by the host's step.  Safe: FCSE itself records nothing and would go on. -/
  | busError (offset width : Nat)
  deriving DecidableEq, Repr

/-- Why the machine refuses an instruction. -/
inductive Refusal where
  /-- An instruction without a meaning in this model.  Raised by no arm: every command has its meaning.  Safe. -/
  | notModelled (mnemonic : String)
  deriving DecidableEq, Repr

/-- What a step, or an instruction's meaning, answers. -/
abbrev StepResult := Host.Outcome State Fault Refusal

/-- The latched copies after reset (rule R350). -/
def Latch.clear : Latch := { cmd := 0, oplen := 0, opoff := 0, opaux := 0, tfi := 0, fcmd := 0 }

/-- A host that has nothing to do: the script is placed from outside. -/
def HostAgent.idle : HostAgent := { script := [], pc := 0, temps := [] }

/-- An environment that has listed nothing: commands complete at once, and random bytes are free. -/
def Environment.empty : Environment := { schedule := [], entropy := [], draws := 0, freeEvents := 0 }

/-- The machine right after power-on reset (rule R350); `countdown`, `host` and `env` are the model's own (DESIGN CHOICE,
notes/assumptions/17.md), and DATA, FIN and FOUT are any bytes in the spec (notes/assumptions/1.md). -/
def State.reset : State where
  irqEn := false
  cmd := 0
  busy := false
  done := false
  err := false
  cmdOvr := false
  errCode := .ok
  authState := .idle
  oplen := 0
  opoff := 0
  opaux := 0
  frhdr := 0
  ltk := none
  session := none
  keychain := none
  res0 := 0
  res1 := 0
  res2 := 0
  res3 := 0
  mem := []
  hidden := Handshake.clear
  latch := Latch.clear
  countdown := 0
  host := HostAgent.idle
  env := Environment.empty

end Sys2Proof.Machine
end

