-- ==== Sys2Proof/Machine/Params.lean ====
section
/-! DEFINITION. The numbers the spec fixes: the per-family constants (00_scope.md rules R4 to R6, 42_cmac.md rule R240), the
register and window map (10_state.md rules R30 and R43), and the codes of errors and handshake states. -/

namespace Sys2Proof.Machine

/-- The block size `bs(c)` in bytes (rule R5). -/
def bs : Family → Nat
  | .des => 8
  | .tdes2 => 8
  | .tdes3 => 8
  | .aes128 => 16

/-- The key length `klen(c)` in bytes (rule R5). -/
def klen : Family → Nat
  | .des => 8
  | .tdes2 => 16
  | .tdes3 => 24
  | .aes128 => 16

/-- `AUTH_CMD(c)` (rule R4). -/
def authCmd : Family → Byte
  | .des => 0x0A
  | .tdes2 => 0x0A
  | .tdes3 => 0x1A
  | .aes128 => 0xAA

/-- `CHALLENGE_LEN(c)` in bytes (rule R4). -/
def challengeLen : Family → Nat
  | .des => 8
  | .tdes2 => 8
  | .tdes3 => 16
  | .aes128 => 16

/-- `CONT_CMD` (rule R4): the continuation command, and the status that must end the card's challenge. -/
def contCmd : Byte := 0xAF

/-- The status that must end the card's final answer (rule R277). -/
def statusOk : Byte := 0x00

/-- The families whose session gets a fresh keychain (rule R278). -/
def usesKeychain : Family → Bool
  | .des => false
  | .tdes2 => false
  | .tdes3 => true
  | .aes128 => true

/-- `Rb` by block size (rule R240). -/
def rb (b : Nat) : Byte := if b = 8 then 0x1B else 0x87

/-- `DATA_BYTES` (rule R4). -/
def dataBytes : Nat := 65536

/-- `FRAME_BUF_BYTES` (rule R4). -/
def frameBufBytes : Nat := 131072

/-- `AC_BUF_BYTES` (rule R4). -/
def acBufBytes : Nat := 64

/-- The longest payload of an Info frame (rule R141). -/
def maxPayload : Nat := 65533

/-- A window's first offset (rule R43). -/
def Window.base : Window → Nat
  | .key => 0x00100
  | .iv => 0x00120
  | .mac => 0x00130
  | .subkPad => 0x00140
  | .subkNopad => 0x00150
  | .ltkKey => 0x00160
  | .sessKey => 0x00180
  | .acTx => 0x00200
  | .acRx => 0x00240
  | .data => 0x10000
  | .fin => 0x20000
  | .fout => 0x40000

/-- A window's size in bytes (rule R43). -/
def Window.size : Window → Nat
  | .key => 24
  | .iv => 16
  | .mac => 16
  | .subkPad => 16
  | .subkNopad => 16
  | .ltkKey => 24
  | .sessKey => 24
  | .acTx => acBufBytes
  | .acRx => acBufBytes
  | .data => dataBytes
  | .fin => frameBufBytes
  | .fout => frameBufBytes

/-- Whether the host may write a window (rule R43). -/
def Window.hostWritable : Window → Bool
  | .key => true
  | .iv => true
  | .mac => false
  | .subkPad => false
  | .subkNopad => false
  | .ltkKey => false
  | .sessKey => false
  | .acTx => false
  | .acRx => true
  | .data => true
  | .fin => true
  | .fout => false

/-- All windows, in the order of their offsets (rule R82). -/
def allWindows : List Window :=
  [.key, .iv, .mac, .subkPad, .subkNopad, .ltkKey, .sessKey, .acTx, .acRx, .data, .fin, .fout]

/-- All registers, in the order of their offsets (rule R30): the one at index `k` stands at offset `4 * k`. -/
def allRegs : List Reg :=
  [.id, .version, .ctrl, .cmd, .status, .oplen, .opoff, .opaux, .frhdr, .ltkInfo, .sessInfo, .subkInfo,
   .res0, .res1, .res2, .res3]

/-- `STATUS.ERR_CODE` of an error (rule R310). -/
def ErrCode.code : ErrCode → Byte
  | .ok => 0x00
  | .badOpcode => 0x01
  | .badOperand => 0x02
  | .frameTruncated => 0x10
  | .frameLenChecksum => 0x11
  | .frameDataChecksum => 0x12
  | .frameBadCode => 0x13
  | .frameBadPostamble => 0x14
  | .frameTooLong => 0x15
  | .noKey => 0x20
  | .badBlockLength => 0x21
  | .noSubkeys => 0x22
  | .badTargetLength => 0x23
  | .authBadState => 0x30
  | .authBadStatus => 0x31
  | .authBadLength => 0x32
  | .authMismatch => 0x33

/-- `STATUS.AUTH_STATE` of a handshake state (rule R47). -/
def AuthState.code : AuthState → BitVec 3
  | .idle => 0
  | .challengeSent => 1
  | .awaitingChallenge => 2
  | .responseSent => 3
  | .verifying => 4
  | .authenticated => 5
  | .failed => 6

/-- `STATUS.SUBK_SLOT` of a key slot (rule R35). -/
def slotCode : KeySel → BitVec 1
  | .ltk => 0
  | .sess => 1

/-- The bus address of an offset into FCSE's slave window (rules R80 and R81). -/
def busAddress (off : Nat) : Nat := Config.fcseBase + off

end Sys2Proof.Machine
end

