-- ==== Sys2Proof/Machine/Bytes.lean ====
section
/-! DEFINITION. Byte strings (00_scope.md rule R8) and the bus's byte order (20_memory.md rule R86). -/

namespace Sys2Proof.Machine

/-- `00^n` (rule R8). -/
def zeros (n : Nat) : List Byte := List.replicate n 0

/-- `b ⊕ c`, bytewise (rule R8). -/
def xorBytes (b c : List Byte) : List Byte := List.zipWith (· ^^^ ·) b c

/-- `sum(b)`, an integer (rule R8). -/
def sumBytes : List Byte → Nat
  | [] => 0
  | x :: b => x.toNat + sumBytes b

/-- `-x mod 256` (rule R9). -/
def negMod256 (x : Nat) : Byte := BitVec.ofNat 8 ((256 - x % 256) % 256)

/-- `rotl1(b)`, the left rotation by one byte (rule R8). -/
def rotl1 (b : List Byte) : List Byte := b.drop 1 ++ b.take 1

/-- `rotr1(b)`, the right rotation by one byte (rule R8). -/
def rotr1 (b : List Byte) : List Byte := b.drop (b.length - 1) ++ b.take (b.length - 1)

/-- `b[i]`; a byte past the end is 00, and no rule reads one. -/
def byteAt (b : List Byte) (i : Nat) : Byte := b.getD i 0

/-- `b ++ 00^(n - |b|)`. -/
def padTo (n : Nat) (b : List Byte) : List Byte := b ++ zeros (n - b.length)

/-- The `n` low bytes of a register value in bus order: bits 7:0 at the lowest offset (rule R86). -/
def leBytes : Nat → Word → List Byte
  | 0, _ => []
  | n + 1, v => v.extractLsb' 0 8 :: leBytes n (v >>> 8)

/-- The value that bytes in bus order carry, the first in bits 7:0 (rule R86). -/
def ofLeBytes : List Byte → Word
  | [] => 0
  | x :: b => x.setWidth 32 ||| (ofLeBytes b <<< 8)

/-- A number as a register value. -/
def wordOf (n : Nat) : Word := BitVec.ofNat 32 n

/-- A byte string as a number, big-endian (rule R8). -/
def beNat : List Byte → Nat
  | [] => 0
  | x :: b => x.toNat * 256 ^ b.length + beNat b

end Sys2Proof.Machine
end

