-- ==== Sys2Proof/Machine/Aes.lean ====
section
/-! DEFINITION. `AES_E` and `AES_D` (00_scope.md rule R7): the AES-128 of FIPS 197, which FCSE takes them to be.  PRESUMED: the
spec leaves the algorithm to the published standard (93_implementation_defined.md G2); notes/assumptions/2.md.  A state is 16
bytes, column by column, as the standard's input bytes stand. -/

namespace Sys2Proof.Machine

/-- The S-box, as 256 bytes: the entry of `x` is byte `x` from the most significant end. -/
def aesSTable : BitVec 2048 :=
  0x637c777bf26b6fc53001672bfed7ab76ca82c97dfa5947f0add4a2af9ca472c0#256 ++
  0xb7fd9326363ff7cc34a5e5f171d8311504c723c31896059a071280e2eb27b275#256 ++
  0x09832c1a1b6e5aa0523bd6b329e32f8453d100ed20fcb15b6acbbe394a4c58cf#256 ++
  0xd0efaafb434d338545f9027f503c9fa851a3408f929d38f5bcb6da2110fff3d2#256 ++
  0xcd0c13ec5f974417c4a77e3d645d197360814fdc222a908846eeb814de5e0bdb#256 ++
  0xe0323a0a4906245cc2d3ac629195e479e7c8376d8dd54ea96c56f4ea657aae08#256 ++
  0xba78252e1ca6b4c6e8dd741f4bbd8b8a703eb5664803f60e613557b986c11d9e#256 ++
  0xe1f8981169d98e949b1e87e9ce5528df8ca1890dbfe6426841992d0fb054bb16#256

/-- The inverse S-box, laid out the same way. -/
def aesInvSTable : BitVec 2048 :=
  0x52096ad53036a538bf40a39e81f3d7fb7ce339829b2fff87348e4344c4dee9cb#256 ++
  0x547b9432a6c2233dee4c950b42fac34e082ea16628d924b2765ba2496d8bd125#256 ++
  0x72f8f66486689816d4a45ccc5d65b6926c704850fdedb9da5e154657a78d9d84#256 ++
  0x90d8ab008cbcd30af7e45805b8b34506d02c1e8fca3f0f02c1afbd0301138a6b#256 ++
  0x3a9111414f67dcea97f2cfcef0b4e67396ac7422e7ad3585e2f937e81c75df6e#256 ++
  0x47f11a711d29c5896fb7620eaa18be1bfc563e4bc6d279209adbc0fe78cd5af4#256 ++
  0x1fdda8338807c731b11210592780ec5f60517fa919b54a0d2de57a9f93c99cef#256 ++
  0xa0e03b4dae2af5b0c8ebbb3c83539961172b047eba77d626e169146355210c7d#256

/-- Byte `x` of a table of 256 bytes. -/
def tableByte (t : BitVec 2048) (x : Byte) : Byte := (t >>> (8 * (255 - x.toNat))).setWidth 8

/-- SubBytes on one byte. -/
def aesS (x : Byte) : Byte := tableByte aesSTable x

/-- InvSubBytes on one byte. -/
def aesInvS (x : Byte) : Byte := tableByte aesInvSTable x

/-- Multiplication by 2 in the field of the standard. -/
def xtime (x : Byte) : Byte := (x <<< 1) ^^^ (if x.msb then 0x1b else 0)

/-- Multiplication by 3. -/
def mul3 (x : Byte) : Byte := xtime x ^^^ x

/-- Multiplication by 9. -/
def mul9 (x : Byte) : Byte := xtime (xtime (xtime x)) ^^^ x

/-- Multiplication by 11. -/
def mul11 (x : Byte) : Byte := xtime (xtime (xtime x)) ^^^ xtime x ^^^ x

/-- Multiplication by 13. -/
def mul13 (x : Byte) : Byte := xtime (xtime (xtime x)) ^^^ xtime (xtime x) ^^^ x

/-- Multiplication by 14. -/
def mul14 (x : Byte) : Byte := xtime (xtime (xtime x)) ^^^ xtime (xtime x) ^^^ xtime x

/-- ShiftRows: which input byte each output byte is. -/
def aesShift : List Nat := [0, 5, 10, 15, 4, 9, 14, 3, 8, 13, 2, 7, 12, 1, 6, 11]

/-- InvShiftRows: which input byte each output byte is. -/
def aesInvShift : List Nat := [0, 13, 10, 7, 4, 1, 14, 11, 8, 5, 2, 15, 12, 9, 6, 3]

/-- The bytes of a state in the order a table gives. -/
def pickBytes (t : List Nat) (s : List Byte) : List Byte := t.map (byteAt s)

/-- MixColumns on one column. -/
def mixColumn (s : List Byte) : List Byte :=
  let a := byteAt s 0
  let b := byteAt s 1
  let c := byteAt s 2
  let d := byteAt s 3
  [xtime a ^^^ mul3 b ^^^ c ^^^ d, a ^^^ xtime b ^^^ mul3 c ^^^ d,
   a ^^^ b ^^^ xtime c ^^^ mul3 d, mul3 a ^^^ b ^^^ c ^^^ xtime d]

/-- InvMixColumns on one column. -/
def invMixColumn (s : List Byte) : List Byte :=
  let a := byteAt s 0
  let b := byteAt s 1
  let c := byteAt s 2
  let d := byteAt s 3
  [mul14 a ^^^ mul11 b ^^^ mul13 c ^^^ mul9 d, mul9 a ^^^ mul14 b ^^^ mul11 c ^^^ mul13 d,
   mul13 a ^^^ mul9 b ^^^ mul14 c ^^^ mul11 d, mul11 a ^^^ mul13 b ^^^ mul9 c ^^^ mul14 d]

/-- A column operation on each of the four columns of a state. -/
def eachColumn (g : List Byte → List Byte) (s : List Byte) : List Byte :=
  g (s.take 4) ++ g ((s.drop 4).take 4) ++ g ((s.drop 8).take 4) ++ g ((s.drop 12).take 4)

/-- The round key that follows a round key, for a round constant. -/
def aesNextKey (rc : Byte) (k : List Byte) : List Byte :=
  let t := xorBytes ((rotl1 ((k.drop 12).take 4)).map aesS) [rc, 0, 0, 0]
  let w0 := xorBytes (k.take 4) t
  let w1 := xorBytes ((k.drop 4).take 4) w0
  let w2 := xorBytes ((k.drop 8).take 4) w1
  let w3 := xorBytes ((k.drop 12).take 4) w2
  w0 ++ w1 ++ w2 ++ w3

/-- The `n` round keys after a round key. -/
def aesRoundKeys : Nat → Byte → List Byte → List (List Byte)
  | 0, _, _ => []
  | n + 1, rc, k => aesNextKey rc k :: aesRoundKeys n (xtime rc) (aesNextKey rc k)

/-- SubBytes, then ShiftRows. -/
def aesSubShift (s : List Byte) : List Byte := pickBytes aesShift (s.map aesS)

/-- InvShiftRows, then InvSubBytes. -/
def aesInvSubShift (s : List Byte) : List Byte := (pickBytes aesInvShift s).map aesInvS

/-- The rounds of the cipher, one for each round key; the last has no MixColumns. -/
def aesEncRounds : List (List Byte) → List Byte → List Byte
  | [], s => s
  | [k], s => xorBytes (aesSubShift s) k
  | k :: k' :: ks, s => aesEncRounds (k' :: ks) (xorBytes (eachColumn mixColumn (aesSubShift s)) k)

/-- The rounds of the inverse cipher: the last round key first. -/
def aesDecRounds : List (List Byte) → List Byte → List Byte
  | [], s => s
  | [k], s => aesInvSubShift (xorBytes s k)
  | k :: k' :: ks, s => aesInvSubShift (eachColumn invMixColumn (xorBytes (aesDecRounds (k' :: ks) s) k))

/-- `AES_E(k, x)` (rule R7). -/
def aesE16 (k x : List Byte) : List Byte := aesEncRounds (aesRoundKeys 10 1 k) (xorBytes x k)

/-- `AES_D(k, y)` (rule R7). -/
def aesD16 (k y : List Byte) : List Byte := xorBytes (aesDecRounds (aesRoundKeys 10 1 k) y) k

end Sys2Proof.Machine
end

