-- ==== Sys2Proof/Machine/Des.lean ====
section
/-! DEFINITION. `DES_E` and `DES_D` (00_scope.md rule R7): the DES of FIPS 46-3, which FCSE takes them to be.  PRESUMED: the
spec leaves the algorithm to the published standard (93_implementation_defined.md G1); notes/assumptions/2.md.  Bit positions
in the tables are the standard's: 1 is the most significant bit. -/

namespace Sys2Proof.Machine

/-- The initial permutation. -/
def desIP : List Nat :=
  [58, 50, 42, 34, 26, 18, 10, 2, 60, 52, 44, 36, 28, 20, 12, 4, 62, 54, 46, 38, 30, 22, 14, 6, 64, 56, 48, 40, 32, 24, 16, 8] ++
  [57, 49, 41, 33, 25, 17, 9, 1, 59, 51, 43, 35, 27, 19, 11, 3, 61, 53, 45, 37, 29, 21, 13, 5, 63, 55, 47, 39, 31, 23, 15, 7]

/-- The final permutation, the inverse of the initial one. -/
def desFP : List Nat :=
  [40, 8, 48, 16, 56, 24, 64, 32, 39, 7, 47, 15, 55, 23, 63, 31, 38, 6, 46, 14, 54, 22, 62, 30, 37, 5, 45, 13, 53, 21, 61, 29] ++
  [36, 4, 44, 12, 52, 20, 60, 28, 35, 3, 43, 11, 51, 19, 59, 27, 34, 2, 42, 10, 50, 18, 58, 26, 33, 1, 41, 9, 49, 17, 57, 25]

/-- The expansion of a half block to 48 bits. -/
def desE : List Nat :=
  [32, 1, 2, 3, 4, 5, 4, 5, 6, 7, 8, 9, 8, 9, 10, 11, 12, 13, 12, 13, 14, 15, 16, 17] ++
  [16, 17, 18, 19, 20, 21, 20, 21, 22, 23, 24, 25, 24, 25, 26, 27, 28, 29, 28, 29, 30, 31, 32, 1]

/-- The permutation of the S-boxes' output. -/
def desP : List Nat :=
  [16, 7, 20, 21, 29, 12, 28, 17, 1, 15, 23, 26, 5, 18, 31, 10, 2, 8, 24, 14, 32, 27, 3, 9, 19, 13, 30, 6, 22, 11, 4, 25]

/-- Permuted choice 1: the 56 key bits, less the parity bits 8, 16, …, 64. -/
def desPC1 : List Nat :=
  [57, 49, 41, 33, 25, 17, 9, 1, 58, 50, 42, 34, 26, 18, 10, 2, 59, 51, 43, 35, 27, 19, 11, 3, 60, 52, 44, 36] ++
  [63, 55, 47, 39, 31, 23, 15, 7, 62, 54, 46, 38, 30, 22, 14, 6, 61, 53, 45, 37, 29, 21, 13, 5, 28, 20, 12, 4]

/-- Permuted choice 2: the 48 bits of a round key. -/
def desPC2 : List Nat :=
  [14, 17, 11, 24, 1, 5, 3, 28, 15, 6, 21, 10, 23, 19, 12, 4, 26, 8, 16, 7, 27, 20, 13, 2] ++
  [41, 52, 31, 37, 47, 55, 30, 40, 51, 45, 33, 48, 44, 49, 39, 56, 34, 53, 46, 42, 50, 36, 29, 32]

/-- The left rotations of the key halves before each of the 16 rounds. -/
def desShifts : List Nat := [1, 1, 2, 2, 2, 2, 2, 2, 1, 2, 2, 2, 2, 2, 2, 1]

/-- The eight S-boxes, each as 64 hexadecimal digits: the entry of row `r` and column `c` is digit `16 * r + c`. -/
def desS : List (BitVec 256) :=
  [0xe4d12fb83a6c59070f74e2d1a6cb953841e8d62bfc973a50fc8249175b3ea06d,
   0xf18e6b34972dc05a3d47f28ec01a69b50e7ba4d158c6932fd8a13f42b67c05e9,
   0xa09e63f51dc7b428d709346a285ecbf1d6498f30b12c5ae71ad069874fe3b52c,
   0x7de3069a1285bc4fd8b56f03472c1ae9a690cb7df13e52843f06a1d8945bc72e,
   0x2c417ab6853fd0e9eb2c47d150fa3986421bad78f9c5630eb8c71e2d6f09a453,
   0xc1af92680d34e75baf427c9561de0b389ef528c3704a1db6432c95fabe17608d,
   0x4b2ef08d3c975a61d0b7491ae35c2f8614bdc37eaf6805926bd814a7950fe23c,
   0xd2846fb1a93e50c71fd8a374c56b0e927b419ce206adf35821e74a8dfc90356b]

/-- The `m` bits that a table selects from `x`, the first most significant. -/
def permuteBits {n : Nat} (m : Nat) (t : List Nat) (x : BitVec n) : BitVec m :=
  BitVec.ofNat m (t.foldl (fun acc i => 2 * acc + (x.toNat >>> (n - i)) % 2) 0)

/-- S-box `i` applied to 6 bits: the outer two are the row, the inner four the column. -/
def desSBox (i : Nat) (b : BitVec 6) : BitVec 4 :=
  let row := 2 * (b.toNat / 32) + b.toNat % 2
  let col := b.toNat / 2 % 16
  ((desS.getD i 0) >>> (252 - 4 * (16 * row + col))).setWidth 4

/-- The cipher function of a round. -/
def desF (r : BitVec 32) (k : BitVec 48) : BitVec 32 :=
  let x : BitVec 48 := permuteBits 48 desE r ^^^ k
  permuteBits 32 desP ((List.range 8).foldl (fun (acc : BitVec 32) i =>
    (acc <<< 4) ||| (desSBox i ((x >>> (42 - 6 * i)).setWidth 6)).setWidth 32) 0)

/-- The round keys that follow from the two key halves. -/
def desRoundKeys : List Nat → BitVec 28 → BitVec 28 → List (BitVec 48)
  | [], _, _ => []
  | s :: ss, c, d =>
    permuteBits 48 desPC2 (c.rotateLeft s ++ d.rotateLeft s) :: desRoundKeys ss (c.rotateLeft s) (d.rotateLeft s)

/-- The key schedule. -/
def desSchedule (k : BitVec 64) : List (BitVec 48) :=
  let cd := permuteBits 56 desPC1 k
  desRoundKeys desShifts (cd.extractLsb' 28 28) (cd.extractLsb' 0 28)

/-- One round on the two half blocks. -/
def desRound (p : BitVec 32 × BitVec 32) (k : BitVec 48) : BitVec 32 × BitVec 32 := (p.2, p.1 ^^^ desF p.2 k)

/-- The 16 rounds between the two permutations, the halves exchanged at the end. -/
def desCrypt (ks : List (BitVec 48)) (x : BitVec 64) : BitVec 64 :=
  let y := permuteBits 64 desIP x
  let p := ks.foldl desRound (y.extractLsb' 32 32, y.extractLsb' 0 32)
  permuteBits 64 desFP (p.2 ++ p.1)

/-- A byte string of 8 bytes as 64 bits, the first byte most significant (rule R8). -/
def bits64 (b : List Byte) : BitVec 64 := BitVec.ofNat 64 (beNat b)

/-- 64 bits as a byte string of 8 bytes (rule R8). -/
def bytes64 (x : BitVec 64) : List Byte := (List.range 8).map fun i => x.extractLsb' (56 - 8 * i) 8

/-- `DES_E(k, x)` (rule R7). -/
def desE8 (k x : List Byte) : List Byte := bytes64 (desCrypt (desSchedule (bits64 k)) (bits64 x))

/-- `DES_D(k, y)` (rule R7): the round keys in reverse. -/
def desD8 (k y : List Byte) : List Byte := bytes64 (desCrypt (desSchedule (bits64 k)).reverse (bits64 y))

end Sys2Proof.Machine
end

