-- ==== Sys2Proof/Machine/Block.lean ====
section
/-! DEFINITION. The per-family block functions and the block chains (41_cipher.md rules R201 and R205 to R207), degeneracy
(R203) and session-key derivation (R210). -/

namespace Sys2Proof.Machine

/-- `k1 = K[0..8)` (rule R201). -/
def key1 (k : List Byte) : List Byte := k.take 8

/-- `k2 = K[8..16)` (rule R201). -/
def key2 (k : List Byte) : List Byte := (k.drop 8).take 8

/-- `k3 = K[16..24)` (rule R201). -/
def key3 (k : List Byte) : List Byte := (k.drop 16).take 8

/-- `E_c(K, x)` (rule R201). -/
def encBlock (c : Family) (k x : List Byte) : List Byte :=
  match c with
  | .des => desE8 (key1 k) x
  | .tdes2 => desE8 (key1 k) (desD8 (key2 k) (desE8 (key1 k) x))
  | .tdes3 => desE8 (key3 k) (desD8 (key2 k) (desE8 (key1 k) x))
  | .aes128 => aesE16 k x

/-- `D_c(K, y)` (rule R201). -/
def decBlock (c : Family) (k y : List Byte) : List Byte :=
  match c with
  | .des => desD8 (key1 k) y
  | .tdes2 => desD8 (key1 k) (desE8 (key2 k) (desD8 (key1 k) y))
  | .tdes3 => desD8 (key1 k) (desE8 (key2 k) (desD8 (key3 k) y))
  | .aes128 => aesD16 k y

/-- What a chain over some blocks gives: the output bytes and the new chaining value. -/
structure Chain where
  out : List Byte
  iv : List Byte
  deriving DecidableEq, Repr

/-- `cbc_enc(c, K, iv, p)` over `m` blocks (rule R205). -/
def cbcEnc (c : Family) (k : List Byte) : Nat → List Byte → List Byte → Chain
  | 0, iv, _ => { out := [], iv := iv }
  | m + 1, iv, p =>
    let q := encBlock c k (xorBytes (p.take (bs c)) iv)
    let r := cbcEnc c k m q (p.drop (bs c))
    { out := q ++ r.out, iv := r.iv }

/-- `cbc_dec(c, K, iv, q)` over `m` blocks (rule R206). -/
def cbcDec (c : Family) (k : List Byte) : Nat → List Byte → List Byte → Chain
  | 0, iv, _ => { out := [], iv := iv }
  | m + 1, iv, q =>
    let p := xorBytes (decBlock c k (q.take (bs c))) iv
    let r := cbcDec c k m (q.take (bs c)) (q.drop (bs c))
    { out := p ++ r.out, iv := r.iv }

/-- `cbc_mac(c, K, iv, p)` over `m` blocks (rule R207): the new chaining value of `cbc_enc`. -/
def cbcMac (c : Family) (k : List Byte) (m : Nat) (iv p : List Byte) : List Byte := (cbcEnc c k m iv p).iv

/-- Whether two key halves agree in every bit but the parity bit, bit 0 of each byte (rule R203). -/
def sameUpToParity (a b : List Byte) : Bool := decide (a.map (· &&& 0xFE) = b.map (· &&& 0xFE))

/-- `degenerate(c, K)` (rule R203). -/
def degenerate (c : Family) (k : List Byte) : Bool :=
  match c with
  | .des => true
  | .tdes2 => sameUpToParity (key1 k) (key2 k)
  | .tdes3 => false
  | .aes128 => false

/-- `b[i..j)` (rule R8). -/
def slice (b : List Byte) (i j : Nat) : List Byte := (b.drop i).take (j - i)

/-- `derive_session_key(c, degen, A, B)` (rule R210). -/
def deriveSessionKey (c : Family) (degen : Bool) (a b : List Byte) : List Byte :=
  match c with
  | .des => slice a 0 4 ++ slice b 0 4
  | .tdes2 =>
    if degen then slice a 0 4 ++ slice b 0 4 ++ slice a 0 4 ++ slice b 0 4
    else slice a 0 4 ++ slice b 0 4 ++ slice a 4 8 ++ slice b 4 8
  | .tdes3 => slice a 0 4 ++ slice b 0 4 ++ slice a 6 10 ++ slice b 6 10 ++ slice a 12 16 ++ slice b 12 16
  | .aes128 => slice a 0 4 ++ slice b 0 4 ++ slice a 12 16 ++ slice b 12 16

end Sys2Proof.Machine
end

