-- ==== Sys2Proof/Machine/Cmac.lean ====
section
/-! DEFINITION. Subkeys, message preparation and the MAC (42_cmac.md rules R240 to R242, R244 and R246). -/

namespace Sys2Proof.Machine

/-- A block shifted left by one bit as a number, less the bit shifted out (rule R241). -/
def shiftLeft1 : List Byte → List Byte
  | [] => []
  | [x] => [x <<< 1]
  | x :: y :: b => ((x <<< 1) ||| (y >>> 7)) :: shiftLeft1 (y :: b)

/-- `dbl(x)` for a block of `b` bytes (rule R241). -/
def dbl (b : Nat) (x : List Byte) : List Byte :=
  if (byteAt x 0).msb then xorBytes (shiftLeft1 x) (zeros (b - 1) ++ [rb b]) else shiftLeft1 x

/-- The cryptogram `Lc` of a key (rule R241). -/
def cryptogram (c : Family) (k : List Byte) : List Byte := encBlock c k (zeros (bs c))

/-- The two subkeys of a keychain. -/
structure Subkeys where
  /-- For a full final block. -/
  nopad : List Byte
  /-- For a padded final block. -/
  pad : List Byte
  deriving DecidableEq, Repr

/-- The subkeys of a cryptogram under either value of `CMAC_SUBKEY_ORDER` (rule R242). -/
def subkeysOf (order : SubkeyOrder) (b : Nat) (l : List Byte) : Subkeys :=
  match order with
  | .nist => { nopad := dbl b l, pad := dbl b (dbl b l) }
  | .docLiteral => { nopad := dbl b (dbl b l), pad := dbl b l }

/-- The subkeys FCSE derives from a key (rules R242 and R243). -/
def subkeys (c : Family) (k : List Byte) : Subkeys := subkeysOf Config.cmacSubkeyOrder (bs c) (cryptogram c k)

/-- A message whose final block of `b` bytes is XORed with a subkey (rule R244). -/
def xorLast (b : Nat) (m last : List Byte) : List Byte :=
  m.take (m.length - b) ++ xorBytes (m.drop (m.length - b)) last

/-- The padding after a message of `n` bytes up to the next block boundary: 80, then the fewest zeros (rule R244). -/
def padding (b n : Nat) : List Byte := 0x80 :: zeros ((b - (n + 1) % b) % b)

/-- `prepare(d, T, nopad, pad, b)` (rule R244). -/
def prepare (d : List Byte) (t : Nat) (sk : Subkeys) (b : Nat) : List Byte :=
  if t = 0 then
    if 0 < d.length ∧ d.length % b = 0 then xorLast b d sk.nopad
    else xorLast b (d ++ padding b d.length) sk.pad
  else if d.length = t then xorLast b d sk.nopad
  else xorLast b (d ++ 0x80 :: zeros (t - d.length - 1)) sk.pad

/-- Whether a nonzero target length is legal (rule R245). -/
def legalTarget (t b len : Nat) : Bool := decide (t % b = 0 ∧ b ≤ t ∧ len ≤ t ∧ t ≤ dataBytes)

/-- The MAC bytes of a new chaining value (rule R246). -/
def macOf (iv : List Byte) : List Byte := iv.take 8

end Sys2Proof.Machine
end

