-- ==== Sys2Proof/WellFormed.lean ====
section
/-! DEFINITION. Which commands a command word can hold (30_encoding.md rule R113): the key number of KLOAD is 0 to 13.
CIPH 5 to 7 and a nonzero reserved field cannot be written in `Instr` at all. -/

namespace Sys2Proof

/-- A command that some accepted word encodes: KLOAD's key number is at most 13 (rule R113). -/
def WellFormed : Instr → Bool
  | .kload _ keyno _ => decide (keyno.toNat ≤ 13)
  | .nop | .fencAck | .fencNack | .fencErr | .fencInfo | .fident | .fdec => true
  | .cenc _ | .cdec _ | .cmacb _ | .cmsubk _ | .cmac _ => true
  | .authStart | .authChal | .authFinish | .logout => true

end Sys2Proof
end

