-- ==== Sys2Proof/Decode.lean ====
section
/-! DEFINITION. The decoder of command words (30_encoding.md rules R110 to R115), total on every 32-bit word and
rejecting by name, and after it the encoder (rules R114 and R117). -/

namespace Sys2Proof

/-- Why a word is no command (rules R113 and R115). The word still completes, with the error code of the same name. -/
inductive DecodeError where
  /-- `CMD[7:0]` is not an opcode of rule R112. -/
  | badOpcode
  /-- A field that must be zero is not, CIPH is over 4, or KEYNO is over 13. -/
  | badOperand
  deriving DecidableEq, Repr

/-- Field `OP`, bits 7:0 (rule R110). -/
def opField (w : Word) : Byte := w.extractLsb' 0 8

/-- Field `CIPH`, bits 10:8 (rule R110). -/
def ciphField (w : Word) : BitVec 3 := w.extractLsb' 8 3

/-- Field `KSEL`, bit 11 (rule R110). -/
def kselField (w : Word) : BitVec 1 := w.extractLsb' 11 1

/-- Field `KEYNO`, bits 15:12 (rule R110). -/
def keynoField (w : Word) : BitVec 4 := w.extractLsb' 12 4

/-- Field `ARG`, bits 23:16 (rule R110). -/
def argField (w : Word) : Byte := w.extractLsb' 16 8

/-- The reserved bits 31:24 (rule R110). -/
def topField (w : Word) : Byte := w.extractLsb' 24 8

/-- The cipher type that a CIPH value names (rule R6): none where the value is reserved. -/
def ciphOfField (v : BitVec 3) : Option (Option Family) :=
  match v.toNat with
  | 0 => some none
  | 1 => some (some .des)
  | 2 => some (some .tdes2)
  | 3 => some (some .tdes3)
  | 4 => some (some .aes128)
  | _ => none

/-- The key slot that a KSEL value names (rule R110). -/
def kselOfField (v : BitVec 1) : KeySel := if v = 0 then .ltk else .sess

/-- The checks of format F0 (rule R113): every bit above the opcode is zero. -/
def decodeF0 (w : Word) (i : Instr) : Except DecodeError Instr :=
  if topField w ≠ 0 then .error .badOperand
  else if w.extractLsb' 8 16 ≠ 0 then .error .badOperand
  else .ok i

/-- The checks of format FS (rule R113): only KSEL may be nonzero above the opcode. -/
def decodeFS (w : Word) (i : KeySel → Instr) : Except DecodeError Instr :=
  if topField w ≠ 0 then .error .badOperand
  else if ciphField w ≠ 0 ∨ w.extractLsb' 12 12 ≠ 0 then .error .badOperand
  else .ok (i (kselOfField (kselField w)))

/-- The checks of format FK (rule R113): KSEL is zero, CIPH is at most 4 and KEYNO at most 13. -/
def decodeFK (w : Word) (i : Option Family → BitVec 4 → Byte → Instr) : Except DecodeError Instr :=
  if topField w ≠ 0 then .error .badOperand
  else if kselField w ≠ 0 then .error .badOperand
  else
    match ciphOfField (ciphField w) with
    | none => .error .badOperand
    | some c => if (keynoField w).toNat > 13 then .error .badOperand else .ok (i c (keynoField w) (argField w))

/-- The decoder (rules R112 and R113): the opcode is looked up first, then the reserved bits, then the format's own
checks. -/
def decode (w : Word) : Except DecodeError Instr :=
  match (opField w).toNat with
  | 0x00 => decodeF0 w .nop
  | 0x01 => decodeF0 w .fencAck
  | 0x02 => decodeF0 w .fencNack
  | 0x03 => decodeF0 w .fencErr
  | 0x04 => decodeF0 w .fencInfo
  | 0x08 => decodeF0 w .fident
  | 0x09 => decodeF0 w .fdec
  | 0x10 => decodeFK w .kload
  | 0x11 => decodeFS w .cenc
  | 0x12 => decodeFS w .cdec
  | 0x13 => decodeFS w .cmacb
  | 0x20 => decodeFS w .cmsubk
  | 0x21 => decodeFS w .cmac
  | 0x30 => decodeF0 w .authStart
  | 0x31 => decodeF0 w .authChal
  | 0x32 => decodeF0 w .authFinish
  | 0x33 => decodeF0 w .logout
  | _ => .error .badOpcode

/-- The instruction the decoder reads from a row of the opcode table: a command word is one 32-bit word (rule R116), so the
bits above `nbits` are zero. -/
def decodeTableWord (nbits w : Nat) : Option Instr :=
  match decode (BitVec.ofNat 32 (w % 2 ^ nbits)) with
  | .ok i => some i
  | .error _ => none

/-- The CIPH value of a cipher type (rule R6). -/
def ciphCode : Option Family → BitVec 3
  | none => 0
  | some .des => 1
  | some .tdes2 => 2
  | some .tdes3 => 3
  | some .aes128 => 4

/-- The KSEL value of a key slot (rule R110). -/
def kselCode : KeySel → BitVec 1
  | .ltk => 0
  | .sess => 1

/-- A word of format F0 (rule R114). -/
def encodeF0 (op : Byte) : Word := 0#24 ++ op

/-- A word of format FS (rule R114). -/
def encodeFS (op : Byte) (k : KeySel) : Word := 0#20 ++ kselCode k ++ 0#3 ++ op

/-- A word of format FK (rule R114). -/
def encodeFK (op : Byte) (c : Option Family) (keyno : BitVec 4) (version : Byte) : Word :=
  0#8 ++ version ++ keyno ++ 0#1 ++ ciphCode c ++ op

/-- The command word of an instruction (rules R112, R114 and R117). -/
def encode : Instr → Word
  | .nop => encodeF0 0x00
  | .fencAck => encodeF0 0x01
  | .fencNack => encodeF0 0x02
  | .fencErr => encodeF0 0x03
  | .fencInfo => encodeF0 0x04
  | .fident => encodeF0 0x08
  | .fdec => encodeF0 0x09
  | .kload c keyno version => encodeFK 0x10 c keyno version
  | .cenc k => encodeFS 0x11 k
  | .cdec k => encodeFS 0x12 k
  | .cmacb k => encodeFS 0x13 k
  | .cmsubk k => encodeFS 0x20 k
  | .cmac k => encodeFS 0x21 k
  | .authStart => encodeF0 0x30
  | .authChal => encodeF0 0x31
  | .authFinish => encodeF0 0x32
  | .logout => encodeF0 0x33

/-- The assembler's name of a cipher type (rule R117). -/
def ciphText : Option Family → String
  | none => "NONE"
  | some .des => "DES"
  | some .tdes2 => "2K3DES"
  | some .tdes3 => "3K3DES"
  | some .aes128 => "AES128"

/-- The assembler's name of a key slot (rule R117). -/
def slotText : KeySel → String
  | .ltk => "LTK"
  | .sess => "SESS"

/-- The text of a command (rule R117).  The rule fixes no number base for `<keyno>` and `<version>` and writes 3 and 0x10 in its
example; the model writes both in decimal (DESIGN CHOICE, notes/assumptions/23.md), so that word's text here is
`KLOAD AES128, 3, 16`. -/
def asmText : Instr → String
  | .nop => "NOP"
  | .fencAck => "FENC.ACK"
  | .fencNack => "FENC.NACK"
  | .fencErr => "FENC.ERR"
  | .fencInfo => "FENC.INFO"
  | .fident => "FIDENT"
  | .fdec => "FDEC"
  | .kload c keyno version => "KLOAD " ++ ciphText c ++ ", " ++ toString keyno.toNat ++ ", " ++ toString version.toNat
  | .cenc k => "CENC " ++ slotText k
  | .cdec k => "CDEC " ++ slotText k
  | .cmacb k => "CMACB " ++ slotText k
  | .cmsubk k => "CMSUBK " ++ slotText k
  | .cmac k => "CMAC " ++ slotText k
  | .authStart => "AUTH.START"
  | .authChal => "AUTH.CHAL"
  | .authFinish => "AUTH.FINISH"
  | .logout => "LOGOUT"

end Sys2Proof
end

