-- ==== Sys2Proof/Machine/Ops.lean ====
section
/-! DEFINITION. The shared operations of the machine: reading and writing window bytes, completing a command, failing one (the
one way FCSE takes an "exception", 60_exceptions.md rule R312), ending a handshake, and drawing random bytes. -/

namespace Sys2Proof.Machine

/-- What a byte that memory does not list reads as: 00, the reset value of the small windows (rule R43), and the model's choice
for DATA, FIN and FOUT, whose bytes the spec leaves unspecified after power-on (DESIGN CHOICE, notes/assumptions/1.md). -/
def Memory.unlisted : Byte := 0

/-- The canonical form of memory: offsets strictly rising, and no listed byte equal to an unlisted one. -/
abbrev Memory.wf (m : List Host.Cell) : Prop :=
  m.Pairwise (fun a b => a.1 < b.1) ∧ ∀ c ∈ m, c.2 ≠ Memory.unlisted

/-- The byte at an offset. -/
def readByte : List Host.Cell → Nat → Byte
  | [], _ => Memory.unlisted
  | c :: m, a => if c.1 = a then c.2 else readByte m a

/-- The `n` bytes from an offset on. -/
def readBytes (m : List Host.Cell) (a n : Nat) : List Byte := (List.range n).map fun i => readByte m (a + i)

/-- The cells of a byte string stored from an offset on, less those an unlisted byte already reads as. -/
def cellsOf : Nat → List Byte → List Host.Cell
  | _, [] => []
  | a, x :: b => if x = Memory.unlisted then cellsOf (a + 1) b else (a, x) :: cellsOf (a + 1) b

/-- Memory with a byte string stored from an offset on. -/
def writeBytes (m : List Host.Cell) (a : Nat) (b : List Byte) : List Host.Cell :=
  m.filter (fun c => decide (c.1 < a)) ++ cellsOf a b ++ m.filter (fun c => decide (a + b.length ≤ c.1))

/-- `Win(w)[off .. off + n)` (rule R10). -/
def State.window (s : State) (w : Window) (off n : Nat) : List Byte := readBytes s.mem (w.base + off) n

/-- `Win(w)[off .. off + |b|) <- b` (rule R10). -/
def State.setWindow (s : State) (w : Window) (off : Nat) (b : List Byte) : State :=
  { s with mem := writeBytes s.mem (w.base + off) b }

/-- The successful completion of a command (rules R42 and R88): its four results, and STATUS. -/
def succeed (s : State) (r0 r1 r2 r3 : Word) : State :=
  { s with
    busy := false
    done := true
    err := false
    errCode := .ok
    res0 := r0
    res1 := r1
    res2 := r2
    res3 := r3 }

/-- The failing completion of a command, `fail(code)` (rule R312): `need` is what RES1 reports, 0 but for
FRAME_TRUNCATED. -/
def fail (s : State) (code : ErrCode) (need : Nat := 0) : State :=
  { s with
    busy := false
    done := true
    err := true
    errCode := code
    res0 := 0
    res1 := wordOf need
    res2 := 0
    res3 := 0 }

/-- Invalidation of the keychain (rule R46). -/
def invalidateKeychain (s : State) : State :=
  ({ s with keychain := none }.setWindow .subkPad 0 (zeros 16)).setWindow .subkNopad 0 (zeros 16)

/-- Whether the keychain is valid and was derived from a given slot. -/
def keychainOf (s : State) (k : KeySel) : Bool :=
  match s.keychain with
  | some c => decide (c.slot = k)
  | none => false

/-- Invalidation of the keychain where it was derived from a given slot (rules R202 and R272). -/
def invalidateSlot (s : State) (k : KeySel) : State := if keychainOf s k then invalidateKeychain s else s

/-- `logout()` (rule R272). It leaves AUTH_STATE, the long-term key, a slot-0 keychain, AC_TX and AC_RX alone. -/
def logout (s : State) : State :=
  { invalidateSlot (({ s with session := none }.setWindow .sessKey 0 (zeros 24)).setWindow .iv 0 (zeros 16)) .sess with
    hidden := Handshake.clear }

/-- `handshake_abort()` (rule R275). -/
def handshakeAbort (s : State) : State := { logout s with authState := .failed }

/-- `auth_fail(code)` (rule R275). -/
def authFail (s : State) (code : ErrCode) : State := fail (handshakeAbort s) code

/-- The bytes of `draw_rng(n)` (rule R324): the next of the listed random bytes, and free bytes past their end (DESIGN CHOICE,
notes/assumptions/3.md). -/
def drawnBytes (s : State) (n : Nat) : List Byte :=
  (List.range n).map fun i => s.env.entropy.getD i (Config.randomByte s.env.draws i)

/-- The state after `draw_rng(n)` (rule R324): the listed bytes are used up. -/
def afterDraw (s : State) (n : Nat) : State :=
  { s with env := { s.env with entropy := s.env.entropy.drop n, draws := s.env.draws + 1 } }

/-- Storing subkeys (rules R243 and R278): the keychain's record and the two windows, each filled up with zeros. -/
def installKeychain (s : State) (slot : KeySel) (b : Nat) (nopad pad : List Byte) : State :=
  ({ s with keychain := some { slot := slot, bs := BitVec.ofNat 5 b } }.setWindow .subkNopad 0 (padTo 16 nopad)).setWindow
    .subkPad 0 (padTo 16 pad)

end Sys2Proof.Machine
end

