-- ==== Sys2Proof/Machine/Flags.lean ====
section
/-! DEFINITION. The values registers read as (10_state.md rules R31 to R42), the STATUS bits' own rules (R36, R88, R271), and the
interrupt output (60_exceptions.md rule R318). -/

namespace Sys2Proof.Machine

/-- `ID` (rule R31): "FCSE". -/
def idValue : Word := 0x46435345

/-- `VERSION` (rule R32). -/
def versionValue : Word := 0x00000001

/-- `CTRL` as read (rule R33): SRST and the reserved bits read 0. -/
def ctrlValue (s : State) : Word := 0#31 ++ BitVec.ofBool s.irqEn

/-- `STATUS.LTK_DEGEN` (rule R35). -/
def ltkDegen (s : State) : Bool := match s.ltk with | some k => k.degen | none => false

/-- `STATUS.SESS_DEGEN` (rule R35). -/
def sessDegen (s : State) : Bool := match s.session with | some k => k.degen | none => false

/-- `STATUS.SUBK_SLOT` (rule R35). -/
def subkSlot (s : State) : BitVec 1 := match s.keychain with | some k => slotCode k.slot | none => 0

/-- `STATUS` as read (rule R35), from bit 31 down. -/
def statusValue (s : State) : Word :=
  0#2 ++ subkSlot s ++ BitVec.ofBool (sessDegen s) ++ BitVec.ofBool (ltkDegen s) ++ BitVec.ofBool s.keychain.isSome
    ++ BitVec.ofBool s.session.isSome ++ BitVec.ofBool s.ltk.isSome ++ 0#5 ++ s.authState.code ++ s.errCode.code ++ 0#4
    ++ BitVec.ofBool s.cmdOvr ++ BitVec.ofBool s.err ++ BitVec.ofBool s.done ++ BitVec.ofBool s.busy

/-- `LTK_INFO` as read (rule R39): 0 where no key is held. -/
def ltkInfoValue (s : State) : Word :=
  match s.ltk with
  | some k => 0#16 ++ k.version ++ k.keyno ++ 0#1 ++ ciphCode (some k.ciph)
  | none => 0

/-- `SESS_INFO` as read (rule R40): 0 where no session is installed. -/
def sessInfoValue (s : State) : Word :=
  match s.session with
  | some k => 0#24 ++ k.keyno ++ 0#1 ++ ciphCode (some k.ciph)
  | none => 0

/-- `SUBK_INFO` as read (rule R41): 0 where the keychain is not valid. -/
def subkInfoValue (s : State) : Word :=
  match s.keychain with
  | some k => 0#27 ++ k.bs
  | none => 0

/-- A register as read while no command runs (rules R30 to R42); reserved bits read 0 (rule R87). -/
def regValue (s : State) : Reg → Word
  | .id => idValue
  | .version => versionValue
  | .ctrl => ctrlValue s
  | .cmd => s.cmd
  | .status => statusValue s
  | .oplen => s.oplen.setWidth 32
  | .opoff => s.opoff.setWidth 32
  | .opaux => s.opaux.setWidth 32
  | .frhdr => s.frhdr.setWidth 32
  | .ltkInfo => ltkInfoValue s
  | .sessInfo => sessInfoValue s
  | .subkInfo => subkInfoValue s
  | .res0 => s.res0
  | .res1 => s.res1
  | .res2 => s.res2
  | .res3 => s.res3

/-- The interrupt output `IRQ` (rule R318). -/
def irq (s : State) : Bool := s.irqEn && s.done

/-- A write to STATUS (rule R36): DONE, ERR and CMD_OVR are cleared where written as 1. -/
def clearW1C (s : State) (v : Word) : State :=
  { s with
    done := s.done && !v.getLsbD 1
    err := s.err && !v.getLsbD 2
    cmdOvr := s.cmdOvr && !v.getLsbD 3 }

/-- `STATUS.AUTH_STATE` at the issue of a word (rules R88 and R271): the two transient values are set only where the decode
checks pass. -/
def issueAuthState (w : Word) (a : AuthState) : AuthState :=
  match decode w with
  | .ok .authStart => .challengeSent
  | .ok .authFinish => if a = .responseSent then .verifying else a
  | _ => a

/-- The operand copies latched at the issue of a word (rule R88). -/
def latchOperands (s : State) (w : Word) : Latch where
  cmd := w
  oplen := s.oplen
  opoff := s.opoff
  opaux := s.opaux
  tfi := s.frhdr.extractLsb' 0 8
  fcmd := s.frhdr.extractLsb' 8 8

/-- The issue of a command word, for a command that completes after `delay` host steps (rule R88). -/
def issueWith (s : State) (w : Word) (delay : Nat) : State :=
  { s with
    cmd := w
    latch := latchOperands s w
    busy := true
    done := false
    err := false
    errCode := .ok
    authState := issueAuthState w s.authState
    countdown := delay }

/-- The issue of a command word (rule R88): the environment's schedule says when it completes (rule R361; DESIGN CHOICE,
notes/assumptions/4.md). -/
def issue (s : State) (w : Word) : State :=
  let t := issueWith s w (s.env.schedule.headD 0)
  { t with env := { t.env with schedule := t.env.schedule.tail } }

/-- The error code of a word that is no command (rule R113). -/
def decodeErrCode : DecodeError → ErrCode
  | .badOpcode => .badOpcode
  | .badOperand => .badOperand

/-- The completion of a word that is no command (rules R113 and R311). -/
def rejectWord (s : State) (e : DecodeError) : State := fail s (decodeErrCode e)

end Sys2Proof.Machine
end

