-- ==== Sys2Proof/Machine/Frame.lean ====
section
/-! DEFINITION. The frames: their layouts and checksums (40_frame_codec.md rules R140 to R142), the header parse (R147), the
full parse (R149) and the frame result word (R148). -/

namespace Sys2Proof.Machine

/-- The kinds of frame a result reports (rule R148). -/
inductive FrameKind where
  | ack
  | nack
  | error
  | info
  /-- A frame with a length field, not yet told apart as INFO or ERROR: FIDENT only. -/
  | data
  deriving DecidableEq, Repr

/-- `kindcode` (rule R148). -/
def kindCode : FrameKind → BitVec 3
  | .ack => 1
  | .nack => 2
  | .error => 3
  | .info => 4
  | .data => 5

/-- RES0 of the frame result word (rule R148), from bit 31 down. -/
def frameWord (kind : FrameKind) (ext pre : Bool) (tfi fcmd : Byte) : Word :=
  0#8 ++ fcmd ++ tfi ++ 0#3 ++ BitVec.ofBool pre ++ BitVec.ofBool ext ++ kindCode kind

/-- The ACK frame (rules R141 and R143). -/
def ackFrame : List Byte := [0x00, 0x00, 0xFF, 0x00, 0xFF, 0x00]

/-- The NACK frame (rules R141 and R144). -/
def nackFrame : List Byte := [0x00, 0x00, 0xFF, 0xFF, 0x00, 0x00]

/-- The Error frame (rules R141 and R146). -/
def errFrame : List Byte := [0x00, 0x00, 0xFF, 0x01, 0xFF, 0x7F, 0x81, 0x00]

/-- `DCS` of a data field (rule R142). -/
def dataChecksum (d : List Byte) : Byte := negMod256 (sumBytes d)

/-- Whether an Info frame of a payload of `k` bytes takes the extended form (rule R141). -/
def extendedForm (k : Nat) : Bool := decide (253 < k)

/-- The preamble, the start code and the length field of an Info frame of a payload of `k` bytes (rules R141 and R145). -/
def infoHeader (k : Nat) : List Byte :=
  let l := k + 2
  if extendedForm k then
    [0x00, 0x00, 0xFF, 0xFF, 0xFF, BitVec.ofNat 8 (l / 256), BitVec.ofNat 8 (l % 256), negMod256 (l / 256 + l % 256)]
  else [0x00, 0x00, 0xFF, BitVec.ofNat 8 l, negMod256 l]

/-- An Info frame (rules R141 and R145). -/
def infoFrame (tfi fcmd : Byte) (p : List Byte) : List Byte :=
  infoHeader p.length ++ (tfi :: fcmd :: p) ++ [dataChecksum (tfi :: fcmd :: p), 0x00]

/-- What a parse answers (rules R147 and R149). -/
inductive Parse (α : Type) where
  | truncated (need : Nat)
  | err (code : ErrCode)
  | ok (a : α)
  deriving DecidableEq, Repr

/-- `Hdr{kind, s, p, ext, L, hdr, total}` (rule R147). -/
structure Header where
  kind : FrameKind
  start : Nat
  pre : Bool
  ext : Bool
  len : Nat
  hdr : Nat
  total : Nat
  deriving DecidableEq, Repr

/-- The first start code `00 FF` (rule R147). -/
def findStart : List Byte → Option Nat
  | [] => none
  | [_] => none
  | x :: y :: b => if x = 0x00 ∧ y = 0xFF then some 0 else (findStart (y :: b)).map (· + 1)

/-- The header of a frame whose length field is read: `L = 0` is no frame (rule R147). -/
def lengthHeader (s : Nat) (p ext : Bool) (l hdr : Nat) : Parse Header :=
  if l = 0 then .err .frameBadCode
  else .ok { kind := .data, start := s, pre := p, ext := ext, len := l, hdr := hdr, total := hdr + l + 1 + p.toNat }

/-- `parse_header(b, n)`, with `n` the length of `b` (rule R147). -/
def parseHeader (b : List Byte) : Parse Header :=
  match findStart b with
  | none => .truncated (max 2 (b.length + 1))
  | some s =>
    let p := decide (0 < s)
    if b.length < s + 4 then .truncated (s + 4)
    else
      let c0 := byteAt b (s + 2)
      let c1 := byteAt b (s + 3)
      if c0 = 0x00 ∧ c1 = 0xFF then
        .ok { kind := .ack, start := s, pre := p, ext := false, len := 0, hdr := s + 4, total := s + 4 + p.toNat }
      else if c0 = 0xFF ∧ c1 = 0x00 then
        .ok { kind := .nack, start := s, pre := p, ext := false, len := 0, hdr := s + 4, total := s + 4 + p.toNat }
      else if c0 = 0xFF ∧ c1 = 0xFF then
        if b.length < s + 7 then .truncated (s + 7)
        else if ((byteAt b (s + 4)).toNat + (byteAt b (s + 5)).toNat + (byteAt b (s + 6)).toNat) % 256 ≠ 0 then
          .err .frameLenChecksum
        else lengthHeader s p true (256 * (byteAt b (s + 4)).toNat + (byteAt b (s + 5)).toNat) (s + 7)
      else if (c0.toNat + c1.toNat) % 256 ≠ 0 then .err .frameLenChecksum
      else lengthHeader s p false c0.toNat (s + 4)

/-- `Frame{kind, s, p, ext, L, total, tfi, fcmd, payload}` (rule R149). -/
structure Frame where
  kind : FrameKind
  start : Nat
  pre : Bool
  ext : Bool
  len : Nat
  total : Nat
  tfi : Byte
  fcmd : Byte
  payload : List Byte
  deriving DecidableEq, Repr

/-- A frame of a header that carries no TFI, FCMD or payload: ACK, NACK and ERROR (rule R149). -/
def plainFrame (h : Header) (kind : FrameKind) : Frame :=
  { kind := kind, start := h.start, pre := h.pre, ext := h.ext, len := h.len, total := h.total, tfi := 0, fcmd := 0,
    payload := [] }

/-- Whether the postamble byte at `i` is wrong: it is checked only where a preamble was present (rule R149). -/
def badPostamble (b : List Byte) (h : Header) (i : Nat) : Bool := h.pre && decide (byteAt b i ≠ 0x00)

/-- The parse of a whole frame with a length field (rule R149). -/
def parseData (b : List Byte) (h : Header) : Parse Frame :=
  let d := (b.drop h.hdr).take h.len
  if (sumBytes d + (byteAt b (h.hdr + h.len)).toNat) % 256 ≠ 0 then .err .frameDataChecksum
  else if badPostamble b h (h.hdr + h.len + 1) then .err .frameBadPostamble
  else if h.len = 1 then if byteAt d 0 = 0x7F then .ok (plainFrame h .error) else .err .frameBadCode
  else
    .ok { kind := .info, start := h.start, pre := h.pre, ext := h.ext, len := h.len, total := h.total,
          tfi := byteAt d 0, fcmd := byteAt d 1, payload := d.drop 2 }

/-- `parse_frame(b, n)`, with `n` the length of `b` (rule R149). -/
def parseFrame (b : List Byte) : Parse Frame :=
  match parseHeader b with
  | .truncated need => .truncated need
  | .err code => .err code
  | .ok h =>
    if b.length < h.total then .truncated h.total
    else
      match h.kind with
      | .ack => if badPostamble b h (h.start + 4) then .err .frameBadPostamble else .ok (plainFrame h .ack)
      | .nack => if badPostamble b h (h.start + 4) then .err .frameBadPostamble else .ok (plainFrame h .nack)
      | .error => parseData b h
      | .info => parseData b h
      | .data => parseData b h

end Sys2Proof.Machine
end

