-- ==== Sys2Proof/Machine/Operands.lean ====
section
/-! DEFINITION. The operands of the commands: what each reads from the latched copies, the key slots and the windows, with the
checks it makes on the way, in the order of 60_exceptions.md rule R315.  Both the meanings and the account of what a running
command may write (Machine/Outputs.lean) use them. -/

namespace Sys2Proof.Machine

/-- The latched OPLEN (rule R111). -/
def opLen (s : State) : Nat := s.latch.oplen.toNat

/-- The latched OPOFF (rule R111). -/
def opOff (s : State) : Nat := s.latch.opoff.toNat

/-- The latched OPAUX (rule R111). -/
def opAux (s : State) : Nat := s.latch.opaux.toNat

/-- A key as the commands use it. -/
structure KeyRef where
  fam : Family
  key : List Byte
  deriving DecidableEq, Repr

/-- The key bytes of the long-term slot: `LTK_KEY[0 .. klen)` (rule R204). -/
def ltkKeyBytes (s : State) (c : Family) : List Byte := s.window .ltkKey 0 (klen c)

/-- The key bytes of the session slot: `SESS_KEY[0 .. klen)` (rule R204). -/
def sessKeyBytes (s : State) (c : Family) : List Byte := s.window .sessKey 0 (klen c)

/-- `key_of(KSEL)` (rule R204): none is NO_KEY. -/
def keyOf (s : State) (k : KeySel) : Option KeyRef :=
  match k with
  | .ltk => s.ltk.map fun l => { fam := l.ciph, key := ltkKeyBytes s l.ciph }
  | .sess => s.session.map fun l => { fam := l.ciph, key := sessKeyBytes s l.ciph }

/-- The payload range of FENC.INFO (rule R145): its length is checked before its place. -/
def infoOperands (s : State) : Except ErrCode (List Byte) :=
  if opLen s > maxPayload then .error .frameTooLong
  else if opOff s + opLen s > dataBytes then .error .badOperand
  else .ok (s.window .data (opOff s) (opLen s))

/-- The received bytes of FIDENT and FDEC (rules R148 and R150): `FIN[0 .. OPLEN)`. -/
def received (s : State) : List Byte := s.window .fin 0 (opLen s)

/-- What CENC, CDEC and CMACB work on (rules R208, R209 and R211). -/
structure ChainInput where
  ref : KeyRef
  iv : List Byte
  data : List Byte
  deriving DecidableEq, Repr

/-- The operands of CENC, CDEC and CMACB: key slot, range, block length (rules R208, R209, R211 and R315). -/
def chainOperands (s : State) (k : KeySel) : Except ErrCode ChainInput :=
  match keyOf s k with
  | none => .error .noKey
  | some r =>
    if opOff s + opLen s > dataBytes then .error .badOperand
    else if opLen s % bs r.fam ≠ 0 then .error .badBlockLength
    else .ok { ref := r, iv := s.window .iv 0 (bs r.fam), data := s.window .data (opOff s) (opLen s) }

/-- The number of blocks of a chain's data. -/
def ChainInput.blocks (x : ChainInput) : Nat := x.data.length / bs x.ref.fam

/-- What CMAC works on (rule R247): the key, the chaining value, and the prepared message. -/
structure CmacInput where
  ref : KeyRef
  iv : List Byte
  msg : List Byte
  deriving DecidableEq, Repr

/-- The operands of CMAC: key slot, keychain, range, target (rules R247 and R315). -/
def cmacOperands (s : State) (k : KeySel) : Except ErrCode CmacInput :=
  match keyOf s k with
  | none => .error .noKey
  | some r =>
    if keychainOf s k = false then .error .noSubkeys
    else if opOff s + opLen s > dataBytes then .error .badOperand
    else if opAux s ≠ 0 ∧ legalTarget (opAux s) (bs r.fam) (opLen s) = false then .error .badTargetLength
    else
      .ok { ref := r, iv := s.window .iv 0 (bs r.fam),
            msg := prepare (s.window .data (opOff s) (opLen s)) (opAux s)
              { nopad := s.window .subkNopad 0 (bs r.fam), pad := s.window .subkPad 0 (bs r.fam) } (bs r.fam) }

/-- What AUTH.CHAL works on (rule R276): the long-term key and the card's encrypted challenge. -/
structure AnswerInput where
  ltk : LongTermKey
  key : List Byte
  answer : List Byte
  deriving DecidableEq, Repr

/-- The checks that AUTH.CHAL and AUTH.FINISH make on the card's answer (rules R276, R277 and R315): range, empty answer, status,
length.  The long-term slot is never empty here in a state a run reaches (rule R276); where it is, the model answers NO_KEY
(DESIGN CHOICE, notes/assumptions/9.md). -/
def answerOperands (s : State) (status : Byte) (n : Family → Nat) : Except ErrCode AnswerInput :=
  if opLen s > acBufBytes then .error .badOperand
  else if opLen s < 1 then .error .authBadLength
  else
    match s.ltk with
    | none => .error .noKey
    | some l =>
      if byteAt (s.window .acRx 0 (opLen s)) (opLen s - 1) ≠ status then .error .authBadStatus
      else if opLen s - 1 ≠ n l.ciph then .error .authBadLength
      else .ok { ltk := l, key := ltkKeyBytes s l.ciph, answer := s.window .acRx 0 (n l.ciph) }

/-- The operands of AUTH.CHAL: state, then the answer (rule R276). -/
def chalOperands (s : State) : Except ErrCode AnswerInput :=
  if s.authState ≠ .awaitingChallenge then .error .authBadState else answerOperands s contCmd challengeLen

/-- The operands of AUTH.FINISH: state, the answer, then the comparison of the decrypted reply with `rotl1(RndA)` (rule
R277). -/
def finishOperands (s : State) : Except ErrCode AnswerInput :=
  if s.authState ≠ .verifying then .error .authBadState
  else
    match answerOperands s statusOk fun _ => s.hidden.n with
    | .error code => .error code
    | .ok x =>
      let c := x.ltk.ciph
      let d := (cbcDec c x.key (s.hidden.n / bs c) (s.hidden.civ.take (bs c)) x.answer).out
      if d ≠ rotl1 (s.hidden.rnda.take s.hidden.n) then .error .authMismatch else .ok x

end Sys2Proof.Machine
end

