-- ==== Sys2Proof/Machine/AuthController.lean ====
section
/-! DEFINITION. The Authentication Controller: AUTH.START, AUTH.CHAL, AUTH.FINISH and LOGOUT (43_auth.md rules R272 to
R279). -/

namespace Sys2Proof.Machine

/-- AUTH.START (rule R273): a logout, then the authenticate command for the card, or NO_KEY. -/
def execAuthStart (s : State) : StepResult :=
  let t := logout s
  match t.ltk with
  | none => .next (fail { t with authState := .failed } .noKey)
  | some l =>
    .next (succeed { t.setWindow .acTx 0 [authCmd l.ciph, 0#4 ++ l.keyno] with authState := .awaitingChallenge } 0 2 0 0)

/-- The hidden record that AUTH.CHAL leaves (rule R276). -/
def handshakeRecord (n : Nat) (rnda rndb civ : List Byte) : Handshake :=
  { n := n, rnda := padTo 16 rnda, rndb := padTo 16 rndb, civ := padTo 16 civ }

/-- The successful end of AUTH.CHAL for the challenge `rnda` drawn (rule R276): the response for the card, and the hidden
record. -/
def answerChallenge (s : State) (x : AnswerInput) (rnda : List Byte) : State :=
  let c := x.ltk.ciph
  let n := challengeLen c
  let rb := cbcDec c x.key (n / bs c) (zeros (bs c)) x.answer
  let r := cbcEnc c x.key (2 * n / bs c) rb.iv (rnda ++ rotl1 rb.out)
  succeed
    { s.setWindow .acTx 0 (contCmd :: r.out) with
      hidden := handshakeRecord n rnda rb.out r.iv
      authState := .responseSent } 0 (wordOf (1 + 2 * n)) 0 0

/-- AUTH.CHAL (rule R276): the random source is drawn once, and only on the path that succeeds. -/
def execAuthChal (s : State) : StepResult :=
  match chalOperands s with
  | .error code => .next (authFail s code)
  | .ok x =>
    let n := challengeLen x.ltk.ciph
    .next (answerChallenge (afterDraw s n) x (drawnBytes s n))

/-- The session key derived from the hidden record and the long-term key's degeneracy (rule R278). -/
def sessionKey (s : State) (l : LongTermKey) : List Byte :=
  deriveSessionKey l.ciph l.degen (s.hidden.rnda.take s.hidden.n) (s.hidden.rndb.take s.hidden.n)

/-- The fresh keychain of the session, for the families that use one (rule R278). -/
def sessionKeychain (s : State) (c : Family) (sk : List Byte) : State :=
  if usesKeychain c then installKeychain s .sess (bs c) (subkeys c sk).nopad (subkeys c sk).pad else s

/-- `install_session` (rule R278). -/
def installSession (s : State) (l : LongTermKey) : State :=
  let sk := sessionKey s l
  let t := ({ s with session := some { ciph := l.ciph, keyno := l.keyno, degen := l.degen } }.setWindow .sessKey 0
    (padTo 24 sk)).setWindow .iv 0 (zeros 16)
  { sessionKeychain t l.ciph sk with hidden := Handshake.clear }

/-- AUTH.FINISH (rule R277). -/
def execAuthFinish (s : State) : StepResult :=
  match finishOperands s with
  | .error code => .next (authFail s code)
  | .ok x => .next (succeed { installSession s x.ltk with authState := .authenticated } 0 0 0 0)

/-- LOGOUT (rule R279). -/
def execLogout (s : State) : StepResult := .next (succeed { logout s with authState := .idle } 0 0 0 0)

end Sys2Proof.Machine
end

