-- ==== Sys2Proof/Machine/CipherUnit.lean ====
section
/-! DEFINITION. The Cipher unit: KLOAD, CENC, CDEC and CMACB (41_cipher.md rules R202, R208, R209 and R211). -/

namespace Sys2Proof.Machine

/-- KLOAD's abort of a handshake in progress (rules R202 and R275). -/
def abortHandshake (s : State) : State :=
  if s.authState = .awaitingChallenge ∨ s.authState = .responseSent then handshakeAbort s else s

/-- The long-term slot with a key of family `c` from the KEY window (rule R202). -/
def loadKey (s : State) (c : Family) (keyno : BitVec 4) (version : Byte) : State :=
  let k := s.window .key 0 (klen c)
  { s with ltk := some { ciph := c, keyno := keyno, version := version, degen := degenerate c k } }.setWindow .ltkKey 0
    (padTo 24 k)

/-- The emptied long-term slot (rule R202). -/
def clearKey (s : State) : State := { s with ltk := none }.setWindow .ltkKey 0 (zeros 24)

/-- KLOAD (rule R202): it never fails after the decode checks. -/
def execKload (ciph : Option Family) (keyno : BitVec 4) (version : Byte) (s : State) : StepResult :=
  let t := invalidateSlot (abortHandshake s) .ltk
  match ciph with
  | none => .next (succeed (clearKey t) 0 0 0 0)
  | some c => .next (succeed (loadKey t c keyno version) 0 (wordOf (klen c)) 0 0)

/-- CENC (rule R208): in place, and the new chaining value in IV. -/
def execCenc (ksel : KeySel) (s : State) : StepResult :=
  match chainOperands s ksel with
  | .error code => .next (fail s code)
  | .ok x =>
    let r := cbcEnc x.ref.fam x.ref.key x.blocks x.iv x.data
    .next (succeed ((s.setWindow .data (opOff s) r.out).setWindow .iv 0 r.iv) 0 (wordOf (opLen s)) 0 0)

/-- CDEC (rule R209): in place, and the last ciphertext block in IV. -/
def execCdec (ksel : KeySel) (s : State) : StepResult :=
  match chainOperands s ksel with
  | .error code => .next (fail s code)
  | .ok x =>
    let r := cbcDec x.ref.fam x.ref.key x.blocks x.iv x.data
    .next (succeed ((s.setWindow .data (opOff s) r.out).setWindow .iv 0 r.iv) 0 (wordOf (opLen s)) 0 0)

/-- CMACB (rule R211): only IV is written. -/
def execCmacb (ksel : KeySel) (s : State) : StepResult :=
  match chainOperands s ksel with
  | .error code => .next (fail s code)
  | .ok x =>
    .next (succeed (s.setWindow .iv 0 (cbcMac x.ref.fam x.ref.key x.blocks x.iv x.data)) 0 (wordOf (opLen s)) 0 0)

end Sys2Proof.Machine
end

