-- ==== Sys2Proof/Machine/CmacEngine.lean ====
section
/-! DEFINITION. The CMAC engine: CMSUBK and CMAC (42_cmac.md rules R243 and R247). -/

namespace Sys2Proof.Machine

/-- CMSUBK (rule R243): it replaces any earlier keychain, of either slot. -/
def execCmsubk (ksel : KeySel) (s : State) : StepResult :=
  match keyOf s ksel with
  | none => .next (fail s .noKey)
  | some r =>
    let sk := subkeys r.fam r.key
    .next (succeed (installKeychain s ksel (bs r.fam) sk.nopad sk.pad) 0 (wordOf (bs r.fam)) 0 0)

/-- CMAC (rule R247): DATA is not modified; IV keeps running, and MAC holds the first 8 bytes of it. -/
def execCmac (ksel : KeySel) (s : State) : StepResult :=
  match cmacOperands s ksel with
  | .error code => .next (fail s code)
  | .ok x =>
    let iv := cbcMac x.ref.fam x.ref.key (x.msg.length / bs x.ref.fam) x.iv x.msg
    .next (succeed ((s.setWindow .iv 0 iv).setWindow .mac 0 (macOf iv ++ zeros 8)) 0 8 (wordOf x.msg.length) 0)

end Sys2Proof.Machine
end

