-- ==== Sys2Proof/Machine/Engine.lean ====
section
/-! DEFINITION. NOP (60_exceptions.md rule R319). -/

namespace Sys2Proof.Machine

/-- NOP completes and changes nothing else (rule R319). -/
def execNop (s : State) : StepResult := .next (succeed s 0 0 0 0)

end Sys2Proof.Machine
end

