-- ==== Sys2Proof/Machine/FrameCodec.lean ====
section
/-! DEFINITION. The Frame Codec unit: FENC.ACK, FENC.NACK, FENC.ERR, FENC.INFO, FIDENT and FDEC (40_frame_codec.md rules R143 to
R150). -/

namespace Sys2Proof.Machine

/-- An encoded frame in FOUT from offset 0, and its results (rules R143 to R146): the rest of FOUT is unchanged. -/
def emitFrame (s : State) (f : List Byte) (r0 : Word) (l : Nat) : State :=
  succeed (s.setWindow .fout 0 f) r0 (wordOf f.length) (wordOf l) 1

/-- FENC.ACK (rule R143). -/
def execFencAck (s : State) : StepResult := .next (emitFrame s ackFrame (frameWord .ack false true 0 0) 0)

/-- FENC.NACK (rule R144). -/
def execFencNack (s : State) : StepResult := .next (emitFrame s nackFrame (frameWord .nack false true 0 0) 0)

/-- FENC.ERR (rule R146). -/
def execFencErr (s : State) : StepResult := .next (emitFrame s errFrame (frameWord .error false true 0 0) 1)

/-- FENC.INFO (rule R145). -/
def execFencInfo (s : State) : StepResult :=
  match infoOperands s with
  | .error code => .next (fail s code)
  | .ok p =>
    .next (emitFrame s (infoFrame s.latch.tfi s.latch.fcmd p)
      (frameWord .info (extendedForm p.length) true s.latch.tfi s.latch.fcmd) (p.length + 2))

/-- FIDENT (rule R148): what the bytes received so far say of the frame. -/
def execFident (s : State) : StepResult :=
  match parseHeader (received s) with
  | .truncated need => .next (fail s .frameTruncated need)
  | .err code => .next (fail s code)
  | .ok h => .next (succeed s (frameWord h.kind h.ext h.pre 0 0) (wordOf h.total) (wordOf h.len) (wordOf h.start))

/-- The results of a decoded frame (rule R150). -/
def decodedResults (s : State) (f : Frame) : State :=
  succeed s (frameWord f.kind f.ext f.pre f.tfi f.fcmd) (wordOf f.total) (wordOf f.len) (wordOf f.start)

/-- FDEC (rule R150): only an INFO frame writes DATA. -/
def execFdec (s : State) : StepResult :=
  match parseFrame (received s) with
  | .truncated need => .next (fail s .frameTruncated need)
  | .err code => .next (fail s code)
  | .ok f =>
    if f.kind = .info then .next (decodedResults (s.setWindow .data 0 f.payload) f) else .next (decodedResults s f)

end Sys2Proof.Machine
end

