-- ==== Sys2Proof/Machine/Dispatch.lean ====
section
/-! DEFINITION. The completion step of each command (20_memory.md rule R88): one arm per constructor of Instr. -/

namespace Sys2Proof.Machine

def exec (i : Instr) (s : State) : Host.Outcome State Fault Refusal :=
  match i with
  | .nop => Sys2Proof.Machine.execNop s
  | .fencAck => Sys2Proof.Machine.execFencAck s
  | .fencNack => Sys2Proof.Machine.execFencNack s
  | .fencErr => Sys2Proof.Machine.execFencErr s
  | .fencInfo => Sys2Proof.Machine.execFencInfo s
  | .fident => Sys2Proof.Machine.execFident s
  | .fdec => Sys2Proof.Machine.execFdec s
  | .kload c k v => Sys2Proof.Machine.execKload c k v s
  | .cenc k => Sys2Proof.Machine.execCenc k s
  | .cdec k => Sys2Proof.Machine.execCdec k s
  | .cmacb k => Sys2Proof.Machine.execCmacb k s
  | .cmsubk k => Sys2Proof.Machine.execCmsubk k s
  | .cmac k => Sys2Proof.Machine.execCmac k s
  | .authStart => Sys2Proof.Machine.execAuthStart s
  | .authChal => Sys2Proof.Machine.execAuthChal s
  | .authFinish => Sys2Proof.Machine.execAuthFinish s
  | .logout => Sys2Proof.Machine.execLogout s

end Sys2Proof.Machine
end

