-- ==== Sys2Proof/Machine/Outputs.lean ====
section
/-! DEFINITION. Which window bytes and which registers a command may write: what a host read returns unspecified values for
while it runs (20_memory.md rule R90, 70_reset_and_hazards.md rule R357), and which bytes a soft reset that abandons it leaves
unspecified (rule R362). -/

namespace Sys2Proof.Machine

/-- A run of window bytes: its first offset from `FCSE_BASE`, and how many. -/
structure Range where
  start : Nat
  count : Nat
  deriving DecidableEq, Repr

/-- Whether an offset lies in a range. -/
def Range.has (r : Range) (a : Nat) : Bool := decide (r.start ≤ a ∧ a < r.start + r.count)

/-- `w[off .. off + n)`. -/
def Window.range (w : Window) (off n : Nat) : Range := { start := w.base + off, count := n }

/-- A whole window. -/
def Window.whole (w : Window) : Range := w.range 0 w.size

/-- What an invalidation of the keychain writes, where it was derived from a given slot (rule R46). -/
def slotOutputs (s : State) (k : KeySel) : List Range :=
  if keychainOf s k then [Window.subkPad.whole, Window.subkNopad.whole] else []

/-- What a logout writes (rule R272). -/
def logoutOutputs (s : State) : List Range := [Window.sessKey.whole, Window.iv.whole] ++ slotOutputs s .sess

/-- What KLOAD writes (rule R202). -/
def kloadOutputs (s : State) : List Range :=
  Window.ltkKey.whole ::
    (slotOutputs s .ltk ++
      (if s.authState = .awaitingChallenge ∨ s.authState = .responseSent then logoutOutputs s else []))

/-- What CENC and CDEC write (rules R208 and R209). -/
def chainOutputs (s : State) (k : KeySel) : List Range :=
  match chainOperands s k with
  | .error _ => []
  | .ok x => [Window.data.range (opOff s) (opLen s), Window.iv.range 0 (bs x.ref.fam)]

/-- What CMACB writes (rule R211). -/
def macbOutputs (s : State) (k : KeySel) : List Range :=
  match chainOperands s k with
  | .error _ => []
  | .ok x => [Window.iv.range 0 (bs x.ref.fam)]

/-- What CMSUBK writes (rule R243). -/
def cmsubkOutputs (s : State) (k : KeySel) : List Range :=
  match keyOf s k with
  | none => []
  | some _ => [Window.subkPad.whole, Window.subkNopad.whole]

/-- What CMAC writes (rule R247). -/
def cmacOutputs (s : State) (k : KeySel) : List Range :=
  match cmacOperands s k with
  | .error _ => []
  | .ok x => [Window.iv.range 0 (bs x.ref.fam), Window.mac.whole]

/-- What FENC.INFO writes (rule R145). -/
def infoOutputs (s : State) : List Range :=
  match infoOperands s with
  | .error _ => []
  | .ok p => [Window.fout.range 0 (infoFrame s.latch.tfi s.latch.fcmd p).length]

/-- What FDEC may write (rule R150): the payload's place, once the header is read and the whole frame is there.  The checks of the
data and the postamble are left out, so that the bytes of a frame that fails them late count too (rule R362; DEDUCED,
notes/assumptions/6.md). -/
def fdecOutputs (s : State) : List Range :=
  match parseHeader (received s) with
  | .truncated _ => []
  | .err _ => []
  | .ok h => if h.kind = .data ∧ h.total ≤ opLen s then [Window.data.range 0 (h.len - 2)] else []

/-- What AUTH.START writes (rule R273). -/
def startOutputs (s : State) : List Range :=
  logoutOutputs s ++ (if s.ltk.isSome then [Window.acTx.range 0 2] else [])

/-- What AUTH.CHAL may write (rules R275 and R276): a logout's bytes and the response's, whichever way its checks fall
(DEDUCED, notes/assumptions/6.md). -/
def chalOutputs (s : State) : List Range :=
  logoutOutputs s ++
    (match s.ltk with
    | some l => [Window.acTx.range 0 (1 + 2 * challengeLen l.ciph)]
    | none => [])

/-- What AUTH.FINISH may write (rules R275, R277 and R278): a logout's bytes, which an installed session's key and IV are among,
and the subkeys of a family that uses a keychain, whichever way its checks fall (DEDUCED, notes/assumptions/6.md). -/
def finishOutputs (s : State) : List Range :=
  logoutOutputs s ++
    (match s.ltk with
    | some l => if usesKeychain l.ciph then [Window.subkPad.whole, Window.subkNopad.whole] else []
    | none => [])

/-- The window bytes a command's rule may write in a state (rules R357 and R362). -/
def mayWrite (i : Instr) (s : State) : List Range :=
  match i with
  | .nop => []
  | .fencAck => [Window.fout.range 0 6]
  | .fencNack => [Window.fout.range 0 6]
  | .fencErr => [Window.fout.range 0 8]
  | .fencInfo => infoOutputs s
  | .fident => []
  | .fdec => fdecOutputs s
  | .kload _ _ _ => kloadOutputs s
  | .cenc k => chainOutputs s k
  | .cdec k => chainOutputs s k
  | .cmacb k => macbOutputs s k
  | .cmsubk k => cmsubkOutputs s k
  | .cmac k => cmacOutputs s k
  | .authStart => startOutputs s
  | .authChal => chalOutputs s
  | .authFinish => finishOutputs s
  | .logout => logoutOutputs s

/-- The information register that an invalidation of the keychain writes, where it was derived from a given slot (rule R46). -/
def slotRegs (s : State) (k : KeySel) : List Reg := if keychainOf s k then [.subkInfo] else []

/-- The information registers that a logout writes (rules R40, R41 and R272). -/
def logoutRegs (s : State) : List Reg := .sessInfo :: slotRegs s .sess

/-- The information registers that KLOAD writes (rule R202): its own, a dropped keychain's, and, where it ends a handshake, a
logout's. -/
def kloadRegs (s : State) : List Reg :=
  .ltkInfo ::
    (slotRegs s .ltk ++ (if s.authState = .awaitingChallenge ∨ s.authState = .responseSent then logoutRegs s else []))

/-- The information register that CMSUBK writes (rule R243). -/
def cmsubkRegs (s : State) (k : KeySel) : List Reg := if (keyOf s k).isSome then [.subkInfo] else []

/-- The information registers that AUTH.FINISH may write (rules R275, R277 and R278): a logout's, and the keychain's for a family
that uses one, whichever way its checks fall (DEDUCED, notes/assumptions/6.md). -/
def finishRegs (s : State) : List Reg :=
  logoutRegs s ++
    (match s.ltk with
    | some l => if usesKeychain l.ciph then [.subkInfo] else []
    | none => [])

/-- The registers among LTK_INFO, SESS_INFO and SUBK_INFO that a command's rule may write in a state (rules R39 to R41 say which
commands those are; rules R90 and R357). -/
def mayWriteInfo (i : Instr) (s : State) : List Reg :=
  match i with
  | .nop => []
  | .fencAck => []
  | .fencNack => []
  | .fencErr => []
  | .fencInfo => []
  | .fident => []
  | .fdec => []
  | .kload _ _ _ => kloadRegs s
  | .cenc _ => []
  | .cdec _ => []
  | .cmacb _ => []
  | .cmsubk k => cmsubkRegs s k
  | .cmac _ => []
  | .authStart => logoutRegs s
  | .authChal => logoutRegs s
  | .authFinish => finishRegs s
  | .logout => logoutRegs s

/-- Whether an offset lies in one of some ranges. -/
def inRanges (rs : List Range) (a : Nat) : Bool := rs.any fun r => r.has a

/-- The bytes the running command may write (rule R357): none while no command runs, or where the word is no command. -/
def runningOutputs (s : State) : List Range :=
  if s.busy then
    match decode s.latch.cmd with
    | .ok i => mayWrite i s
    | .error _ => []
  else []

/-- The registers the running command may write (rules R90 and R357), STATUS aside, which has a rule of its own (rule R35): RES0
to RES3, which every issued word writes at its completion (rules R42 and R312), and the information registers its rule may
write. -/
def runningRegs (s : State) : List Reg :=
  if s.busy then
    [.res0, .res1, .res2, .res3] ++
      (match decode s.latch.cmd with
      | .ok i => mayWriteInfo i s
      | .error _ => [])
  else []

end Sys2Proof.Machine
end

