-- ==== Sys2Proof/Machine/Bus.lean ====
section
/-! DEFINITION. The host's accesses to FCSE's slave window (20_memory.md rules R82 to R88, 70_reset_and_hazards.md rules R355 to
R357) and the soft reset (rules R351 and R362). -/

namespace Sys2Proof.Machine

/-- What a permitted access reaches. -/
inductive Target where
  | reg (r : Reg)
  /-- A window and the offset into it. -/
  | win (w : Window) (i : Nat)
  deriving DecidableEq, Repr

/-- The window that an offset lies in (rule R82). -/
def windowAt (off : Nat) : Option Window := allWindows.find? fun w => decide (w.base ≤ off ∧ off < w.base + w.size)

/-- What an access of `width` bytes at an offset reaches (rules R82 and R84): none is a bus error. -/
def busTarget (off width : Nat) : Option Target :=
  if off < 0x40 then
    if width = 4 ∧ off % 4 = 0 then (allRegs[off / 4]?).map .reg else none
  else if (width = 1 ∨ width = 2 ∨ width = 4) ∧ off % width = 0 then
    match windowAt off with
    | some w => if off + width ≤ w.base + w.size then some (.win w (off - w.base)) else none
    | none => none
  else none

/-- Whether a register reads as its value.  While a command runs, ID, VERSION, CTRL, CMD, STATUS and the operand registers do
(rule R357), and any other one does unless the running command may write it.  Rule R357 can be read to leave every "other
register" unspecified under any command; rule R90 and 93_implementation_defined.md U2 say that only what the running command may
write is, and the model follows these (DEDUCED, notes/assumptions/21.md). -/
def readableWhileBusy (s : State) (r : Reg) : Bool := !(runningRegs s).contains r

/-- An unspecified byte at an offset: a free value for each event (rules R357 and R362; DESIGN CHOICE, notes/assumptions/5.md). -/
def freeByteAt (s : State) (a : Nat) : Byte := Config.freeByte s.env.freeEvents a

/-- `n` unspecified bytes from an offset on. -/
def freeBytes (s : State) (a n : Nat) : List Byte := (List.range n).map fun i => freeByteAt s (a + i)

/-- The state after an unspecified event. -/
def afterFree (s : State) : State := { s with env := { s.env with freeEvents := s.env.freeEvents + 1 } }

/-- A register as a host read returns it (rules R87, R90 and R357).  Where the value is unspecified all 32 bits are, the reserved
bits of LTK_INFO, SESS_INFO and SUBK_INFO among them: rule R357 and U2 speak of the register, while rule R87 and U9 let reserved
bits read 0 without speaking of BUSY (DESIGN CHOICE, notes/assumptions/22.md). -/
def readReg (s : State) (r : Reg) : Word :=
  if readableWhileBusy s r then regValue s r else ofLeBytes (freeBytes s (4 * allRegs.idxOf r) 4)

/-- A window byte as a host read returns it, by its offset from `FCSE_BASE` (rules R87 and R357). -/
def readWindowByte (s : State) (a : Nat) : Byte :=
  if inRanges (runningOutputs s) a then freeByteAt s a else readByte s.mem a

/-- The value a permitted read returns, little-endian (rules R83 and R86). -/
def readTarget (s : State) (t : Target) (width : Nat) : Word :=
  match t with
  | .reg r => readReg s r
  | .win w i => ofLeBytes ((List.range width).map fun j => readWindowByte s (w.base + i + j))

/-- The state after a permitted read: no read has a side effect (rule R87), and one made while a command runs is counted as an
event of its own. -/
def afterRead (s : State) : State := if s.busy then afterFree s else s

/-- Where DATA begins: it and the windows after it keep their bytes over a soft reset (rule R351). -/
def keepsOverReset (c : Host.Cell) : Bool := decide (Window.base .data ≤ c.1)

/-- The bytes of ranges in DATA and FOUT, made unspecified (rule R362). -/
def scramble (s : State) (rs : List Range) (m : List Host.Cell) : List Host.Cell :=
  match rs with
  | [] => m
  | r :: rs =>
    if Window.base .data ≤ r.start then scramble s rs (writeBytes m r.start (freeBytes s r.start r.count)) else scramble s rs m

/-- The soft reset (rules R351 and R362): every piece of FCSE's state at its reset value, but DATA, FIN and FOUT.  Where it
abandons a command, the bytes of DATA and FOUT that the command could have written are unspecified.  The host and the
environment are not FCSE's state (DEDUCED, notes/assumptions/11.md). -/
def softReset (s : State) : State :=
  { State.reset with
    mem := scramble s (runningOutputs s) (s.mem.filter keepsOverReset)
    host := s.host
    env := (afterRead s).env }

/-- A write to CTRL (rules R33 and R356): writing 1 to SRST resets, and IRQ_EN is then 0 whatever bit 0 of the value is (DEDUCED,
notes/assumptions/7.md). -/
def writeCtrl (s : State) (v : Word) : State := if v.getLsbD 1 then softReset s else { s with irqEn := v.getLsbD 0 }

/-- A write to a register that is accepted (rules R34, R36 to R38 and R87): reserved bits and read-only registers ignore it. -/
def writeReg (s : State) (r : Reg) (v : Word) : State :=
  match r with
  | .ctrl => writeCtrl s v
  | .cmd => issue s v
  | .status => clearW1C s v
  | .oplen => { s with oplen := v.setWidth 17 }
  | .opoff => { s with opoff := v.setWidth 16 }
  | .opaux => { s with opaux := v.setWidth 17 }
  | .frhdr => { s with frhdr := v.setWidth 16 }
  | .id | .version | .ltkInfo | .sessInfo | .subkInfo | .res0 | .res1 | .res2 | .res3 => s

/-- Whether a write is accepted while a command runs (rules R355 and R356). -/
def writableWhileBusy : Target → Bool
  | .reg .ctrl => true
  | .reg .status => true
  | .reg _ => false
  | .win _ _ => false

/-- A permitted write (rules R83, R86, R87 and R355): while a command runs, one to anything but CTRL and STATUS is dropped and
sets CMD_OVR, one to a read-only target too (DEDUCED, notes/assumptions/8.md). -/
def writeTarget (s : State) (t : Target) (width : Nat) (v : Word) : State :=
  if s.busy ∧ writableWhileBusy t = false then { s with cmdOvr := true }
  else
    match t with
    | .reg r => writeReg s r v
    | .win w i => if w.hostWritable then s.setWindow w i (leBytes width v) else s

end Sys2Proof.Machine
end

