-- ==== Sys2Proof/Machine/HostScript.lean ====
section
/-! DEFINITION. The host agent's step: one operation of its script, and the notation's
pseudo-operations (30_encoding.md rule R118). -/

namespace Sys2Proof.Machine

/-- `WB X+i, "b0 b1 …"` (rule R118), with `off` the offset of the first byte. -/
def storeBytes : Nat → List Byte → List HostOp
  | _, [] => []
  | off, x :: b => .write 1 off (x.setWidth 32) :: storeBytes (off + 1) b

/-- `RB X+i, n -> t` (rule R118), with the bytes in the temporaries from `t` on. -/
def loadBytes : Nat → Nat → Nat → List HostOp
  | _, 0, _ => []
  | off, n + 1, t => .read 1 off t :: loadBytes (off + 1) n (t + 1)

/-- `POLL` (rule R118) at a place of a script, with STATUS in temporary `t`. -/
def pollOps (here t : Nat) : List HostOp := [.read 4 0x010 t, .bnz t 0x1 here]

/-- `DO <mnemonic>` (rule R118) at a place of a script. -/
def doOps (here t : Nat) (i : Instr) : List HostOp := .write 4 0x00C (encode i) :: pollOps (here + 1) t

/-- `CLR` (rule R118): DONE, ERR and CMD_OVR are cleared. -/
def clrOp : HostOp := .write 4 0x010 0x0000000E

/-- The value of a host temporary: one that is not listed is 0. -/
def tempValue : List (Nat × Word) → Nat → Word
  | [], _ => 0
  | c :: m, t => if c.1 = t then c.2 else tempValue m t

/-- The temporaries with one of them set. -/
def setTemp (m : List (Nat × Word)) (t : Nat) (v : Word) : List (Nat × Word) :=
  m.filter (fun c => decide (c.1 < t)) ++ (if v = 0 then [] else [(t, v)]) ++ m.filter (fun c => decide (t < c.1))

/-- The state with a host temporary set. -/
def State.setHostTemp (s : State) (t : Nat) (v : Word) : State :=
  { s with host := { s.host with temps := setTemp s.host.temps t v } }

/-- The state with the host at a place of its script. -/
def State.setHostPc (s : State) (pc : Nat) : State := { s with host := { s.host with pc := pc } }

/-- The host's next place in its script. -/
def hostAdvance (s : State) : State := s.setHostPc (s.host.pc + 1)

/-- A host write (rules R83 and R85). -/
def hostWrite (s : State) (width off : Nat) (v : Word) : StepResult :=
  match busTarget off width with
  | none => .fault (.busError off width)
  | some t => .next (hostAdvance (writeTarget s t width v))

/-- A host read into a temporary (rules R83 and R85). -/
def hostRead (s : State) (width off t : Nat) : StepResult :=
  match busTarget off width with
  | none => .fault (.busError off width)
  | some g => .next (hostAdvance ((afterRead s).setHostTemp t (readTarget s g width)))

/-- A host branch, taken or not (rule R118). -/
def hostBranch (s : State) (taken : Bool) (target : Nat) : StepResult :=
  .next (if taken then s.setHostPc target else hostAdvance s)

/-- One operation of the host (rule R118). -/
def hostOp (s : State) : HostOp → StepResult
  | .write width off v => hostWrite s width off v
  | .writeTemp width off t => hostWrite s width off (tempValue s.host.temps t)
  | .read width off t => hostRead s width off t
  | .bnz t mask target => hostBranch s (decide (tempValue s.host.temps t &&& mask ≠ 0)) target
  | .bz t mask target => hostBranch s (decide (tempValue s.host.temps t &&& mask = 0)) target

/-- A host step: the operation at the host's place, or nothing where its script has ended (DESIGN CHOICE,
notes/assumptions/10.md). -/
def hostStep (s : State) : StepResult :=
  match s.host.script[s.host.pc]? with
  | some op => hostOp s op
  | none => .next s

/-- One host step less until the running command completes (rule R361). -/
def countDown (s : State) : State := if s.busy then { s with countdown := s.countdown - 1 } else s

/-- Whether the running command's completion step is next (rule R88). -/
def completionDue (s : State) : Bool := s.busy && decide (s.countdown = 0)

end Sys2Proof.Machine
end

