-- ==== Sys2Proof/Machine/Step.lean ====
section
/-! DEFINITION. One step of the machine: the completion of the running command where it is due (20_memory.md rule R88), else one
step of the host (30_encoding.md rule R118). -/

namespace Sys2Proof.Machine

/-- The completion step of the running command: the decode checks come first (rule R113). -/
def complete (s : State) : Host.Outcome State Fault Refusal :=
  match decode s.latch.cmd with
  | .ok i => exec i s
  | .error e => .next (rejectWord s e)

/-- One step. -/
def step (s : State) : Host.Outcome State Fault Refusal :=
  if completionDue s then complete s else hostStep (countDown s)

/-- `s` with the instruction whose bits are `w` issued (rule R88) and its completion step next: FCSE fetches no program (rule
R93), and a command word reaches the engine by its issue (DESIGN CHOICE, notes/assumptions/10.md). -/
def State.withFetchWord (s : State) (nbits w : Nat) : State := issueWith s (BitVec.ofNat 32 (w % 2 ^ nbits)) 0

end Sys2Proof.Machine
end

