-- ==== Sys2Proof/Safety.lean ====
section
/-! DEFINITION. The terms that claims about FCSE use: power-on states and reachable states, the state invariants of 10_state.md
rule R54 and what makes them inductive, the forms of the key slots (rules R44 to R46), how a command completes (rules R88 and
R312), and frames. -/

namespace Sys2Proof.Machine

/-- A machine as power-on reset leaves it (rule R350): DATA, FIN and FOUT hold any bytes (93_implementation_defined.md U1), and the
host's script and the environment are any. -/
structure PowerOn (s : State) : Prop where
  fcse : s = { State.reset with mem := s.mem, host := s.host, env := s.env }
  form : Memory.wf s.mem
  buffers : ∀ c ∈ s.mem, Window.base .data ≤ c.1 ∧ c.1 < Window.base .fout + Window.size .fout

/-- A state that some run from a power-on state reaches. -/
inductive Reachable : State → Prop where
  | powerOn (s : State) (h : PowerOn s) : Reachable s
  | step (s t : State) (h : Reachable s) (hs : Sys2Proof.Machine.step s = .next t) : Reachable t

/-- The handshake states in which the hidden record may hold challenges (rule R49): a handshake waits for its final answer, or a
new one is being started. -/
def holdsChallenge : AuthState → Bool
  | .challengeSent | .responseSent | .verifying => true
  | .idle | .awaitingChallenge | .authenticated | .failed => false

/-- The handshake states in which a long-term key is held (rules R273 and R276). -/
def needsKey : AuthState → Bool
  | .awaitingChallenge | .responseSent | .verifying => true
  | .idle | .challengeSent | .authenticated | .failed => false

/-- The state invariants of rule R54, (a) to (f). -/
structure StateInvariant (s : State) : Prop where
  /-- (a) -/
  session : s.session = none → sessInfoValue s = 0 ∧ sessDegen s = false ∧ s.window .sessKey 0 24 = zeros 24
  /-- (b) -/
  ltk : s.ltk = none → ltkInfoValue s = 0 ∧ ltkDegen s = false ∧ s.window .ltkKey 0 24 = zeros 24
  /-- (c) -/
  keychain : s.keychain = none →
    subkSlot s = 0 ∧ subkInfoValue s = 0 ∧ s.window .subkPad 0 16 = zeros 16 ∧ s.window .subkNopad 0 16 = zeros 16
  /-- (d) -/
  hidden : s.authState = .idle ∨ s.authState = .authenticated ∨ s.authState = .failed → s.hidden.n = 0
  /-- (e), its first sentence -/
  authenticated : s.busy = false → (s.authState = .authenticated ↔ s.session.isSome)
  /-- (e), its second sentence: state 1 while AUTH.START executes -/
  executing : s.busy = true → decode s.latch.cmd = .ok .authStart → s.authState = .challengeSent
  /-- (f) -/
  transient : s.busy = false → s.authState ≠ .challengeSent ∧ s.authState ≠ .verifying

/-- What every step keeps: the invariants of rule R54, as they read while a command runs, with what the rules of the commands
rely on. -/
structure Inductive (s : State) : Prop where
  /-- Rule R54 (a). -/
  session : s.session = none → s.window .sessKey 0 24 = zeros 24
  /-- Rule R54 (b). -/
  ltk : s.ltk = none → s.window .ltkKey 0 24 = zeros 24
  /-- Rule R54 (c). -/
  keychain : s.keychain = none → s.window .subkPad 0 16 = zeros 16 ∧ s.window .subkNopad 0 16 = zeros 16
  /-- Every handshake end clears the hidden record (rule R49). -/
  hidden : holdsChallenge s.authState = false → s.hidden = Handshake.clear
  /-- Rule R54 (e): a session is installed exactly in state 5, except that one may still be while AUTH.START executes. -/
  authenticated : s.authState ≠ .challengeSent → (s.authState = .authenticated ↔ s.session.isSome)
  /-- State 1 is shown only while AUTH.START executes (rule R271). -/
  starting : s.authState = .challengeSent → s.busy = true ∧ decode s.latch.cmd = .ok .authStart
  /-- Rule R54 (e): state 1 is shown all the while AUTH.START executes (rule R271). -/
  executing : s.busy = true → decode s.latch.cmd = .ok .authStart → s.authState = .challengeSent
  /-- State 4 is shown only while AUTH.FINISH executes (rule R271). -/
  verifying : s.authState = .verifying → s.busy = true ∧ decode s.latch.cmd = .ok .authFinish
  /-- The long-term key is held while a handshake is in progress (rule R276). -/
  held : needsKey s.authState = true → s.ltk.isSome
  /-- The challenge length is the family's while the final answer is awaited (rule R276). -/
  challenge : s.authState = .responseSent ∨ s.authState = .verifying →
    ∀ l, s.ltk = some l → s.hidden.n = challengeLen l.ciph
  /-- A keychain of slot 0 is one of the long-term key held (rule R247). -/
  slotLtk : ∀ c, s.keychain = some c → c.slot = .ltk → ∃ l, s.ltk = some l ∧ c.bs = BitVec.ofNat 5 (bs l.ciph)
  /-- A keychain of slot 1 is one of the session installed (rule R247). -/
  slotSess : ∀ c, s.keychain = some c → c.slot = .sess → ∃ l, s.session = some l ∧ c.bs = BitVec.ofNat 5 (bs l.ciph)
  /-- While a command runs, DONE and ERR are clear and ERR_CODE is 0 (rule R35). -/
  running : s.busy = true → s.done = false ∧ s.err = false ∧ s.errCode = .ok
  /-- CMD holds the word last issued (rule R34). -/
  issued : s.cmd = s.latch.cmd

/-- The forms of the key slots and the keychain (rules R44 to R46): bytes beyond a key, or beyond a subkey, are zero; key numbers
are 0 to 13; the long-term key's degeneracy flag is the one of its bytes (rule R203). -/
structure KeyForm (s : State) : Prop where
  ltk : ∀ l, s.ltk = some l → l.keyno.toNat ≤ 13 ∧ l.degen = degenerate l.ciph (ltkKeyBytes s l.ciph) ∧
    s.window .ltkKey (klen l.ciph) (24 - klen l.ciph) = zeros (24 - klen l.ciph)
  session : ∀ l, s.session = some l →
    l.keyno.toNat ≤ 13 ∧ s.window .sessKey (klen l.ciph) (24 - klen l.ciph) = zeros (24 - klen l.ciph)
  keychain : ∀ c, s.keychain = some c → (c.bs = 8 ∨ c.bs = 16) ∧
    s.window .subkPad c.bs.toNat (16 - c.bs.toNat) = zeros (16 - c.bs.toNat) ∧
    s.window .subkNopad c.bs.toNat (16 - c.bs.toNat) = zeros (16 - c.bs.toNat)
  /-- The parts of the hidden record are 16 bytes each (rule R49). -/
  hidden : s.hidden.rnda.length = 16 ∧ s.hidden.rndb.length = 16 ∧ s.hidden.civ.length = 16

/-- Memory is in canonical form and lists only bytes of windows (rule R82). -/
structure MemoryForm (s : State) : Prop where
  form : Memory.wf s.mem
  mapped : ∀ c ∈ s.mem, (windowAt c.1).isSome

/-- A state in which a command has just completed with an error code and four results (rules R42, R88 and R312). -/
structure Completed (t : State) (code : ErrCode) (r0 r1 r2 r3 : Word) : Prop where
  busy : t.busy = false
  done : t.done = true
  err : t.err = decide (code ≠ .ok)
  errCode : t.errCode = code
  res0 : t.res0 = r0
  res1 : t.res1 = r1
  res2 : t.res2 = r2
  res3 : t.res3 = r3

/-- Unchanged: what no command writes (rules R37, R38, R50, R51 and R53), and the host. -/
structure SameInputs (s t : State) : Prop where
  irqEn : t.irqEn = s.irqEn
  cmd : t.cmd = s.cmd
  cmdOvr : t.cmdOvr = s.cmdOvr
  oplen : t.oplen = s.oplen
  opoff : t.opoff = s.opoff
  opaux : t.opaux = s.opaux
  frhdr : t.frhdr = s.frhdr
  latch : t.latch = s.latch
  countdown : t.countdown = s.countdown
  host : t.host = s.host

/-- Unchanged: the key slots, the keychain, the handshake and the random source (rules R44 to R49). -/
structure SameKeys (s t : State) : Prop where
  ltk : t.ltk = s.ltk
  session : t.session = s.session
  keychain : t.keychain = s.keychain
  authState : t.authState = s.authState
  hidden : t.hidden = s.hidden
  env : t.env = s.env

/-- Every byte outside some ranges reads as before. -/
def SameOutside (rs : List Range) (s t : State) : Prop :=
  ∀ a, inRanges rs a = false → readByte t.mem a = readByte s.mem a

/-- Every byte of memory reads as before. -/
def SameBytes (s t : State) : Prop := ∀ a, readByte t.mem a = readByte s.mem a

/-- `code` is reported, and nothing else changes but the results (rule R312). -/
structure FailsWith (s t : State) (code : ErrCode) (need : Nat) : Prop where
  completed : Completed t code 0 (wordOf need) 0 0
  inputs : SameInputs s t
  keys : SameKeys s t
  bytes : SameBytes s t

/-- What every end of a session leaves (rules R45 and R272): an empty slot, a zero IV and a clear hidden record. -/
structure SessionEnded (t : State) : Prop where
  session : t.session = none
  sessKey : t.window .sessKey 0 24 = zeros 24
  iv : t.window .iv 0 16 = zeros 16
  hidden : t.hidden = Handshake.clear

/-- The keychain after an invalidation of the keychains of some slots (rule R46): gone with its subkeys, or kept. -/
structure KeychainDropped (slots : KeySel → Bool) (s t : State) : Prop where
  dropped : ∀ c, s.keychain = some c → slots c.slot = true →
    t.keychain = none ∧ t.window .subkPad 0 16 = zeros 16 ∧ t.window .subkNopad 0 16 = zeros 16
  kept : (∀ c, s.keychain = some c → slots c.slot = false) →
    t.keychain = s.keychain ∧ t.window .subkPad 0 16 = s.window .subkPad 0 16 ∧
      t.window .subkNopad 0 16 = s.window .subkNopad 0 16

/-- Whether a slot is the session's. -/
def sessionSlot : KeySel → Bool
  | .ltk => false
  | .sess => true

/-- What a logout leaves (rule R272): the session ended, its keychain gone, and the long-term slot as it was.  AUTH_STATE is not
spoken of. -/
structure LoggedOut (s t : State) : Prop where
  ended : SessionEnded t
  keychain : KeychainDropped sessionSlot s t
  ltk : t.ltk = s.ltk

/-- A handshake command that fails (rule R275): logged out, in state 6, and nothing else but the results changes. -/
structure AuthFailsWith (s t : State) (code : ErrCode) : Prop where
  completed : Completed t code 0 0 0 0
  inputs : SameInputs s t
  loggedOut : LoggedOut s t
  authState : t.authState = .failed
  env : t.env = s.env
  bytes : SameOutside (logoutOutputs s) s t

/-- The words of an opcode (rule R113): each is the word of a form of the command, or BAD_OPERAND. -/
def WordsDecodeTo (op : Byte) (forms : Instr → Prop) : Prop :=
  ∀ w : Word, opField w = op →
    (∃ i, forms i ∧ encode i = w ∧ decode w = .ok i) ∨ ((∀ i, forms i → encode i ≠ w) ∧ decode w = .error .badOperand)

/-- A permitted access (rule R84): a whole register, or an aligned run of 1, 2 or 4 bytes inside one window. -/
def Permitted (off width : Nat) : Prop :=
  (off < 0x40 ∧ width = 4 ∧ off % 4 = 0) ∨
    (width = 1 ∨ width = 2 ∨ width = 4) ∧ off % width = 0 ∧ ∃ w : Window, w.base ≤ off ∧ off + width ≤ w.base + w.size

/-- The host's next operation, where its script goes on (rule R118). -/
def nextOp (s : State) : Option HostOp := s.host.script[s.host.pc]?

/-- The value that a writing operation carries, with its offset and width. -/
def writeOf (s : State) : HostOp → Option (Nat × Nat × Word)
  | .write width off v => some (off, width, v)
  | .writeTemp width off t => some (off, width, tempValue s.host.temps t)
  | .read _ _ _ | .bnz _ _ _ | .bz _ _ _ => none

/-- The host's step is next, and it is a write of `v`, `width` bytes wide, at `off` (rule R83). -/
def HostWrites (s : State) (off width : Nat) (v : Word) : Prop :=
  completionDue s = false ∧ ∃ op, nextOp s = some op ∧ writeOf s op = some (off, width, v)

/-- The host's step is next, and it is a read of `width` bytes at `off` into temporary `t` (rule R83). -/
def HostReads (s : State) (off width t : Nat) : Prop :=
  completionDue s = false ∧ nextOp s = some (.read width off t)

/-- The host's step is next, and it resets FCSE (rule R351). -/
def SoftResetNow (s : State) : Prop := ∃ v : Word, HostWrites s 0x008 4 v ∧ v.getLsbD 1 = true

/-- The completion step of a command is next (rule R88). -/
def CompletesNow (s : State) (i : Instr) : Prop := completionDue s = true ∧ decode s.latch.cmd = .ok i

/-- A run of a number of steps. -/
def Steps : Nat → State → State → Prop
  | 0, s, t => s = t
  | n + 1, s, t => ∃ u, step s = .next u ∧ Steps n u t

/-- Unchanged but for the host's place and temporaries: what an operation that touches no state of FCSE leaves. -/
def SameFcse (s t : State) : Prop := t = { s with host := t.host, env := t.env, countdown := t.countdown }

/-- A start code at an index (rules R140 and R147). -/
def IsStart (b : List Byte) (i : Nat) : Prop := b[i]? = some 0x00 ∧ b[i + 1]? = some 0xFF

/-- The first start code (rule R147). -/
def FirstStart (b : List Byte) (i : Nat) : Prop := IsStart b i ∧ ∀ j < i, ¬ IsStart b j

/-- A state with other operand latches, as the issue of a command after writes to OPOFF and OPLEN gives it (rule R88). -/
def withRange (s : State) (off len : Nat) : State :=
  { s with latch := { s.latch with opoff := BitVec.ofNat 16 off, oplen := BitVec.ofNat 17 len } }

/-- An Info frame, byte for byte as rule R145 writes it down. -/
def ruleInfoFrame (tfi fcmd : Byte) (p : List Byte) : List Byte :=
  let l := p.length + 2
  let dcs : Byte := -BitVec.ofNat 8 (tfi.toNat + fcmd.toNat + sumBytes p)
  if p.length ≤ 253 then
    [0x00, 0x00, 0xFF, BitVec.ofNat 8 l, -BitVec.ofNat 8 l] ++ [tfi, fcmd] ++ p ++ [dcs, 0x00]
  else
    [0x00, 0x00, 0xFF, 0xFF, 0xFF, BitVec.ofNat 8 (l >>> 8), BitVec.ofNat 8 (l &&& 0xFF),
      -BitVec.ofNat 8 ((l >>> 8) + (l &&& 0xFF))] ++ [tfi, fcmd] ++ p ++ [dcs, 0x00]

/-- A session key `k` whose bytes are those of RndA, `a`, and RndB, `b`, that rule R210's table places there, in runs of four: one
case for each of its five rows. -/
def SessionKeyRow (c : Family) (degen : Bool) (a b k : List Byte) : Prop :=
  match c, degen with
  | .des, _ => k.length = 8 ∧ ∀ i < 4, byteAt k i = byteAt a i ∧ byteAt k (4 + i) = byteAt b i
  | .tdes2, false => k.length = 16 ∧ ∀ i < 4,
      byteAt k i = byteAt a i ∧ byteAt k (4 + i) = byteAt b i ∧
        byteAt k (8 + i) = byteAt a (4 + i) ∧ byteAt k (12 + i) = byteAt b (4 + i)
  | .tdes2, true => k.length = 16 ∧ ∀ i < 4,
      byteAt k i = byteAt a i ∧ byteAt k (4 + i) = byteAt b i ∧
        byteAt k (8 + i) = byteAt a i ∧ byteAt k (12 + i) = byteAt b i
  | .tdes3, _ => k.length = 24 ∧ ∀ i < 4,
      byteAt k i = byteAt a i ∧ byteAt k (4 + i) = byteAt b i ∧
        byteAt k (8 + i) = byteAt a (6 + i) ∧ byteAt k (12 + i) = byteAt b (6 + i) ∧
        byteAt k (16 + i) = byteAt a (12 + i) ∧ byteAt k (20 + i) = byteAt b (12 + i)
  | .aes128, _ => k.length = 16 ∧ ∀ i < 4,
      byteAt k i = byteAt a i ∧ byteAt k (4 + i) = byteAt b i ∧
        byteAt k (8 + i) = byteAt a (12 + i) ∧ byteAt k (12 + i) = byteAt b (12 + i)

/-- RES0 of the frame result word, field for field as rule R148 writes it down. -/
def ruleFrameWord (kind : Word) (ext pre : Bool) (tfi fcmd : Byte) : Word :=
  kind ||| (ext.toNat : Word) <<< 3 ||| (pre.toNat : Word) <<< 4 ||| tfi.setWidth 32 <<< 8 ||| fcmd.setWidth 32 <<< 16

/-- The kind codes of rule R148, as numbers. -/
def ruleKind : FrameKind → Word
  | .ack => 1
  | .nack => 2
  | .error => 3
  | .info => 4
  | .data => 5

/-- A command that completes with an error, and what else that leaves (rule R312). -/
def Fails (i : Instr) (s : State) (code : ErrCode) (need : Nat) : Prop := ∃ t, exec i s = .next t ∧ FailsWith s t code need

/-- A handshake command that completes with an error, and what else that leaves (rule R275). -/
def AuthFails (i : Instr) (s : State) (code : ErrCode) : Prop := ∃ t, exec i s = .next t ∧ AuthFailsWith s t code

/-- FCSE's own state as a reset leaves it, but for DATA, FIN and FOUT (rules R350 and R351). -/
structure ResetValues (t : State) : Prop where
  fields : t = { State.reset with mem := t.mem, host := t.host, env := t.env }
  windows : ∀ w : Window, w.base < Window.base .data → t.window w 0 w.size = zeros w.size

/-- The hidden record of a handshake under a long-term key, while its final answer is awaited (rules R49 and R276). -/
structure HandshakeForm (s : State) (l : LongTermKey) : Prop where
  ltk : s.ltk = some l
  n : s.hidden.n = challengeLen l.ciph
  rnda : s.hidden.rnda.length = 16
  rndb : s.hidden.rndb.length = 16
  civ : s.hidden.civ.length = 16

/-- A command that puts one fixed frame into FOUT (rules R143, R144 and R146): its kind code, its bytes and its data-field
length. -/
def EncodesFixedFrame (i : Instr) (op : Byte) (kind : Word) (f : List Byte) (l : Nat) : Prop :=
  WordsDecodeTo op (· = i) ∧ ∀ s, ∃ t, exec i s = .next t ∧
    Completed t .ok (ruleFrameWord kind false true 0 0) (wordOf f.length) (wordOf l) 1 ∧
    t.window .fout 0 f.length = f ∧ SameInputs s t ∧ SameKeys s t ∧ SameOutside [Window.fout.range 0 f.length] s t

/-- The `i`-th block of `b` bytes of a byte string. -/
def block (b : Nat) (x : List Byte) (i : Nat) : List Byte := slice x (i * b) ((i + 1) * b)

/-- The last block of a byte string. -/
def lastBlock (b : Nat) (x : List Byte) : List Byte := x.drop (x.length - b)

/-- What the card sends over a chain that starts from a chaining value: the encryption of some bytes under the key it shares
(rule R270). -/
def cardSends (c : Family) (key iv x : List Byte) : List Byte := (cbcEnc c key (x.length / bs c) iv x).out

/-- What the card reads from bytes it received over a chain that starts from a chaining value (rule R270). -/
def cardReads (c : Family) (key iv x : List Byte) : List Byte := (cbcDec c key (x.length / bs c) iv x).out

/-- An answer of a step that is no refusal, and no fault but a bus error of the host (rules R85 and R115). -/
def Unrefused (r : StepResult) : Prop :=
  match r with
  | .next _ => True
  | .fault (.busError _ _) => True
  | .refused _ => False

end Sys2Proof.Machine
end

