-- ==== Sys2Proof/Certificates/Slice0/Obligations.lean ====
section
/-! DEFINITION. The statements for the provers, in the order of the spec's files.  Each docstring names the rule a statement
formalises, or says that it is derived, or the model's own choice. -/

open Sys2Proof Sys2Proof.Machine

/-! ### Encoding -/

/-- Rules R112 to R117 (derived): decoding the word of a well-formed command gives the command back, with every operand at every
value the encoding admits. -/
def Obligations.DecodeOfEncodeIsTheCommand : Prop := ∀ i : Instr, WellFormed i = true → decode (encode i) = .ok i

/-- Rules R112 to R114 (derived): an accepted word is the word of the command it decodes to, and that command is well formed. -/
def Obligations.EncodeOfDecodeIsTheWord : Prop :=
  ∀ (w : Word) (i : Instr), decode w = .ok i → WellFormed i = true ∧ encode i = w

/-- Rule R113: the decode checks in their order, and what a word that fails one leaves. -/
def Obligations.DecodeChecksFollowTheirOrder : Prop :=
  (∀ w : Word,
    let op := w.toNat % 256
    let f0 := [0x00, 0x01, 0x02, 0x03, 0x04, 0x08, 0x09, 0x30, 0x31, 0x32, 0x33]
    let fs := [0x11, 0x12, 0x13, 0x20, 0x21]
    (op ∉ f0 ++ fs ++ [0x10] → decode w = .error .badOpcode) ∧
    (op ∈ f0 ++ fs ++ [0x10] → decode w ≠ .error .badOpcode) ∧
    (op ∈ f0 ++ fs ++ [0x10] → w.toNat / 2 ^ 24 ≠ 0 → decode w = .error .badOperand) ∧
    (op ∈ f0 → w.toNat / 2 ^ 24 = 0 → (decode w = .error .badOperand ↔ w.toNat / 2 ^ 8 ≠ 0)) ∧
    (op ∈ fs → w.toNat / 2 ^ 24 = 0 →
      (decode w = .error .badOperand ↔ w.toNat / 2 ^ 8 % 8 ≠ 0 ∨ w.toNat / 2 ^ 12 ≠ 0)) ∧
    (op = 0x10 → w.toNat / 2 ^ 24 = 0 →
      (decode w = .error .badOperand ↔
        w.toNat / 2 ^ 11 % 2 ≠ 0 ∨ 4 < w.toNat / 2 ^ 8 % 8 ∨ 13 < w.toNat / 2 ^ 12 % 16))) ∧
  (∀ s e, decode s.latch.cmd = .error e → completionDue s = true → ∃ t, step s = .next t ∧
    FailsWith s t (match e with | .badOpcode => .badOpcode | .badOperand => .badOperand) 0) ∧
  (∀ (w : Word) (s : State) (e : DecodeError), decode w = .error e → (issueWith s w 0).authState = s.authState)

/-- Rules R112 and R117 (derived): a few words written out from the tables. -/
def Obligations.WordsOfTheTableDecode : Prop :=
  decode 0x00000000 = .ok .nop ∧ decode 0x00000004 = .ok .fencInfo ∧ decode 0x00000009 = .ok .fdec ∧
    decode 0x00103410 = .ok (.kload (some .aes128) 3 0x10) ∧ decode 0x00000812 = .ok (.cdec .sess) ∧
    decode 0x00000020 = .ok (.cmsubk .ltk) ∧ decode 0x00000821 = .ok (.cmac .sess) ∧ decode 0x00000032 = .ok .authFinish

/-! ### The engine -/

/-- Rule R88 (derived): when a command's completion step is next and the latched word decodes to a command, the step is that
command's meaning.  While no command runs or the countdown has host steps left, the step is one of the host: this second clause is
the model's own completion schedule (DESIGN CHOICE, notes/assumptions/4.md) and host script (DESIGN CHOICE,
notes/assumptions/10.md). -/
def Obligations.StepRunsTheDecodedCommand : Prop :=
  (∀ s i, s.busy = true → s.countdown = 0 → decode s.latch.cmd = .ok i → WellFormed i = true ∧ step s = exec i s) ∧
    (∀ s, s.busy = false ∨ s.countdown ≠ 0 → step s = hostStep (countDown s))

/-- Rule R319: NOP. -/
def Obligations.NopOnlyCompletes : Prop :=
  WordsDecodeTo 0x00 (· = .nop) ∧
    (∀ s, ∃ t, exec .nop s = .next t ∧ Completed t .ok 0 0 0 0 ∧ SameInputs s t ∧ SameKeys s t ∧ SameBytes s t) ∧
    (∃ t, step (issueWith State.reset 0x00000000 0) = .next t ∧ regValue t .status = 0x00000002 ∧
      Completed t .ok 0 0 0 0)

/-- Rule R88, the issue (derived: its first half): a host write to CMD while no command runs latches the operands and touches
nothing else but the bits the rule names.  The countdown and the schedule it is taken from are the model's own (DESIGN CHOICE,
notes/assumptions/4.md). -/
def Obligations.CommandWriteIssues : Prop :=
  ∀ s w, HostWrites s 0x00C 4 w → s.busy = false → ∃ t, step s = .next t ∧
    t = { s with
          cmd := w
          latch := { cmd := w, oplen := s.oplen, opoff := s.opoff, opaux := s.opaux,
                     tfi := s.frhdr.extractLsb' 0 8, fcmd := s.frhdr.extractLsb' 8 8 }
          busy := true
          done := false
          err := false
          errCode := .ok
          authState :=
            if opField w = 0x30 ∧ (decode w).isOk = true then .challengeSent
            else if opField w = 0x32 ∧ (decode w).isOk = true ∧ s.authState = .responseSent then .verifying
            else s.authState
          countdown := t.countdown
          host := { s.host with pc := s.host.pc + 1 }
          env := { s.env with schedule := t.env.schedule } }

/-- Rule R312: what a failing command leaves. -/
def Obligations.FailingCommandsChangeNothingElse : Prop :=
  ∀ i s t, exec i s = .next t → t.err = true →
    (∃ need, Completed t t.errCode 0 (wordOf need) 0 0 ∧ (t.errCode ≠ .frameTruncated → need = 0)) ∧ t.errCode ≠ .ok ∧
    SameInputs s t ∧
    (if i = .authStart ∨ i = .authChal ∨ i = .authFinish then
      LoggedOut s t ∧ t.authState = .failed ∧ t.env = s.env ∧ SameOutside (logoutOutputs s) s t
    else SameKeys s t ∧ SameBytes s t)

/-- Rules R37, R39 to R41, R51, R90 and R357 (derived): no command writes an operand register, CTRL, CMD or CMD_OVR, and a command
writes window bytes and registers only where the model says that its rule may (DEDUCED, notes/assumptions/6.md). -/
def Obligations.CommandsKeepInputsAndUnlistedBytes : Prop :=
  ∀ i s t, exec i s = .next t → SameInputs s t ∧ SameOutside (mayWrite i s) s t ∧
    ∀ r, r ∉ [Reg.status, .res0, .res1, .res2, .res3] → r ∉ mayWriteInfo i s → regValue t r = regValue s r

/-- Rule R361 (derived): a command completes after as many host steps as its countdown says, unless the host resets FCSE or stops
on a bus error.  The countdown itself is the model's own (notes/assumptions/4.md). -/
def Obligations.CommandsCompleteWithinTheirCountdown : Prop :=
  ∀ s t, s.busy = true → Steps s.countdown s t → (∀ k u, k < s.countdown → Steps k s u → ¬ SoftResetNow u) →
    completionDue t = true ∧ t.latch = s.latch ∧ t.cmd = s.cmd

/-- Rule R318: the interrupt output. -/
def Obligations.InterruptFollowsDoneAndEnable : Prop :=
  (∀ s, irq s = ((regValue s .ctrl).getLsbD 0 && (regValue s .status).getLsbD 1)) ∧
  (∀ s t, completionDue s = true → step s = .next t → irq t = s.irqEn) ∧
  (∀ s w, HostWrites s 0x00C 4 w → s.busy = false → ∃ t, step s = .next t ∧ irq t = false) ∧
  (∀ s v, HostWrites s 0x010 4 v → v.getLsbD 1 = true → ∃ t, step s = .next t ∧ irq t = false) ∧
  (∀ s v, HostWrites s 0x008 4 v → v.getLsbD 1 = false → s.done = true → ∃ t, step s = .next t ∧ irq t = v.getLsbD 0) ∧
  (∀ s, SoftResetNow s → ∃ t, step s = .next t ∧ irq t = false) ∧
  (∀ s, PowerOn s → irq s = false)

/-! ### The bus -/

/-- Rules R84, R85 and R314 (derived): which accesses are bus errors; FCSE has no next state then, and every other access has one.
That an offset at or over 0x60000 (no offset of FCSE, rule R81) and a width other than 1, 2 and 4 are bus errors too is the model's
choice (DESIGN CHOICE, notes/assumptions/12.md; DEDUCED, notes/assumptions/19.md). -/
def Obligations.BusErrorsAreTheForbiddenAccesses : Prop :=
  ∀ s off width, ((∃ v, HostWrites s off width v) ∨ ∃ x, HostReads s off width x) →
    (Permitted off width → ∃ t, step s = .next t) ∧ (¬ Permitted off width → step s = .fault (.busError off width))

/-- Rules R33, R37, R38 and R87 (derived): what a write to a register other than CMD and STATUS does while no command runs; for CTRL
one that does not reset. -/
def Obligations.RegisterWritesStoreTheirFields : Prop :=
  ∀ s v, s.busy = false →
    (HostWrites s 0x008 4 v → v.getLsbD 1 = false → ∃ t, step s = .next t ∧ SameFcse { s with irqEn := v.getLsbD 0 } t ∧
      t.env = s.env ∧ regValue t .ctrl = v &&& 0x00000001) ∧
    (HostWrites s 0x014 4 v → ∃ t, step s = .next t ∧ SameFcse { s with oplen := t.oplen } t ∧
      t.env = s.env ∧ regValue t .oplen = v &&& 0x0001FFFF) ∧
    (HostWrites s 0x018 4 v → ∃ t, step s = .next t ∧ SameFcse { s with opoff := t.opoff } t ∧
      t.env = s.env ∧ regValue t .opoff = v &&& 0x0000FFFF) ∧
    (HostWrites s 0x01C 4 v → ∃ t, step s = .next t ∧ SameFcse { s with opaux := t.opaux } t ∧
      t.env = s.env ∧ regValue t .opaux = v &&& 0x0001FFFF) ∧
    (HostWrites s 0x020 4 v → ∃ t, step s = .next t ∧ SameFcse { s with frhdr := t.frhdr } t ∧
      t.env = s.env ∧ regValue t .frhdr = v &&& 0x0000FFFF) ∧
    (∀ off ∈ [0x000, 0x004, 0x024, 0x028, 0x02C, 0x030, 0x034, 0x038, 0x03C], HostWrites s off 4 v →
      ∃ t, step s = .next t ∧ SameFcse s t ∧ t.env = s.env)

/-- Rules R43, R86 and R87 (derived): a write to a window stores its bytes little-endian, and one to a read-only window is
ignored; nothing else changes. -/
def Obligations.WindowWritesAreLittleEndian : Prop :=
  ∀ s off width v w, HostWrites s off width v → s.busy = false → width = 1 ∨ width = 2 ∨ width = 4 → off % width = 0 →
    Window.base w ≤ off → off + width ≤ Window.base w + Window.size w → ∃ t, step s = .next t ∧
      SameFcse { s with mem := t.mem } t ∧
      ∀ a, readByte t.mem a =
        if w.hostWritable = true ∧ off ≤ a ∧ a < off + width then v.extractLsb' (8 * (a - off)) 8 else readByte s.mem a

/-- Rules R83, R86 and R87 (derived): what a read returns while no command runs, and that it changes no state of FCSE. -/
def Obligations.ReadsReturnValuesWithoutSideEffects : Prop :=
  ∀ s off width x, HostReads s off width x → s.busy = false → Permitted off width → ∃ t, step s = .next t ∧
    SameFcse s t ∧ t.env = s.env ∧ (∀ y, y ≠ x → tempValue t.host.temps y = tempValue s.host.temps y) ∧
    (∀ r, width = 4 → off = 4 * allRegs.idxOf r → tempValue t.host.temps x = regValue s r) ∧
    (0x40 ≤ off → (tempValue t.host.temps x).toNat < 256 ^ width ∧
      ∀ j < width, (tempValue t.host.temps x).extractLsb' (8 * j) 8 = readByte s.mem (off + j))

/-- Rule R36: a write to STATUS. -/
def Obligations.StatusWriteClearsItsBits : Prop :=
  ∀ s v, HostWrites s 0x010 4 v → ∃ t, step s = .next t ∧
    SameFcse { s with done := s.done && !v.getLsbD 1, err := s.err && !v.getLsbD 2, cmdOvr := s.cmdOvr && !v.getLsbD 3 } t ∧
    (Inductive s → s.busy = true → t.done = s.done ∧ t.err = s.err) ∧ (v.getLsbD 1 = true → irq t = false)

/-- Rule R355 (derived): a write while a command runs, to anything but CTRL and STATUS.  That one to a read-only register or window,
which rule R87 lets be ignored, sets CMD_OVR too is the model's reading (DEDUCED, notes/assumptions/8.md). -/
def Obligations.BusyWritesAreDropped : Prop :=
  ∀ s off width v, HostWrites s off width v → s.busy = true → Permitted off width → off ≠ 0x008 → off ≠ 0x010 →
    ∃ t, step s = .next t ∧ SameFcse { s with cmdOvr := true } t ∧ t.env = s.env

/-- Rule R356 (derived): the writes that a running command accepts.  That a write to CTRL with both SRST and IRQ_EN set leaves
IRQ_EN = 0 is the model's reading (DEDUCED, notes/assumptions/7.md). -/
def Obligations.BusyControlWritesTakeEffect : Prop :=
  ∀ s v, s.busy = true →
    (HostWrites s 0x008 4 v → v.getLsbD 1 = false →
      ∃ t, step s = .next t ∧ SameFcse { s with irqEn := v.getLsbD 0 } t ∧ t.cmdOvr = s.cmdOvr) ∧
    (HostWrites s 0x008 4 v → v.getLsbD 1 = true → ∃ t, step s = .next t ∧ ResetValues t ∧ t.cmdOvr = false) ∧
    (HostWrites s 0x010 4 v →
      ∃ t, step s = .next t ∧ t.done = (s.done && !v.getLsbD 1) ∧ t.err = (s.err && !v.getLsbD 2) ∧
        t.cmdOvr = (s.cmdOvr && !v.getLsbD 3))

/-- Rules R90 and R357 (derived): what a read while a command runs returns where the rules give a value.  Which window bytes the
running command may write (runningOutputs) and which registers (runningRegs) is the model's reading of the commands' rules
(DEDUCED, notes/assumptions/6.md), and so is that LTK_INFO, SESS_INFO and SUBK_INFO read as their values under a command that
may not write them (DEDUCED, notes/assumptions/21.md). -/
def Obligations.BusyReadsOfKnownStateReturnIt : Prop :=
  ∀ s off width x, HostReads s off width x → s.busy = true → Permitted off width → Inductive s →
    ∃ t, step s = .next t ∧ SameFcse s t ∧
    (∀ r ∈ [Reg.id, .version, .ctrl, .cmd, .status, .oplen, .opoff, .opaux, .frhdr], width = 4 → off = 4 * allRegs.idxOf r →
      tempValue t.host.temps x = regValue s r) ∧
    (width = 4 → off = 0x010 →
      (tempValue t.host.temps x).extractLsb' 0 3 = 0b001#3 ∧ (tempValue t.host.temps x).extractLsb' 8 8 = 0#8) ∧
    (∀ r ∉ runningRegs s, width = 4 → off = 4 * allRegs.idxOf r → tempValue t.host.temps x = regValue s r) ∧
    ((∀ c k v, decode s.latch.cmd ≠ .ok (.kload c k v)) →
      (width = 4 → off = 0x024 → tempValue t.host.temps x = ltkInfoValue s) ∧
      ((∀ i ∈ [Instr.authStart, .authChal, .authFinish, .logout], decode s.latch.cmd ≠ .ok i) →
        (width = 4 → off = 0x028 → tempValue t.host.temps x = sessInfoValue s) ∧
        ((∀ k, decode s.latch.cmd ≠ .ok (.cmsubk k)) → width = 4 → off = 0x02C →
          tempValue t.host.temps x = subkInfoValue s))) ∧
    (0x40 ≤ off → (tempValue t.host.temps x).toNat < 256 ^ width ∧
      ∀ j < width, inRanges (runningOutputs s) (off + j) = false →
        (tempValue t.host.temps x).extractLsb' (8 * j) 8 = readByte s.mem (off + j))

/-- Rule R49 (derived: its access clause): the host's steps neither write the hidden handshake record nor depend on it; only a
soft reset clears it. -/
def Obligations.HiddenRecordIsInvisibleToTheHost : Prop :=
  ∀ s h, completionDue s = false →
    (∀ t, step s = .next t → (¬ SoftResetNow s → t.hidden = s.hidden) ∧
      ∃ u, step { s with hidden := h } = .next u ∧ { u with hidden := t.hidden } = t) ∧
    (∀ f, step s = .fault f → step { s with hidden := h } = .fault f)

/-! ### Frames -/

/-- Rules R143, R144 and R146: the frames without operands. -/
def Obligations.FixedFramesAreEncoded : Prop :=
  EncodesFixedFrame .fencAck 0x01 1 [0x00, 0x00, 0xFF, 0x00, 0xFF, 0x00] 0 ∧
    EncodesFixedFrame .fencNack 0x02 2 [0x00, 0x00, 0xFF, 0xFF, 0x00, 0x00] 0 ∧
    EncodesFixedFrame .fencErr 0x03 3 [0x00, 0x00, 0xFF, 0x01, 0xFF, 0x7F, 0x81, 0x00] 1 ∧
    (∃ f, parseFrame [0x00, 0x00, 0xFF, 0x01, 0xFF, 0x7F, 0x81, 0x00] = .ok f ∧ f.kind = .error)

/-- Rule R145: FENC.INFO. -/
def Obligations.InfoFramesAreEncoded : Prop :=
  WordsDecodeTo 0x04 (· = .fencInfo) ∧
  (∀ s,
    (65533 < opLen s → Fails .fencInfo s .frameTooLong 0) ∧
    (opLen s ≤ 65533 → 65536 < opOff s + opLen s → Fails .fencInfo s .badOperand 0) ∧
    (opLen s ≤ 65533 → opOff s + opLen s ≤ 65536 →
      let f := ruleInfoFrame s.latch.tfi s.latch.fcmd (s.window .data (opOff s) (opLen s))
      f.length = opLen s + (if opLen s ≤ 253 then 9 else 12) ∧
      ∃ t, exec .fencInfo s = .next t ∧
        Completed t .ok (ruleFrameWord 4 (decide (253 < opLen s)) true s.latch.tfi s.latch.fcmd) (wordOf f.length)
          (wordOf (opLen s + 2)) 1 ∧
        t.window .fout 0 f.length = f ∧ SameInputs s t ∧ SameKeys s t ∧
        SameOutside [Window.fout.range 0 f.length] s t))

/-- Rule R147: the header parse, and that bytes received later change a result only where it asked for them. -/
def Obligations.HeaderParseFollowsItsRule : Prop :=
  (∀ b, (∀ i, ¬ IsStart b i) → parseHeader b = .truncated (max 2 (b.length + 1))) ∧
  (∀ b s, FirstStart b s →
    let p := decide (0 < s)
    (b.length < s + 4 → parseHeader b = .truncated (s + 4)) ∧
    (∀ c0 c1, b[s + 2]? = some c0 → b[s + 3]? = some c1 →
      (c0 = 0x00 → c1 = 0xFF → parseHeader b = .ok ⟨.ack, s, p, false, 0, s + 4, s + 4 + p.toNat⟩) ∧
      (c0 = 0xFF → c1 = 0x00 → parseHeader b = .ok ⟨.nack, s, p, false, 0, s + 4, s + 4 + p.toNat⟩) ∧
      (c0 = 0xFF → c1 = 0xFF →
        (b.length < s + 7 → parseHeader b = .truncated (s + 7)) ∧
        (∀ m l k, b[s + 4]? = some m → b[s + 5]? = some l → b[s + 6]? = some k →
          ((m.toNat + l.toNat + k.toNat) % 256 ≠ 0 → parseHeader b = .err .frameLenChecksum) ∧
          ((m.toNat + l.toNat + k.toNat) % 256 = 0 → m = 0 → l = 0 → parseHeader b = .err .frameBadCode) ∧
          ((m.toNat + l.toNat + k.toNat) % 256 = 0 → ¬ (m = 0 ∧ l = 0) →
            let len := 256 * m.toNat + l.toNat
            parseHeader b = .ok ⟨.data, s, p, true, len, s + 7, s + 7 + len + 1 + p.toNat⟩))) ∧
      (¬ (c0 = 0x00 ∧ c1 = 0xFF) → ¬ (c0 = 0xFF ∧ c1 = 0x00) → ¬ (c0 = 0xFF ∧ c1 = 0xFF) →
        ((c0.toNat + c1.toNat) % 256 ≠ 0 → parseHeader b = .err .frameLenChecksum) ∧
        ((c0.toNat + c1.toNat) % 256 = 0 → c0 = 0 → parseHeader b = .err .frameBadCode) ∧
        ((c0.toNat + c1.toNat) % 256 = 0 → c0 ≠ 0 →
          parseHeader b = .ok ⟨.data, s, p, false, c0.toNat, s + 4, s + 4 + c0.toNat + 1 + p.toNat⟩)))) ∧
  (∀ b c s, FirstStart b s → FirstStart (b ++ c) s) ∧
  (∀ b c need, parseHeader b = .truncated need →
    b.length < need ∧ ((b ++ c).length < need → parseHeader (b ++ c) = .truncated need)) ∧
  (∀ b c h, parseHeader b = .ok h → parseHeader (b ++ c) = .ok h) ∧
  (∀ b c e, parseHeader b = .err e → parseHeader (b ++ c) = .err e)

/-- Rule R148: FIDENT. -/
def Obligations.FidentReportsTheHeader : Prop :=
  WordsDecodeTo 0x08 (· = .fident) ∧
  (∀ s,
    (∀ need, parseHeader (received s) = .truncated need → Fails .fident s .frameTruncated need) ∧
    (∀ code, parseHeader (received s) = .err code → Fails .fident s code 0) ∧
    (∀ h, parseHeader (received s) = .ok h → ∃ t, exec .fident s = .next t ∧
      Completed t .ok (ruleFrameWord (ruleKind h.kind) h.ext h.pre 0 0) (wordOf h.total) (wordOf h.len) (wordOf h.start) ∧
      (h.kind = .ack ∨ h.kind = .nack ∨ h.kind = .data) ∧ SameInputs s t ∧ SameKeys s t ∧ SameBytes s t) ∧
    (opLen s = 0 → Fails .fident s .frameTruncated 2) ∧
    (received s = [0x00, 0x00, 0xFF, 0x06, 0xFA, 0xD5, 0x03] →
      ∃ t, exec .fident s = .next t ∧ Completed t .ok 0x15 13 6 1))

/-- Rule R149: the full parse. -/
def Obligations.FullParseFollowsItsRule : Prop :=
  ∀ b,
    (∀ need, parseHeader b = .truncated need → parseFrame b = .truncated need) ∧
    (∀ e, parseHeader b = .err e → parseFrame b = .err e) ∧
    (∀ h, parseHeader b = .ok h → b.length < h.total → parseFrame b = .truncated h.total) ∧
    (∀ h, parseHeader b = .ok h → h.total ≤ b.length →
      (h.kind = .ack ∨ h.kind = .nack →
        (h.pre = true → b[h.start + 4]? ≠ some 0x00 → parseFrame b = .err .frameBadPostamble) ∧
        (h.pre = false ∨ b[h.start + 4]? = some 0x00 →
          parseFrame b = .ok ⟨h.kind, h.start, h.pre, false, 0, h.total, 0, 0, []⟩)) ∧
      (h.kind = .data →
        let d := slice b h.hdr (h.hdr + h.len)
        (∀ c, b[h.hdr + h.len]? = some c → (sumBytes d + c.toNat) % 256 ≠ 0 → parseFrame b = .err .frameDataChecksum) ∧
        (∀ c, b[h.hdr + h.len]? = some c → (sumBytes d + c.toNat) % 256 = 0 →
          (h.pre = true → b[h.hdr + h.len + 1]? ≠ some 0x00 → parseFrame b = .err .frameBadPostamble) ∧
          (h.pre = false ∨ b[h.hdr + h.len + 1]? = some 0x00 →
            (d = [0x7F] → parseFrame b = .ok ⟨.error, h.start, h.pre, h.ext, 1, h.total, 0, 0, []⟩) ∧
            (h.len = 1 → d ≠ [0x7F] → parseFrame b = .err .frameBadCode) ∧
            (∀ x y p, d = x :: y :: p →
              parseFrame b = .ok ⟨.info, h.start, h.pre, h.ext, h.len, h.total, x, y, p⟩))))) ∧
    (∀ c f, parseFrame b = .ok f → parseFrame (b ++ c) = .ok f)

/-- Rule R150: FDEC. -/
def Obligations.FdecDeliversTheFrame : Prop :=
  WordsDecodeTo 0x09 (· = .fdec) ∧
  (∀ s,
    (∀ need, parseFrame (received s) = .truncated need → Fails .fdec s .frameTruncated need) ∧
    (∀ code, parseFrame (received s) = .err code → Fails .fdec s code 0) ∧
    (∀ f, parseFrame (received s) = .ok f → ∃ t, exec .fdec s = .next t ∧
      Completed t .ok
        (if f.kind = .info then ruleFrameWord 4 f.ext f.pre f.tfi f.fcmd else ruleFrameWord (ruleKind f.kind) f.ext f.pre 0 0)
        (wordOf f.total) (wordOf f.len) (wordOf f.start) ∧
      SameInputs s t ∧ SameKeys s t ∧
      (f.kind = .info → f.len - 2 ≤ 65533 ∧ t.window .data 0 (f.len - 2) = f.payload ∧
        SameOutside [Window.data.range 0 (f.len - 2)] s t) ∧
      (f.kind ≠ .info → SameBytes s t)) ∧
    (received s = [0x00, 0x00, 0xFF, 0x06, 0xFA, 0xD5, 0x03, 0x32, 0x01, 0x06, 0x07, 0xE8, 0x00] →
      ∃ t, exec .fdec s = .next t ∧ Completed t .ok 0x0003D514 13 6 1 ∧
        t.window .data 0 4 = [0x32, 0x01, 0x06, 0x07]))

/-- Rule R151: FDEC gives back what the encoders wrote, behind any noise without a start code and before any trailing bytes. -/
def Obligations.FdecDecodesWhatWasEncoded : Prop :=
  ∀ i s t u noise tail, i = .fencAck ∨ i = .fencNack ∨ i = .fencErr ∨ i = .fencInfo → exec i s = .next t → t.err = false →
    (∀ j, ¬ IsStart noise j) → received u = noise ++ t.window .fout 0 t.res1.toNat ++ tail →
    ∃ v, exec .fdec u = .next v ∧
      Completed v .ok t.res0 (wordOf (noise.length + t.res1.toNat)) t.res2 (wordOf (noise.length + 1)) ∧
      (i = .fencInfo → v.window .data 0 (opLen s) = s.window .data (opOff s) (opLen s)) ∧
      (i ≠ .fencInfo → SameBytes u v)

/-- Rules R147 and R149 for the changes of rule R152 (derived): what the parse of a frame with one byte changed answers, byte by
byte.  A changed preamble changes nothing; a changed postamble, data byte or data checksum is reported; a changed length byte or
length checksum is reported too, but where it makes a special code, whose frame may be whole.  Where this differs from rule R152
the model follows the parse rules (DEDUCED, notes/assumptions/18.md).  Left to FullParseFollowsItsRule are a changed start code
with another one behind it, the LCS of a 253-byte payload changed to FF, and a marker byte of the long form changed to 01. -/
def Obligations.ChangedFrameBytesGiveTheirResults : Prop :=
  (∀ f ∈ [ackFrame, nackFrame, errFrame], ∀ x : Byte, x ≠ 0 →
    parseFrame (f.set 0 x) = parseFrame f ∧ parseFrame (f.set (f.length - 1) x) = .err .frameBadPostamble) ∧
  (∀ x : Byte,
    (x ≠ 0x00 → parseFrame (ackFrame.set 1 x) =
      if x = 0xFF then .ok ⟨.nack, 0, false, false, 0, 4, 0, 0, []⟩ else .truncated 7) ∧
    (x ≠ 0xFF → parseFrame (ackFrame.set 2 x) = .truncated 7) ∧
    (x ≠ 0x00 → parseFrame (ackFrame.set 3 x) =
      if x = 0x01 ∨ x = 0xFF then .truncated 8 else .err .frameLenChecksum) ∧
    (x ≠ 0xFF → parseFrame (ackFrame.set 4 x) = if x = 0x00 then .err .frameBadCode else .err .frameLenChecksum)) ∧
  (∀ x : Byte,
    (x ≠ 0x00 → parseFrame (nackFrame.set 1 x) = .truncated 7) ∧
    (x ≠ 0xFF → parseFrame (nackFrame.set 2 x) = if x = 0x00 then .err .frameBadCode else .truncated 7) ∧
    (x ≠ 0xFF → parseFrame (nackFrame.set 3 x) = if x = 0x00 then .err .frameBadCode else .err .frameLenChecksum) ∧
    (x ≠ 0x00 → parseFrame (nackFrame.set 4 x) =
      if x = 0x01 then .truncated 262 else if x = 0xFF then .truncated 8 else .err .frameLenChecksum)) ∧
  (∀ x : Byte,
    (x ≠ 0x00 → parseFrame (errFrame.set 1 x) = if x = 0xFF then .truncated 260 else .truncated 9) ∧
    (x ≠ 0xFF → parseFrame (errFrame.set 2 x) = .truncated 9) ∧
    (x ≠ 0x01 → parseFrame (errFrame.set 3 x) =
      if x = 0x00 then .err .frameBadPostamble else if x = 0xFF then .truncated 32651 else .err .frameLenChecksum) ∧
    (x ≠ 0xFF → parseFrame (errFrame.set 4 x) = .err .frameLenChecksum) ∧
    (x ≠ 0x7F → parseFrame (errFrame.set 5 x) = .err .frameDataChecksum) ∧
    (x ≠ 0x81 → parseFrame (errFrame.set 6 x) = .err .frameDataChecksum)) ∧
  (∀ (tfi fcmd : Byte) (p : List Byte) (i : Nat) (x : Byte), p.length ≤ 65533 →
    let f := ruleInfoFrame tfi fcmd p
    let h := if p.length ≤ 253 then 5 else 8
    i < f.length → f[i]? ≠ some x →
      (i = 0 → parseFrame (f.set i x) = parseFrame f) ∧
      (i = 1 ∨ i = 2 → (∀ j, ¬ IsStart (f.set i x) j) → parseFrame (f.set i x) = .truncated (f.length + 1)) ∧
      (i = 1 → x = 0xFF → p.length ≤ 252 → parseFrame (f.set i x) = .err .frameLenChecksum) ∧
      (p.length ≤ 253 → i = 3 → parseFrame (f.set i x) = .err .frameLenChecksum) ∧
      (p.length ≤ 252 → i = 4 → parseFrame (f.set i x) = .err .frameLenChecksum) ∧
      (p.length = 253 → i = 4 → x ≠ 0x00 → x ≠ 0xFF → parseFrame (f.set i x) = .err .frameLenChecksum) ∧
      (p.length = 253 → i = 4 → x = 0x00 → parseFrame (f.set i x) =
        if tfi = 0x00 then .ok ⟨.nack, 1, true, false, 0, 6, 0, 0, []⟩ else .err .frameBadPostamble) ∧
      (253 < p.length → i = 3 ∨ i = 4 → x = 0x00 → parseFrame (f.set i x) = .err .frameBadPostamble) ∧
      (253 < p.length → i = 3 ∨ i = 4 → x ≠ 0x00 → x ≠ 0x01 → parseFrame (f.set i x) = .err .frameLenChecksum) ∧
      (253 < p.length → 5 ≤ i → i < 8 → parseFrame (f.set i x) = .err .frameLenChecksum) ∧
      (h ≤ i → i + 1 < f.length → parseFrame (f.set i x) = .err .frameDataChecksum) ∧
      (i + 1 = f.length → parseFrame (f.set i x) = .err .frameBadPostamble))

/-! ### Keys and chains -/

/-- Rule R202: KLOAD. -/
def Obligations.KloadLoadsTheKeySlot : Prop :=
  WordsDecodeTo 0x10 (fun i => ∃ c keyno version, i = .kload c keyno version ∧ keyno.toNat ≤ 13) ∧
  (∀ c keyno version s, ∃ t, exec (.kload c keyno version) s = .next t ∧
    Completed t .ok 0 (wordOf (match c with | none => 0 | some f => klen f)) 0 0 ∧ SameInputs s t ∧ t.env = s.env ∧
    (c = none → t.ltk = none ∧ t.window .ltkKey 0 24 = zeros 24 ∧ regValue t .ltkInfo = 0) ∧
    (∀ f, c = some f →
      let k := s.window .key 0 (klen f)
      t.ltk = some { ciph := f, keyno := keyno, version := version, degen := degenerate f k } ∧
        t.window .ltkKey 0 24 = k ++ zeros (24 - klen f) ∧
        regValue t .ltkInfo = (ciphCode c).setWidth 32 ||| keyno.setWidth 32 <<< 4 ||| version.setWidth 32 <<< 8) ∧
    (s.authState = .awaitingChallenge ∨ s.authState = .responseSent →
      t.authState = .failed ∧ SessionEnded t ∧ KeychainDropped (fun _ => true) s t) ∧
    (s.authState ≠ .awaitingChallenge → s.authState ≠ .responseSent →
      t.authState = s.authState ∧ t.hidden = s.hidden ∧ t.session = s.session ∧
        KeychainDropped (fun k => !sessionSlot k) s t) ∧
    SameOutside (kloadOutputs s) s t)

/-- Rules R203 and R213: which keys are degenerate, and that a degenerate two-key key, a derived one among them, encrypts as
single DES with its first half. -/
def Obligations.DegenerateKeysActAsSingleDes : Prop :=
  (∀ k, degenerate .des k = true ∧ degenerate .tdes3 k = false ∧ degenerate .aes128 k = false) ∧
  (∀ k : List Byte, k.length = 16 →
    (degenerate .tdes2 k = true ↔ ∀ i < 8, byteAt k i &&& 0xFE = byteAt k (8 + i) &&& 0xFE)) ∧
  (∀ k : List Byte, k.length = 16 → degenerate .tdes2 k = true → ∀ x : List Byte, x.length = 8 →
    encBlock .tdes2 k x = desE8 (k.take 8) x ∧ decBlock .tdes2 k x = desD8 (k.take 8) x) ∧
  (∀ a b : List Byte, a.length = 8 → b.length = 8 →
    let k := deriveSessionKey .tdes2 true a b
    k.length = 16 ∧ degenerate .tdes2 k = true ∧ ∀ x : List Byte, x.length = 8 →
      encBlock .tdes2 k x = desE8 (k.take 8) x ∧ decBlock .tdes2 k x = desD8 (k.take 8) x)

/-- Rules R201 and R205 to R207: the block functions of the four families, with `k1`, `k2` and `k3` the key's thirds, each of which
the other undoes, and the chains block by block. -/
def Obligations.ChainsFollowTheBlockEquations : Prop :=
  (∀ key x : List Byte,
    let k1 := key.take 8
    let k2 := (key.drop 8).take 8
    let k3 := (key.drop 16).take 8
    (key.length = 8 → x.length = 8 → encBlock .des key x = desE8 k1 x ∧ decBlock .des key x = desD8 k1 x) ∧
    (key.length = 16 → x.length = 8 →
      encBlock .tdes2 key x = desE8 k1 (desD8 k2 (desE8 k1 x)) ∧ decBlock .tdes2 key x = desD8 k1 (desE8 k2 (desD8 k1 x))) ∧
    (key.length = 24 → x.length = 8 →
      encBlock .tdes3 key x = desE8 k3 (desD8 k2 (desE8 k1 x)) ∧ decBlock .tdes3 key x = desD8 k1 (desE8 k2 (desD8 k3 x))) ∧
    (key.length = 16 → x.length = 16 → encBlock .aes128 key x = aesE16 key x ∧ decBlock .aes128 key x = aesD16 key x) ∧
    ∀ c, key.length = klen c → x.length = bs c → (encBlock c key x).length = bs c ∧ (decBlock c key x).length = bs c ∧
      decBlock c key (encBlock c key x) = x ∧ encBlock c key (decBlock c key x) = x) ∧
  ∀ c key m iv p, key.length = klen c → iv.length = bs c → p.length = m * bs c →
    let e := cbcEnc c key m iv p
    let d := cbcDec c key m iv p
    e.out.length = p.length ∧ d.out.length = p.length ∧
    (∀ i < m, block (bs c) e.out i =
      encBlock c key (xorBytes (block (bs c) p i) (if i = 0 then iv else block (bs c) e.out (i - 1)))) ∧
    (∀ i < m, block (bs c) d.out i =
      xorBytes (decBlock c key (block (bs c) p i)) (if i = 0 then iv else block (bs c) p (i - 1))) ∧
    e.iv = (if m = 0 then iv else block (bs c) e.out (m - 1)) ∧ d.iv = (if m = 0 then iv else block (bs c) p (m - 1)) ∧
    cbcMac c key m iv p = e.iv

/-- Rule R208: CENC. -/
def Obligations.CencEncryptsInPlace : Prop :=
  WordsDecodeTo 0x11 (fun i => ∃ k, i = .cenc k) ∧
  (∀ k s,
    (keyOf s k = none → Fails (.cenc k) s .noKey 0) ∧
    (∀ r, keyOf s k = some r →
      (65536 < opOff s + opLen s → Fails (.cenc k) s .badOperand 0) ∧
      (opOff s + opLen s ≤ 65536 → opLen s % bs r.fam ≠ 0 → Fails (.cenc k) s .badBlockLength 0) ∧
      (opOff s + opLen s ≤ 65536 → opLen s % bs r.fam = 0 →
        let e := cbcEnc r.fam r.key (opLen s / bs r.fam) (s.window .iv 0 (bs r.fam)) (s.window .data (opOff s) (opLen s))
        ∃ t, exec (.cenc k) s = .next t ∧ Completed t .ok 0 (wordOf (opLen s)) 0 0 ∧
          t.window .data (opOff s) (opLen s) = e.out ∧ t.window .iv 0 (bs r.fam) = e.iv ∧ SameInputs s t ∧ SameKeys s t ∧
          SameOutside [Window.data.range (opOff s) (opLen s), Window.iv.range 0 (bs r.fam)] s t ∧
          (opLen s = 0 → SameBytes s t))))

/-- Rule R209: CDEC. -/
def Obligations.CdecDecryptsInPlace : Prop :=
  WordsDecodeTo 0x12 (fun i => ∃ k, i = .cdec k) ∧
  (∀ k s,
    (keyOf s k = none → Fails (.cdec k) s .noKey 0) ∧
    (∀ r, keyOf s k = some r →
      (65536 < opOff s + opLen s → Fails (.cdec k) s .badOperand 0) ∧
      (opOff s + opLen s ≤ 65536 → opLen s % bs r.fam ≠ 0 → Fails (.cdec k) s .badBlockLength 0) ∧
      (opOff s + opLen s ≤ 65536 → opLen s % bs r.fam = 0 →
        let d := cbcDec r.fam r.key (opLen s / bs r.fam) (s.window .iv 0 (bs r.fam)) (s.window .data (opOff s) (opLen s))
        ∃ t, exec (.cdec k) s = .next t ∧ Completed t .ok 0 (wordOf (opLen s)) 0 0 ∧
          t.window .data (opOff s) (opLen s) = d.out ∧ t.window .iv 0 (bs r.fam) = d.iv ∧
          (opLen s ≠ 0 → t.window .iv 0 (bs r.fam) = s.window .data (opOff s + (opLen s - bs r.fam)) (bs r.fam)) ∧
          SameInputs s t ∧ SameKeys s t ∧
          SameOutside [Window.data.range (opOff s) (opLen s), Window.iv.range 0 (bs r.fam)] s t ∧
          (opLen s = 0 → SameBytes s t))))

/-- Rule R211: CMACB. -/
def Obligations.CmacbAdvancesTheIv : Prop :=
  WordsDecodeTo 0x13 (fun i => ∃ k, i = .cmacb k) ∧
  (∀ k s,
    (keyOf s k = none → Fails (.cmacb k) s .noKey 0) ∧
    (∀ r, keyOf s k = some r →
      (65536 < opOff s + opLen s → Fails (.cmacb k) s .badOperand 0) ∧
      (opOff s + opLen s ≤ 65536 → opLen s % bs r.fam ≠ 0 → Fails (.cmacb k) s .badBlockLength 0) ∧
      (opOff s + opLen s ≤ 65536 → opLen s % bs r.fam = 0 →
        ∃ t, exec (.cmacb k) s = .next t ∧ Completed t .ok 0 (wordOf (opLen s)) 0 0 ∧
          t.window .iv 0 (bs r.fam) =
            cbcMac r.fam r.key (opLen s / bs r.fam) (s.window .iv 0 (bs r.fam)) (s.window .data (opOff s) (opLen s)) ∧
          SameInputs s t ∧ SameKeys s t ∧ SameOutside [Window.iv.range 0 (bs r.fam)] s t ∧
          (opLen s = 0 → SameBytes s t))))

/-- Rule R204: the key of a slot, and that an empty slot stops every command that uses one with NO_KEY. -/
def Obligations.KeySlotSelection : Prop :=
  ∀ s,
    (s.ltk = none → keyOf s .ltk = none) ∧ (s.session = none → keyOf s .sess = none) ∧
    (∀ l, s.ltk = some l → keyOf s .ltk = some { fam := l.ciph, key := s.window .ltkKey 0 (klen l.ciph) }) ∧
    (∀ l, s.session = some l → keyOf s .sess = some { fam := l.ciph, key := s.window .sessKey 0 (klen l.ciph) }) ∧
    (∀ k, keyOf s k = none → Fails (.cenc k) s .noKey 0 ∧ Fails (.cdec k) s .noKey 0 ∧ Fails (.cmacb k) s .noKey 0 ∧
      Fails (.cmsubk k) s .noKey 0 ∧ Fails (.cmac k) s .noKey 0)

/-- Rule R214: decrypting undoes encrypting, CMACB leaves the IV that CENC leaves, and a chain may be split at any block
boundary. -/
def Obligations.ChainLawsHold : Prop :=
  (∀ k s t u, exec (.cenc k) s = .next t → t.err = false → keyOf u k = keyOf s k → opOff u = opOff s → opLen u = opLen s →
    u.window .iv 0 16 = s.window .iv 0 16 → u.window .data (opOff s) (opLen s) = t.window .data (opOff s) (opLen s) →
    ∃ v, exec (.cdec k) u = .next v ∧ v.err = false ∧
      v.window .data (opOff s) (opLen s) = s.window .data (opOff s) (opLen s) ∧
      v.window .iv 0 16 = t.window .iv 0 16) ∧
  (∀ k s t, exec (.cenc k) s = .next t → ∃ v, exec (.cmacb k) s = .next v ∧ v.errCode = t.errCode ∧
    v.window .iv 0 16 = t.window .iv 0 16) ∧
  (∀ k s off a b r, keyOf s k = some r → a % bs r.fam = 0 → b % bs r.fam = 0 → off + a + b ≤ 65536 → off + a < 65536 →
    ∀ i, i = .cenc k ∨ i = .cdec k ∨ i = .cmacb k →
      ∃ t t1 t2, exec i (withRange s off (a + b)) = .next t ∧ exec i (withRange s off a) = .next t1 ∧
        exec i (withRange t1 (off + a) b) = .next t2 ∧ t.err = false ∧ t1.err = false ∧ t2.err = false ∧ SameBytes t t2)

/-! ### CMAC -/

/-- Rules R240 and R241: doubling is a shift of the block as a number, reduced by the constant of its size, and the cryptogram is
the encrypted zero block, which is its CBC-MAC. -/
def Obligations.DoublingIsAReducedShift : Prop :=
  rb 8 = 0x1B ∧ rb 16 = 0x87 ∧
  (∀ x : List Byte, x.length = 8 ∨ x.length = 16 →
    let b := x.length
    (dbl b x).length = b ∧
      beNat (dbl b x) =
        (beNat x * 2) % 256 ^ b ^^^ (if 256 ^ b / 2 ≤ beNat x then (if b = 8 then 0x1B else 0x87) else 0) ∧
      (∀ i, i + 1 < b → byteAt (dbl b x) i = (byteAt x i <<< 1) ||| (byteAt x (i + 1) >>> 7)) ∧
      byteAt (dbl b x) (b - 1) = (byteAt x (b - 1) <<< 1) ^^^ (if (byteAt x 0).getLsbD 7 then rb b else 0)) ∧
  (∀ c key, key.length = klen c → cryptogram c key = encBlock c key (zeros (bs c)) ∧
    cryptogram c key = cbcMac c key 1 (zeros (bs c)) (zeros (bs c)))

/-- Rule R243: CMSUBK, with the subkeys of rule R242 under `nist`. -/
def Obligations.CmsubkDerivesTheKeychain : Prop :=
  WordsDecodeTo 0x20 (fun i => ∃ k, i = .cmsubk k) ∧
  (∀ k s,
    (keyOf s k = none → Fails (.cmsubk k) s .noKey 0) ∧
    (∀ r, keyOf s k = some r →
      let b := bs r.fam
      let lc := encBlock r.fam r.key (zeros b)
      ∃ t, exec (.cmsubk k) s = .next t ∧ Completed t .ok 0 (wordOf b) 0 0 ∧ SameInputs s t ∧
        t.keychain = some { slot := k, bs := BitVec.ofNat 5 b } ∧ regValue t .subkInfo = wordOf b ∧
        t.window .subkNopad 0 16 = dbl b lc ++ zeros (16 - b) ∧
        t.window .subkPad 0 16 = dbl b (dbl b lc) ++ zeros (16 - b) ∧
        t.ltk = s.ltk ∧ t.session = s.session ∧ t.authState = s.authState ∧ t.hidden = s.hidden ∧ t.env = s.env ∧
        SameOutside [Window.subkPad.whole, Window.subkNopad.whole] s t))

/-- Rules R244 and R245 (derived: the preparation, for a legal target): what the prepared message is. -/
def Obligations.PreparedMessageFollowsItsRule : Prop :=
  ∀ (d : List Byte) (target : Nat) (sk : Subkeys) (b : Nat), 0 < b → sk.nopad.length = b → sk.pad.length = b →
    let m := prepare d target sk b
    (target = 0 → d.length ≠ 0 → d.length % b = 0 →
      m = d.take (d.length - b) ++ xorBytes (d.drop (d.length - b)) sk.nopad ∧ m.length = d.length) ∧
    (target = 0 → d.length = 0 ∨ d.length % b ≠ 0 →
      ∃ r < b, (d.length + 1 + r) % b = 0 ∧ m.length = d.length + 1 + r ∧
        let q := d ++ [0x80] ++ zeros r
        m = q.take (q.length - b) ++ xorBytes (q.drop (q.length - b)) sk.pad) ∧
    (target ≠ 0 → legalTarget target b d.length = true → d.length = target →
      m = d.take (d.length - b) ++ xorBytes (d.drop (d.length - b)) sk.nopad ∧ m.length = target) ∧
    (target ≠ 0 → legalTarget target b d.length = true → d.length ≠ target →
      let q := d ++ [0x80] ++ zeros (target - d.length - 1)
      m = q.take (q.length - b) ++ xorBytes (q.drop (q.length - b)) sk.pad ∧ m.length = target)

/-- Rule R247: CMAC. -/
def Obligations.CmacComputesTheMac : Prop :=
  WordsDecodeTo 0x21 (fun i => ∃ k, i = .cmac k) ∧
  (∀ k s,
    (keyOf s k = none → Fails (.cmac k) s .noKey 0) ∧
    (∀ r, keyOf s k = some r →
      let b := bs r.fam
      let target := opAux s
      let illegal := target ≠ 0 ∧ (target % b ≠ 0 ∨ target < b ∨ target < opLen s ∨ 65536 < target)
      ((∀ c, s.keychain = some c → c.slot ≠ k) → Fails (.cmac k) s .noSubkeys 0) ∧
      (∀ c, s.keychain = some c → c.slot = k →
        (65536 < opOff s + opLen s → Fails (.cmac k) s .badOperand 0) ∧
        (opOff s + opLen s ≤ 65536 → illegal → Fails (.cmac k) s .badTargetLength 0) ∧
        (opOff s + opLen s ≤ 65536 → ¬ illegal →
          let m := prepare (s.window .data (opOff s) (opLen s)) target
            { nopad := s.window .subkNopad 0 b, pad := s.window .subkPad 0 b } b
          let iv := cbcMac r.fam r.key (m.length / b) (s.window .iv 0 b) m
          ∃ t, exec (.cmac k) s = .next t ∧ Completed t .ok 0 8 (wordOf m.length) 0 ∧ SameInputs s t ∧ SameKeys s t ∧
            t.window .iv 0 b = iv ∧ t.window .mac 0 16 = iv.take 8 ++ zeros 8 ∧
            SameOutside [Window.iv.range 0 b, Window.mac.whole] s t))) ∧
    (∀ r c, Inductive s → keyOf s k = some r → s.keychain = some c → c.slot = k → c.bs = BitVec.ofNat 5 (bs r.fam)))

/-- Rule R249: the same inputs give the same MAC and IV; a message with one byte changed leaves another IV, and for a block of 8
bytes another MAC. -/
def Obligations.CmacIsDeterminedAndSensitive : Prop :=
  ∀ k s u t r, exec (.cmac k) s = .next t → t.err = false → keyOf s k = some r → keyOf u k = some r →
    keychainOf u k = true → opOff u + opLen u ≤ 65536 → opLen u = opLen s → opAux u = opAux s →
    u.window .iv 0 16 = s.window .iv 0 16 → u.window .subkPad 0 16 = s.window .subkPad 0 16 →
    u.window .subkNopad 0 16 = s.window .subkNopad 0 16 →
    let d := s.window .data (opOff s) (opLen s)
    let e := u.window .data (opOff u) (opLen u)
    ∃ v, exec (.cmac k) u = .next v ∧ v.err = false ∧
      (e = d → v.window .iv 0 16 = t.window .iv 0 16 ∧ v.window .mac 0 16 = t.window .mac 0 16) ∧
      (∀ j < opLen s, byteAt e j ≠ byteAt d j → (∀ i < opLen s, i ≠ j → byteAt e i = byteAt d i) →
        v.window .iv 0 (bs r.fam) ≠ t.window .iv 0 (bs r.fam) ∧
        (bs r.fam = 8 → v.window .mac 0 8 ≠ t.window .mac 0 8))

/-! ### The handshake -/

/-- Rule R273: AUTH.START. -/
def Obligations.AuthStartBeginsAHandshake : Prop :=
  WordsDecodeTo 0x30 (· = .authStart) ∧
  authCmd .des = 0x0A ∧ authCmd .tdes2 = 0x0A ∧ authCmd .tdes3 = 0x1A ∧ authCmd .aes128 = 0xAA ∧
  (∀ s,
    (s.ltk = none → AuthFails .authStart s .noKey) ∧
    (∀ l, s.ltk = some l → ∃ t, exec .authStart s = .next t ∧ Completed t .ok 0 2 0 0 ∧ LoggedOut s t ∧
      t.window .acTx 0 2 = [authCmd l.ciph, l.keyno.setWidth 8] ∧ t.authState = .awaitingChallenge ∧ SameInputs s t ∧
      t.env = s.env ∧ SameOutside (logoutOutputs s ++ [Window.acTx.range 0 2]) s t))

/-- Rule R276 (derived): AUTH.CHAL; past the state check, over the states in which a long-term key is held, which every reachable
one is (rule R276's first corner case, EveryStepKeepsTheInvariants).  That the drawn bytes are the next of a list in the
environment, and that a draw takes them off it and is counted, is the model's form of the random source (DESIGN CHOICE,
notes/assumptions/3.md). -/
def Obligations.AuthChalAnswersTheChallenge : Prop :=
  WordsDecodeTo 0x31 (· = .authChal) ∧
  (∀ s, s.authState ≠ .awaitingChallenge → AuthFails .authChal s .authBadState) ∧
  (∀ s l, s.ltk = some l → s.authState = .awaitingChallenge →
    let n := challengeLen l.ciph
    let b := bs l.ciph
    let key := s.window .ltkKey 0 (klen l.ciph)
    let status := readByte s.mem (Window.base .acRx + (opLen s - 1))
    (64 < opLen s → AuthFails .authChal s .badOperand) ∧
    (opLen s < 1 → AuthFails .authChal s .authBadLength) ∧
    (1 ≤ opLen s → opLen s ≤ 64 → status ≠ 0xAF → AuthFails .authChal s .authBadStatus) ∧
    (1 ≤ opLen s → opLen s ≤ 64 → status = 0xAF → opLen s - 1 ≠ n → AuthFails .authChal s .authBadLength) ∧
    (opLen s = n + 1 → status = 0xAF →
      let rndb := cbcDec l.ciph key (n / b) (zeros b) (s.window .acRx 0 n)
      let rnda := drawnBytes s n
      let c := cbcEnc l.ciph key (2 * n / b) rndb.iv (rnda ++ rotl1 rndb.out)
      ∃ t, exec .authChal s = .next t ∧ Completed t .ok 0 (wordOf (1 + 2 * n)) 0 0 ∧ SameInputs s t ∧
        t.window .acTx 0 (1 + 2 * n) = 0xAF :: c.out ∧
        t.hidden = { n := n, rnda := rnda ++ zeros (16 - n), rndb := rndb.out ++ zeros (16 - n),
                     civ := c.iv ++ zeros (16 - b) } ∧
        t.authState = .responseSent ∧ t.ltk = s.ltk ∧ t.session = s.session ∧ t.keychain = s.keychain ∧
        t.env = { s.env with entropy := s.env.entropy.drop n, draws := s.env.draws + 1 } ∧
        SameOutside [Window.acTx.range 0 (1 + 2 * n)] s t ∧
        HandshakeForm t l)) ∧
  (∀ s n, n ≤ s.env.entropy.length → drawnBytes s n = s.env.entropy.take n)

/-- Rules R277, R278 and R210: AUTH.FINISH, the session it installs, and the session key's bytes, row by row of rule R210's
table. -/
def Obligations.AuthFinishInstallsTheSession : Prop :=
  WordsDecodeTo 0x32 (· = .authFinish) ∧
  (∀ c degen (a b : List Byte), a.length = challengeLen c → b.length = challengeLen c →
    SessionKeyRow c degen a b (deriveSessionKey c degen a b) ∧ (deriveSessionKey c degen a b).length = klen c ∧
      (c = .tdes2 → degen = true → degenerate c (deriveSessionKey c degen a b) = true)) ∧
  (∀ s, s.authState ≠ .verifying → AuthFails .authFinish s .authBadState) ∧
  (∀ s l, HandshakeForm s l → s.authState = .verifying →
    let n := challengeLen l.ciph
    let b := bs l.ciph
    let key := s.window .ltkKey 0 (klen l.ciph)
    let status := readByte s.mem (Window.base .acRx + (opLen s - 1))
    let reply := (cbcDec l.ciph key (n / b) (s.hidden.civ.take b) (s.window .acRx 0 n)).out
    let rnda := s.hidden.rnda.take n
    let sk := deriveSessionKey l.ciph l.degen rnda (s.hidden.rndb.take n)
    (64 < opLen s → AuthFails .authFinish s .badOperand) ∧
    (opLen s < 1 → AuthFails .authFinish s .authBadLength) ∧
    (1 ≤ opLen s → opLen s ≤ 64 → status ≠ 0x00 → AuthFails .authFinish s .authBadStatus) ∧
    (1 ≤ opLen s → opLen s ≤ 64 → status = 0x00 → opLen s - 1 ≠ n → AuthFails .authFinish s .authBadLength) ∧
    (opLen s = n + 1 → status = 0x00 → reply ≠ rotl1 rnda → AuthFails .authFinish s .authMismatch) ∧
    (reply = rotl1 rnda ↔ rotr1 reply = rnda) ∧
    (opLen s = n + 1 → status = 0x00 → reply = rotl1 rnda →
      ∃ t, exec .authFinish s = .next t ∧ Completed t .ok 0 0 0 0 ∧ SameInputs s t ∧ t.env = s.env ∧
        t.session = some { ciph := l.ciph, keyno := l.keyno, degen := l.degen } ∧ sk.length = klen l.ciph ∧
        SessionKeyRow l.ciph l.degen rnda (s.hidden.rndb.take n) (t.window .sessKey 0 (klen l.ciph)) ∧
        t.window .sessKey 0 24 = sk ++ zeros (24 - klen l.ciph) ∧
        regValue t .sessInfo = (ciphCode (some l.ciph)).setWidth 32 ||| l.keyno.setWidth 32 <<< 4 ∧
        t.window .iv 0 16 = zeros 16 ∧ t.hidden = Handshake.clear ∧ t.authState = .authenticated ∧ t.ltk = s.ltk ∧
        (l.ciph = .tdes3 ∨ l.ciph = .aes128 →
          let lc := encBlock l.ciph sk (zeros b)
          t.keychain = some { slot := .sess, bs := BitVec.ofNat 5 b } ∧
            t.window .subkNopad 0 16 = dbl b lc ++ zeros (16 - b) ∧
            t.window .subkPad 0 16 = dbl b (dbl b lc) ++ zeros (16 - b) ∧
            SameOutside [Window.sessKey.whole, Window.iv.whole, Window.subkPad.whole, Window.subkNopad.whole] s t) ∧
        (l.ciph = .des ∨ l.ciph = .tdes2 →
          t.keychain = s.keychain ∧ SameOutside [Window.sessKey.whole, Window.iv.whole] s t)))

/-- Rule R279: LOGOUT. -/
def Obligations.LogoutEndsTheSession : Prop :=
  WordsDecodeTo 0x33 (· = .logout) ∧
  (∀ s, ∃ t, exec .logout s = .next t ∧ Completed t .ok 0 0 0 0 ∧ LoggedOut s t ∧ t.authState = .idle ∧ SameInputs s t ∧
    t.env = s.env ∧ SameOutside (logoutOutputs s) s t)

/-- Rule R280: AUTH_STATE after each command's completion, as a function of the state at its issue. -/
def Obligations.AuthStateFollowsTheTransitionTable : Prop :=
  State.reset.authState = .idle ∧
  (∀ s w, s.busy = false → s.authState ≠ .challengeSent → s.authState ≠ .verifying →
    ∃ t, step (issueWith s w 0) = .next t ∧
      match decode w with
      | .error _ => t.authState = s.authState
      | .ok .authStart => t.authState = if t.err then .failed else .awaitingChallenge
      | .ok .authChal =>
        if s.authState = .awaitingChallenge then t.authState = if t.err then .failed else .responseSent
        else t.err = true ∧ t.authState = .failed
      | .ok .authFinish =>
        if s.authState = .responseSent then t.authState = if t.err then .failed else .authenticated
        else t.err = true ∧ t.authState = .failed
      | .ok .logout => t.err = false ∧ t.authState = .idle
      | .ok (.kload _ _ _) =>
        t.err = false ∧
          t.authState = if s.authState = .awaitingChallenge ∨ s.authState = .responseSent then .failed else s.authState
      | .ok _ => t.authState = s.authState)

/-- Rule R281: a reply changed in any of its first `n` bytes is rejected, where the unchanged one is accepted. -/
def Obligations.TamperedReplyIsRejected : Prop :=
  ∀ s t u l, HandshakeForm s l → exec .authFinish s = .next t → t.err = false →
    u.ltk = s.ltk → u.hidden = s.hidden → u.authState = s.authState → opLen u = opLen s →
    u.window .ltkKey 0 24 = s.window .ltkKey 0 24 →
    readByte u.mem (Window.base .acRx + s.hidden.n) = readByte s.mem (Window.base .acRx + s.hidden.n) →
    u.window .acRx 0 s.hidden.n ≠ s.window .acRx 0 s.hidden.n →
    ∃ v, exec .authFinish u = .next v ∧ AuthFailsWith u v .authMismatch ∧ v.session = none ∧ v.authState = .failed

/-- Rule R270 (derived: the handshake with a card that holds the same key): the card's challenge is answered, the card can read
RndA and the rotated RndB out of the answer, and its honest reply installs the key derived from both. -/
def Obligations.HonestCardAuthenticates : Prop :=
  ∀ s l (rndb : List Byte), s.ltk = some l → s.authState = .awaitingChallenge → rndb.length = challengeLen l.ciph →
    opLen s = challengeLen l.ciph + 1 →
    let n := challengeLen l.ciph
    let b := bs l.ciph
    let key := s.window .ltkKey 0 (klen l.ciph)
    let challenge := cardSends l.ciph key (zeros b) rndb
    s.window .acRx 0 (n + 1) = challenge ++ [0xAF] →
    ∃ t, exec .authChal s = .next t ∧ t.err = false ∧
      let answer := t.window .acTx 1 (2 * n)
      cardReads l.ciph key (lastBlock b challenge) answer = drawnBytes s n ++ rotl1 rndb ∧
      ∀ u, u.ltk = t.ltk → u.window .ltkKey 0 24 = t.window .ltkKey 0 24 → u.hidden = t.hidden → u.authState = .verifying →
        opLen u = n + 1 →
        u.window .acRx 0 (n + 1) = cardSends l.ciph key (lastBlock b answer) (rotl1 (drawnBytes s n)) ++ [0x00] →
        ∃ v, exec .authFinish u = .next v ∧ v.err = false ∧ v.authState = .authenticated ∧
          v.session = some { ciph := l.ciph, keyno := l.keyno, degen := l.degen } ∧
          v.window .sessKey 0 (klen l.ciph) = deriveSessionKey l.ciph l.degen (drawnBytes s n) rndb

/-- Rules R44 to R47, R49 and R43 (derived: who may write what): the key slots, the keychain, the handshake state and its
hidden record and the MAC window change only by the commands that write them, an issue, or a soft reset. -/
def Obligations.OnlyTheirCommandsWriteTheSlots : Prop :=
  ∀ s t, step s = .next t → ¬ SoftResetNow s →
    let handshake := ∃ i, CompletesNow s i ∧
      (i = .authStart ∨ i = .authChal ∨ i = .authFinish ∨ i = .logout ∨ ∃ c k v, i = .kload c k v)
    ((t.ltk ≠ s.ltk ∨ t.window .ltkKey 0 24 ≠ s.window .ltkKey 0 24) → ∃ c k v, CompletesNow s (.kload c k v)) ∧
    ((t.session ≠ s.session ∨ t.window .sessKey 0 24 ≠ s.window .sessKey 0 24) → handshake) ∧
    (t.session ≠ none → t.session ≠ s.session → CompletesNow s .authFinish) ∧
    ((t.keychain ≠ s.keychain ∨ t.window .subkPad 0 16 ≠ s.window .subkPad 0 16 ∨
      t.window .subkNopad 0 16 ≠ s.window .subkNopad 0 16) → handshake ∨ ∃ k, CompletesNow s (.cmsubk k)) ∧
    (t.hidden ≠ s.hidden → handshake) ∧
    (t.authState ≠ s.authState → handshake ∨ ∃ w, HostWrites s 0x00C 4 w ∧ s.busy = false ∧
      (decode w = .ok .authStart ∨ decode w = .ok .authFinish)) ∧
    (t.window .mac 0 16 ≠ s.window .mac 0 16 → ∃ k, CompletesNow s (.cmac k))

/-! ### Reset and the invariants -/

/-- Rule R350: what power-on reset leaves, with DATA, FIN and FOUT at any bytes. -/
def Obligations.PowerOnLeavesTheResetValues : Prop :=
  ∀ s, PowerOn s →
    regValue s .id = 0x46435345 ∧ regValue s .version = 0x00000001 ∧
    (∀ r ∈ [Reg.ctrl, .cmd, .status, .oplen, .opoff, .opaux, .frhdr, .ltkInfo, .sessInfo, .subkInfo, .res0, .res1, .res2,
      .res3], regValue s r = 0) ∧
    (∀ w ∈ [Window.key, .iv, .mac, .subkPad, .subkNopad, .ltkKey, .sessKey, .acTx, .acRx],
      s.window w 0 w.size = zeros w.size) ∧
    s.hidden.n = 0 ∧ s.hidden.rnda = zeros 16 ∧ s.hidden.rndb = zeros 16 ∧ s.hidden.civ = zeros 16 ∧
    s.busy = false ∧ s.latch = { cmd := 0, oplen := 0, opoff := 0, opaux := 0, tfi := 0, fcmd := 0 } ∧ irq s = false

/-- Rules R351 and R362 (derived): a soft reset.  Which bytes an abandoned command could have written (runningOutputs) is the
model's reading of the commands' rules (DEDUCED, notes/assumptions/6.md), and so is that IRQ_EN is 0 where the value written has
bit 0 set too (DEDUCED, notes/assumptions/7.md). -/
def Obligations.SoftResetKeepsOnlyTheBuffers : Prop :=
  ∀ s, SoftResetNow s → ∃ t, step s = .next t ∧ ResetValues t ∧ t.busy = false ∧ t.done = false ∧
    (s.busy = false → ∀ a, Window.base .data ≤ a → readByte t.mem a = readByte s.mem a) ∧
    (s.busy = true → ∀ a, Window.base .data ≤ a → inRanges (runningOutputs s) a = false →
      readByte t.mem a = readByte s.mem a)

/-- Rule R352 (derived: its first sentence), and that a state right after reset meets what every step keeps. -/
def Obligations.ResetMeetsEveryInvariant : Prop :=
  StateInvariant State.reset ∧ Inductive State.reset ∧ KeyForm State.reset ∧ MemoryForm State.reset ∧ PowerOn State.reset ∧
    ∀ s, PowerOn s → Inductive s ∧ KeyForm s ∧ MemoryForm s

/-- Rule R54, as it reads while a command runs (derived): every step keeps the invariants of the slots and of the handshake. -/
def Obligations.EveryStepKeepsTheInvariants : Prop := ∀ s t, Inductive s → step s = .next t → Inductive t

/-- Rules R44 to R46 and R49 (derived): every step keeps the forms of the keys, the subkeys and the hidden record. -/
def Obligations.EveryStepKeepsTheKeyForms : Prop := ∀ s t, Inductive s → KeyForm s → step s = .next t → KeyForm t

/-- Rules R43 and R82 (derived): every step keeps memory in canonical form, with bytes in windows only. -/
def Obligations.EveryStepKeepsTheMemoryForm : Prop := ∀ s t, MemoryForm s → step s = .next t → MemoryForm t

/-- Rule R54: the state invariants hold in every state a run reaches from any power-on state (for which EveryStepKeepsTheInvariants
is the step lemma). -/
def Obligations.ReachableStatesMeetTheInvariants : Prop := ∀ s, Reachable s → StateInvariant s

/-- Rules R44, R45, R47 and R358 (derived): every other command leaves the handshake alone, and the key slots with their key
bytes. -/
def Obligations.OtherCommandsKeepTheHandshake : Prop :=
  ∀ i s t, exec i s = .next t → i ≠ .authStart → i ≠ .authChal → i ≠ .authFinish → i ≠ .logout →
    (∀ c k v, i ≠ .kload c k v) →
    t.authState = s.authState ∧ t.hidden = s.hidden ∧ t.ltk = s.ltk ∧ t.session = s.session ∧ t.env = s.env ∧
      t.window .ltkKey 0 24 = s.window .ltkKey 0 24 ∧ t.window .sessKey 0 24 = s.window .sessKey 0 24 ∧
      t.window .acTx 0 64 = s.window .acTx 0 64 ∧ t.window .acRx 0 64 = s.window .acRx 0 64

/-! ### Outcomes -/

/-- Rule R115, its last sentence (derived): no step refuses, a step faults only for a bus error of the host (rule R85), and the
completion step of any 32-bit word, a command's or not, completes it. -/
def Obligations.EveryStepHasAnOutcome : Prop :=
  (∀ s, Unrefused (step s)) ∧
    (∀ s, completionDue s = true → ∃ t, step s = .next t ∧ t.busy = false ∧ t.done = true ∧ SameInputs s t) ∧
    (∀ s (w : Word), ∃ t, step (issueWith s w 0) = .next t ∧ t.busy = false ∧ t.done = true ∧ t.cmd = w)
end

