-- ==== Sys2Proof/Laws/Aes.lean ====
section
/-! SUPPORT. The property of the AES block functions that 41_cipher.md rule R200 (c) lets a model rest on: `AES_D` undoes `AES_E`
and the reverse. -/

namespace Sys2Proof.Machine

@[simp] theorem xorBytes_length (a b : List Byte) : (xorBytes a b).length = min a.length b.length := by simp [xorBytes]

/-- XOR with the same string twice. -/
theorem xorBytes_cancel {a k : List Byte} (h : a.length ≤ k.length) : xorBytes (xorBytes a k) k = a := by
  induction a generalizing k with
  | nil => simp [xorBytes]
  | cons x a ih =>
    cases k with
    | nil => simp at h
    | cons y k =>
      have := ih (k := k) (by simpa using h)
      simp only [xorBytes, List.zipWith_cons_cons] at this ⊢
      rw [this, BitVec.xor_assoc, BitVec.xor_self, BitVec.xor_zero]

theorem aesInvS_aesS (x : Byte) : aesInvS (aesS x) = x := by
  have h : ∀ i < 256, aesInvS (aesS (BitVec.ofNat 8 i)) = BitVec.ofNat 8 i := by decide +kernel
  simpa using h x.toNat x.isLt

theorem aesS_aesInvS (x : Byte) : aesS (aesInvS x) = x := by
  have h : ∀ i < 256, aesS (aesInvS (BitVec.ofNat 8 i)) = BitVec.ofNat 8 i := by decide +kernel
  simpa using h x.toNat x.isLt

/-- A string of 16 bytes, byte by byte. -/
theorem bytes16 {s : List Byte} (h : s.length = 16) : ∃ a b c d e f g i j k l m n o p q : Byte,
    s = [a, b, c, d, e, f, g, i, j, k, l, m, n, o, p, q] := by
  match s, h with
  | [a, b, c, d, e, f, g, i, j, k, l, m, n, o, p, q], _ => exact ⟨a, b, c, d, e, f, g, i, j, k, l, m, n, o, p, q, rfl⟩

@[simp] theorem aesSubShift_length (s : List Byte) : (aesSubShift s).length = 16 := rfl

@[simp] theorem aesInvSubShift_length (s : List Byte) : (aesInvSubShift s).length = 16 := rfl

@[simp] theorem eachColumn_mixColumn_length (s : List Byte) : (eachColumn mixColumn s).length = 16 := rfl

@[simp] theorem eachColumn_invMixColumn_length (s : List Byte) : (eachColumn invMixColumn s).length = 16 := rfl

theorem aesInvSubShift_aesSubShift {s : List Byte} (h : s.length = 16) : aesInvSubShift (aesSubShift s) = s := by
  obtain ⟨a, b, c, d, e, f, g, i, j, k, l, m, n, o, p, q, rfl⟩ := bytes16 h
  simp [aesInvSubShift, aesSubShift, pickBytes, aesShift, aesInvShift, byteAt, aesInvS_aesS]

theorem aesSubShift_aesInvSubShift {s : List Byte} (h : s.length = 16) : aesSubShift (aesInvSubShift s) = s := by
  obtain ⟨a, b, c, d, e, f, g, i, j, k, l, m, n, o, p, q, rfl⟩ := bytes16 h
  simp [aesInvSubShift, aesSubShift, pickBytes, aesShift, aesInvShift, byteAt, aesS_aesInvS]

/-- Multiplication by 2 distributes over XOR. -/
theorem xtime_xor (x y : Byte) : xtime (x ^^^ y) = xtime x ^^^ xtime y := by
  have hm : (x ^^^ y).msb = (x.msb ^^ y.msb) := by simp [BitVec.msb_eq_getLsbD_last]
  simp only [xtime, hm, BitVec.shiftLeft_xor_distrib]
  have hc : ∀ a b c : Byte, a ^^^ b = a ^^^ c ^^^ (b ^^^ c) := fun a b c => by
    rw [show a ^^^ c ^^^ (b ^^^ c) = a ^^^ b ^^^ (c ^^^ c) by ac_rfl, BitVec.xor_self, BitVec.xor_zero]
  cases x.msb <;> cases y.msb
  · simp
  · simp; ac_rfl
  · simp; ac_rfl
  · simpa using hc (x <<< 1) (y <<< 1) 0x1b

theorem mul3_xor (x y : Byte) : mul3 (x ^^^ y) = mul3 x ^^^ mul3 y := by
  simp only [mul3, xtime_xor]; ac_rfl

theorem mul9_xor (x y : Byte) : mul9 (x ^^^ y) = mul9 x ^^^ mul9 y := by
  simp only [mul9, xtime_xor]; ac_rfl

theorem mul11_xor (x y : Byte) : mul11 (x ^^^ y) = mul11 x ^^^ mul11 y := by
  simp only [mul11, xtime_xor]; ac_rfl

theorem mul13_xor (x y : Byte) : mul13 (x ^^^ y) = mul13 x ^^^ mul13 y := by
  simp only [mul13, xtime_xor]; ac_rfl

theorem mul14_xor (x y : Byte) : mul14 (x ^^^ y) = mul14 x ^^^ mul14 y := by
  simp only [mul14, xtime_xor]; ac_rfl

/-- A fact about every byte from its 256 cases. -/
theorem byte_cases {p : Byte → Prop} (h : ∀ i < 256, p (BitVec.ofNat 8 i)) (x : Byte) : p x := by
  simpa using h x.toNat x.isLt

/-- InvMixColumns after MixColumns, one row: what each byte of the column contributes. -/
theorem invMix_mix_terms (x : Byte) :
    mul14 (xtime x) ^^^ mul11 x ^^^ mul13 x ^^^ mul9 (mul3 x) = x
      ∧ mul14 (mul3 x) ^^^ mul11 (xtime x) ^^^ mul13 x ^^^ mul9 x = 0
      ∧ mul14 x ^^^ mul11 (mul3 x) ^^^ mul13 (xtime x) ^^^ mul9 x = 0
      ∧ mul14 x ^^^ mul11 x ^^^ mul13 (mul3 x) ^^^ mul9 (xtime x) = 0 := by
  revert x
  exact byte_cases (by decide +kernel)

/-- MixColumns after InvMixColumns, one row: what each byte of the column contributes. -/
theorem mix_invMix_terms (x : Byte) :
    xtime (mul14 x) ^^^ mul3 (mul9 x) ^^^ mul13 x ^^^ mul11 x = x
      ∧ xtime (mul11 x) ^^^ mul3 (mul14 x) ^^^ mul9 x ^^^ mul13 x = 0
      ∧ xtime (mul13 x) ^^^ mul3 (mul11 x) ^^^ mul14 x ^^^ mul9 x = 0
      ∧ xtime (mul9 x) ^^^ mul3 (mul13 x) ^^^ mul11 x ^^^ mul14 x = 0 := by
  revert x
  exact byte_cases (by decide +kernel)

theorem invMix_mix_row {a b c d y0 y1 y2 y3 : Byte} (h0 : y0 = xtime a ^^^ mul3 b ^^^ c ^^^ d)
    (h1 : y1 = a ^^^ xtime b ^^^ mul3 c ^^^ d) (h2 : y2 = a ^^^ b ^^^ xtime c ^^^ mul3 d)
    (h3 : y3 = mul3 a ^^^ b ^^^ c ^^^ xtime d) : mul14 y0 ^^^ mul11 y1 ^^^ mul13 y2 ^^^ mul9 y3 = a := by
  subst h0 h1 h2 h3
  simp only [mul14_xor, mul11_xor, mul13_xor, mul9_xor]
  calc _ = (mul14 (xtime a) ^^^ mul11 a ^^^ mul13 a ^^^ mul9 (mul3 a))
        ^^^ (mul14 (mul3 b) ^^^ mul11 (xtime b) ^^^ mul13 b ^^^ mul9 b)
        ^^^ (mul14 c ^^^ mul11 (mul3 c) ^^^ mul13 (xtime c) ^^^ mul9 c)
        ^^^ (mul14 d ^^^ mul11 d ^^^ mul13 (mul3 d) ^^^ mul9 (xtime d)) := by ac_rfl
    _ = a := by
      rw [(invMix_mix_terms a).1, (invMix_mix_terms b).2.1, (invMix_mix_terms c).2.2.1, (invMix_mix_terms d).2.2.2]
      simp

theorem mix_invMix_row {a b c d y0 y1 y2 y3 : Byte} (h0 : y0 = mul14 a ^^^ mul11 b ^^^ mul13 c ^^^ mul9 d)
    (h1 : y1 = mul9 a ^^^ mul14 b ^^^ mul11 c ^^^ mul13 d) (h2 : y2 = mul13 a ^^^ mul9 b ^^^ mul14 c ^^^ mul11 d)
    (h3 : y3 = mul11 a ^^^ mul13 b ^^^ mul9 c ^^^ mul14 d) : xtime y0 ^^^ mul3 y1 ^^^ y2 ^^^ y3 = a := by
  subst h0 h1 h2 h3
  simp only [xtime_xor, mul3_xor]
  calc _ = (xtime (mul14 a) ^^^ mul3 (mul9 a) ^^^ mul13 a ^^^ mul11 a)
        ^^^ (xtime (mul11 b) ^^^ mul3 (mul14 b) ^^^ mul9 b ^^^ mul13 b)
        ^^^ (xtime (mul13 c) ^^^ mul3 (mul11 c) ^^^ mul14 c ^^^ mul9 c)
        ^^^ (xtime (mul9 d) ^^^ mul3 (mul13 d) ^^^ mul11 d ^^^ mul14 d) := by ac_rfl
    _ = a := by
      rw [(mix_invMix_terms a).1, (mix_invMix_terms b).2.1, (mix_invMix_terms c).2.2.1, (mix_invMix_terms d).2.2.2]
      simp

theorem invMix_mix (a b c d : Byte) : invMixColumn (mixColumn [a, b, c, d]) = [a, b, c, d] := by
  simp only [mixColumn, invMixColumn, byteAt, List.getD_cons_zero, List.getD_cons_succ]
  rw [invMix_mix_row rfl rfl rfl rfl]
  congr 1
  refine List.cons_eq_cons.2 ⟨?_, List.cons_eq_cons.2 ⟨?_, List.cons_eq_cons.2 ⟨?_, rfl⟩⟩⟩
  · refine Eq.trans ?_ (invMix_mix_row (a := b) (b := c) (c := d) (d := a) rfl rfl rfl rfl); ac_rfl
  · refine Eq.trans ?_ (invMix_mix_row (a := c) (b := d) (c := a) (d := b) rfl rfl rfl rfl); ac_rfl
  · refine Eq.trans ?_ (invMix_mix_row (a := d) (b := a) (c := b) (d := c) rfl rfl rfl rfl); ac_rfl

theorem mix_invMix (a b c d : Byte) : mixColumn (invMixColumn [a, b, c, d]) = [a, b, c, d] := by
  simp only [mixColumn, invMixColumn, byteAt, List.getD_cons_zero, List.getD_cons_succ]
  rw [mix_invMix_row rfl rfl rfl rfl]
  congr 1
  refine List.cons_eq_cons.2 ⟨?_, List.cons_eq_cons.2 ⟨?_, List.cons_eq_cons.2 ⟨?_, rfl⟩⟩⟩
  · refine Eq.trans ?_ (mix_invMix_row (a := b) (b := c) (c := d) (d := a) rfl rfl rfl rfl); ac_rfl
  · refine Eq.trans ?_ (mix_invMix_row (a := c) (b := d) (c := a) (d := b) rfl rfl rfl rfl); ac_rfl
  · refine Eq.trans ?_ (mix_invMix_row (a := d) (b := a) (c := b) (d := c) rfl rfl rfl rfl); ac_rfl

/-- A column operation on four columns. -/
theorem eachColumn_columns (g : List Byte → List Byte) {w x y z : List Byte} (hw : w.length = 4) (hx : x.length = 4)
    (hy : y.length = 4) (hz : z.length = 4) : eachColumn g (w ++ x ++ y ++ z) = g w ++ g x ++ g y ++ g z := by
  match w, x, y, z, hw, hx, hy, hz with
  | [_, _, _, _], [_, _, _, _], [_, _, _, _], [_, _, _, _], _, _, _, _ => rfl

theorem columns_invMix_mix {s : List Byte} (h : s.length = 16) : eachColumn invMixColumn (eachColumn mixColumn s) = s := by
  obtain ⟨a, b, c, d, e, f, g, i, j, k, l, m, n, o, p, q, rfl⟩ := bytes16 h
  have hs : [a, b, c, d, e, f, g, i, j, k, l, m, n, o, p, q] = [a, b, c, d] ++ [e, f, g, i] ++ [j, k, l, m] ++ [n, o, p, q] := rfl
  rw [hs, eachColumn_columns _ rfl rfl rfl rfl, eachColumn_columns _ rfl rfl rfl rfl]
  simp only [invMix_mix]

theorem columns_mix_invMix {s : List Byte} (h : s.length = 16) : eachColumn mixColumn (eachColumn invMixColumn s) = s := by
  obtain ⟨a, b, c, d, e, f, g, i, j, k, l, m, n, o, p, q, rfl⟩ := bytes16 h
  have hs : [a, b, c, d, e, f, g, i, j, k, l, m, n, o, p, q] = [a, b, c, d] ++ [e, f, g, i] ++ [j, k, l, m] ++ [n, o, p, q] := rfl
  rw [hs, eachColumn_columns _ rfl rfl rfl rfl, eachColumn_columns _ rfl rfl rfl rfl]
  simp only [mix_invMix]

/-- A list of round keys of 16 bytes. -/
def RoundKeys (ks : List (List Byte)) : Prop := ∀ k ∈ ks, k.length = 16

theorem aesNextKey_length {k : List Byte} (rc : Byte) (h : k.length = 16) : (aesNextKey rc k).length = 16 := by
  obtain ⟨_, _, _, _, _, _, _, _, _, _, _, _, _, _, _, _, rfl⟩ := bytes16 h
  rfl

theorem aesRoundKeys_lengths (n : Nat) (rc : Byte) {k : List Byte} (h : k.length = 16) : RoundKeys (aesRoundKeys n rc k) := by
  induction n generalizing rc k with
  | zero => simp [aesRoundKeys, RoundKeys]
  | succ n ih =>
    intro k' hk'
    rcases List.mem_cons.1 hk' with rfl | hk'
    · exact aesNextKey_length rc h
    · exact ih (xtime rc) (aesNextKey_length rc h) k' hk'

theorem aesEncRounds_length {ks : List (List Byte)} (hk : RoundKeys ks) {s : List Byte} (hs : s.length = 16) :
    (aesEncRounds ks s).length = 16 := by
  induction ks generalizing s with
  | nil => exact hs
  | cons k ks ih =>
    have h16 := hk k (by simp)
    cases ks with
    | nil => simp [aesEncRounds, h16]
    | cons k' ks => exact ih (fun x hx => hk x (by simp [hx])) (by simp [h16])

theorem aesDecRounds_length {ks : List (List Byte)} {s : List Byte} (hs : s.length = 16) : (aesDecRounds ks s).length = 16 := by
  cases ks with
  | nil => exact hs
  | cons k ks => cases ks <;> simp [aesDecRounds]

theorem aesDecRounds_aesEncRounds {ks : List (List Byte)} (hk : RoundKeys ks) {s : List Byte} (hs : s.length = 16) :
    aesDecRounds ks (aesEncRounds ks s) = s := by
  induction ks generalizing s with
  | nil => rfl
  | cons k ks ih =>
    have h16 := hk k (by simp)
    cases ks with
    | nil => simp only [aesEncRounds, aesDecRounds]; rw [xorBytes_cancel (by simp [h16]), aesInvSubShift_aesSubShift hs]
    | cons k' ks =>
      simp only [aesEncRounds, aesDecRounds]
      rw [ih (fun x hx => hk x (by simp [hx])) (by simp [h16]), xorBytes_cancel (by simp [h16]),
        columns_invMix_mix (by simp), aesInvSubShift_aesSubShift hs]

theorem aesEncRounds_aesDecRounds {ks : List (List Byte)} (hk : RoundKeys ks) {s : List Byte} (hs : s.length = 16) :
    aesEncRounds ks (aesDecRounds ks s) = s := by
  induction ks generalizing s with
  | nil => rfl
  | cons k ks ih =>
    have h16 := hk k (by simp)
    cases ks with
    | nil =>
      simp only [aesEncRounds, aesDecRounds]
      rw [aesSubShift_aesInvSubShift (by simp [hs, h16]), xorBytes_cancel (by simp [h16, hs])]
    | cons k' ks =>
      have hk' : RoundKeys (k' :: ks) := fun x hx => hk x (by simp [hx])
      simp only [aesEncRounds, aesDecRounds]
      rw [aesSubShift_aesInvSubShift (by simp), columns_mix_invMix (by simp [h16, aesDecRounds_length hs]),
        xorBytes_cancel (by simp [h16, aesDecRounds_length hs]), ih hk' hs]

theorem aesE16_length {k x : List Byte} (hk : k.length = 16) (hx : x.length = 16) : (aesE16 k x).length = 16 :=
  aesEncRounds_length (aesRoundKeys_lengths 10 1 hk) (by simp [hk, hx])

theorem aesD16_length {k y : List Byte} (hk : k.length = 16) (hy : y.length = 16) : (aesD16 k y).length = 16 := by
  simp [aesD16, aesDecRounds_length hy, hk]

/-- Rule R200 (c): `AES_D(k, AES_E(k, x)) = x`. -/
theorem aesD16_aesE16 {k x : List Byte} (hk : k.length = 16) (hx : x.length = 16) : aesD16 k (aesE16 k x) = x := by
  rw [aesD16, aesE16, aesDecRounds_aesEncRounds (aesRoundKeys_lengths 10 1 hk) (by simp [hk, hx]),
    xorBytes_cancel (by simp [hk, hx])]

/-- Rule R200 (c): `AES_E(k, AES_D(k, y)) = y`. -/
theorem aesE16_aesD16 {k y : List Byte} (hk : k.length = 16) (hy : y.length = 16) : aesE16 k (aesD16 k y) = y := by
  rw [aesD16, aesE16, xorBytes_cancel (by simp [aesDecRounds_length hy, hk]),
    aesEncRounds_aesDecRounds (aesRoundKeys_lengths 10 1 hk) hy]

end Sys2Proof.Machine
end

