-- ==== Sys2Proof/Laws/Des.lean ====
section
/-! SUPPORT. The properties of the DES block functions that 41_cipher.md rule R200 lets a model rest on: `DES_D` undoes `DES_E` and
the reverse, (b), and neither reads a parity bit of the key, (d). -/

namespace Sys2Proof.Machine

@[simp] theorem bytes64_length (x : BitVec 64) : (bytes64 x).length = 8 := by simp [bytes64]

@[simp] theorem desE8_length (k x : List Byte) : (desE8 k x).length = 8 := bytes64_length _

@[simp] theorem desD8_length (k x : List Byte) : (desD8 k x).length = 8 := bytes64_length _

/-- The selected bits as a number, bit for bit. -/
theorem permute_testBit (n v : Nat) (t : List Nat) (a j : Nat) :
    (t.foldl (fun acc i => 2 * acc + (v >>> (n - i)) % 2) a).testBit j
      = if j < t.length then v.testBit (n - t.getD (t.length - 1 - j) 0) else a.testBit (j - t.length) := by
  induction t using List.reverseRecOn generalizing j with
  | nil => simp
  | append_singleton t i ih =>
    rw [List.foldl_append]
    simp only [List.foldl_cons, List.foldl_nil, List.length_append, List.length_singleton]
    have hb : (v >>> (n - i)) % 2 = (v.testBit (n - i)).toNat := by
      rw [Nat.toNat_testBit, Nat.shiftRight_eq_div_pow]
    rw [hb]
    cases j with
    | zero =>
      have h0 : (t ++ [i]).getD (t.length + 1 - 1 - 0) 0 = i := by
        simp [List.getD_eq_getElem?_getD]
      rw [if_pos (by omega), h0, Nat.testBit_zero]
      cases v.testBit (n - i) <;> simp [Nat.add_mod]
    | succ j =>
      have hs : (2 * t.foldl (fun acc i => 2 * acc + (v >>> (n - i)) % 2) a + (v.testBit (n - i)).toNat).testBit (j + 1)
          = (t.foldl (fun acc i => 2 * acc + (v >>> (n - i)) % 2) a).testBit j := by
        rw [Nat.testBit_succ]
        congr 1
        cases v.testBit (n - i)
        · simp
        · simp; omega
      rw [hs, ih]
      by_cases h : j < t.length
      · rw [if_pos h, if_pos (by omega)]
        congr 2
        rw [List.getD_eq_getElem?_getD, List.getD_eq_getElem?_getD, List.getElem?_append_left (by omega)]
        congr 2
        omega
      · rw [if_neg h, if_neg (by omega)]
        congr 1
        omega

/-- The bits that a table selects. -/
theorem permuteBits_getLsbD {n : Nat} (m : Nat) (t : List Nat) (x : BitVec n) (j : Nat) :
    (permuteBits m t x).getLsbD j
      = (decide (j < m) && if j < t.length then x.getLsbD (n - t.getD (t.length - 1 - j) 0) else false) := by
  rw [permuteBits, BitVec.getLsbD_ofNat, permute_testBit]
  congr 1
  split
  · rw [BitVec.testBit_toNat]
  · simp

/-- The two permutations of a block undo each other where their tables do. -/
theorem permute_permute (t u : List Nat) (ht : t.length = 64) (hu : u.length = 64)
    (h : ∀ j < 64, 64 - u.getD (63 - (64 - t.getD (63 - j) 0)) 0 = j ∧ 64 - t.getD (63 - j) 0 < 64) (x : BitVec 64) :
    permuteBits 64 t (permuteBits 64 u x) = x := by
  refine BitVec.eq_of_getLsbD_eq fun j hj => ?_
  have h1 := (h j hj).1
  have h2 := (h j hj).2
  rw [permuteBits_getLsbD, permuteBits_getLsbD, ht, hu]
  simp only [hj, h2, decide_true, Bool.true_and, if_true, show (64 : Nat) - 1 = 63 from rfl, h1]

theorem fp_ip (x : BitVec 64) : permuteBits 64 desFP (permuteBits 64 desIP x) = x :=
  permute_permute _ _ rfl rfl (by decide +kernel) x

theorem ip_fp (x : BitVec 64) : permuteBits 64 desIP (permuteBits 64 desFP x) = x :=
  permute_permute _ _ rfl rfl (by decide +kernel) x

/-- A round, with the halves exchanged before and after, undoes itself. -/
theorem desRound_swap (p : BitVec 32 × BitVec 32) (k : BitVec 48) : desRound (desRound p k).swap k = p.swap := by
  simp [desRound, Prod.swap]

/-- The rounds under the keys in reverse undo the rounds. -/
theorem desRounds_reverse (ks : List (BitVec 48)) (p : BitVec 32 × BitVec 32) :
    ks.reverse.foldl desRound (ks.foldl desRound p).swap = p.swap := by
  induction ks generalizing p with
  | nil => rfl
  | cons k ks ih => simp [List.foldl_append, ih, desRound_swap]

theorem desCrypt_reverse (ks : List (BitVec 48)) (x : BitVec 64) : desCrypt ks.reverse (desCrypt ks x) = x := by
  have halves : ∀ a b : BitVec 32, ((a ++ b).extractLsb' 32 32, (a ++ b).extractLsb' 0 32) = (a, b) := fun a b => by
    refine Prod.ext ?_ ?_ <;>
      (refine BitVec.eq_of_getLsbD_eq fun i hi => ?_
       rw [BitVec.getLsbD_extractLsb', BitVec.getLsbD_append]
       simp [hi])
  have join : ∀ y : BitVec 64, y.extractLsb' 32 32 ++ y.extractLsb' 0 32 = y := fun y => by
    ext i hi
    simp only [BitVec.getElem_append, BitVec.getElem_extractLsb']
    split
    · simp [BitVec.getElem_eq_testBit_toNat, BitVec.getLsbD]
    · rw [show 32 + (i - 32) = i by omega, BitVec.getLsbD_eq_getElem hi]
  simp only [desCrypt, ip_fp, halves]
  have h := desRounds_reverse ks ((permuteBits 64 desIP x).extractLsb' 32 32, (permuteBits 64 desIP x).extractLsb' 0 32)
  rw [Prod.swap] at h
  rw [h]
  simp only [Prod.swap, join, fp_ip]

theorem desCrypt_of_reverse (ks : List (BitVec 48)) (x : BitVec 64) : desCrypt ks (desCrypt ks.reverse x) = x := by
  have h := desCrypt_reverse ks.reverse x
  rwa [List.reverse_reverse] at h

theorem beNat_lt (b : List Byte) : beNat b < 256 ^ b.length := by
  induction b with
  | nil => simp [beNat]
  | cons x b ih =>
    have := x.isLt
    calc beNat (x :: b) < x.toNat * 256 ^ b.length + 256 ^ b.length := by simp only [beNat]; omega
      _ = (x.toNat + 1) * 256 ^ b.length := by ring
      _ ≤ 256 * 256 ^ b.length := Nat.mul_le_mul_right _ (by omega)
      _ = 256 ^ (x :: b).length := by rw [List.length_cons, pow_succ, mul_comm]

/-- A byte of a byte string read back from its number. -/
theorem beNat_digit (b : List Byte) (i : Nat) (h : i < b.length) :
    beNat b / 256 ^ (b.length - 1 - i) % 256 = (b.getD i 0).toNat := by
  induction b generalizing i with
  | nil => simp at h
  | cons x b ih =>
    have hpos : ∀ k, 0 < 256 ^ k := fun k => Nat.pow_pos (by omega)
    cases i with
    | zero =>
      have hx : x.toNat < 256 := x.isLt
      simp only [List.length_cons, Nat.add_sub_cancel, Nat.sub_zero, beNat, List.getD_cons_zero]
      rw [Nat.mul_comm, Nat.mul_add_div (hpos _), Nat.div_eq_of_lt (beNat_lt b), Nat.add_zero, Nat.mod_eq_of_lt hx]
    | succ i =>
      have hi : i < b.length := by simpa using h
      have hsplit : 256 ^ b.length = 256 ^ (b.length - 1 - i) * (256 * 256 ^ i) := by
        rw [← pow_succ', ← pow_add]; congr 1; omega
      have he : (x :: b).length - 1 - (i + 1) = b.length - 1 - i := by simp only [List.length_cons]; omega
      rw [he, beNat, hsplit, show x.toNat * (256 ^ (b.length - 1 - i) * (256 * 256 ^ i)) =
        256 ^ (b.length - 1 - i) * (256 * (256 ^ i * x.toNat)) by ring, Nat.mul_add_div (hpos _),
        Nat.mul_add_mod, ih i hi]
      simp

/-- Eight bytes through 64 bits and back. -/
theorem bytes64_bits64 {b : List Byte} (h : b.length = 8) : bytes64 (bits64 b) = b := by
  refine List.ext_getElem (by simp [h]) fun i hi hb => ?_
  have hi8 : i < 8 := by simpa using hi
  have hlt := beNat_lt b
  have hd := beNat_digit b i hb
  rw [h] at hlt hd
  simp only [bytes64, List.getElem_map, List.getElem_range]
  apply BitVec.eq_of_toNat_eq
  have hm : beNat b % 2 ^ 64 = beNat b := Nat.mod_eq_of_lt hlt
  rw [BitVec.extractLsb'_toNat, bits64, BitVec.toNat_ofNat, hm, Nat.shiftRight_eq_div_pow,
    show 56 - 8 * i = 8 * (8 - 1 - i) by omega, Nat.pow_mul, show (2 : Nat) ^ 8 = 256 from rfl, hd]
  simp [List.getD_eq_getElem?_getD, hb]

/-- 64 bits through eight bytes and back. -/
theorem bits64_bytes64 (x : BitVec 64) : bits64 (bytes64 x) = x := by
  apply BitVec.eq_of_toNat_eq
  simp only [bytes64, bits64, beNat, List.length_cons, List.length_nil, List.range, List.range.loop, List.map_cons, List.map_nil,
    BitVec.extractLsb'_toNat, BitVec.toNat_ofNat, Nat.shiftRight_eq_div_pow]
  have := x.isLt
  omega

/-- Rule R200 (b): `DES_D(k, DES_E(k, x)) = x`. -/
theorem desD8_desE8 (k : List Byte) {x : List Byte} (h : x.length = 8) : desD8 k (desE8 k x) = x := by
  rw [desD8, desE8, bits64_bytes64, desCrypt_reverse, bytes64_bits64 h]

/-- Rule R200 (b): `DES_E(k, DES_D(k, y)) = y`. -/
theorem desE8_desD8 (k : List Byte) {y : List Byte} (h : y.length = 8) : desE8 k (desD8 k y) = y := by
  rw [desD8, desE8, bits64_bytes64, desCrypt_of_reverse, bytes64_bits64 h]

/-- The key schedule reads no parity bit. -/
theorem desSchedule_congr {k k' : BitVec 64} (h : ∀ j < 64, j % 8 ≠ 0 → k.getLsbD j = k'.getLsbD j) :
    desSchedule k = desSchedule k' := by
  have hp : permuteBits 56 desPC1 k = permuteBits 56 desPC1 k' := by
    refine BitVec.eq_of_getLsbD_eq fun j hj => ?_
    have ht : ∀ j < 56, (64 - desPC1.getD (desPC1.length - 1 - j) 0) % 8 ≠ 0 ∧
        64 - desPC1.getD (desPC1.length - 1 - j) 0 < 64 := by decide +kernel
    rw [permuteBits_getLsbD, permuteBits_getLsbD]
    congr 2
    exact h _ (ht j hj).2 (ht j hj).1
  simp only [desSchedule, hp]

/-- The bits of a key that eight bytes give. -/
theorem bits64_getLsbD {b : List Byte} (h : b.length = 8) (j : Nat) (hj : j < 64) :
    (bits64 b).getLsbD j = (b.getD (7 - j / 8) 0).getLsbD (j % 8) := by
  have hx : bytes64 (bits64 b) = b := bytes64_bits64 h
  have hg : b.getD (7 - j / 8) 0 = (bits64 b).extractLsb' (56 - 8 * (7 - j / 8)) 8 := by
    conv_lhs => rw [← hx]
    rw [bytes64, List.getD_eq_getElem?_getD, List.getElem?_map, List.getElem?_range (by omega)]
    rfl
  rw [hg, BitVec.getLsbD_extractLsb']
  have h8 : j % 8 < 8 := Nat.mod_lt _ (by omega)
  simp only [h8, decide_true, Bool.true_and]
  congr 1
  omega

/-- Rule R200 (d): keys that agree up to bit 0 of each byte give the same round keys. -/
theorem desSchedule_parity {k k' : List Byte} (h : k.length = 8) (h' : k'.length = 8)
    (he : k.map (· &&& 0xFE) = k'.map (· &&& 0xFE)) : desSchedule (bits64 k) = desSchedule (bits64 k') := by
  refine desSchedule_congr fun j hj hj8 => ?_
  rw [bits64_getLsbD h j hj, bits64_getLsbD h' j hj]
  have hget := congrArg (fun l => (l.getD (7 - j / 8) 0).getLsbD (j % 8)) he
  have h8 : j % 8 < 8 := Nat.mod_lt _ (by omega)
  have hfe : ∀ i < 8, i ≠ 0 → (0xFE : Byte).getLsbD i = true := by decide
  have hm : ∀ {l : List Byte}, l.length = 8 → ((l.map (· &&& 0xFE)).getD (7 - j / 8) 0).getLsbD (j % 8)
      = (l.getD (7 - j / 8) 0).getLsbD (j % 8) := fun {l} hl => by
    have hi : 7 - j / 8 < l.length := by omega
    rw [List.getD_eq_getElem?_getD, List.getD_eq_getElem?_getD, List.getElem?_map, List.getElem?_eq_getElem hi]
    simp only [Option.map_some, Option.getD_some, BitVec.getLsbD_and, hfe _ h8 hj8, Bool.and_true]
  simpa only [hm h, hm h'] using hget

theorem desE8_parity {k k' : List Byte} (h : k.length = 8) (h' : k'.length = 8)
    (he : k.map (· &&& 0xFE) = k'.map (· &&& 0xFE)) (x : List Byte) : desE8 k x = desE8 k' x := by
  rw [desE8, desE8, desSchedule_parity h h' he]

theorem desD8_parity {k k' : List Byte} (h : k.length = 8) (h' : k'.length = 8)
    (he : k.map (· &&& 0xFE) = k'.map (· &&& 0xFE)) (x : List Byte) : desD8 k x = desD8 k' x := by
  rw [desD8, desD8, desSchedule_parity h h' he]

end Sys2Proof.Machine
end

