-- ==== Sys2Proof/Laws/Block.lean ====
section
/-! SUPPORT. The laws of the per-family block functions and of the chains: lengths, and that each direction undoes the other
(41_cipher.md rules R200, R201, R205 and R206). -/

namespace Sys2Proof.Machine

theorem bs_pos (c : Family) : 0 < bs c := by cases c <;> decide

theorem klen_le (c : Family) : klen c ≤ 24 := by cases c <;> decide

theorem bs_le (c : Family) : bs c ≤ 16 := by cases c <;> decide

theorem encBlock_length {c : Family} {k x : List Byte} (hk : k.length = klen c) (hx : x.length = bs c) :
    (encBlock c k x).length = bs c := by
  cases c
  · simp [encBlock, bs]
  · simp [encBlock, bs]
  · simp [encBlock, bs]
  · exact aesE16_length hk hx

theorem decBlock_length {c : Family} {k y : List Byte} (hk : k.length = klen c) (hy : y.length = bs c) :
    (decBlock c k y).length = bs c := by
  cases c
  · simp [decBlock, bs]
  · simp [decBlock, bs]
  · simp [decBlock, bs]
  · exact aesD16_length hk hy

/-- `D_c(K, E_c(K, x)) = x` (rule R201). -/
theorem decBlock_encBlock {c : Family} {k x : List Byte} (hk : k.length = klen c) (hx : x.length = bs c) :
    decBlock c k (encBlock c k x) = x := by
  cases c
  · exact desD8_desE8 _ hx
  · simp only [encBlock, decBlock]
    rw [desD8_desE8 _ (by simp), desE8_desD8 _ (by simp), desD8_desE8 _ hx]
  · simp only [encBlock, decBlock]
    rw [desD8_desE8 _ (by simp), desE8_desD8 _ (by simp), desD8_desE8 _ hx]
  · exact aesD16_aesE16 hk hx

/-- `E_c(K, D_c(K, y)) = y` (rule R201). -/
theorem encBlock_decBlock {c : Family} {k y : List Byte} (hk : k.length = klen c) (hy : y.length = bs c) :
    encBlock c k (decBlock c k y) = y := by
  cases c
  · exact desE8_desD8 _ hy
  · simp only [encBlock, decBlock]
    rw [desE8_desD8 _ (by simp), desD8_desE8 _ (by simp), desE8_desD8 _ hy]
  · simp only [encBlock, decBlock]
    rw [desE8_desD8 _ (by simp), desD8_desE8 _ (by simp), desE8_desD8 _ hy]
  · exact aesE16_aesD16 hk hy

theorem cbcEnc_succ (c : Family) (k iv p : List Byte) (m : Nat) :
    cbcEnc c k (m + 1) iv p =
      { out := encBlock c k (xorBytes (p.take (bs c)) iv) ++
          (cbcEnc c k m (encBlock c k (xorBytes (p.take (bs c)) iv)) (p.drop (bs c))).out,
        iv := (cbcEnc c k m (encBlock c k (xorBytes (p.take (bs c)) iv)) (p.drop (bs c))).iv } := rfl

theorem cbcDec_succ (c : Family) (k iv q : List Byte) (m : Nat) :
    cbcDec c k (m + 1) iv q =
      { out := xorBytes (decBlock c k (q.take (bs c))) iv ++ (cbcDec c k m (q.take (bs c)) (q.drop (bs c))).out,
        iv := (cbcDec c k m (q.take (bs c)) (q.drop (bs c))).iv } := rfl

/-- The lengths of a chain of encryptions. -/
theorem cbcEnc_lengths {c : Family} {k : List Byte} (hk : k.length = klen c) (m : Nat) {iv p : List Byte}
    (hiv : iv.length = bs c) (hp : p.length = m * bs c) :
    (cbcEnc c k m iv p).out.length = m * bs c ∧ (cbcEnc c k m iv p).iv.length = bs c := by
  induction m generalizing iv p with
  | zero => simpa [cbcEnc] using hiv
  | succ m ih =>
    have hle : bs c ≤ p.length := by rw [hp, Nat.succ_mul]; omega
    have hb : (encBlock c k (xorBytes (p.take (bs c)) iv)).length = bs c := encBlock_length hk (by simp [hiv, hle])
    have := ih hb (p := p.drop (bs c)) (by rw [List.length_drop, hp, Nat.succ_mul]; omega)
    rw [cbcEnc_succ]
    refine ⟨?_, this.2⟩
    simp only [List.length_append, hb, this.1, Nat.succ_mul]
    omega

/-- The lengths of a chain of decryptions. -/
theorem cbcDec_lengths {c : Family} {k : List Byte} (hk : k.length = klen c) (m : Nat) {iv q : List Byte}
    (hiv : iv.length = bs c) (hq : q.length = m * bs c) :
    (cbcDec c k m iv q).out.length = m * bs c ∧ (cbcDec c k m iv q).iv.length = bs c := by
  induction m generalizing iv q with
  | zero => simpa [cbcDec] using hiv
  | succ m ih =>
    have hle : bs c ≤ q.length := by rw [hq, Nat.succ_mul]; omega
    have ht : (q.take (bs c)).length = bs c := by simp [hle]
    have := ih ht (q := q.drop (bs c)) (by rw [List.length_drop, hq, Nat.succ_mul]; omega)
    rw [cbcDec_succ]
    refine ⟨?_, this.2⟩
    simp only [List.length_append, xorBytes_length, decBlock_length hk ht, hiv, this.1, Nat.succ_mul]
    omega

/-- Decrypting a chain gives the data back, and both chains leave the same value. -/
theorem cbcDec_cbcEnc {c : Family} {k : List Byte} (hk : k.length = klen c) (m : Nat) {iv p : List Byte}
    (hiv : iv.length = bs c) (hp : p.length = m * bs c) :
    cbcDec c k m iv (cbcEnc c k m iv p).out = { out := p, iv := (cbcEnc c k m iv p).iv } := by
  induction m generalizing iv p with
  | zero =>
    have : p = [] := List.length_eq_zero_iff.1 (by simpa using hp)
    simp [cbcEnc, cbcDec, this]
  | succ m ih =>
    have hle : bs c ≤ p.length := by rw [hp, Nat.succ_mul]; omega
    have hx : (xorBytes (p.take (bs c)) iv).length = bs c := by simp [hiv, hle]
    have hb : (encBlock c k (xorBytes (p.take (bs c)) iv)).length = bs c := encBlock_length hk hx
    have h := ih hb (p := p.drop (bs c)) (by rw [List.length_drop, hp, Nat.succ_mul]; omega)
    rw [cbcEnc_succ, cbcDec_succ]
    simp only [List.take_append_of_le_length (le_of_eq hb.symm), List.drop_append_of_le_length (le_of_eq hb.symm)]
    rw [List.take_of_length_le (le_of_eq hb), List.drop_of_length_le (le_of_eq hb), List.nil_append, h,
      decBlock_encBlock hk hx, xorBytes_cancel (by simp [hiv, hle])]
    simp

/-- Encrypting a decrypted chain gives the data back. -/
theorem cbcEnc_cbcDec {c : Family} {k : List Byte} (hk : k.length = klen c) (m : Nat) {iv q : List Byte}
    (hiv : iv.length = bs c) (hq : q.length = m * bs c) :
    cbcEnc c k m iv (cbcDec c k m iv q).out = { out := q, iv := (cbcDec c k m iv q).iv } := by
  induction m generalizing iv q with
  | zero =>
    have : q = [] := List.length_eq_zero_iff.1 (by simpa using hq)
    simp [cbcEnc, cbcDec, this]
  | succ m ih =>
    have hle : bs c ≤ q.length := by rw [hq, Nat.succ_mul]; omega
    have ht : (q.take (bs c)).length = bs c := by simp [hle]
    have hx : (xorBytes (decBlock c k (q.take (bs c))) iv).length = bs c := by simp [decBlock_length hk ht, hiv]
    have h := ih ht (q := q.drop (bs c)) (by rw [List.length_drop, hq, Nat.succ_mul]; omega)
    have he : encBlock c k (xorBytes (xorBytes (decBlock c k (q.take (bs c))) iv) iv) = q.take (bs c) := by
      rw [xorBytes_cancel (by simp [decBlock_length hk ht, hiv]), encBlock_decBlock hk ht]
    rw [cbcDec_succ, cbcEnc_succ]
    simp only [List.take_append_of_le_length (le_of_eq hx.symm), List.drop_append_of_le_length (le_of_eq hx.symm)]
    rw [List.take_of_length_le (le_of_eq hx), List.drop_of_length_le (le_of_eq hx), List.nil_append, he, h]
    simp

/-- A chain of encryptions over joined data is the chain over the one and then the other. -/
theorem cbcEnc_append {c : Family} (k : List Byte) (m n : Nat) (iv : List Byte) {p : List Byte} (q : List Byte)
    (hp : p.length = m * bs c) :
    cbcEnc c k (m + n) iv (p ++ q) =
      { out := (cbcEnc c k m iv p).out ++ (cbcEnc c k n (cbcEnc c k m iv p).iv q).out,
        iv := (cbcEnc c k n (cbcEnc c k m iv p).iv q).iv } := by
  induction m generalizing iv p with
  | zero =>
    have : p = [] := List.length_eq_zero_iff.1 (by simpa using hp)
    simp [cbcEnc, this]
  | succ m ih =>
    have hle : bs c ≤ p.length := by rw [hp, Nat.succ_mul]; omega
    have h := ih (encBlock c k (xorBytes (p.take (bs c)) iv)) (p := p.drop (bs c))
      (by rw [List.length_drop, hp, Nat.succ_mul]; omega)
    rw [Nat.add_right_comm, cbcEnc_succ, cbcEnc_succ, List.take_append_of_le_length hle, List.drop_append_of_le_length hle, h]
    simp

end Sys2Proof.Machine
end

