-- ==== Sys2Proof/Laws/Memory.lean ====
section
/-! SUPPORT. The laws of the memory operations: what a byte reads as after a write, that a write keeps the canonical form, and
that canonical memories which read alike are equal. -/

namespace Sys2Proof.Machine

@[simp] theorem readByte_nil (a : Nat) : readByte [] a = 0 := rfl

theorem readByte_cons (c : Host.Cell) (m : List Host.Cell) (a : Nat) :
    readByte (c :: m) a = if c.1 = a then c.2 else readByte m a := rfl

/-- An offset that no cell lists reads as an unlisted byte. -/
theorem readByte_eq_zero {m : List Host.Cell} {a : Nat} (h : ∀ c ∈ m, c.1 ≠ a) : readByte m a = 0 := by
  induction m with
  | nil => rfl
  | cons c m ih =>
    rw [readByte_cons, if_neg (h c (by simp))]
    exact ih fun d hd => h d (by simp [hd])

/-- In joined memories the first one that lists the offset decides. -/
theorem readByte_append (m n : List Host.Cell) (a : Nat) :
    readByte (m ++ n) a = if ∃ c ∈ m, c.1 = a then readByte m a else readByte n a := by
  induction m with
  | nil => simp
  | cons c m ih =>
    by_cases hc : c.1 = a
    · simp [readByte_cons, hc]
    · simp [readByte_cons, hc, ih]

/-- Keeping the cells whose offsets meet a condition. -/
theorem readByte_filter (p : Nat → Bool) (m : List Host.Cell) (a : Nat) :
    readByte (m.filter fun c => p c.1) a = if p a then readByte m a else 0 := by
  induction m with
  | nil => simp
  | cons c m ih =>
    by_cases hc : c.1 = a
    · cases hp : p a <;> simp [readByte_cons, hc, hp, ih]
    · cases hp : p c.1 <;> simp [readByte_cons, hc, hp, ih]

/-- The offsets that the cells of a byte string list lie in its range. -/
theorem cellsOf_range {a : Nat} {b : List Byte} {c : Host.Cell} (h : c ∈ cellsOf a b) :
    a ≤ c.1 ∧ c.1 < a + b.length := by
  induction b generalizing a with
  | nil => simp [cellsOf] at h
  | cons x b ih =>
    have key : c ∈ cellsOf (a + 1) b → a ≤ c.1 ∧ c.1 < a + (x :: b).length := fun h' => by
      have := ih h'; simp only [List.length_cons]; omega
    by_cases hx : x = Memory.unlisted
    · exact key (by simpa [cellsOf, hx] using h)
    · rw [cellsOf, if_neg hx] at h
      rcases List.mem_cons.1 h with rfl | h'
      · simp
      · exact key h'

/-- No cell of a byte string lists an unlisted byte. -/
theorem cellsOf_ne {a : Nat} {b : List Byte} {c : Host.Cell} (h : c ∈ cellsOf a b) : c.2 ≠ Memory.unlisted := by
  induction b generalizing a with
  | nil => simp [cellsOf] at h
  | cons x b ih =>
    by_cases hx : x = Memory.unlisted
    · exact ih (by simpa [cellsOf, hx] using h)
    · rw [cellsOf, if_neg hx] at h
      rcases List.mem_cons.1 h with rfl | h'
      · exact hx
      · exact ih h'

theorem cellsOf_pairwise (a : Nat) (b : List Byte) : (cellsOf a b).Pairwise fun c d => c.1 < d.1 := by
  induction b generalizing a with
  | nil => simp [cellsOf]
  | cons x b ih =>
    by_cases hx : x = Memory.unlisted
    · simpa [cellsOf, hx] using ih (a + 1)
    · rw [cellsOf, if_neg hx, List.pairwise_cons]
      exact ⟨fun c hc => by have := (cellsOf_range hc).1; simp only; omega, ih (a + 1)⟩

theorem readByte_cellsOf (a : Nat) (b : List Byte) (x : Nat) :
    readByte (cellsOf a b) x = if a ≤ x ∧ x < a + b.length then b.getD (x - a) 0 else 0 := by
  induction b generalizing a with
  | nil => simp [cellsOf]
  | cons y b ih =>
    have tail : readByte (cellsOf (a + 1) b) x
        = if a + 1 ≤ x ∧ x < a + (y :: b).length then (y :: b).getD (x - a) 0 else 0 := by
      rw [ih]
      by_cases h : a + 1 ≤ x
      · obtain ⟨k, rfl⟩ := Nat.exists_eq_add_of_le h
        have e1 : a + 1 + k - (a + 1) = k := by omega
        have e2 : a + 1 + k - a = k + 1 := by omega
        have e3 : a + 1 + k < a + 1 + b.length ↔ a + 1 + k < a + (y :: b).length := by
          simp only [List.length_cons]; omega
        rw [e1, e2, List.getD_cons_succ]; simp only [e3]
      · rw [if_neg (by omega), if_neg (by omega)]
    by_cases hx : a = x
    · subst hx
      by_cases hy : y = Memory.unlisted
      · rw [cellsOf, if_pos hy, tail, if_neg (by omega)]
        simp [hy, Memory.unlisted]
      · rw [cellsOf, if_neg hy]
        simp [readByte_cons]
    · have cond : (a + 1 ≤ x ∧ x < a + (y :: b).length) ↔ (a ≤ x ∧ x < a + (y :: b).length) := by omega
      by_cases hy : y = Memory.unlisted
      · rw [cellsOf, if_pos hy, tail]; simp only [cond]
      · rw [cellsOf, if_neg hy, readByte_cons, if_neg hx, tail]; simp only [cond]

/-- What a byte reads as after a write: the stored byte inside the range, as before outside it. -/
theorem readByte_writeBytes (m : List Host.Cell) (a : Nat) (b : List Byte) (x : Nat) :
    readByte (writeBytes m a b) x = if a ≤ x ∧ x < a + b.length then b.getD (x - a) 0 else readByte m x := by
  have f1 := readByte_filter (fun i => decide (i < a)) m x
  have f2 := readByte_filter (fun i => decide (a + b.length ≤ i)) m x
  have fc := readByte_cellsOf a b x
  simp only [writeBytes, readByte_append]
  by_cases h1 : ∃ c ∈ m.filter (fun c => decide (c.1 < a)), c.1 = x
  · obtain ⟨c, hc, rfl⟩ := h1
    have hlt : c.1 < a := by simpa using (List.mem_filter.1 hc).2
    have hn : ¬ (a ≤ c.1 ∧ c.1 < a + b.length) := by omega
    rw [if_pos ⟨c, List.mem_append_left _ hc, rfl⟩, if_pos ⟨c, hc, rfl⟩, f1]
    simp only [hlt, hn, decide_true, if_true, if_false]
  · have z1 : readByte (m.filter fun c => decide (c.1 < a)) x = 0 :=
      readByte_eq_zero fun c hc he => h1 ⟨c, hc, he⟩
    by_cases h2 : ∃ c ∈ cellsOf a b, c.1 = x
    · obtain ⟨c, hc, rfl⟩ := h2
      have hr := cellsOf_range hc
      rw [if_pos ⟨c, by simp [hc], rfl⟩, if_neg h1, fc]
      simp [hr]
    · have z2 : readByte (cellsOf a b) x = 0 := readByte_eq_zero fun c hc he => h2 ⟨c, hc, he⟩
      have none' : ¬ ∃ c ∈ m.filter (fun c => decide (c.1 < a)) ++ cellsOf a b, c.1 = x := by
        rintro ⟨c, hc, he⟩
        rcases List.mem_append.1 hc with h | h
        · exact h1 ⟨c, h, he⟩
        · exact h2 ⟨c, h, he⟩
      rw [if_neg none', f2]
      by_cases hin : a ≤ x ∧ x < a + b.length
      · rw [if_pos hin] at fc ⊢
        rw [if_neg (by simp; omega), ← fc, z2]
      · rw [if_neg hin]
        by_cases hge : a + b.length ≤ x
        · simp [hge]
        · have hlt : x < a := by omega
          simp only [hge, decide_false, Bool.false_eq_true, if_false]
          rw [f1] at z1
          simpa [hlt] using z1.symm

/-- A write keeps the canonical form. -/
theorem writeBytes_wf {m : List Host.Cell} (h : Memory.wf m) (a : Nat) (b : List Byte) : Memory.wf (writeBytes m a b) := by
  refine ⟨?_, ?_⟩
  · have fl : ∀ p : Host.Cell → Bool, (m.filter p).Pairwise fun c d => c.1 < d.1 := fun p => h.1.filter p
    rw [writeBytes, List.pairwise_append, List.pairwise_append]
    refine ⟨⟨fl _, cellsOf_pairwise a b, ?_⟩, fl _, ?_⟩
    · intro c hc d hd
      have := (cellsOf_range hd).1
      have : c.1 < a := by simpa using (List.mem_filter.1 hc).2
      omega
    · intro c hc d hd
      have hd' : a + b.length ≤ d.1 := by simpa using (List.mem_filter.1 hd).2
      rcases List.mem_append.1 hc with hc | hc
      · have : c.1 < a := by simpa using (List.mem_filter.1 hc).2
        omega
      · have := (cellsOf_range hc).2
        omega
  · intro c hc
    simp only [writeBytes, List.mem_append, List.mem_filter] at hc
    rcases hc with (⟨hc, _⟩ | hc) | ⟨hc, _⟩
    · exact h.2 c hc
    · exact cellsOf_ne hc
    · exact h.2 c hc

/-- Keeping some cells keeps the canonical form. -/
theorem filter_wf {m : List Host.Cell} (h : Memory.wf m) (p : Host.Cell → Bool) : Memory.wf (m.filter p) :=
  ⟨h.1.filter p, fun c hc => h.2 c (List.mem_filter.1 hc).1⟩

theorem nil_wf : Memory.wf [] := ⟨List.Pairwise.nil, by simp⟩

/-- A listed byte of a canonical memory is what its offset reads as. -/
theorem readByte_of_mem {m : List Host.Cell} (h : Memory.wf m) {c : Host.Cell} (hc : c ∈ m) : readByte m c.1 = c.2 := by
  induction m with
  | nil => simp at hc
  | cons d m ih =>
    have hp := List.pairwise_cons.1 h.1
    rcases List.mem_cons.1 hc with rfl | hm
    · simp [readByte_cons]
    · rw [readByte_cons, if_neg (by have := hp.1 c hm; omega)]
      exact ih ⟨hp.2, fun e he => h.2 e (by simp [he])⟩ hm

/-- Canonical memories that read alike are the same data. -/
theorem memory_ext {m n : List Host.Cell} (hm : Memory.wf m) (hn : Memory.wf n)
    (h : ∀ a, readByte m a = readByte n a) : m = n := by
  have mem_iff : ∀ {m : List Host.Cell}, Memory.wf m → ∀ c : Host.Cell,
      c ∈ m ↔ readByte m c.1 = c.2 ∧ c.2 ≠ Memory.unlisted := by
    intro m hm c
    refine ⟨fun hc => ⟨readByte_of_mem hm hc, hm.2 c hc⟩, fun ⟨he, hne⟩ => ?_⟩
    by_contra hc
    by_cases hk : ∃ d ∈ m, d.1 = c.1
    · obtain ⟨d, hd, hk⟩ := hk
      have := readByte_of_mem hm hd
      rw [hk, he] at this
      exact hc (by rwa [show c = d from Prod.ext hk.symm this])
    · exact hne (by rw [← he]; exact readByte_eq_zero fun d hd he' => hk ⟨d, hd, he'⟩)
  have hsub : ∀ c : Host.Cell, c ∈ m ↔ c ∈ n := fun c => by rw [mem_iff hm, mem_iff hn, h]
  have nd : ∀ {m : List Host.Cell}, Memory.wf m → m.Nodup := fun hm =>
    hm.1.imp fun {a b} hab he => by rw [he] at hab; exact absurd hab (lt_irrefl _)
  refine List.Perm.eq_of_pairwise (le := fun c d : Host.Cell => c.1 < d.1) ?_ hm.1 hn.1
    ((List.perm_ext_iff_of_nodup (nd hm) (nd hn)).2 hsub)
  intro a b _ _ h1 h2
  exact absurd h1 (by omega)

@[simp] theorem readBytes_length (m : List Host.Cell) (a n : Nat) : (readBytes m a n).length = n := by simp [readBytes]

theorem readBytes_getD (m : List Host.Cell) (a n i : Nat) (h : i < n) : (readBytes m a n).getD i 0 = readByte m (a + i) := by
  simp [readBytes, List.getD_eq_getElem?_getD, h]

/-- Two byte strings of one length are equal where their bytes are. -/
theorem bytes_ext {b c : List Byte} (hl : b.length = c.length) (h : ∀ i < b.length, b.getD i 0 = c.getD i 0) : b = c := by
  refine List.ext_getElem hl fun i h1 h2 => ?_
  have := h i h1
  simpa [List.getD_eq_getElem?_getD, h1, h2] using this

/-- Reading a range that agrees byte for byte. -/
theorem readBytes_congr {m n : List Host.Cell} {a k : Nat} (h : ∀ i < k, readByte m (a + i) = readByte n (a + i)) :
    readBytes m a k = readBytes n a k := by
  refine List.map_congr_left fun i hi => h i (by simpa using hi)

/-- What was stored is read back. -/
theorem readBytes_writeBytes_same (m : List Host.Cell) (a : Nat) (b : List Byte) :
    readBytes (writeBytes m a b) a b.length = b := by
  refine bytes_ext (by simp) fun i hi => ?_
  have hi' : i < b.length := by simpa using hi
  rw [readBytes_getD _ _ _ _ hi', readByte_writeBytes, if_pos (by omega)]
  simp

/-- A range apart from the stored one reads as before. -/
theorem readBytes_writeBytes_apart (m : List Host.Cell) (a : Nat) (b : List Byte) (x n : Nat)
    (h : x + n ≤ a ∨ a + b.length ≤ x) : readBytes (writeBytes m a b) x n = readBytes m x n := by
  refine readBytes_congr fun i hi => ?_
  rw [readByte_writeBytes, if_neg (by omega)]

/-- The front of a range. -/
theorem readBytes_take (m : List Host.Cell) (a n k : Nat) (h : k ≤ n) : (readBytes m a n).take k = readBytes m a k := by
  refine bytes_ext (by simp [h]) fun i hi => ?_
  have hi' : i < k := by simp at hi; omega
  rw [readBytes_getD _ _ _ _ hi', List.getD_eq_getElem?_getD, List.getElem?_take, if_pos hi', ← List.getD_eq_getElem?_getD,
    readBytes_getD _ _ _ _ (by omega)]

/-- A range read in two parts. -/
theorem readBytes_add (m : List Host.Cell) (a n k : Nat) : readBytes m a (n + k) = readBytes m a n ++ readBytes m (a + n) k := by
  simp [readBytes, List.range_add, Nat.add_assoc]

end Sys2Proof.Machine
end

