-- ==== Sys2Proof/Laws/State.lean ====
section
/-! SUPPORT. One lemma per field per update of the state: what each shared operation leaves in each field. -/

namespace Sys2Proof.Machine

/-! `setWindow` -/

@[simp] theorem State.setWindow_irqEn (s : State) (w : Window) (off : Nat) (b : List Byte) : (s.setWindow w off b).irqEn = s.irqEn := rfl
@[simp] theorem State.setWindow_cmd (s : State) (w : Window) (off : Nat) (b : List Byte) : (s.setWindow w off b).cmd = s.cmd := rfl
@[simp] theorem State.setWindow_busy (s : State) (w : Window) (off : Nat) (b : List Byte) : (s.setWindow w off b).busy = s.busy := rfl
@[simp] theorem State.setWindow_done (s : State) (w : Window) (off : Nat) (b : List Byte) : (s.setWindow w off b).done = s.done := rfl
@[simp] theorem State.setWindow_err (s : State) (w : Window) (off : Nat) (b : List Byte) : (s.setWindow w off b).err = s.err := rfl
@[simp] theorem State.setWindow_cmdOvr (s : State) (w : Window) (off : Nat) (b : List Byte) : (s.setWindow w off b).cmdOvr = s.cmdOvr := rfl
@[simp] theorem State.setWindow_errCode (s : State) (w : Window) (off : Nat) (b : List Byte) : (s.setWindow w off b).errCode = s.errCode := rfl
@[simp] theorem State.setWindow_authState (s : State) (w : Window) (off : Nat) (b : List Byte) : (s.setWindow w off b).authState = s.authState := rfl
@[simp] theorem State.setWindow_oplen (s : State) (w : Window) (off : Nat) (b : List Byte) : (s.setWindow w off b).oplen = s.oplen := rfl
@[simp] theorem State.setWindow_opoff (s : State) (w : Window) (off : Nat) (b : List Byte) : (s.setWindow w off b).opoff = s.opoff := rfl
@[simp] theorem State.setWindow_opaux (s : State) (w : Window) (off : Nat) (b : List Byte) : (s.setWindow w off b).opaux = s.opaux := rfl
@[simp] theorem State.setWindow_frhdr (s : State) (w : Window) (off : Nat) (b : List Byte) : (s.setWindow w off b).frhdr = s.frhdr := rfl
@[simp] theorem State.setWindow_ltk (s : State) (w : Window) (off : Nat) (b : List Byte) : (s.setWindow w off b).ltk = s.ltk := rfl
@[simp] theorem State.setWindow_session (s : State) (w : Window) (off : Nat) (b : List Byte) : (s.setWindow w off b).session = s.session := rfl
@[simp] theorem State.setWindow_keychain (s : State) (w : Window) (off : Nat) (b : List Byte) : (s.setWindow w off b).keychain = s.keychain := rfl
@[simp] theorem State.setWindow_res0 (s : State) (w : Window) (off : Nat) (b : List Byte) : (s.setWindow w off b).res0 = s.res0 := rfl
@[simp] theorem State.setWindow_res1 (s : State) (w : Window) (off : Nat) (b : List Byte) : (s.setWindow w off b).res1 = s.res1 := rfl
@[simp] theorem State.setWindow_res2 (s : State) (w : Window) (off : Nat) (b : List Byte) : (s.setWindow w off b).res2 = s.res2 := rfl
@[simp] theorem State.setWindow_res3 (s : State) (w : Window) (off : Nat) (b : List Byte) : (s.setWindow w off b).res3 = s.res3 := rfl
@[simp] theorem State.setWindow_mem (s : State) (w : Window) (off : Nat) (b : List Byte) : (s.setWindow w off b).mem = writeBytes s.mem (w.base + off) b := rfl
@[simp] theorem State.setWindow_hidden (s : State) (w : Window) (off : Nat) (b : List Byte) : (s.setWindow w off b).hidden = s.hidden := rfl
@[simp] theorem State.setWindow_latch (s : State) (w : Window) (off : Nat) (b : List Byte) : (s.setWindow w off b).latch = s.latch := rfl
@[simp] theorem State.setWindow_countdown (s : State) (w : Window) (off : Nat) (b : List Byte) : (s.setWindow w off b).countdown = s.countdown := rfl
@[simp] theorem State.setWindow_host (s : State) (w : Window) (off : Nat) (b : List Byte) : (s.setWindow w off b).host = s.host := rfl
@[simp] theorem State.setWindow_env (s : State) (w : Window) (off : Nat) (b : List Byte) : (s.setWindow w off b).env = s.env := rfl

/-! `succeed` -/

@[simp] theorem succeed_irqEn (s : State) (r0 r1 r2 r3 : Word) : (succeed s r0 r1 r2 r3).irqEn = s.irqEn := rfl
@[simp] theorem succeed_cmd (s : State) (r0 r1 r2 r3 : Word) : (succeed s r0 r1 r2 r3).cmd = s.cmd := rfl
@[simp] theorem succeed_busy (s : State) (r0 r1 r2 r3 : Word) : (succeed s r0 r1 r2 r3).busy = false := rfl
@[simp] theorem succeed_done (s : State) (r0 r1 r2 r3 : Word) : (succeed s r0 r1 r2 r3).done = true := rfl
@[simp] theorem succeed_err (s : State) (r0 r1 r2 r3 : Word) : (succeed s r0 r1 r2 r3).err = false := rfl
@[simp] theorem succeed_cmdOvr (s : State) (r0 r1 r2 r3 : Word) : (succeed s r0 r1 r2 r3).cmdOvr = s.cmdOvr := rfl
@[simp] theorem succeed_errCode (s : State) (r0 r1 r2 r3 : Word) : (succeed s r0 r1 r2 r3).errCode = .ok := rfl
@[simp] theorem succeed_authState (s : State) (r0 r1 r2 r3 : Word) : (succeed s r0 r1 r2 r3).authState = s.authState := rfl
@[simp] theorem succeed_oplen (s : State) (r0 r1 r2 r3 : Word) : (succeed s r0 r1 r2 r3).oplen = s.oplen := rfl
@[simp] theorem succeed_opoff (s : State) (r0 r1 r2 r3 : Word) : (succeed s r0 r1 r2 r3).opoff = s.opoff := rfl
@[simp] theorem succeed_opaux (s : State) (r0 r1 r2 r3 : Word) : (succeed s r0 r1 r2 r3).opaux = s.opaux := rfl
@[simp] theorem succeed_frhdr (s : State) (r0 r1 r2 r3 : Word) : (succeed s r0 r1 r2 r3).frhdr = s.frhdr := rfl
@[simp] theorem succeed_ltk (s : State) (r0 r1 r2 r3 : Word) : (succeed s r0 r1 r2 r3).ltk = s.ltk := rfl
@[simp] theorem succeed_session (s : State) (r0 r1 r2 r3 : Word) : (succeed s r0 r1 r2 r3).session = s.session := rfl
@[simp] theorem succeed_keychain (s : State) (r0 r1 r2 r3 : Word) : (succeed s r0 r1 r2 r3).keychain = s.keychain := rfl
@[simp] theorem succeed_res0 (s : State) (r0 r1 r2 r3 : Word) : (succeed s r0 r1 r2 r3).res0 = r0 := rfl
@[simp] theorem succeed_res1 (s : State) (r0 r1 r2 r3 : Word) : (succeed s r0 r1 r2 r3).res1 = r1 := rfl
@[simp] theorem succeed_res2 (s : State) (r0 r1 r2 r3 : Word) : (succeed s r0 r1 r2 r3).res2 = r2 := rfl
@[simp] theorem succeed_res3 (s : State) (r0 r1 r2 r3 : Word) : (succeed s r0 r1 r2 r3).res3 = r3 := rfl
@[simp] theorem succeed_mem (s : State) (r0 r1 r2 r3 : Word) : (succeed s r0 r1 r2 r3).mem = s.mem := rfl
@[simp] theorem succeed_hidden (s : State) (r0 r1 r2 r3 : Word) : (succeed s r0 r1 r2 r3).hidden = s.hidden := rfl
@[simp] theorem succeed_latch (s : State) (r0 r1 r2 r3 : Word) : (succeed s r0 r1 r2 r3).latch = s.latch := rfl
@[simp] theorem succeed_countdown (s : State) (r0 r1 r2 r3 : Word) : (succeed s r0 r1 r2 r3).countdown = s.countdown := rfl
@[simp] theorem succeed_host (s : State) (r0 r1 r2 r3 : Word) : (succeed s r0 r1 r2 r3).host = s.host := rfl
@[simp] theorem succeed_env (s : State) (r0 r1 r2 r3 : Word) : (succeed s r0 r1 r2 r3).env = s.env := rfl

/-! `fail` -/

@[simp] theorem fail_irqEn (s : State) (c : ErrCode) (n : Nat) : (fail s c n).irqEn = s.irqEn := rfl
@[simp] theorem fail_cmd (s : State) (c : ErrCode) (n : Nat) : (fail s c n).cmd = s.cmd := rfl
@[simp] theorem fail_busy (s : State) (c : ErrCode) (n : Nat) : (fail s c n).busy = false := rfl
@[simp] theorem fail_done (s : State) (c : ErrCode) (n : Nat) : (fail s c n).done = true := rfl
@[simp] theorem fail_err (s : State) (c : ErrCode) (n : Nat) : (fail s c n).err = true := rfl
@[simp] theorem fail_cmdOvr (s : State) (c : ErrCode) (n : Nat) : (fail s c n).cmdOvr = s.cmdOvr := rfl
@[simp] theorem fail_errCode (s : State) (c : ErrCode) (n : Nat) : (fail s c n).errCode = c := rfl
@[simp] theorem fail_authState (s : State) (c : ErrCode) (n : Nat) : (fail s c n).authState = s.authState := rfl
@[simp] theorem fail_oplen (s : State) (c : ErrCode) (n : Nat) : (fail s c n).oplen = s.oplen := rfl
@[simp] theorem fail_opoff (s : State) (c : ErrCode) (n : Nat) : (fail s c n).opoff = s.opoff := rfl
@[simp] theorem fail_opaux (s : State) (c : ErrCode) (n : Nat) : (fail s c n).opaux = s.opaux := rfl
@[simp] theorem fail_frhdr (s : State) (c : ErrCode) (n : Nat) : (fail s c n).frhdr = s.frhdr := rfl
@[simp] theorem fail_ltk (s : State) (c : ErrCode) (n : Nat) : (fail s c n).ltk = s.ltk := rfl
@[simp] theorem fail_session (s : State) (c : ErrCode) (n : Nat) : (fail s c n).session = s.session := rfl
@[simp] theorem fail_keychain (s : State) (c : ErrCode) (n : Nat) : (fail s c n).keychain = s.keychain := rfl
@[simp] theorem fail_res0 (s : State) (c : ErrCode) (n : Nat) : (fail s c n).res0 = 0 := rfl
@[simp] theorem fail_res1 (s : State) (c : ErrCode) (n : Nat) : (fail s c n).res1 = wordOf n := rfl
@[simp] theorem fail_res2 (s : State) (c : ErrCode) (n : Nat) : (fail s c n).res2 = 0 := rfl
@[simp] theorem fail_res3 (s : State) (c : ErrCode) (n : Nat) : (fail s c n).res3 = 0 := rfl
@[simp] theorem fail_mem (s : State) (c : ErrCode) (n : Nat) : (fail s c n).mem = s.mem := rfl
@[simp] theorem fail_hidden (s : State) (c : ErrCode) (n : Nat) : (fail s c n).hidden = s.hidden := rfl
@[simp] theorem fail_latch (s : State) (c : ErrCode) (n : Nat) : (fail s c n).latch = s.latch := rfl
@[simp] theorem fail_countdown (s : State) (c : ErrCode) (n : Nat) : (fail s c n).countdown = s.countdown := rfl
@[simp] theorem fail_host (s : State) (c : ErrCode) (n : Nat) : (fail s c n).host = s.host := rfl
@[simp] theorem fail_env (s : State) (c : ErrCode) (n : Nat) : (fail s c n).env = s.env := rfl

/-! `invalidateKeychain` -/

@[simp] theorem invalidateKeychain_irqEn (s : State) : (invalidateKeychain s).irqEn = s.irqEn := rfl
@[simp] theorem invalidateKeychain_cmd (s : State) : (invalidateKeychain s).cmd = s.cmd := rfl
@[simp] theorem invalidateKeychain_busy (s : State) : (invalidateKeychain s).busy = s.busy := rfl
@[simp] theorem invalidateKeychain_done (s : State) : (invalidateKeychain s).done = s.done := rfl
@[simp] theorem invalidateKeychain_err (s : State) : (invalidateKeychain s).err = s.err := rfl
@[simp] theorem invalidateKeychain_cmdOvr (s : State) : (invalidateKeychain s).cmdOvr = s.cmdOvr := rfl
@[simp] theorem invalidateKeychain_errCode (s : State) : (invalidateKeychain s).errCode = s.errCode := rfl
@[simp] theorem invalidateKeychain_authState (s : State) : (invalidateKeychain s).authState = s.authState := rfl
@[simp] theorem invalidateKeychain_oplen (s : State) : (invalidateKeychain s).oplen = s.oplen := rfl
@[simp] theorem invalidateKeychain_opoff (s : State) : (invalidateKeychain s).opoff = s.opoff := rfl
@[simp] theorem invalidateKeychain_opaux (s : State) : (invalidateKeychain s).opaux = s.opaux := rfl
@[simp] theorem invalidateKeychain_frhdr (s : State) : (invalidateKeychain s).frhdr = s.frhdr := rfl
@[simp] theorem invalidateKeychain_ltk (s : State) : (invalidateKeychain s).ltk = s.ltk := rfl
@[simp] theorem invalidateKeychain_session (s : State) : (invalidateKeychain s).session = s.session := rfl
@[simp] theorem invalidateKeychain_keychain (s : State) : (invalidateKeychain s).keychain = none := rfl
@[simp] theorem invalidateKeychain_res0 (s : State) : (invalidateKeychain s).res0 = s.res0 := rfl
@[simp] theorem invalidateKeychain_res1 (s : State) : (invalidateKeychain s).res1 = s.res1 := rfl
@[simp] theorem invalidateKeychain_res2 (s : State) : (invalidateKeychain s).res2 = s.res2 := rfl
@[simp] theorem invalidateKeychain_res3 (s : State) : (invalidateKeychain s).res3 = s.res3 := rfl
@[simp] theorem invalidateKeychain_hidden (s : State) : (invalidateKeychain s).hidden = s.hidden := rfl
@[simp] theorem invalidateKeychain_latch (s : State) : (invalidateKeychain s).latch = s.latch := rfl
@[simp] theorem invalidateKeychain_countdown (s : State) : (invalidateKeychain s).countdown = s.countdown := rfl
@[simp] theorem invalidateKeychain_host (s : State) : (invalidateKeychain s).host = s.host := rfl
@[simp] theorem invalidateKeychain_env (s : State) : (invalidateKeychain s).env = s.env := rfl

/-! `invalidateSlot` -/

@[simp] theorem invalidateSlot_irqEn (s : State) (k : KeySel) : (invalidateSlot s k).irqEn = s.irqEn := by unfold invalidateSlot; split <;> rfl
@[simp] theorem invalidateSlot_cmd (s : State) (k : KeySel) : (invalidateSlot s k).cmd = s.cmd := by unfold invalidateSlot; split <;> rfl
@[simp] theorem invalidateSlot_busy (s : State) (k : KeySel) : (invalidateSlot s k).busy = s.busy := by unfold invalidateSlot; split <;> rfl
@[simp] theorem invalidateSlot_done (s : State) (k : KeySel) : (invalidateSlot s k).done = s.done := by unfold invalidateSlot; split <;> rfl
@[simp] theorem invalidateSlot_err (s : State) (k : KeySel) : (invalidateSlot s k).err = s.err := by unfold invalidateSlot; split <;> rfl
@[simp] theorem invalidateSlot_cmdOvr (s : State) (k : KeySel) : (invalidateSlot s k).cmdOvr = s.cmdOvr := by unfold invalidateSlot; split <;> rfl
@[simp] theorem invalidateSlot_errCode (s : State) (k : KeySel) : (invalidateSlot s k).errCode = s.errCode := by unfold invalidateSlot; split <;> rfl
@[simp] theorem invalidateSlot_authState (s : State) (k : KeySel) : (invalidateSlot s k).authState = s.authState := by unfold invalidateSlot; split <;> rfl
@[simp] theorem invalidateSlot_oplen (s : State) (k : KeySel) : (invalidateSlot s k).oplen = s.oplen := by unfold invalidateSlot; split <;> rfl
@[simp] theorem invalidateSlot_opoff (s : State) (k : KeySel) : (invalidateSlot s k).opoff = s.opoff := by unfold invalidateSlot; split <;> rfl
@[simp] theorem invalidateSlot_opaux (s : State) (k : KeySel) : (invalidateSlot s k).opaux = s.opaux := by unfold invalidateSlot; split <;> rfl
@[simp] theorem invalidateSlot_frhdr (s : State) (k : KeySel) : (invalidateSlot s k).frhdr = s.frhdr := by unfold invalidateSlot; split <;> rfl
@[simp] theorem invalidateSlot_ltk (s : State) (k : KeySel) : (invalidateSlot s k).ltk = s.ltk := by unfold invalidateSlot; split <;> rfl
@[simp] theorem invalidateSlot_session (s : State) (k : KeySel) : (invalidateSlot s k).session = s.session := by unfold invalidateSlot; split <;> rfl
@[simp] theorem invalidateSlot_res0 (s : State) (k : KeySel) : (invalidateSlot s k).res0 = s.res0 := by unfold invalidateSlot; split <;> rfl
@[simp] theorem invalidateSlot_res1 (s : State) (k : KeySel) : (invalidateSlot s k).res1 = s.res1 := by unfold invalidateSlot; split <;> rfl
@[simp] theorem invalidateSlot_res2 (s : State) (k : KeySel) : (invalidateSlot s k).res2 = s.res2 := by unfold invalidateSlot; split <;> rfl
@[simp] theorem invalidateSlot_res3 (s : State) (k : KeySel) : (invalidateSlot s k).res3 = s.res3 := by unfold invalidateSlot; split <;> rfl
@[simp] theorem invalidateSlot_hidden (s : State) (k : KeySel) : (invalidateSlot s k).hidden = s.hidden := by unfold invalidateSlot; split <;> rfl
@[simp] theorem invalidateSlot_latch (s : State) (k : KeySel) : (invalidateSlot s k).latch = s.latch := by unfold invalidateSlot; split <;> rfl
@[simp] theorem invalidateSlot_countdown (s : State) (k : KeySel) : (invalidateSlot s k).countdown = s.countdown := by unfold invalidateSlot; split <;> rfl
@[simp] theorem invalidateSlot_host (s : State) (k : KeySel) : (invalidateSlot s k).host = s.host := by unfold invalidateSlot; split <;> rfl
@[simp] theorem invalidateSlot_env (s : State) (k : KeySel) : (invalidateSlot s k).env = s.env := by unfold invalidateSlot; split <;> rfl

/-! `logout` -/

@[simp] theorem logout_irqEn (s : State) : (logout s).irqEn = s.irqEn := by simp [logout]
@[simp] theorem logout_cmd (s : State) : (logout s).cmd = s.cmd := by simp [logout]
@[simp] theorem logout_busy (s : State) : (logout s).busy = s.busy := by simp [logout]
@[simp] theorem logout_done (s : State) : (logout s).done = s.done := by simp [logout]
@[simp] theorem logout_err (s : State) : (logout s).err = s.err := by simp [logout]
@[simp] theorem logout_cmdOvr (s : State) : (logout s).cmdOvr = s.cmdOvr := by simp [logout]
@[simp] theorem logout_errCode (s : State) : (logout s).errCode = s.errCode := by simp [logout]
@[simp] theorem logout_authState (s : State) : (logout s).authState = s.authState := by simp [logout]
@[simp] theorem logout_oplen (s : State) : (logout s).oplen = s.oplen := by simp [logout]
@[simp] theorem logout_opoff (s : State) : (logout s).opoff = s.opoff := by simp [logout]
@[simp] theorem logout_opaux (s : State) : (logout s).opaux = s.opaux := by simp [logout]
@[simp] theorem logout_frhdr (s : State) : (logout s).frhdr = s.frhdr := by simp [logout]
@[simp] theorem logout_ltk (s : State) : (logout s).ltk = s.ltk := by simp [logout]
@[simp] theorem logout_session (s : State) : (logout s).session = none := by simp [logout]
@[simp] theorem logout_res0 (s : State) : (logout s).res0 = s.res0 := by simp [logout]
@[simp] theorem logout_res1 (s : State) : (logout s).res1 = s.res1 := by simp [logout]
@[simp] theorem logout_res2 (s : State) : (logout s).res2 = s.res2 := by simp [logout]
@[simp] theorem logout_res3 (s : State) : (logout s).res3 = s.res3 := by simp [logout]
@[simp] theorem logout_hidden (s : State) : (logout s).hidden = Handshake.clear := by simp [logout]
@[simp] theorem logout_latch (s : State) : (logout s).latch = s.latch := by simp [logout]
@[simp] theorem logout_countdown (s : State) : (logout s).countdown = s.countdown := by simp [logout]
@[simp] theorem logout_host (s : State) : (logout s).host = s.host := by simp [logout]
@[simp] theorem logout_env (s : State) : (logout s).env = s.env := by simp [logout]

/-! `handshakeAbort` -/

@[simp] theorem handshakeAbort_irqEn (s : State) : (handshakeAbort s).irqEn = s.irqEn := by simp [handshakeAbort]
@[simp] theorem handshakeAbort_cmd (s : State) : (handshakeAbort s).cmd = s.cmd := by simp [handshakeAbort]
@[simp] theorem handshakeAbort_busy (s : State) : (handshakeAbort s).busy = s.busy := by simp [handshakeAbort]
@[simp] theorem handshakeAbort_done (s : State) : (handshakeAbort s).done = s.done := by simp [handshakeAbort]
@[simp] theorem handshakeAbort_err (s : State) : (handshakeAbort s).err = s.err := by simp [handshakeAbort]
@[simp] theorem handshakeAbort_cmdOvr (s : State) : (handshakeAbort s).cmdOvr = s.cmdOvr := by simp [handshakeAbort]
@[simp] theorem handshakeAbort_errCode (s : State) : (handshakeAbort s).errCode = s.errCode := by simp [handshakeAbort]
@[simp] theorem handshakeAbort_authState (s : State) : (handshakeAbort s).authState = .failed := by simp [handshakeAbort]
@[simp] theorem handshakeAbort_oplen (s : State) : (handshakeAbort s).oplen = s.oplen := by simp [handshakeAbort]
@[simp] theorem handshakeAbort_opoff (s : State) : (handshakeAbort s).opoff = s.opoff := by simp [handshakeAbort]
@[simp] theorem handshakeAbort_opaux (s : State) : (handshakeAbort s).opaux = s.opaux := by simp [handshakeAbort]
@[simp] theorem handshakeAbort_frhdr (s : State) : (handshakeAbort s).frhdr = s.frhdr := by simp [handshakeAbort]
@[simp] theorem handshakeAbort_ltk (s : State) : (handshakeAbort s).ltk = s.ltk := by simp [handshakeAbort]
@[simp] theorem handshakeAbort_session (s : State) : (handshakeAbort s).session = none := by simp [handshakeAbort]
@[simp] theorem handshakeAbort_res0 (s : State) : (handshakeAbort s).res0 = s.res0 := by simp [handshakeAbort]
@[simp] theorem handshakeAbort_res1 (s : State) : (handshakeAbort s).res1 = s.res1 := by simp [handshakeAbort]
@[simp] theorem handshakeAbort_res2 (s : State) : (handshakeAbort s).res2 = s.res2 := by simp [handshakeAbort]
@[simp] theorem handshakeAbort_res3 (s : State) : (handshakeAbort s).res3 = s.res3 := by simp [handshakeAbort]
@[simp] theorem handshakeAbort_hidden (s : State) : (handshakeAbort s).hidden = Handshake.clear := by simp [handshakeAbort]
@[simp] theorem handshakeAbort_latch (s : State) : (handshakeAbort s).latch = s.latch := by simp [handshakeAbort]
@[simp] theorem handshakeAbort_countdown (s : State) : (handshakeAbort s).countdown = s.countdown := by simp [handshakeAbort]
@[simp] theorem handshakeAbort_host (s : State) : (handshakeAbort s).host = s.host := by simp [handshakeAbort]
@[simp] theorem handshakeAbort_env (s : State) : (handshakeAbort s).env = s.env := by simp [handshakeAbort]

/-! `abortHandshake` -/

@[simp] theorem abortHandshake_irqEn (s : State) : (abortHandshake s).irqEn = s.irqEn := by unfold abortHandshake; split <;> simp
@[simp] theorem abortHandshake_cmd (s : State) : (abortHandshake s).cmd = s.cmd := by unfold abortHandshake; split <;> simp
@[simp] theorem abortHandshake_busy (s : State) : (abortHandshake s).busy = s.busy := by unfold abortHandshake; split <;> simp
@[simp] theorem abortHandshake_done (s : State) : (abortHandshake s).done = s.done := by unfold abortHandshake; split <;> simp
@[simp] theorem abortHandshake_err (s : State) : (abortHandshake s).err = s.err := by unfold abortHandshake; split <;> simp
@[simp] theorem abortHandshake_cmdOvr (s : State) : (abortHandshake s).cmdOvr = s.cmdOvr := by unfold abortHandshake; split <;> simp
@[simp] theorem abortHandshake_errCode (s : State) : (abortHandshake s).errCode = s.errCode := by unfold abortHandshake; split <;> simp
@[simp] theorem abortHandshake_oplen (s : State) : (abortHandshake s).oplen = s.oplen := by unfold abortHandshake; split <;> simp
@[simp] theorem abortHandshake_opoff (s : State) : (abortHandshake s).opoff = s.opoff := by unfold abortHandshake; split <;> simp
@[simp] theorem abortHandshake_opaux (s : State) : (abortHandshake s).opaux = s.opaux := by unfold abortHandshake; split <;> simp
@[simp] theorem abortHandshake_frhdr (s : State) : (abortHandshake s).frhdr = s.frhdr := by unfold abortHandshake; split <;> simp
@[simp] theorem abortHandshake_ltk (s : State) : (abortHandshake s).ltk = s.ltk := by unfold abortHandshake; split <;> simp
@[simp] theorem abortHandshake_res0 (s : State) : (abortHandshake s).res0 = s.res0 := by unfold abortHandshake; split <;> simp
@[simp] theorem abortHandshake_res1 (s : State) : (abortHandshake s).res1 = s.res1 := by unfold abortHandshake; split <;> simp
@[simp] theorem abortHandshake_res2 (s : State) : (abortHandshake s).res2 = s.res2 := by unfold abortHandshake; split <;> simp
@[simp] theorem abortHandshake_res3 (s : State) : (abortHandshake s).res3 = s.res3 := by unfold abortHandshake; split <;> simp
@[simp] theorem abortHandshake_latch (s : State) : (abortHandshake s).latch = s.latch := by unfold abortHandshake; split <;> simp
@[simp] theorem abortHandshake_countdown (s : State) : (abortHandshake s).countdown = s.countdown := by unfold abortHandshake; split <;> simp
@[simp] theorem abortHandshake_host (s : State) : (abortHandshake s).host = s.host := by unfold abortHandshake; split <;> simp
@[simp] theorem abortHandshake_env (s : State) : (abortHandshake s).env = s.env := by unfold abortHandshake; split <;> simp

/-! `installKeychain` -/

@[simp] theorem installKeychain_irqEn (s : State) (k : KeySel) (b : Nat) (np pd : List Byte) : (installKeychain s k b np pd).irqEn = s.irqEn := rfl
@[simp] theorem installKeychain_cmd (s : State) (k : KeySel) (b : Nat) (np pd : List Byte) : (installKeychain s k b np pd).cmd = s.cmd := rfl
@[simp] theorem installKeychain_busy (s : State) (k : KeySel) (b : Nat) (np pd : List Byte) : (installKeychain s k b np pd).busy = s.busy := rfl
@[simp] theorem installKeychain_done (s : State) (k : KeySel) (b : Nat) (np pd : List Byte) : (installKeychain s k b np pd).done = s.done := rfl
@[simp] theorem installKeychain_err (s : State) (k : KeySel) (b : Nat) (np pd : List Byte) : (installKeychain s k b np pd).err = s.err := rfl
@[simp] theorem installKeychain_cmdOvr (s : State) (k : KeySel) (b : Nat) (np pd : List Byte) : (installKeychain s k b np pd).cmdOvr = s.cmdOvr := rfl
@[simp] theorem installKeychain_errCode (s : State) (k : KeySel) (b : Nat) (np pd : List Byte) : (installKeychain s k b np pd).errCode = s.errCode := rfl
@[simp] theorem installKeychain_authState (s : State) (k : KeySel) (b : Nat) (np pd : List Byte) : (installKeychain s k b np pd).authState = s.authState := rfl
@[simp] theorem installKeychain_oplen (s : State) (k : KeySel) (b : Nat) (np pd : List Byte) : (installKeychain s k b np pd).oplen = s.oplen := rfl
@[simp] theorem installKeychain_opoff (s : State) (k : KeySel) (b : Nat) (np pd : List Byte) : (installKeychain s k b np pd).opoff = s.opoff := rfl
@[simp] theorem installKeychain_opaux (s : State) (k : KeySel) (b : Nat) (np pd : List Byte) : (installKeychain s k b np pd).opaux = s.opaux := rfl
@[simp] theorem installKeychain_frhdr (s : State) (k : KeySel) (b : Nat) (np pd : List Byte) : (installKeychain s k b np pd).frhdr = s.frhdr := rfl
@[simp] theorem installKeychain_ltk (s : State) (k : KeySel) (b : Nat) (np pd : List Byte) : (installKeychain s k b np pd).ltk = s.ltk := rfl
@[simp] theorem installKeychain_session (s : State) (k : KeySel) (b : Nat) (np pd : List Byte) : (installKeychain s k b np pd).session = s.session := rfl
@[simp] theorem installKeychain_keychain (s : State) (k : KeySel) (b : Nat) (np pd : List Byte) : (installKeychain s k b np pd).keychain = some { slot := k, bs := BitVec.ofNat 5 b } := rfl
@[simp] theorem installKeychain_res0 (s : State) (k : KeySel) (b : Nat) (np pd : List Byte) : (installKeychain s k b np pd).res0 = s.res0 := rfl
@[simp] theorem installKeychain_res1 (s : State) (k : KeySel) (b : Nat) (np pd : List Byte) : (installKeychain s k b np pd).res1 = s.res1 := rfl
@[simp] theorem installKeychain_res2 (s : State) (k : KeySel) (b : Nat) (np pd : List Byte) : (installKeychain s k b np pd).res2 = s.res2 := rfl
@[simp] theorem installKeychain_res3 (s : State) (k : KeySel) (b : Nat) (np pd : List Byte) : (installKeychain s k b np pd).res3 = s.res3 := rfl
@[simp] theorem installKeychain_hidden (s : State) (k : KeySel) (b : Nat) (np pd : List Byte) : (installKeychain s k b np pd).hidden = s.hidden := rfl
@[simp] theorem installKeychain_latch (s : State) (k : KeySel) (b : Nat) (np pd : List Byte) : (installKeychain s k b np pd).latch = s.latch := rfl
@[simp] theorem installKeychain_countdown (s : State) (k : KeySel) (b : Nat) (np pd : List Byte) : (installKeychain s k b np pd).countdown = s.countdown := rfl
@[simp] theorem installKeychain_host (s : State) (k : KeySel) (b : Nat) (np pd : List Byte) : (installKeychain s k b np pd).host = s.host := rfl
@[simp] theorem installKeychain_env (s : State) (k : KeySel) (b : Nat) (np pd : List Byte) : (installKeychain s k b np pd).env = s.env := rfl

/-! `afterDraw` -/

@[simp] theorem afterDraw_irqEn (s : State) (n : Nat) : (afterDraw s n).irqEn = s.irqEn := rfl
@[simp] theorem afterDraw_cmd (s : State) (n : Nat) : (afterDraw s n).cmd = s.cmd := rfl
@[simp] theorem afterDraw_busy (s : State) (n : Nat) : (afterDraw s n).busy = s.busy := rfl
@[simp] theorem afterDraw_done (s : State) (n : Nat) : (afterDraw s n).done = s.done := rfl
@[simp] theorem afterDraw_err (s : State) (n : Nat) : (afterDraw s n).err = s.err := rfl
@[simp] theorem afterDraw_cmdOvr (s : State) (n : Nat) : (afterDraw s n).cmdOvr = s.cmdOvr := rfl
@[simp] theorem afterDraw_errCode (s : State) (n : Nat) : (afterDraw s n).errCode = s.errCode := rfl
@[simp] theorem afterDraw_authState (s : State) (n : Nat) : (afterDraw s n).authState = s.authState := rfl
@[simp] theorem afterDraw_oplen (s : State) (n : Nat) : (afterDraw s n).oplen = s.oplen := rfl
@[simp] theorem afterDraw_opoff (s : State) (n : Nat) : (afterDraw s n).opoff = s.opoff := rfl
@[simp] theorem afterDraw_opaux (s : State) (n : Nat) : (afterDraw s n).opaux = s.opaux := rfl
@[simp] theorem afterDraw_frhdr (s : State) (n : Nat) : (afterDraw s n).frhdr = s.frhdr := rfl
@[simp] theorem afterDraw_ltk (s : State) (n : Nat) : (afterDraw s n).ltk = s.ltk := rfl
@[simp] theorem afterDraw_session (s : State) (n : Nat) : (afterDraw s n).session = s.session := rfl
@[simp] theorem afterDraw_keychain (s : State) (n : Nat) : (afterDraw s n).keychain = s.keychain := rfl
@[simp] theorem afterDraw_res0 (s : State) (n : Nat) : (afterDraw s n).res0 = s.res0 := rfl
@[simp] theorem afterDraw_res1 (s : State) (n : Nat) : (afterDraw s n).res1 = s.res1 := rfl
@[simp] theorem afterDraw_res2 (s : State) (n : Nat) : (afterDraw s n).res2 = s.res2 := rfl
@[simp] theorem afterDraw_res3 (s : State) (n : Nat) : (afterDraw s n).res3 = s.res3 := rfl
@[simp] theorem afterDraw_mem (s : State) (n : Nat) : (afterDraw s n).mem = s.mem := rfl
@[simp] theorem afterDraw_hidden (s : State) (n : Nat) : (afterDraw s n).hidden = s.hidden := rfl
@[simp] theorem afterDraw_latch (s : State) (n : Nat) : (afterDraw s n).latch = s.latch := rfl
@[simp] theorem afterDraw_countdown (s : State) (n : Nat) : (afterDraw s n).countdown = s.countdown := rfl
@[simp] theorem afterDraw_host (s : State) (n : Nat) : (afterDraw s n).host = s.host := rfl

/-! `issueWith` -/

@[simp] theorem issueWith_irqEn (s : State) (w : Word) (d : Nat) : (issueWith s w d).irqEn = s.irqEn := rfl
@[simp] theorem issueWith_cmd (s : State) (w : Word) (d : Nat) : (issueWith s w d).cmd = w := rfl
@[simp] theorem issueWith_busy (s : State) (w : Word) (d : Nat) : (issueWith s w d).busy = true := rfl
@[simp] theorem issueWith_done (s : State) (w : Word) (d : Nat) : (issueWith s w d).done = false := rfl
@[simp] theorem issueWith_err (s : State) (w : Word) (d : Nat) : (issueWith s w d).err = false := rfl
@[simp] theorem issueWith_cmdOvr (s : State) (w : Word) (d : Nat) : (issueWith s w d).cmdOvr = s.cmdOvr := rfl
@[simp] theorem issueWith_errCode (s : State) (w : Word) (d : Nat) : (issueWith s w d).errCode = .ok := rfl
@[simp] theorem issueWith_authState (s : State) (w : Word) (d : Nat) : (issueWith s w d).authState = issueAuthState w s.authState := rfl
@[simp] theorem issueWith_oplen (s : State) (w : Word) (d : Nat) : (issueWith s w d).oplen = s.oplen := rfl
@[simp] theorem issueWith_opoff (s : State) (w : Word) (d : Nat) : (issueWith s w d).opoff = s.opoff := rfl
@[simp] theorem issueWith_opaux (s : State) (w : Word) (d : Nat) : (issueWith s w d).opaux = s.opaux := rfl
@[simp] theorem issueWith_frhdr (s : State) (w : Word) (d : Nat) : (issueWith s w d).frhdr = s.frhdr := rfl
@[simp] theorem issueWith_ltk (s : State) (w : Word) (d : Nat) : (issueWith s w d).ltk = s.ltk := rfl
@[simp] theorem issueWith_session (s : State) (w : Word) (d : Nat) : (issueWith s w d).session = s.session := rfl
@[simp] theorem issueWith_keychain (s : State) (w : Word) (d : Nat) : (issueWith s w d).keychain = s.keychain := rfl
@[simp] theorem issueWith_res0 (s : State) (w : Word) (d : Nat) : (issueWith s w d).res0 = s.res0 := rfl
@[simp] theorem issueWith_res1 (s : State) (w : Word) (d : Nat) : (issueWith s w d).res1 = s.res1 := rfl
@[simp] theorem issueWith_res2 (s : State) (w : Word) (d : Nat) : (issueWith s w d).res2 = s.res2 := rfl
@[simp] theorem issueWith_res3 (s : State) (w : Word) (d : Nat) : (issueWith s w d).res3 = s.res3 := rfl
@[simp] theorem issueWith_mem (s : State) (w : Word) (d : Nat) : (issueWith s w d).mem = s.mem := rfl
@[simp] theorem issueWith_hidden (s : State) (w : Word) (d : Nat) : (issueWith s w d).hidden = s.hidden := rfl
@[simp] theorem issueWith_latch (s : State) (w : Word) (d : Nat) : (issueWith s w d).latch = latchOperands s w := rfl
@[simp] theorem issueWith_countdown (s : State) (w : Word) (d : Nat) : (issueWith s w d).countdown = d := rfl
@[simp] theorem issueWith_host (s : State) (w : Word) (d : Nat) : (issueWith s w d).host = s.host := rfl
@[simp] theorem issueWith_env (s : State) (w : Word) (d : Nat) : (issueWith s w d).env = s.env := rfl

/-! `clearW1C` -/

@[simp] theorem clearW1C_irqEn (s : State) (v : Word) : (clearW1C s v).irqEn = s.irqEn := rfl
@[simp] theorem clearW1C_cmd (s : State) (v : Word) : (clearW1C s v).cmd = s.cmd := rfl
@[simp] theorem clearW1C_busy (s : State) (v : Word) : (clearW1C s v).busy = s.busy := rfl
@[simp] theorem clearW1C_done (s : State) (v : Word) : (clearW1C s v).done = (s.done && !v.getLsbD 1) := rfl
@[simp] theorem clearW1C_err (s : State) (v : Word) : (clearW1C s v).err = (s.err && !v.getLsbD 2) := rfl
@[simp] theorem clearW1C_cmdOvr (s : State) (v : Word) : (clearW1C s v).cmdOvr = (s.cmdOvr && !v.getLsbD 3) := rfl
@[simp] theorem clearW1C_errCode (s : State) (v : Word) : (clearW1C s v).errCode = s.errCode := rfl
@[simp] theorem clearW1C_authState (s : State) (v : Word) : (clearW1C s v).authState = s.authState := rfl
@[simp] theorem clearW1C_oplen (s : State) (v : Word) : (clearW1C s v).oplen = s.oplen := rfl
@[simp] theorem clearW1C_opoff (s : State) (v : Word) : (clearW1C s v).opoff = s.opoff := rfl
@[simp] theorem clearW1C_opaux (s : State) (v : Word) : (clearW1C s v).opaux = s.opaux := rfl
@[simp] theorem clearW1C_frhdr (s : State) (v : Word) : (clearW1C s v).frhdr = s.frhdr := rfl
@[simp] theorem clearW1C_ltk (s : State) (v : Word) : (clearW1C s v).ltk = s.ltk := rfl
@[simp] theorem clearW1C_session (s : State) (v : Word) : (clearW1C s v).session = s.session := rfl
@[simp] theorem clearW1C_keychain (s : State) (v : Word) : (clearW1C s v).keychain = s.keychain := rfl
@[simp] theorem clearW1C_res0 (s : State) (v : Word) : (clearW1C s v).res0 = s.res0 := rfl
@[simp] theorem clearW1C_res1 (s : State) (v : Word) : (clearW1C s v).res1 = s.res1 := rfl
@[simp] theorem clearW1C_res2 (s : State) (v : Word) : (clearW1C s v).res2 = s.res2 := rfl
@[simp] theorem clearW1C_res3 (s : State) (v : Word) : (clearW1C s v).res3 = s.res3 := rfl
@[simp] theorem clearW1C_mem (s : State) (v : Word) : (clearW1C s v).mem = s.mem := rfl
@[simp] theorem clearW1C_hidden (s : State) (v : Word) : (clearW1C s v).hidden = s.hidden := rfl
@[simp] theorem clearW1C_latch (s : State) (v : Word) : (clearW1C s v).latch = s.latch := rfl
@[simp] theorem clearW1C_countdown (s : State) (v : Word) : (clearW1C s v).countdown = s.countdown := rfl
@[simp] theorem clearW1C_host (s : State) (v : Word) : (clearW1C s v).host = s.host := rfl
@[simp] theorem clearW1C_env (s : State) (v : Word) : (clearW1C s v).env = s.env := rfl

/-! `afterRead` -/

@[simp] theorem afterRead_irqEn (s : State) : (afterRead s).irqEn = s.irqEn := by unfold afterRead; split <;> rfl
@[simp] theorem afterRead_cmd (s : State) : (afterRead s).cmd = s.cmd := by unfold afterRead; split <;> rfl
@[simp] theorem afterRead_busy (s : State) : (afterRead s).busy = s.busy := by unfold afterRead; split <;> rfl
@[simp] theorem afterRead_done (s : State) : (afterRead s).done = s.done := by unfold afterRead; split <;> rfl
@[simp] theorem afterRead_err (s : State) : (afterRead s).err = s.err := by unfold afterRead; split <;> rfl
@[simp] theorem afterRead_cmdOvr (s : State) : (afterRead s).cmdOvr = s.cmdOvr := by unfold afterRead; split <;> rfl
@[simp] theorem afterRead_errCode (s : State) : (afterRead s).errCode = s.errCode := by unfold afterRead; split <;> rfl
@[simp] theorem afterRead_authState (s : State) : (afterRead s).authState = s.authState := by unfold afterRead; split <;> rfl
@[simp] theorem afterRead_oplen (s : State) : (afterRead s).oplen = s.oplen := by unfold afterRead; split <;> rfl
@[simp] theorem afterRead_opoff (s : State) : (afterRead s).opoff = s.opoff := by unfold afterRead; split <;> rfl
@[simp] theorem afterRead_opaux (s : State) : (afterRead s).opaux = s.opaux := by unfold afterRead; split <;> rfl
@[simp] theorem afterRead_frhdr (s : State) : (afterRead s).frhdr = s.frhdr := by unfold afterRead; split <;> rfl
@[simp] theorem afterRead_ltk (s : State) : (afterRead s).ltk = s.ltk := by unfold afterRead; split <;> rfl
@[simp] theorem afterRead_session (s : State) : (afterRead s).session = s.session := by unfold afterRead; split <;> rfl
@[simp] theorem afterRead_keychain (s : State) : (afterRead s).keychain = s.keychain := by unfold afterRead; split <;> rfl
@[simp] theorem afterRead_res0 (s : State) : (afterRead s).res0 = s.res0 := by unfold afterRead; split <;> rfl
@[simp] theorem afterRead_res1 (s : State) : (afterRead s).res1 = s.res1 := by unfold afterRead; split <;> rfl
@[simp] theorem afterRead_res2 (s : State) : (afterRead s).res2 = s.res2 := by unfold afterRead; split <;> rfl
@[simp] theorem afterRead_res3 (s : State) : (afterRead s).res3 = s.res3 := by unfold afterRead; split <;> rfl
@[simp] theorem afterRead_mem (s : State) : (afterRead s).mem = s.mem := by unfold afterRead; split <;> rfl
@[simp] theorem afterRead_hidden (s : State) : (afterRead s).hidden = s.hidden := by unfold afterRead; split <;> rfl
@[simp] theorem afterRead_latch (s : State) : (afterRead s).latch = s.latch := by unfold afterRead; split <;> rfl
@[simp] theorem afterRead_countdown (s : State) : (afterRead s).countdown = s.countdown := by unfold afterRead; split <;> rfl
@[simp] theorem afterRead_host (s : State) : (afterRead s).host = s.host := by unfold afterRead; split <;> rfl

/-! `setHostTemp` -/

@[simp] theorem State.setHostTemp_irqEn (s : State) (t : Nat) (v : Word) : (s.setHostTemp t v).irqEn = s.irqEn := rfl
@[simp] theorem State.setHostTemp_cmd (s : State) (t : Nat) (v : Word) : (s.setHostTemp t v).cmd = s.cmd := rfl
@[simp] theorem State.setHostTemp_busy (s : State) (t : Nat) (v : Word) : (s.setHostTemp t v).busy = s.busy := rfl
@[simp] theorem State.setHostTemp_done (s : State) (t : Nat) (v : Word) : (s.setHostTemp t v).done = s.done := rfl
@[simp] theorem State.setHostTemp_err (s : State) (t : Nat) (v : Word) : (s.setHostTemp t v).err = s.err := rfl
@[simp] theorem State.setHostTemp_cmdOvr (s : State) (t : Nat) (v : Word) : (s.setHostTemp t v).cmdOvr = s.cmdOvr := rfl
@[simp] theorem State.setHostTemp_errCode (s : State) (t : Nat) (v : Word) : (s.setHostTemp t v).errCode = s.errCode := rfl
@[simp] theorem State.setHostTemp_authState (s : State) (t : Nat) (v : Word) : (s.setHostTemp t v).authState = s.authState := rfl
@[simp] theorem State.setHostTemp_oplen (s : State) (t : Nat) (v : Word) : (s.setHostTemp t v).oplen = s.oplen := rfl
@[simp] theorem State.setHostTemp_opoff (s : State) (t : Nat) (v : Word) : (s.setHostTemp t v).opoff = s.opoff := rfl
@[simp] theorem State.setHostTemp_opaux (s : State) (t : Nat) (v : Word) : (s.setHostTemp t v).opaux = s.opaux := rfl
@[simp] theorem State.setHostTemp_frhdr (s : State) (t : Nat) (v : Word) : (s.setHostTemp t v).frhdr = s.frhdr := rfl
@[simp] theorem State.setHostTemp_ltk (s : State) (t : Nat) (v : Word) : (s.setHostTemp t v).ltk = s.ltk := rfl
@[simp] theorem State.setHostTemp_session (s : State) (t : Nat) (v : Word) : (s.setHostTemp t v).session = s.session := rfl
@[simp] theorem State.setHostTemp_keychain (s : State) (t : Nat) (v : Word) : (s.setHostTemp t v).keychain = s.keychain := rfl
@[simp] theorem State.setHostTemp_res0 (s : State) (t : Nat) (v : Word) : (s.setHostTemp t v).res0 = s.res0 := rfl
@[simp] theorem State.setHostTemp_res1 (s : State) (t : Nat) (v : Word) : (s.setHostTemp t v).res1 = s.res1 := rfl
@[simp] theorem State.setHostTemp_res2 (s : State) (t : Nat) (v : Word) : (s.setHostTemp t v).res2 = s.res2 := rfl
@[simp] theorem State.setHostTemp_res3 (s : State) (t : Nat) (v : Word) : (s.setHostTemp t v).res3 = s.res3 := rfl
@[simp] theorem State.setHostTemp_mem (s : State) (t : Nat) (v : Word) : (s.setHostTemp t v).mem = s.mem := rfl
@[simp] theorem State.setHostTemp_hidden (s : State) (t : Nat) (v : Word) : (s.setHostTemp t v).hidden = s.hidden := rfl
@[simp] theorem State.setHostTemp_latch (s : State) (t : Nat) (v : Word) : (s.setHostTemp t v).latch = s.latch := rfl
@[simp] theorem State.setHostTemp_countdown (s : State) (t : Nat) (v : Word) : (s.setHostTemp t v).countdown = s.countdown := rfl
@[simp] theorem State.setHostTemp_env (s : State) (t : Nat) (v : Word) : (s.setHostTemp t v).env = s.env := rfl

/-! `setHostPc` -/

@[simp] theorem State.setHostPc_irqEn (s : State) (p : Nat) : (s.setHostPc p).irqEn = s.irqEn := rfl
@[simp] theorem State.setHostPc_cmd (s : State) (p : Nat) : (s.setHostPc p).cmd = s.cmd := rfl
@[simp] theorem State.setHostPc_busy (s : State) (p : Nat) : (s.setHostPc p).busy = s.busy := rfl
@[simp] theorem State.setHostPc_done (s : State) (p : Nat) : (s.setHostPc p).done = s.done := rfl
@[simp] theorem State.setHostPc_err (s : State) (p : Nat) : (s.setHostPc p).err = s.err := rfl
@[simp] theorem State.setHostPc_cmdOvr (s : State) (p : Nat) : (s.setHostPc p).cmdOvr = s.cmdOvr := rfl
@[simp] theorem State.setHostPc_errCode (s : State) (p : Nat) : (s.setHostPc p).errCode = s.errCode := rfl
@[simp] theorem State.setHostPc_authState (s : State) (p : Nat) : (s.setHostPc p).authState = s.authState := rfl
@[simp] theorem State.setHostPc_oplen (s : State) (p : Nat) : (s.setHostPc p).oplen = s.oplen := rfl
@[simp] theorem State.setHostPc_opoff (s : State) (p : Nat) : (s.setHostPc p).opoff = s.opoff := rfl
@[simp] theorem State.setHostPc_opaux (s : State) (p : Nat) : (s.setHostPc p).opaux = s.opaux := rfl
@[simp] theorem State.setHostPc_frhdr (s : State) (p : Nat) : (s.setHostPc p).frhdr = s.frhdr := rfl
@[simp] theorem State.setHostPc_ltk (s : State) (p : Nat) : (s.setHostPc p).ltk = s.ltk := rfl
@[simp] theorem State.setHostPc_session (s : State) (p : Nat) : (s.setHostPc p).session = s.session := rfl
@[simp] theorem State.setHostPc_keychain (s : State) (p : Nat) : (s.setHostPc p).keychain = s.keychain := rfl
@[simp] theorem State.setHostPc_res0 (s : State) (p : Nat) : (s.setHostPc p).res0 = s.res0 := rfl
@[simp] theorem State.setHostPc_res1 (s : State) (p : Nat) : (s.setHostPc p).res1 = s.res1 := rfl
@[simp] theorem State.setHostPc_res2 (s : State) (p : Nat) : (s.setHostPc p).res2 = s.res2 := rfl
@[simp] theorem State.setHostPc_res3 (s : State) (p : Nat) : (s.setHostPc p).res3 = s.res3 := rfl
@[simp] theorem State.setHostPc_mem (s : State) (p : Nat) : (s.setHostPc p).mem = s.mem := rfl
@[simp] theorem State.setHostPc_hidden (s : State) (p : Nat) : (s.setHostPc p).hidden = s.hidden := rfl
@[simp] theorem State.setHostPc_latch (s : State) (p : Nat) : (s.setHostPc p).latch = s.latch := rfl
@[simp] theorem State.setHostPc_countdown (s : State) (p : Nat) : (s.setHostPc p).countdown = s.countdown := rfl
@[simp] theorem State.setHostPc_env (s : State) (p : Nat) : (s.setHostPc p).env = s.env := rfl

/-! `hostAdvance` -/

@[simp] theorem hostAdvance_irqEn (s : State) : (hostAdvance s).irqEn = s.irqEn := rfl
@[simp] theorem hostAdvance_cmd (s : State) : (hostAdvance s).cmd = s.cmd := rfl
@[simp] theorem hostAdvance_busy (s : State) : (hostAdvance s).busy = s.busy := rfl
@[simp] theorem hostAdvance_done (s : State) : (hostAdvance s).done = s.done := rfl
@[simp] theorem hostAdvance_err (s : State) : (hostAdvance s).err = s.err := rfl
@[simp] theorem hostAdvance_cmdOvr (s : State) : (hostAdvance s).cmdOvr = s.cmdOvr := rfl
@[simp] theorem hostAdvance_errCode (s : State) : (hostAdvance s).errCode = s.errCode := rfl
@[simp] theorem hostAdvance_authState (s : State) : (hostAdvance s).authState = s.authState := rfl
@[simp] theorem hostAdvance_oplen (s : State) : (hostAdvance s).oplen = s.oplen := rfl
@[simp] theorem hostAdvance_opoff (s : State) : (hostAdvance s).opoff = s.opoff := rfl
@[simp] theorem hostAdvance_opaux (s : State) : (hostAdvance s).opaux = s.opaux := rfl
@[simp] theorem hostAdvance_frhdr (s : State) : (hostAdvance s).frhdr = s.frhdr := rfl
@[simp] theorem hostAdvance_ltk (s : State) : (hostAdvance s).ltk = s.ltk := rfl
@[simp] theorem hostAdvance_session (s : State) : (hostAdvance s).session = s.session := rfl
@[simp] theorem hostAdvance_keychain (s : State) : (hostAdvance s).keychain = s.keychain := rfl
@[simp] theorem hostAdvance_res0 (s : State) : (hostAdvance s).res0 = s.res0 := rfl
@[simp] theorem hostAdvance_res1 (s : State) : (hostAdvance s).res1 = s.res1 := rfl
@[simp] theorem hostAdvance_res2 (s : State) : (hostAdvance s).res2 = s.res2 := rfl
@[simp] theorem hostAdvance_res3 (s : State) : (hostAdvance s).res3 = s.res3 := rfl
@[simp] theorem hostAdvance_mem (s : State) : (hostAdvance s).mem = s.mem := rfl
@[simp] theorem hostAdvance_hidden (s : State) : (hostAdvance s).hidden = s.hidden := rfl
@[simp] theorem hostAdvance_latch (s : State) : (hostAdvance s).latch = s.latch := rfl
@[simp] theorem hostAdvance_countdown (s : State) : (hostAdvance s).countdown = s.countdown := rfl
@[simp] theorem hostAdvance_env (s : State) : (hostAdvance s).env = s.env := rfl

/-! `countDown` -/

@[simp] theorem countDown_irqEn (s : State) : (countDown s).irqEn = s.irqEn := by unfold countDown; split <;> rfl
@[simp] theorem countDown_cmd (s : State) : (countDown s).cmd = s.cmd := by unfold countDown; split <;> rfl
@[simp] theorem countDown_busy (s : State) : (countDown s).busy = s.busy := by unfold countDown; split <;> rfl
@[simp] theorem countDown_done (s : State) : (countDown s).done = s.done := by unfold countDown; split <;> rfl
@[simp] theorem countDown_err (s : State) : (countDown s).err = s.err := by unfold countDown; split <;> rfl
@[simp] theorem countDown_cmdOvr (s : State) : (countDown s).cmdOvr = s.cmdOvr := by unfold countDown; split <;> rfl
@[simp] theorem countDown_errCode (s : State) : (countDown s).errCode = s.errCode := by unfold countDown; split <;> rfl
@[simp] theorem countDown_authState (s : State) : (countDown s).authState = s.authState := by unfold countDown; split <;> rfl
@[simp] theorem countDown_oplen (s : State) : (countDown s).oplen = s.oplen := by unfold countDown; split <;> rfl
@[simp] theorem countDown_opoff (s : State) : (countDown s).opoff = s.opoff := by unfold countDown; split <;> rfl
@[simp] theorem countDown_opaux (s : State) : (countDown s).opaux = s.opaux := by unfold countDown; split <;> rfl
@[simp] theorem countDown_frhdr (s : State) : (countDown s).frhdr = s.frhdr := by unfold countDown; split <;> rfl
@[simp] theorem countDown_ltk (s : State) : (countDown s).ltk = s.ltk := by unfold countDown; split <;> rfl
@[simp] theorem countDown_session (s : State) : (countDown s).session = s.session := by unfold countDown; split <;> rfl
@[simp] theorem countDown_keychain (s : State) : (countDown s).keychain = s.keychain := by unfold countDown; split <;> rfl
@[simp] theorem countDown_res0 (s : State) : (countDown s).res0 = s.res0 := by unfold countDown; split <;> rfl
@[simp] theorem countDown_res1 (s : State) : (countDown s).res1 = s.res1 := by unfold countDown; split <;> rfl
@[simp] theorem countDown_res2 (s : State) : (countDown s).res2 = s.res2 := by unfold countDown; split <;> rfl
@[simp] theorem countDown_res3 (s : State) : (countDown s).res3 = s.res3 := by unfold countDown; split <;> rfl
@[simp] theorem countDown_mem (s : State) : (countDown s).mem = s.mem := by unfold countDown; split <;> rfl
@[simp] theorem countDown_hidden (s : State) : (countDown s).hidden = s.hidden := by unfold countDown; split <;> rfl
@[simp] theorem countDown_latch (s : State) : (countDown s).latch = s.latch := by unfold countDown; split <;> rfl
@[simp] theorem countDown_host (s : State) : (countDown s).host = s.host := by unfold countDown; split <;> rfl
@[simp] theorem countDown_env (s : State) : (countDown s).env = s.env := by unfold countDown; split <;> rfl

end Sys2Proof.Machine
end

