-- ==== Sys2Proof/Laws/Ops.lean ====
section
/-! SUPPORT. What each shared operation does, said once: windows read after writes, completions, logout, the keychain, and the
operand forms. -/

namespace Sys2Proof.Machine

/-- Two windows lie apart. -/
theorem Window.apart {w v : Window} (h : w ≠ v) : w.base + w.size ≤ v.base ∨ v.base + v.size ≤ w.base := by
  revert h
  cases w <;> cases v <;> decide

@[simp] theorem State.window_length (s : State) (w : Window) (off n : Nat) : (s.window w off n).length = n := by
  simp [State.window]

theorem State.window_congr {s t : State} (w : Window) (off n : Nat) (h : t.mem = s.mem) :
    t.window w off n = s.window w off n := by simp [State.window, h]

/-- What was stored in a window is read back from it. -/
theorem State.window_setWindow_same (s : State) (w : Window) (off : Nat) {b : List Byte} {n : Nat} (h : b.length = n) :
    (s.setWindow w off b).window w off n = b := by
  subst h
  exact readBytes_writeBytes_same _ _ _

/-- A range of a window apart from the stored one reads as before. -/
theorem State.window_setWindow_apart (s : State) (w : Window) (off : Nat) (b : List Byte) (x n : Nat)
    (h : x + n ≤ off ∨ off + b.length ≤ x) : (s.setWindow w off b).window w x n = s.window w x n := by
  refine readBytes_writeBytes_apart _ _ _ _ _ ?_
  rcases h with h | h
  · left; omega
  · right; omega

/-- A window reads as before where another one was written. -/
theorem State.window_setWindow_other (s : State) {w v : Window} (hw : w ≠ v) {off : Nat} {b : List Byte} {x n : Nat}
    (hb : off + b.length ≤ w.size) (hn : x + n ≤ v.size) : (s.setWindow w off b).window v x n = s.window v x n := by
  refine readBytes_writeBytes_apart _ _ _ _ _ ?_
  rcases Window.apart hw with h | h
  · right; omega
  · left; omega

/-- What a byte reads as after a window was written. -/
theorem readByte_setWindow (s : State) (w : Window) (off : Nat) (b : List Byte) (a : Nat) :
    readByte (s.setWindow w off b).mem a =
      if w.base + off ≤ a ∧ a < w.base + off + b.length then b.getD (a - (w.base + off)) 0 else readByte s.mem a :=
  readByte_writeBytes _ _ _ _

/-- A write into a range leaves every byte outside the range alone. -/
theorem readByte_setWindow_outside (s : State) {w : Window} {off : Nat} {b : List Byte} {n : Nat} (hb : b.length ≤ n) {a : Nat}
    (h : (w.range off n).has a = false) : readByte (s.setWindow w off b).mem a = readByte s.mem a := by
  have h' : ¬ (w.base + off ≤ a ∧ a < w.base + off + n) := of_decide_eq_false h
  rw [readByte_setWindow, if_neg (by omega)]

@[simp] theorem inRanges_nil (a : Nat) : inRanges [] a = false := rfl

@[simp] theorem inRanges_cons (r : Range) (rs : List Range) (a : Nat) :
    inRanges (r :: rs) a = (r.has a || inRanges rs a) := rfl

@[simp] theorem inRanges_append (rs qs : List Range) (a : Nat) :
    inRanges (rs ++ qs) a = (inRanges rs a || inRanges qs a) := by simp [inRanges]

@[simp] theorem zeros_length (n : Nat) : (zeros n).length = n := by simp [zeros]

theorem padTo_length {n : Nat} {b : List Byte} (h : b.length ≤ n) : (padTo n b).length = n := by
  simp [padTo]; omega

/-- A successful completion. -/
theorem succeed_completed (s : State) (r0 r1 r2 r3 : Word) : Completed (succeed s r0 r1 r2 r3) .ok r0 r1 r2 r3 :=
  ⟨rfl, rfl, rfl, rfl, rfl, rfl, rfl, rfl⟩

/-- A failing completion (rule R312), for an error code proper. -/
theorem fail_failsWith (s : State) {code : ErrCode} (h : code ≠ .ok) (need : Nat) : FailsWith s (fail s code need) code need :=
  ⟨⟨rfl, rfl, by simp [h], rfl, rfl, rfl, rfl, rfl⟩, ⟨rfl, rfl, rfl, rfl, rfl, rfl, rfl, rfl, rfl, rfl⟩,
    ⟨rfl, rfl, rfl, rfl, rfl, rfl⟩, fun _ => rfl⟩

theorem keychainOf_iff (s : State) (k : KeySel) : keychainOf s k = true ↔ ∃ c, s.keychain = some c ∧ c.slot = k := by
  unfold keychainOf
  cases s.keychain <;> simp

/-- What an invalidation leaves in the keychain. -/
theorem invalidateSlot_keychain (s : State) (k : KeySel) :
    (invalidateSlot s k).keychain = if keychainOf s k then none else s.keychain := by
  unfold invalidateSlot
  split <;> simp [*]

/-- An invalidation zeroes the subkey windows where the keychain is of the slot. -/
theorem invalidateSlot_subkeys (s : State) (k : KeySel) (h : keychainOf s k = true) :
    (invalidateSlot s k).window .subkPad 0 16 = zeros 16 ∧ (invalidateSlot s k).window .subkNopad 0 16 = zeros 16 := by
  simp only [invalidateSlot, h, if_true, invalidateKeychain]
  refine ⟨?_, State.window_setWindow_same _ _ _ (by simp)⟩
  rw [State.window_setWindow_other _ (by decide) (by simp [Window.size]) (by simp [Window.size])]
  exact State.window_setWindow_same _ _ _ (by simp)

/-- An invalidation writes the subkey windows only, and only where the keychain is of the slot. -/
theorem invalidateSlot_outside (s : State) (k : KeySel) {a : Nat} (h : inRanges (slotOutputs s k) a = false) :
    readByte (invalidateSlot s k).mem a = readByte s.mem a := by
  unfold slotOutputs at h
  unfold invalidateSlot
  by_cases hk : keychainOf s k = true
  · simp only [hk, if_true, inRanges_cons, inRanges_nil, Bool.or_false, Bool.or_eq_false_iff] at h ⊢
    rw [invalidateKeychain, readByte_setWindow_outside _ (n := 16) (by simp) h.2,
      readByte_setWindow_outside _ (n := 16) (by simp) h.1]
  · simp [hk]

/-- Windows other than the two of the subkeys read as before an invalidation. -/
theorem invalidateSlot_window (s : State) (k : KeySel) {w : Window} (h1 : w ≠ .subkPad) (h2 : w ≠ .subkNopad) {x n : Nat}
    (hn : x + n ≤ w.size) : (invalidateSlot s k).window w x n = s.window w x n := by
  unfold invalidateSlot
  split
  · rw [invalidateKeychain, State.window_setWindow_other _ (Ne.symm h2) (by simp [Window.size]) hn,
      State.window_setWindow_other _ (Ne.symm h1) (by simp [Window.size]) hn]
    rfl
  · rfl

theorem logout_keychain (s : State) : (logout s).keychain = if keychainOf s .sess then none else s.keychain := by
  show (invalidateSlot _ _).keychain = _
  rw [invalidateSlot_keychain]
  rfl

theorem logout_outside (s : State) {a : Nat} (h : inRanges (logoutOutputs s) a = false) :
    readByte (logout s).mem a = readByte s.mem a := by
  simp only [logoutOutputs, inRanges_append, inRanges_cons, inRanges_nil, Bool.or_false, Bool.or_eq_false_iff] at h
  have hw : readByte (logout s).mem a
      = readByte (({ s with session := none }.setWindow .sessKey 0 (zeros 24)).setWindow .iv 0 (zeros 16)).mem a :=
    invalidateSlot_outside _ .sess h.2
  rw [hw, readByte_setWindow_outside _ (n := 16) (by simp) h.1.2, readByte_setWindow_outside _ (n := 24) (by simp) h.1.1]

/-- What an invalidation leaves of the keychain of each slot (rule R46). -/
theorem invalidateSlot_dropped (s : State) (k : KeySel) : KeychainDropped (fun x => decide (x = k)) s (invalidateSlot s k) where
  dropped := fun c hc hk => by
    have h : keychainOf s k = true := (keychainOf_iff s k).2 ⟨c, hc, by simpa using hk⟩
    exact ⟨by rw [invalidateSlot_keychain, if_pos h], invalidateSlot_subkeys s k h⟩
  kept := fun hk => by
    have h : ¬ keychainOf s k = true := fun h => by
      obtain ⟨c, hc, e⟩ := (keychainOf_iff s k).1 h
      simpa [e] using hk c hc
    have e : invalidateSlot s k = s := by rw [invalidateSlot, if_neg h]
    rw [e]
    exact ⟨rfl, rfl, rfl⟩

/-- What a keychain's fate holds of states with the same keychain and memory. -/
theorem KeychainDropped.of_same {p : KeySel → Bool} {s t s' t' : State} (h : KeychainDropped p s t)
    (h1 : s'.keychain = s.keychain) (h2 : t'.keychain = t.keychain)
    (h3 : s'.window .subkPad 0 16 = s.window .subkPad 0 16) (h4 : s'.window .subkNopad 0 16 = s.window .subkNopad 0 16)
    (h5 : t'.mem = t.mem) : KeychainDropped p s' t' := by
  have w : ∀ w : Window, t'.window w 0 16 = t.window w 0 16 := fun w => State.window_congr _ _ _ h5
  refine ⟨fun c hc hp => ?_, fun hk => ?_⟩
  · rw [h2, w, w]
    exact h.dropped c (h1 ▸ hc) hp
  · rw [h1, h2, h3, h4, w, w]
    exact h.kept fun c hc => hk c (h1.trans hc)

/-- `logout()` (rule R272). -/
theorem logout_loggedOut (s : State) : LoggedOut s (logout s) where
  ended :=
    { session := by simp
      hidden := by simp
      sessKey := by
        show (invalidateSlot _ _).window _ _ _ = _
        rw [invalidateSlot_window _ _ (by decide) (by decide) (by simp [Window.size]),
          State.window_setWindow_other _ (by decide) (by simp [Window.size]) (by simp [Window.size])]
        exact State.window_setWindow_same _ _ _ (by simp)
      iv := by
        show (invalidateSlot _ _).window _ _ _ = _
        rw [invalidateSlot_window _ _ (by decide) (by decide) (by simp [Window.size])]
        exact State.window_setWindow_same _ _ _ (by simp) }
  ltk := by simp
  keychain := by
    have h := invalidateSlot_dropped (({ s with session := none }.setWindow .sessKey 0 (zeros 24)).setWindow .iv 0 (zeros 16)) .sess
    have e : (fun x : KeySel => decide (x = .sess)) = sessionSlot := by funext x; cases x <;> rfl
    rw [e] at h
    refine h.of_same rfl rfl ?_ ?_ rfl <;>
    · rw [State.window_setWindow_other _ (by decide) (by simp [Window.size]) (by simp [Window.size]),
        State.window_setWindow_other _ (by decide) (by simp [Window.size]) (by simp [Window.size])]
      rfl

/-- What a logout left holds of a state with the same slots, keychain, record and memory. -/
theorem LoggedOut.of_same {s t u : State} (h : LoggedOut s t) (h1 : u.session = t.session) (h2 : u.mem = t.mem)
    (h3 : u.hidden = t.hidden) (h4 : u.keychain = t.keychain) (h5 : u.ltk = t.ltk) : LoggedOut s u where
  ended :=
    { session := h1.trans h.ended.session
      sessKey := (State.window_congr _ _ _ h2).trans h.ended.sessKey
      iv := (State.window_congr _ _ _ h2).trans h.ended.iv
      hidden := h3.trans h.ended.hidden }
  keychain := h.keychain.of_same rfl h4 rfl rfl h2
  ltk := h5.trans h.ltk

/-- Windows that a logout does not write read as before it. -/
theorem logout_window (s : State) {w : Window} (h1 : w ≠ .subkPad) (h2 : w ≠ .subkNopad) (h3 : w ≠ .sessKey) (h4 : w ≠ .iv)
    {x n : Nat} (hn : x + n ≤ w.size) : (logout s).window w x n = s.window w x n := by
  show (invalidateSlot _ _).window _ _ _ = _
  rw [invalidateSlot_window _ _ h1 h2 hn, State.window_setWindow_other _ (Ne.symm h4) (by simp [Window.size]) hn,
    State.window_setWindow_other _ (Ne.symm h3) (by simp [Window.size]) hn]
  rfl

/-- `auth_fail(code)` (rule R275). -/
theorem authFail_authFailsWith (s : State) {code : ErrCode} (h : code ≠ .ok) : AuthFailsWith s (authFail s code) code where
  completed := by constructor <;> simp [authFail, h, wordOf]
  inputs := by constructor <;> simp [authFail, handshakeAbort]
  loggedOut := (logout_loggedOut s).of_same (by simp [authFail, handshakeAbort]) (by simp [authFail, handshakeAbort])
    (by simp [authFail, handshakeAbort]) (by simp [authFail, handshakeAbort]) (by simp [authFail, handshakeAbort])
  authState := by simp [authFail, handshakeAbort]
  env := by simp [authFail, handshakeAbort]
  bytes := fun a ha => by
    have : (authFail s code).mem = (logout s).mem := by simp [authFail, handshakeAbort]
    rw [this]
    exact logout_outside s ha

/-- The memory operations of the machine keep the canonical form. -/
theorem setWindow_wf {s : State} (h : Memory.wf s.mem) (w : Window) (off : Nat) (b : List Byte) :
    Memory.wf (s.setWindow w off b).mem := writeBytes_wf h _ _

theorem invalidateSlot_wf {s : State} (h : Memory.wf s.mem) (k : KeySel) : Memory.wf (invalidateSlot s k).mem := by
  unfold invalidateSlot
  split
  · exact setWindow_wf (setWindow_wf h _ _ _) _ _ _
  · exact h

theorem logout_wf {s : State} (h : Memory.wf s.mem) : Memory.wf (logout s).mem := by
  have h1 : Memory.wf (({ s with session := none }.setWindow .sessKey 0 (zeros 24)).setWindow .iv 0 (zeros 16)).mem :=
    setWindow_wf (setWindow_wf (s := { s with session := none }) h _ _ _) _ _ _
  exact invalidateSlot_wf h1 .sess

theorem installKeychain_wf {s : State} (h : Memory.wf s.mem) (k : KeySel) (b : Nat) (np pd : List Byte) :
    Memory.wf (installKeychain s k b np pd).mem := setWindow_wf (setWindow_wf h _ _ _) _ _ _

/-- The memory of `State.reset` is in canonical form. -/
theorem reset_wf : Memory.wf State.reset.mem := nil_wf

/-- `key_of` (rule R204): a key has the length of its family. -/
theorem keyOf_length {s : State} {k : KeySel} {r : KeyRef} (h : keyOf s k = some r) : r.key.length = klen r.fam := by
  cases k <;> simp only [keyOf, Option.map_eq_some_iff] at h <;> obtain ⟨l, _, rfl⟩ := h <;> simp [ltkKeyBytes, sessKeyBytes]

/-- `key_of` finds a key in the long-term slot exactly where one is held (rule R204). -/
theorem keyOf_ltk (s : State) : keyOf s .ltk = s.ltk.map fun l => { fam := l.ciph, key := ltkKeyBytes s l.ciph } := rfl

/-- `key_of` finds a key in the session slot exactly where one is installed (rule R204). -/
theorem keyOf_sess (s : State) : keyOf s .sess = s.session.map fun l => { fam := l.ciph, key := sessKeyBytes s l.ciph } := rfl

/-- The operands of the chain commands where every check passes (rule R208). -/
theorem chainOperands_ok {s : State} {k : KeySel} {r : KeyRef} (hk : keyOf s k = some r) (hr : opOff s + opLen s ≤ dataBytes)
    (hb : opLen s % bs r.fam = 0) :
    chainOperands s k =
      .ok { ref := r, iv := s.window .iv 0 (bs r.fam), data := s.window .data (opOff s) (opLen s) } := by
  have h1 : ¬ opOff s + opLen s > dataBytes := by omega
  simp only [chainOperands, hk, h1, hb, if_false, ne_eq, not_true_eq_false]

/-- What the operands of the chain commands are, where they are accepted. -/
theorem chainOperands_cases {s : State} {k : KeySel} {x : ChainInput} (h : chainOperands s k = .ok x) :
    keyOf s k = some x.ref ∧ opOff s + opLen s ≤ dataBytes ∧ opLen s % bs x.ref.fam = 0 ∧
      x.iv = s.window .iv 0 (bs x.ref.fam) ∧ x.data = s.window .data (opOff s) (opLen s) := by
  unfold chainOperands at h
  split at h
  · cases h
  · rename_i r hr
    split at h
    · cases h
    · split at h
      · cases h
      · rename_i h1 h2
        cases h
        exact ⟨hr, by omega, by simpa using h2, rfl, rfl⟩

/-- No operand form answers an error that is no error. -/
theorem chainOperands_ne_ok {s : State} {k : KeySel} {e : ErrCode} (h : chainOperands s k = .error e) : e ≠ .ok := by
  unfold chainOperands at h
  split at h
  · cases h; decide
  · split at h
    · cases h; decide
    · split at h <;> cases h
      decide

theorem cmacOperands_ne_ok {s : State} {k : KeySel} {e : ErrCode} (h : cmacOperands s k = .error e) : e ≠ .ok := by
  unfold cmacOperands at h
  split at h
  · cases h; decide
  · split at h
    · cases h; decide
    · split at h
      · cases h; decide
      · split at h <;> cases h
        decide

theorem infoOperands_ne_ok {s : State} {e : ErrCode} (h : infoOperands s = .error e) : e ≠ .ok := by
  unfold infoOperands at h
  split at h
  · cases h; decide
  · split at h <;> cases h
    decide

theorem answerOperands_ne_ok {s : State} {v : Byte} {n : Family → Nat} {e : ErrCode} (h : answerOperands s v n = .error e) :
    e ≠ .ok := by
  unfold answerOperands at h
  split at h
  · cases h; decide
  · split at h
    · cases h; decide
    · split at h
      · cases h; decide
      · split at h
        · cases h; decide
        · split at h <;> cases h
          decide

theorem chalOperands_ne_ok {s : State} {e : ErrCode} (h : chalOperands s = .error e) : e ≠ .ok := by
  unfold chalOperands at h
  split at h
  · cases h; decide
  · exact answerOperands_ne_ok h

theorem finishOperands_ne_ok {s : State} {e : ErrCode} (h : finishOperands s = .error e) : e ≠ .ok := by
  unfold finishOperands at h
  split at h
  · cases h; decide
  · split at h
    · rename_i he
      cases h
      exact answerOperands_ne_ok he
    · dsimp only at h
      split at h <;> cases h
      decide

/-- The card's answer, where AUTH.CHAL or AUTH.FINISH accepts it (rules R276 and R277). -/
theorem answerOperands_cases {s : State} {v : Byte} {n : Family → Nat} {x : AnswerInput} (h : answerOperands s v n = .ok x) :
    s.ltk = some x.ltk ∧ opLen s = n x.ltk.ciph + 1 ∧ opLen s ≤ acBufBytes ∧ x.key = ltkKeyBytes s x.ltk.ciph ∧
      byteAt (s.window .acRx 0 (opLen s)) (opLen s - 1) = v ∧ x.answer = s.window .acRx 0 (n x.ltk.ciph) := by
  unfold answerOperands at h
  split at h
  · cases h
  · split at h
    · cases h
    · split at h
      · cases h
      · rename_i l hl
        split at h
        · cases h
        · split at h
          · cases h
          · rename_i h1 h2 h3 h4
            cases h
            simp only [ne_eq, not_not] at h3 h4
            refine ⟨hl, ?_, by omega, rfl, h3, rfl⟩
            dsimp only
            omega

/-- AUTH.CHAL accepts an answer in state 2 only (rule R276). -/
theorem chalOperands_cases {s : State} {x : AnswerInput} (h : chalOperands s = .ok x) :
    s.authState = .awaitingChallenge ∧ answerOperands s contCmd challengeLen = .ok x := by
  unfold chalOperands at h
  split at h
  · cases h
  · exact ⟨by simpa using ‹¬ s.authState ≠ .awaitingChallenge›, h⟩

/-- AUTH.FINISH accepts an answer in state 4 only, and only one that decrypts to `rotl1(RndA)` (rule R277). -/
theorem finishOperands_cases {s : State} {x : AnswerInput} (h : finishOperands s = .ok x) :
    s.authState = .verifying ∧ answerOperands s statusOk (fun _ => s.hidden.n) = .ok x ∧
      (cbcDec x.ltk.ciph x.key (s.hidden.n / bs x.ltk.ciph) (s.hidden.civ.take (bs x.ltk.ciph)) x.answer).out
        = rotl1 (s.hidden.rnda.take s.hidden.n) := by
  unfold finishOperands at h
  split at h
  · cases h
  · rename_i hs
    split at h
    · cases h
    · rename_i y hy
      dsimp only at h
      split at h <;> cases h
      exact ⟨by simpa using hs, hy, by simpa using ‹¬ _ ≠ _›⟩

/-- The payload of FENC.INFO, where its range is accepted (rule R145). -/
theorem infoOperands_cases {s : State} {p : List Byte} (h : infoOperands s = .ok p) :
    opLen s ≤ maxPayload ∧ opOff s + opLen s ≤ dataBytes ∧ p = s.window .data (opOff s) (opLen s) := by
  unfold infoOperands at h
  split at h
  · cases h
  · split at h <;> cases h
    exact ⟨by omega, by omega, rfl⟩

/-- The operands of CMAC, where they are accepted (rule R247). -/
theorem cmacOperands_cases {s : State} {k : KeySel} {x : CmacInput} (h : cmacOperands s k = .ok x) :
    keyOf s k = some x.ref ∧ keychainOf s k = true ∧ opOff s + opLen s ≤ dataBytes ∧
      (opAux s = 0 ∨ legalTarget (opAux s) (bs x.ref.fam) (opLen s) = true) ∧
      x.iv = s.window .iv 0 (bs x.ref.fam) ∧
      x.msg = prepare (s.window .data (opOff s) (opLen s)) (opAux s)
        { nopad := s.window .subkNopad 0 (bs x.ref.fam), pad := s.window .subkPad 0 (bs x.ref.fam) } (bs x.ref.fam) := by
  unfold cmacOperands at h
  split at h
  · cases h
  · rename_i r hr
    split at h
    · cases h
    · split at h
      · cases h
      · split at h
        · cases h
        · rename_i h1 h2 h3
          cases h
          refine ⟨hr, by simpa using h1, by omega, ?_, rfl, rfl⟩
          by_contra hn
          simp only [not_or] at hn
          exact h3 ⟨hn.1, by simpa using hn.2⟩

/-- Storing a keychain (rules R243 and R278): the record, and both windows filled up with zeros. -/
theorem installKeychain_windows (s : State) (k : KeySel) (b : Nat) {np pd : List Byte} (hn : np.length ≤ 16)
    (hp : pd.length ≤ 16) :
    (installKeychain s k b np pd).window .subkNopad 0 16 = padTo 16 np ∧
      (installKeychain s k b np pd).window .subkPad 0 16 = padTo 16 pd := by
  refine ⟨?_, State.window_setWindow_same _ _ _ (padTo_length hp)⟩
  rw [installKeychain, State.window_setWindow_other _ (by decide) (by rw [padTo_length hp]; simp [Window.size])
    (by simp [Window.size])]
  exact State.window_setWindow_same _ _ _ (padTo_length hn)

/-- Storing a keychain writes the two subkey windows only. -/
theorem installKeychain_outside (s : State) (k : KeySel) (b : Nat) {np pd : List Byte} (hn : np.length ≤ 16)
    (hp : pd.length ≤ 16) : SameOutside [Window.subkPad.whole, Window.subkNopad.whole] s (installKeychain s k b np pd) := by
  intro a h
  simp only [inRanges_cons, inRanges_nil, Bool.or_false, Bool.or_eq_false_iff] at h
  rw [installKeychain, readByte_setWindow_outside _ (n := 16) (padTo_length hp).le h.1,
    readByte_setWindow_outside _ (n := 16) (padTo_length hn).le h.2]

end Sys2Proof.Machine
end

