-- ==== Sys2Proof/Laws/Lengths.lean ====
section
/-! SUPPORT. The lengths of what the commands store: chains, prepared messages, frames, payloads and handshake answers. -/

namespace Sys2Proof.Machine

/-- The lengths of the two chains over the operands of CENC, CDEC and CMACB. -/
theorem chain_lengths {s : State} {k : KeySel} {x : ChainInput} (h : chainOperands s k = .ok x) :
    (cbcEnc x.ref.fam x.ref.key x.blocks x.iv x.data).iv.length = bs x.ref.fam ∧
      (cbcEnc x.ref.fam x.ref.key x.blocks x.iv x.data).out.length = opLen s ∧
      (cbcDec x.ref.fam x.ref.key x.blocks x.iv x.data).iv.length = bs x.ref.fam ∧
      (cbcDec x.ref.fam x.ref.key x.blocks x.iv x.data).out.length = opLen s := by
  obtain ⟨h1, h2, h3, h4, h5⟩ := chainOperands_cases h
  have hk := keyOf_length h1
  have hiv : x.iv.length = bs x.ref.fam := by rw [h4]; simp
  have hd : x.data.length = x.blocks * bs x.ref.fam := by
    rw [ChainInput.blocks, h5]
    simp only [State.window_length]
    exact (Nat.div_mul_cancel (Nat.dvd_of_mod_eq_zero h3)).symm
  have hd' : x.data.length = opLen s := by rw [h5]; simp
  have a := cbcEnc_lengths hk _ hiv hd
  have b := cbcDec_lengths hk _ hiv hd
  exact ⟨a.2, by rw [a.1, ← hd, hd'], b.2, by rw [b.1, ← hd, hd']⟩

/-- An Info frame is at most 12 bytes longer than its payload (rule R141). -/
theorem infoFrame_length_le (tfi fcmd : Byte) (p : List Byte) : (infoFrame tfi fcmd p).length ≤ p.length + 12 := by
  simp only [infoFrame, infoHeader]
  split <;> simp

/-- A final block XORed with a subkey keeps the message's length. -/
theorem xorLast_length {b : Nat} {m l : List Byte} (h1 : l.length = b) (h2 : b ≤ m.length) :
    (xorLast b m l).length = m.length := by
  simp [xorLast, h1]
  omega

/-- The padding ends at a block boundary (rule R244). -/
theorem padding_boundary {b : Nat} (hb : 0 < b) (d : List Byte) : (d ++ padding b d.length).length % b = 0 := by
  simp only [padding, List.length_append, List.length_cons, zeros, List.length_replicate]
  rw [show d.length + ((b - (d.length + 1) % b) % b + 1) = (d.length + 1) + (b - (d.length + 1) % b) % b by omega, Nat.add_mod,
    Nat.mod_mod]
  have := Nat.mod_lt (d.length + 1) hb
  by_cases h0 : (d.length + 1) % b = 0
  · simp [h0]
  · have h2 : b - (d.length + 1) % b < b := by omega
    have : (d.length + 1) % b + (b - (d.length + 1) % b) = b := by omega
    rw [Nat.mod_eq_of_lt h2, this, Nat.mod_self]

/-- A prepared message is whole blocks (rules R244 and R245). -/
theorem prepare_blocks {d : List Byte} {t : Nat} {sk : Subkeys} {b : Nat} (hb : 0 < b) (hn : sk.nopad.length = b)
    (hp : sk.pad.length = b) (ht : t = 0 ∨ legalTarget t b d.length = true) : (prepare d t sk b).length % b = 0 := by
  unfold prepare
  split
  · split
    · rename_i h
      rw [xorLast_length hn (Nat.le_of_dvd h.1 (Nat.dvd_of_mod_eq_zero h.2))]
      exact h.2
    · have hl := padding_boundary hb d
      rw [xorLast_length hp]
      · exact hl
      · exact Nat.le_of_dvd (by simp [padding]) (Nat.dvd_of_mod_eq_zero hl)
  · rename_i h0
    have h := ht.resolve_left h0
    simp [legalTarget] at h
    split
    · rename_i e
      rw [xorLast_length hn (by omega), e]
      exact h.1
    · have : (d ++ 0x80 :: zeros (t - d.length - 1)).length = t := by simp; omega
      rw [xorLast_length hp (by omega), this]
      exact h.1

/-- The new chaining value of CMAC is one block. -/
theorem cmac_length {s : State} {k : KeySel} {x : CmacInput} (h : cmacOperands s k = .ok x) :
    (cbcMac x.ref.fam x.ref.key (x.msg.length / bs x.ref.fam) x.iv x.msg).length = bs x.ref.fam := by
  obtain ⟨h1, h2, h3, h4, h5, h6⟩ := cmacOperands_cases h
  refine (cbcEnc_lengths (keyOf_length h1) _ (by rw [h5]; simp) ?_).2
  rw [Nat.div_mul_cancel]
  apply Nat.dvd_of_mod_eq_zero
  rw [h6]
  exact prepare_blocks (bs_pos _) (by simp) (by simp) (by simpa using h4)

/-- What a header with a length field holds (rule R147). -/
theorem lengthHeader_ok {s l hdr : Nat} {p ext : Bool} {h : Header} (hl : l ≤ 65535)
    (e : lengthHeader s p ext l hdr = .ok h) :
    h.len ≤ 65535 ∧ h.len ≠ 0 ∧ h.total = h.hdr + h.len + 1 + h.pre.toNat ∧ h.kind = .data := by
  unfold lengthHeader at e
  split at e <;> cases e
  exact ⟨hl, by assumption, rfl, rfl⟩

/-- What an accepted header holds (rule R147). -/
theorem parseHeader_ok {b : List Byte} {h : Header} (e : parseHeader b = .ok h) :
    (h.kind = .ack ∨ h.kind = .nack) ∨
      (h.kind = .data ∧ h.len ≤ 65535 ∧ h.len ≠ 0 ∧ h.total = h.hdr + h.len + 1 + h.pre.toNat) := by
  have two : ∀ x y : Byte, 256 * x.toNat + y.toNat ≤ 65535 := fun x y => by
    have := x.isLt
    have := y.isLt
    omega
  have one : ∀ x : Byte, x.toNat ≤ 65535 := fun x => by
    have := x.isLt
    omega
  unfold parseHeader at e
  split at e
  · cases e
  · dsimp only at e
    split at e
    · cases e
    split at e
    · cases e
      exact .inl (.inl rfl)
    split at e
    · cases e
      exact .inl (.inr rfl)
    split at e
    · split at e
      · cases e
      split at e
      · cases e
      obtain ⟨h1, h2, h3, h4⟩ := lengthHeader_ok (two _ _) e
      exact .inr ⟨h4, h1, h2, h3⟩
    · split at e
      · cases e
      obtain ⟨h1, h2, h3, h4⟩ := lengthHeader_ok (one _) e
      exact .inr ⟨h4, h1, h2, h3⟩

/-- What an accepted data field gives (rule R149). -/
theorem parseData_info {b : List Byte} {h : Header} {f : Frame} (e : parseData b h = .ok f) (hk : f.kind = .info)
    (ht : h.hdr + h.len ≤ b.length) (h0 : h.len ≠ 0) : f.payload.length + 2 = f.len ∧ f.len = h.len := by
  unfold parseData at e
  dsimp only at e
  split at e
  · cases e
  split at e
  · cases e
  split at e
  · split at e
    · cases e
      cases hk
    · cases e
  · cases e
    simp
    omega

/-- The payload of an accepted INFO frame (rule R149): it fits DATA, and its header was accepted before. -/
theorem parseFrame_info {b : List Byte} {f : Frame} (e : parseFrame b = .ok f) (hk : f.kind = .info) :
    f.payload.length + 2 = f.len ∧ f.len ≤ 65535 ∧
      ∃ h, parseHeader b = .ok h ∧ h.kind = .data ∧ h.total ≤ b.length ∧ h.len = f.len := by
  unfold parseFrame at e
  split at e
  · cases e
  · cases e
  · rename_i h hh
    split at e
    · cases e
    rename_i ht
    have key := parseHeader_ok hh
    split at e
    · split at e <;> cases e
      cases hk
    · split at e <;> cases e
      cases hk
    · rename_i g; simp [g] at key
    · rename_i g; simp [g] at key
    · rename_i g
      simp only [g, reduceCtorEq, or_self, false_or, true_and] at key
      obtain ⟨h1, h2⟩ := parseData_info e hk (by omega) key.2.1
      exact ⟨h1, by omega, h, hh, g, by omega, h2.symm⟩

/-- The lengths of the card's decrypted answer. -/
theorem answer_lengths {s : State} {x : AnswerInput} {v : Byte} {n : Family → Nat} (h : answerOperands s v n = .ok x)
    (hn : n x.ltk.ciph = challengeLen x.ltk.ciph) {iv : List Byte} (hiv : iv.length = bs x.ltk.ciph) :
    let d := cbcDec x.ltk.ciph x.key (challengeLen x.ltk.ciph / bs x.ltk.ciph) iv x.answer
    d.out.length = challengeLen x.ltk.ciph ∧ d.iv.length = bs x.ltk.ciph ∧ x.key.length = klen x.ltk.ciph := by
  obtain ⟨h1, h2, h3, h4, h5, h6⟩ := answerOperands_cases h
  have hk : x.key.length = klen x.ltk.ciph := by rw [h4]; simp [ltkKeyBytes]
  have hm : challengeLen x.ltk.ciph / bs x.ltk.ciph * bs x.ltk.ciph = challengeLen x.ltk.ciph := by cases x.ltk.ciph <;> rfl
  have := cbcDec_lengths hk (challengeLen x.ltk.ciph / bs x.ltk.ciph) hiv (q := x.answer) (by rw [h6, hm]; simp [hn])
  rw [hm] at this
  exact ⟨this.1, this.2, hk⟩

/-- The lengths of AUTH.CHAL's answer to the card (rule R276). -/
theorem chal_lengths {s : State} {x : AnswerInput} (h : chalOperands s = .ok x) {rnda : List Byte}
    (hr : rnda.length = challengeLen x.ltk.ciph) :
    let c := x.ltk.ciph
    let n := challengeLen c
    let rb := cbcDec c x.key (n / bs c) (zeros (bs c)) x.answer
    let r := cbcEnc c x.key (2 * n / bs c) rb.iv (rnda ++ rotl1 rb.out)
    r.out.length = 2 * n ∧ r.iv.length = bs c ∧ rb.out.length = n := by
  intro c n rb r
  have ha := answer_lengths (chalOperands_cases h).2 rfl (iv := zeros (bs c)) (by simp; rfl)
  have hm : 2 * n / bs c * bs c = 2 * n := by simp only [n]; cases c <;> rfl
  have hrl : (rotl1 rb.out).length = n := by
    have : rb.out.length = n := ha.1
    have : 8 ≤ n := by simp only [n]; cases c <;> decide
    simp [rotl1]
    omega
  have e := cbcEnc_lengths ha.2.2 (2 * n / bs c) ha.2.1 (p := rnda ++ rotl1 rb.out)
    (by rw [hm, List.length_append, hrl, hr]; simp only [n, c]; omega)
  exact ⟨e.1.trans hm, e.2, ha.1⟩

/-- A shifted block keeps its length. -/
theorem shiftLeft1_length (x : List Byte) : (shiftLeft1 x).length = x.length := by
  induction x using shiftLeft1.induct <;> simp_all [shiftLeft1]

/-- A doubled block keeps its length (rule R241). -/
theorem dbl_length {b : Nat} {x : List Byte} (h : x.length = b) (hb : 0 < b) : (dbl b x).length = b := by
  unfold dbl
  split <;> simp [shiftLeft1_length, h]
  omega

/-- The subkeys of a key are one block each (rules R242 and R243). -/
theorem subkeys_length {c : Family} {k : List Byte} (hk : k.length = klen c) :
    (subkeys c k).nopad.length = bs c ∧ (subkeys c k).pad.length = bs c := by
  have h : (cryptogram c k).length = bs c := encBlock_length hk (by simp)
  have h1 := dbl_length h (bs_pos c)
  exact ⟨h1, dbl_length h1 (bs_pos c)⟩

end Sys2Proof.Machine
end

