-- ==== Sys2Proof/Laws/PerInstr.lean ====
section
/-! SUPPORT. Statements made for each instruction in turn: a command's word has its reserved bits clear (30_encoding.md rules
R110 and R114). -/

namespace Sys2Proof.Laws

/-- The bits 31:24 of an encoded word are zero (rule R110). -/
def ReservedBitsZero.Statement (i : Instr) : Prop := topField (encode i) = 0

/-- A word of format F0 has its reserved bits clear. -/
theorem topField_encodeF0 (op : Byte) : topField (encodeF0 op) = 0 := by
  have h : (0#24 ++ op).extractLsb' 24 8 = 0#8 := by
    apply BitVec.eq_of_getLsbD_eq
    intro j hj
    have h0 : ¬ 24 + j < 8 := by omega
    rw [BitVec.getLsbD_extractLsb', BitVec.getLsbD_append, if_neg h0]
    simp
  exact h

/-- A word of format FS has its reserved bits clear. -/
theorem topField_encodeFS (op : Byte) (k : KeySel) : topField (encodeFS op k) = 0 := by
  have h : ∀ x : BitVec 1, (0#20 ++ x ++ 0#3 ++ op).extractLsb' 24 8 = 0#8 := by
    intro x
    apply BitVec.eq_of_getLsbD_eq
    intro j hj
    have h0 : ¬ 24 + j < 8 := by omega
    have h1 : ¬ 24 + j - 8 < 3 := by omega
    have h2 : ¬ 24 + j - 8 - 3 < 1 := by omega
    rw [BitVec.getLsbD_extractLsb', BitVec.getLsbD_append, if_neg h0, BitVec.getLsbD_append, if_neg h1,
      BitVec.getLsbD_append, if_neg h2]
    simp
  exact h (kselCode k)

/-- A word of format FK has its reserved bits clear. -/
theorem topField_encodeFK (op : Byte) (c : Option Family) (k : BitVec 4) (v : Byte) : topField (encodeFK op c k v) = 0 := by
  have h : ∀ x : BitVec 3, (0#8 ++ v ++ k ++ 0#1 ++ x ++ op).extractLsb' 24 8 = 0#8 := by
    intro x
    apply BitVec.eq_of_getLsbD_eq
    intro j hj
    have h0 : ¬ 24 + j < 8 := by omega
    have h1 : ¬ 24 + j - 8 < 3 := by omega
    have h2 : ¬ 24 + j - 8 - 3 < 1 := by omega
    have h3 : ¬ 24 + j - 8 - 3 - 1 < 4 := by omega
    have h4 : ¬ 24 + j - 8 - 3 - 1 - 4 < 8 := by omega
    rw [BitVec.getLsbD_extractLsb', BitVec.getLsbD_append, if_neg h0, BitVec.getLsbD_append, if_neg h1,
      BitVec.getLsbD_append, if_neg h2, BitVec.getLsbD_append, if_neg h3, BitVec.getLsbD_append, if_neg h4]
    simp
  exact h (ciphCode c)

theorem ReservedBitsZero.nop : ReservedBitsZero.Statement .nop := topField_encodeF0 _
theorem ReservedBitsZero.fencAck : ReservedBitsZero.Statement .fencAck := topField_encodeF0 _
theorem ReservedBitsZero.fencNack : ReservedBitsZero.Statement .fencNack := topField_encodeF0 _
theorem ReservedBitsZero.fencErr : ReservedBitsZero.Statement .fencErr := topField_encodeF0 _
theorem ReservedBitsZero.fencInfo : ReservedBitsZero.Statement .fencInfo := topField_encodeF0 _
theorem ReservedBitsZero.fident : ReservedBitsZero.Statement .fident := topField_encodeF0 _
theorem ReservedBitsZero.fdec : ReservedBitsZero.Statement .fdec := topField_encodeF0 _
theorem ReservedBitsZero.kload (c : Option Family) (k : BitVec 4) (v : Byte) : ReservedBitsZero.Statement (.kload c k v) := topField_encodeFK _ _ _ _
theorem ReservedBitsZero.cenc (k : KeySel) : ReservedBitsZero.Statement (.cenc k) := topField_encodeFS _ _
theorem ReservedBitsZero.cdec (k : KeySel) : ReservedBitsZero.Statement (.cdec k) := topField_encodeFS _ _
theorem ReservedBitsZero.cmacb (k : KeySel) : ReservedBitsZero.Statement (.cmacb k) := topField_encodeFS _ _
theorem ReservedBitsZero.cmsubk (k : KeySel) : ReservedBitsZero.Statement (.cmsubk k) := topField_encodeFS _ _
theorem ReservedBitsZero.cmac (k : KeySel) : ReservedBitsZero.Statement (.cmac k) := topField_encodeFS _ _
theorem ReservedBitsZero.authStart : ReservedBitsZero.Statement .authStart := topField_encodeF0 _
theorem ReservedBitsZero.authChal : ReservedBitsZero.Statement .authChal := topField_encodeF0 _
theorem ReservedBitsZero.authFinish : ReservedBitsZero.Statement .authFinish := topField_encodeF0 _
theorem ReservedBitsZero.logout : ReservedBitsZero.Statement .logout := topField_encodeF0 _

end Sys2Proof.Laws
end

