-- ==== Sys2Proof/Laws/Step.lean ====
section
/-! SUPPORT. What a step can do, said once: an instruction's meaning always completes, a step is a completion or one operation of
the host, and a read of a register returns its value but where the running command may write it. -/

namespace Sys2Proof.Machine

/-- No register is unspecified while no command runs. -/
@[simp] theorem runningRegs_idle {s : State} (h : s.busy = false) : runningRegs s = [] := by simp [runningRegs, h]

/-- While a command runs, the results and what its rule may write are unspecified. -/
theorem runningRegs_ok {s : State} {i : Instr} (h : s.busy = true) (hd : decode s.latch.cmd = .ok i) :
    runningRegs s = [.res0, .res1, .res2, .res3] ++ mayWriteInfo i s := by simp [runningRegs, h, hd]

/-- While a word that is no command runs, the results alone are unspecified. -/
theorem runningRegs_error {s : State} {e : DecodeError} (h : s.busy = true) (hd : decode s.latch.cmd = .error e) :
    runningRegs s = [.res0, .res1, .res2, .res3] := by simp [runningRegs, h, hd]

/-- A command writes, of the registers beside STATUS and the results, at most the three information registers. -/
theorem mem_mayWriteInfo {i : Instr} {s : State} {r : Reg} (h : r ∈ mayWriteInfo i s) :
    r = .ltkInfo ∨ r = .sessInfo ∨ r = .subkInfo := by
  have slot : ∀ k, r ∈ slotRegs s k → r = .subkInfo := fun k hk => by unfold slotRegs at hk; split at hk <;> simp_all
  have out : r ∈ logoutRegs s → r = .sessInfo ∨ r = .subkInfo := fun hr => (List.mem_cons.1 hr).imp id (slot _)
  cases i
  case kload =>
    refine (List.mem_cons.1 h).imp id fun hr => ?_
    rcases List.mem_append.1 hr with hr | hr
    · exact .inr (slot _ hr)
    · split at hr
      · exact out hr
      · cases hr
  case cmsubk => simp only [mayWriteInfo, cmsubkRegs] at h; split at h <;> simp_all
  case authFinish =>
    rcases List.mem_append.1 h with hr | hr
    · exact .inr (out hr)
    · split at hr <;> [split at hr; skip] <;> simp_all
  case authStart => exact .inr (out h)
  case authChal => exact .inr (out h)
  case logout => exact .inr (out h)
  all_goals cases h

/-- What a read of a register returns (rules R87, R90 and R357): its value, but where the running command may write it. -/
theorem readReg_eq (s : State) (r : Reg) :
    readReg s r = if r ∈ runningRegs s then ofLeBytes (freeBytes s (4 * allRegs.idxOf r) 4) else regValue s r := by
  by_cases h : r ∈ runningRegs s <;> simp [readReg, readableWhileBusy, h]

/-- Every command's meaning answers a next state, in every state. -/
theorem exec_next (i : Instr) (s : State) : ∃ t, exec i s = .next t := by
  cases i
  case nop => exact ⟨_, rfl⟩
  case fencAck => exact ⟨_, rfl⟩
  case fencNack => exact ⟨_, rfl⟩
  case fencErr => exact ⟨_, rfl⟩
  case fencInfo => simp only [exec, execFencInfo]; split <;> exact ⟨_, rfl⟩
  case fident => simp only [exec, execFident]; split <;> exact ⟨_, rfl⟩
  case fdec => simp only [exec, execFdec]; split <;> [skip; skip; split] <;> exact ⟨_, rfl⟩
  case kload c k v => cases c <;> exact ⟨_, rfl⟩
  case cenc k => simp only [exec, execCenc]; split <;> exact ⟨_, rfl⟩
  case cdec k => simp only [exec, execCdec]; split <;> exact ⟨_, rfl⟩
  case cmacb k => simp only [exec, execCmacb]; split <;> exact ⟨_, rfl⟩
  case cmsubk k => simp only [exec, execCmsubk]; split <;> exact ⟨_, rfl⟩
  case cmac k => simp only [exec, execCmac]; split <;> exact ⟨_, rfl⟩
  case authStart => simp only [exec, execAuthStart]; split <;> exact ⟨_, rfl⟩
  case authChal => simp only [exec, execAuthChal]; split <;> exact ⟨_, rfl⟩
  case authFinish => simp only [exec, execAuthFinish]; split <;> exact ⟨_, rfl⟩
  case logout => exact ⟨_, rfl⟩

/-- A step that answers a next state: a command's completion, a rejected word's, a host operation, or nothing left to do. -/
theorem step_cases {s t : State} (h : step s = .next t) :
    (∃ i, completionDue s = true ∧ decode s.latch.cmd = .ok i ∧ exec i s = .next t) ∨
    (∃ e, completionDue s = true ∧ decode s.latch.cmd = .error e ∧ t = rejectWord s e) ∨
    (∃ op, completionDue s = false ∧ s.host.script[s.host.pc]? = some op ∧ hostOp (countDown s) op = .next t) ∨
    (completionDue s = false ∧ s.host.script[s.host.pc]? = none ∧ t = countDown s) := by
  unfold step at h
  split at h
  · rename_i hd
    unfold complete at h
    split at h
    · exact .inl ⟨_, hd, ‹_›, h⟩
    · cases h
      exact .inr (.inl ⟨_, hd, ‹_›, rfl⟩)
  · rename_i hd
    have hd' : completionDue s = false := by simpa using hd
    have hh : (countDown s).host = s.host := by simp [countDown]; split <;> rfl
    unfold hostStep at h
    rw [hh] at h
    split at h
    · exact .inr (.inr (.inl ⟨_, hd', ‹_›, h⟩))
    · cases h
      exact .inr (.inr (.inr ⟨hd', ‹_›, rfl⟩))

/-- What a host operation that answers a next state does: a permitted write, a permitted read, or a branch. -/
theorem hostOp_cases {s t : State} {op : HostOp} (h : hostOp s op = .next t) :
    (∃ width off v g, busTarget off width = some g ∧ (op = .write width off v ∨
        ∃ x, op = .writeTemp width off x ∧ v = tempValue s.host.temps x) ∧ t = hostAdvance (writeTarget s g width v)) ∨
    (∃ width off x g, busTarget off width = some g ∧ op = .read width off x ∧
        t = hostAdvance ((afterRead s).setHostTemp x (readTarget s g width))) ∨
    (∃ taken target, t = if taken = true then s.setHostPc target else hostAdvance s) := by
  cases op with
  | write width off v =>
    simp only [hostOp, hostWrite] at h
    split at h <;> cases h
    exact .inl ⟨_, _, _, _, ‹_›, .inl rfl, rfl⟩
  | writeTemp width off x =>
    simp only [hostOp, hostWrite] at h
    split at h <;> cases h
    exact .inl ⟨_, _, _, _, ‹_›, .inr ⟨_, rfl, rfl⟩, rfl⟩
  | read width off x =>
    simp only [hostOp, hostRead] at h
    split at h <;> cases h
    exact .inr (.inl ⟨_, _, _, _, ‹_›, rfl, rfl⟩)
  | bnz x m target => cases h; exact .inr (.inr ⟨_, _, rfl⟩)
  | bz x m target => cases h; exact .inr (.inr ⟨_, _, rfl⟩)

/-- A host temporary reads as what was last set. -/
theorem tempValue_setTemp (m : List (Nat × Word)) (t : Nat) (v : Word) (x : Nat) :
    tempValue (setTemp m t v) x = if x = t then v else tempValue m x := by
  have app : ∀ a b : List (Nat × Word), tempValue (a ++ b) x = if ∃ c ∈ a, c.1 = x then tempValue a x else tempValue b x := by
    intro a b
    induction a with
    | nil => simp
    | cons c a ih => by_cases hc : c.1 = x <;> simp [tempValue, hc, ih]
  have fil : ∀ p : Nat → Bool, p x = true → ∀ m : List (Nat × Word),
      tempValue (m.filter fun c => p c.1) x = tempValue m x := by
    intro p hp m
    induction m with
    | nil => rfl
    | cons c m ih =>
      by_cases hc : c.1 = x
      · simp [tempValue, hc, hp]
      · cases hq : p c.1 <;> simp [tempValue, hc, hq, ih]
  have out : ∀ m : List (Nat × Word), (∀ c ∈ m, c.1 ≠ x) → tempValue m x = 0 := by
    intro m
    induction m with
    | nil => intro; rfl
    | cons c m ih => intro h; simp only [tempValue, if_neg (h c (by simp))]; exact ih fun d hd => h d (by simp [hd])
  have lo : ∀ c ∈ m.filter (fun c => decide (c.1 < t)), c.1 < t := fun c hc => by simpa using (List.mem_filter.1 hc).2
  rw [setTemp, List.append_assoc, app, app]
  rcases lt_trichotomy x t with h | rfl | h
  · have fx := fil (fun i => decide (i < t)) (by simpa using h) m
    rw [if_neg h.ne]
    split
    · exact fx
    · rename_i hn
      have e := out _ fun c hc e => hn ⟨c, hc, e⟩
      rw [fx] at e
      rw [e, if_neg, out]
      · intro c hc he
        have : t < c.1 := by simpa using (List.mem_filter.1 hc).2
        omega
      · rintro ⟨c, hc, he⟩
        split at hc <;> simp at hc
        subst hc
        simp at he
        omega
  · rw [if_neg (fun ⟨c, hc, e⟩ => absurd (lo c hc) (by omega)), if_pos rfl]
    by_cases hv : v = 0
    · simp only [hv, if_true]
      rw [if_neg (by simp)]
      exact out _ fun c hc e => by
        have : x < c.1 := by simpa using (List.mem_filter.1 hc).2
        omega
    · have hv' : ¬ v = 0#32 := hv
      simp [hv', tempValue]
  · rw [if_neg (fun ⟨c, hc, e⟩ => absurd (lo c hc) (by omega)), if_neg h.ne', if_neg]
    · exact fil (fun i => decide (t < i)) (by simpa using h) m
    · rintro ⟨c, hc, he⟩
      split at hc <;> simp at hc
      subst hc
      simp at he
      omega

end Sys2Proof.Machine
end

