-- ==== Sys2Proof/Tests/Slice0.lean ====
section
/-! SUPPORT. Tests.  Expected values come from spec/95_test_vectors.md (the vector's name stands at each), from the tables of
30_encoding.md, or from the examples of the rules; the last part shows, for the statements in Certificates/, states and operands
that meet their hypotheses. -/

namespace Sys2Proof.Tests

open Sys2Proof.Machine

-- The kernel evaluates the tests below one after another: many of them at once would each take a thread.
set_option Elab.async false

/-! ### Helpers -/

/-- A byte string written as one hexadecimal number of `n` bytes. -/
def hex (n x : Nat) : List Byte := (List.range n).map fun i => BitVec.ofNat 8 (x >>> (8 * (n - 1 - i)))

/-- The bytes 00, 01, … -/
def upTo (n : Nat) : List Byte := (List.range n).map (BitVec.ofNat 8)

/-- A state with bytes put into windows. -/
def put (s : State) (l : List (Window × Nat × List Byte)) : State := l.foldl (fun s x => s.setWindow x.1 x.2.1 x.2.2) s

/-- The state an answer leads to. -/
def target (s : State) : StepResult → State
  | .next t => t
  | .fault _ => s
  | .refused _ => s

/-- The state after a command word is issued and completes. -/
def after (s : State) (w : Word) : State := target s (step (issueWith s w 0))

/-- A state in which the host's script is given and stands at its start. -/
def hosting (s : State) (ops : List HostOp) : State := { s with host := { script := ops, pc := 0, temps := [] } }

/-- The state after a number of steps. -/
def runFor : Nat → State → State
  | 0, s => s
  | n + 1, s => runFor n (target s (step s))

/-- A state with OPLEN and OPOFF latched, as an issue leaves it. -/
def latched (s : State) (off len aux : Nat) : State :=
  { s with latch := { s.latch with oplen := BitVec.ofNat 17 len, opoff := BitVec.ofNat 16 off, opaux := BitVec.ofNat 17 aux } }

/-- The results, as numbers. -/
def results (s : State) : List Nat := [s.res0.toNat, s.res1.toNat, s.res2.toNat, s.res3.toNat]

/-- The state after KLOAD of a key, from reset. -/
def keyed (w : Word) (k : List Byte) : State := after (put State.reset [(.key, 0, k)]) w

/-! ### Well-formedness and decoding -/

/-- Ill-formed: KLOAD with key number 14 (30_encoding.md rule R113). -/
theorem test_wf_refuses_keyno_14 : WellFormed (.kload (some .des) 14 0) = false := by decide

/-- Well-formed at the last key number. -/
theorem test_wf_accepts_keyno_13 : WellFormed (.kload none 13 0xFF) = true := by decide

/-- Every row of rule R112, its word written out from rules R112, R114 and R117. -/
theorem test_decode_f0_words :
    decode 0x00000000 = .ok .nop ∧ decode 0x00000001 = .ok .fencAck ∧ decode 0x00000002 = .ok .fencNack ∧
      decode 0x00000003 = .ok .fencErr ∧ decode 0x00000004 = .ok .fencInfo ∧ decode 0x00000008 = .ok .fident ∧
      decode 0x00000009 = .ok .fdec ∧ decode 0x00000030 = .ok .authStart ∧ decode 0x00000031 = .ok .authChal ∧
      decode 0x00000032 = .ok .authFinish ∧ decode 0x00000033 = .ok .logout := by decide

/-- The slot commands, with KSEL 0 and 1 (bit 11). -/
theorem test_decode_fs_words :
    decode 0x00000011 = .ok (.cenc .ltk) ∧ decode 0x00000811 = .ok (.cenc .sess) ∧ decode 0x00000012 = .ok (.cdec .ltk) ∧
      decode 0x00000812 = .ok (.cdec .sess) ∧ decode 0x00000013 = .ok (.cmacb .ltk) ∧ decode 0x00000813 = .ok (.cmacb .sess) ∧
      decode 0x00000020 = .ok (.cmsubk .ltk) ∧ decode 0x00000820 = .ok (.cmsubk .sess) ∧
      decode 0x00000021 = .ok (.cmac .ltk) ∧ decode 0x00000821 = .ok (.cmac .sess) := by decide

/-- KLOAD: the example of rule R117, T-K02, T-K04 and the bit pattern `00000000 aaaaaaaa kkkk0ccc 00010000` of rule R114. -/
theorem test_decode_kload_words :
    decode 0x00103410 = .ok (.kload (some .aes128) 3 0x10) ∧ decode 0x00225210 = .ok (.kload (some .tdes2) 5 0x22) ∧
      decode 0x0000D310 = .ok (.kload (some .tdes3) 13 0) ∧ decode 0x00000110 = .ok (.kload (some .des) 0 0) ∧
      decode 0b00000000101001011001000000010000 = .ok (.kload none 9 0xA5) := by decide

/-- Refused words: T-E02, T-E03, T-K06, T-K07, T-K08 and 0x00010033 of T-A07. -/
theorem test_decode_refuses :
    decode 0x00000007 = .error .badOpcode ∧ decode 0x01000007 = .error .badOpcode ∧ decode 0x01000000 = .error .badOperand ∧
      decode 0x00000510 = .error .badOperand ∧ decode 0x0000E410 = .error .badOperand ∧ decode 0x00000C10 = .error .badOperand ∧
      decode 0x00010033 = .error .badOperand ∧ decode 0x00000111 = .error .badOperand ∧ decode 0x00001811 = .error .badOperand := by
  decide

/-- The encoder writes the words of rule R117. -/
theorem test_encode : encode (.kload (some .aes128) 3 0x10) = 0x00103410 ∧ encode (.cmac .sess) = 0x00000821 := by decide

/-! ### Engine, bus and host -/

/-- NOP just after reset (rule R319). -/
theorem test_nop : (statusValue (after State.reset 0), results (after State.reset 0)) = (0x00000002, [0, 0, 0, 0]) := by decide

/-- T-E02 and T-E03. -/
theorem test_rejected_words :
    statusValue (after State.reset 0x00000007) = 0x00000106 ∧ statusValue (after State.reset 0x01000000) = 0x00000206 := by decide

/-- T-E04 to T-E07: bus errors. -/
theorem test_bus_errors :
    busTarget 0x010 1 = none ∧ busTarget 0x10002 4 = none ∧ busTarget 0x00118 1 = none ∧ busTarget 0x00040 4 = none ∧
      busTarget 0x00116 4 = none ∧ busTarget 0x5FFFF 1 ≠ none := by decide

/-- T-E08: a write while a command runs is dropped, and the command still completes. -/
theorem test_busy_write :
    let s := runFor 2 (hosting { State.reset with env := { Environment.empty with schedule := [2] } }
      [.write 4 0x00C 0, .write 4 0x014 5])
    (s.oplen, s.cmdOvr, s.busy, (runFor 2 s).busy) = (0, true, true, false) := by decide

/-- T-E10: the interrupt. -/
theorem test_interrupt :
    let s := runFor 3 (hosting State.reset ([.write 4 0x008 1, .write 4 0x00C 0, .write 4 0x010 2]))
    (irq s, irq (runFor 1 s)) = (true, false) := by decide

/-- T-E11: a soft reset keeps DATA and clears a key. -/
theorem test_soft_reset :
    let s := runFor 1 (hosting (put (keyed 0x110 [1, 2, 3, 4, 5, 6, 7, 8]) [(.data, 0, [7])]) [.write 4 0x008 2])
    (statusValue s, s.window .ltkKey 0 2, s.window .data 0 1) = (0, [0, 0], [7]) := by decide +kernel

/-- A polling script (rule R118) sees the completion: `DO NOP`, then `R32 RES1`. -/
theorem test_script :
    let s := hosting { State.reset with env := { Environment.empty with schedule := [3] } } (doOps 0 7 .fencErr ++ [.read 4 0x034 8])
    (tempValue (runFor 9 s).host.temps 8, (runFor 9 s).host.pc) = (8, 4) := by decide

/-! ### Frame Codec -/

/-- T-F01, T-F02 and T-F03. -/
theorem test_fixed_frames :
    ((after State.reset 1).window .fout 0 7, results (after State.reset 1)) = (hex 6 0x0000FF00FF00 ++ [0], [0x11, 6, 0, 1]) ∧
    ((after State.reset 2).window .fout 0 7, results (after State.reset 2)) = (hex 6 0x0000FFFF0000 ++ [0], [0x12, 6, 0, 1]) ∧
    ((after State.reset 3).window .fout 0 9, results (after State.reset 3)) =
      (hex 8 0x0000FF01FF7F8100 ++ [0], [0x13, 8, 1, 1]) := by decide

/-- T-F06. -/
theorem test_fenc_info :
    let s := after { (put State.reset [(.data, 0, [1, 0])]) with frhdr := 0x4AD4, oplen := 2 } 4
    (s.window .fout 0 11, results s) = (hex 11 0x0000FF04FCD44A0100E100, [0x004AD414, 11, 4, 1]) := by decide

/-- The length fields of rule R145's corner cases: payloads of 0, 253, 254 and 65533 bytes. -/
theorem test_fenc_info_lengths :
    infoHeader 0 = hex 5 0x0000FF02FE ∧ infoHeader 253 = hex 5 0x0000FFFF01 ∧ infoHeader 254 = hex 8 0x0000FFFFFF0100FF ∧
      infoHeader 65533 = hex 8 0x0000FFFFFFFFFF02 := by decide

/-- A frame in FIN, received whole. -/
def received (w : Word) (b : List Byte) : State :=
  after { (put State.reset [(.fin, 0, b)]) with oplen := BitVec.ofNat 17 b.length } w

/-- The example of rule R148, and no byte at all. -/
theorem test_fident :
    results (received 8 (hex 7 0x0000FF06FAD503)) = [0x15, 13, 6, 1] ∧ results (received 8 []) = [0, 2, 0, 0] := by decide

/-- The example of rule R150. -/
theorem test_fdec :
    let s := received 9 (hex 13 0x0000FF06FAD50332010607E800)
    (results s, s.window .data 0 5) = ([0x0003D514, 13, 6, 1], hex 5 0x3201060700) := by decide

/-- T-F40, then a bad data checksum (P2) and a frame of rule R149 whose one data byte is not 7F. -/
theorem test_fdec_corrupted :
    results (received 9 (hex 6 0x00FFFF00FF00)) = [0x02, 4, 0, 0] ∧
      (received 9 (hex 13 0x0000FF06FAD50332010607E900)).errCode = .frameDataChecksum ∧
      (received 9 (hex 8 0x0000FF01FF7E8200)).errCode = .frameBadCode := by decide

/-! ### Cipher unit -/

/-- T-K02: a degenerate two-key key. -/
theorem test_kload :
    let s := keyed 0x00225210 (hex 16 0x00020406080A0C0E01030507090B0D0F)
    (ltkInfoValue s, statusValue s, results s) = (0x2252, 0x09000002, [0, 16, 0, 0]) := by decide

/-- T-K05: the slot is emptied. -/
theorem test_kload_none :
    let s := after (keyed 0x0000D310 (upTo 24)) 0x00000010
    (ltkInfoValue s, statusValue s, s.window .ltkKey 0 3) = (0, 0x00000002, [0, 0, 0]) := by decide +kernel

/-- T-B04, T-B03: the block functions. -/
theorem test_block_pins :
    desE8 (hex 8 0x133457799BBCDFF1) (hex 8 0x0123456789000000) = hex 8 0xB7B10D0C536A5A7E ∧
      aesE16 (upTo 16) (hex 16 0x00112233445566778899AABBCCDDEEFF) = hex 16 0x69C4E0D86A7B0430D8CDB78070B4C55A := by
  decide +kernel

/-- The state of T-C10 and T-C12. -/
def chainState : State :=
  { (put (keyed 0x410 (upTo 16)) [(.iv, 0, (upTo 16).reverse), (.data, 0, (upTo 64).drop 32)]) with oplen := 32 }

/-- T-C10 and T-C12: CMACB leaves the same IV. -/
theorem test_cenc_cmacb :
    (after chainState 0x11).window .data 0 32 =
        hex 32 0x8E943DF404856D6140EFF309ACF9F21E70E51E356853F90908022FC18A636CA4 ∧
      (after chainState 0x11).window .iv 0 16 = hex 16 0x70E51E356853F90908022FC18A636CA4 ∧
      (after chainState 0x13).window .iv 0 16 = hex 16 0x70E51E356853F90908022FC18A636CA4 ∧
      (after chainState 0x13).window .data 0 32 = (upTo 64).drop 32 := by decide +kernel

/-- T-C15: three keys. -/
theorem test_cenc_three_keys :
    let s := keyed 0x310 (hex 24 0x00112233445566778899AABBCCDDEEFF0123456789ABCDEF)
    (after { (put s [(.data, 0, upTo 16)]) with oplen := 16 } 0x11).window .data 0 16 =
      hex 16 0xFA79F6D4088C1A6EC0888382CD8BF3CD := by decide +kernel

/-- T-S01. -/
theorem test_cdec :
    let s := after { (put (keyed 0x110 (zeros 8)) [(.data, 0, hex 8 0x5D994CE085F24089)]) with oplen := 8 } 0x12
    (s.window .data 0 8, s.window .iv 0 8, results s) = (hex 8 0x4FD1B75942A8B8E1, hex 8 0x5D994CE085F24089, [0, 8, 0, 0]) := by
  decide +kernel

/-- T-C18 to T-C20: the errors in their order. -/
theorem test_chain_errors :
    statusValue (after { keyed 0x110 [] with oplen := 5 } 0x11) = 0x09002106 ∧
      statusValue (after { keyed 0x410 [] with opoff := 0xFFF0, oplen := 33 } 0x12) = 0x01000206 ∧
      statusValue (after State.reset 0x13) = 0x00002006 := by decide +kernel

/-! ### CMAC engine -/

/-- The state of T-M01 after CMSUBK. -/
def nist : State := after (keyed 0x410 (hex 16 0x2B7E151628AED2A6ABF7158809CF4F3C)) 0x20

/-- T-M01. -/
theorem test_cmsubk :
    (nist.window .subkNopad 0 16, nist.window .subkPad 0 16, statusValue nist, results nist) =
      (hex 16 0xFBEED618357133667C85E08F7236A8DE, hex 16 0xF7DDAC306AE266CCF90BC11EE46D513B, 0x05000002, [0, 16, 0, 0]) := by
  decide +kernel

/-- T-M02: the empty message. -/
theorem test_cmac :
    let s := after nist 0x21
    (s.window .mac 0 16, s.window .iv 0 16, results s) =
      (hex 8 0xBB1D6929E9593728 ++ zeros 8, hex 16 0xBB1D6929E95937287FA37D129B756746, [0, 8, 16, 0]) := by decide +kernel

/-- T-M10: a target of two blocks. -/
theorem test_cmac_target :
    (after { (put nist [(.data, 0, [1, 2, 3, 4])]) with oplen := 4, opaux := 32 } 0x21).window .mac 0 8 =
      hex 8 0xBD427B0EB76F254D := by decide +kernel

/-! ### Authentication Controller -/

/-- T-A03 after KLOAD, AUTH.START and the challenge. -/
def challenged : State :=
  { (put (after { keyed 0x210 (hex 16 0x00020406080A0C0E01030507090B0D0F) with
      env := { Environment.empty with entropy := hex 8 0xA1A2A3A4A5A6A7A8 } } 0x30) [(.acRx, 0, hex 9 0xB20C576FCD787482AF)]) with
    oplen := 9 }

/-- T-A03 after AUTH.CHAL, with the card's final answer in AC_RX. -/
def answered : State := put (after challenged 0x31) [(.acRx, 0, hex 9 0x525221B71407E18A00)]

/-- T-A03: AUTH.START and AUTH.CHAL. -/
theorem test_auth_start_chal :
    (challenged.window .acTx 0 2, statusValue challenged, answered.window .acTx 0 17, results answered) =
      ([0x0A, 0x00], 0x09020002, hex 17 0xAF74A3049FB584585D1D44A88A54677A84, [0, 17, 0, 0]) := by decide +kernel

/-- T-A03: AUTH.FINISH, and then LOGOUT (T-A07). -/
theorem test_auth_finish_logout :
    let s := after answered 0x32
    (s.window .sessKey 0 16, statusValue s, s.hidden, statusValue (after s 0x33)) =
      (hex 16 0xA1A2A3A411223344A1A2A3A411223344, 0x1B050002, Handshake.clear, 0x09000002) := by decide +kernel

/-- T-A06: a changed reply. -/
theorem test_auth_finish_tampered :
    statusValue (after (put answered [(.acRx, 0, [0x53])]) 0x32) = 0x09063306 := by decide +kernel

/-! ### Witnesses: what meets the hypotheses of the statements -/

/-- A state with a running command of a word, which completes after some host steps. -/
def running (w : Word) (delay : Nat) : State := issueWith State.reset w delay

/-- The host's step is next where no completion is due. -/
theorem hostWrites_of {s : State} {off width : Nat} {v : Word} (h : completionDue s = false) :
    HostWrites (hosting s [.write width off v]) off width v := ⟨h, _, rfl, rfl⟩

/-- The host's step is next where no completion is due. -/
theorem hostReads_of {s : State} {off width x : Nat} (h : completionDue s = false) :
    HostReads (hosting s [.read width off x]) off width x := ⟨h, rfl⟩

/-- A state that differs from reset in the running command alone. -/
theorem inductive_running : Inductive (hosting (running 0 1) [.read 4 0x010 3]) := by
  constructor <;> simp [hosting, running, issueWith, issueAuthState, State.reset, latchOperands, needsKey, holdsChallenge,
    decode, opField, decodeF0, topField] <;> decide +kernel

/-- The state an instruction leads to, written as its answer's. -/
theorem target_of {i : Instr} {s t : State} (h : exec i s = .next t) : t = target State.reset (exec i s) := by rw [h]; rfl

theorem witness_DecodeOfEncodeIsTheCommand : WellFormed (.kload (some .aes128) 13 0xFF) = true ∧ WellFormed (.cmac .sess) = true := by
  decide +kernel

theorem witness_EncodeOfDecodeIsTheWord : decode 0x00FFD410 = .ok (.kload (some .aes128) 13 0xFF) := by decide +kernel

/-- One word for each clause, at the last legal and the first illegal CIPH and KEYNO. -/
theorem witness_DecodeChecksFollowTheirOrder :
    decode 0xFFFFFFFF = .error .badOpcode ∧ decode 0x00000005 = .error .badOpcode ∧ decode 0x01000010 = .error .badOperand ∧
      decode 0x00000100 = .error .badOperand ∧ decode 0x00800033 = .error .badOperand ∧ decode 0x00000421 = .error .badOperand ∧
      decode 0x00800811 = .error .badOperand ∧ decode 0x00000810 = .error .badOperand ∧ decode 0x00000510 = .error .badOperand ∧
      decode 0x0000E010 = .error .badOperand ∧ decode 0x0000D410 = .ok (.kload (some .aes128) 13 0) ∧
      completionDue (running 0x00000005 0) = true ∧ completionDue (running 0x00000100 0) = true := by decide +kernel

theorem witness_StepRunsTheDecodedCommand :
    ((running 0x00103410 0).busy = true ∧ (running 0x00103410 0).countdown = 0 ∧
      decode (running 0x00103410 0).latch.cmd = .ok (.kload (some .aes128) 3 0x10)) ∧
    State.reset.busy = false ∧ (running 0 1).countdown ≠ 0 := by decide +kernel

theorem witness_CommandWriteIssues :
    ∃ s, HostWrites s 0x00C 4 0x00000030 ∧ s.busy = false := ⟨_, hostWrites_of (s := State.reset) rfl, rfl⟩

/-- A command that fails with the slots unchanged, and one that logs out. -/
theorem witness_FailingCommandsChangeNothingElse :
    (∃ t, exec (.cenc .ltk) State.reset = .next t ∧ t.err = true) ∧
      ∃ t, exec .authStart State.reset = .next t ∧ t.err = true := ⟨⟨_, rfl, rfl⟩, ⟨_, rfl, rfl⟩⟩

theorem witness_CommandsKeepInputsAndUnlistedBytes : ∃ t, exec .fencErr State.reset = .next t := ⟨_, rfl⟩

theorem witness_CommandsCompleteWithinTheirCountdown :
    (∃ s t, s.busy = true ∧ s.countdown = 0 ∧ Steps s.countdown s t) ∧
    ∃ s t, s.busy = true ∧ s.countdown = 1 ∧ Steps s.countdown s t ∧
      ∀ k u, k < s.countdown → Steps k s u → ¬ SoftResetNow u := by
  refine ⟨⟨running 0 0, _, rfl, rfl, rfl⟩, running 0 1, countDown (running 0 1), rfl, rfl, ⟨_, rfl, rfl⟩, ?_⟩
  intro k u hk hu ⟨v, ⟨_, op, ho, _⟩, _⟩
  obtain rfl : k = 0 := by have : (running 0 1).countdown = 1 := rfl; omega
  cases hu
  exact absurd (show nextOp (running 0 1) = none from rfl) (by rw [ho]; nofun)

theorem witness_InterruptFollowsDoneAndEnable :
    (∃ t, completionDue (running 0 0) = true ∧ step (running 0 0) = .next t) ∧
    (∃ s w, HostWrites s 0x00C 4 w ∧ s.busy = false) ∧ (∃ s v, HostWrites s 0x010 4 v ∧ v.getLsbD 1 = true) ∧
    (∃ s v, HostWrites s 0x008 4 v ∧ v.getLsbD 1 = false ∧ s.done = true) ∧ (∃ s, SoftResetNow s) ∧ PowerOn State.reset := by
  refine ⟨⟨_, rfl, rfl⟩, ⟨_, 0, hostWrites_of (s := State.reset) rfl, rfl⟩, ⟨_, 2, hostWrites_of (s := State.reset) rfl, rfl⟩,
    ⟨_, 1, hostWrites_of (s := { State.reset with done := true }) rfl, rfl, rfl⟩,
    ⟨_, 3, hostWrites_of (s := State.reset) rfl, rfl⟩, rfl, by decide +kernel, ?_⟩
  intro c h
  cases h

/-- A permitted access at the last byte, and a forbidden one just past the registers. -/
theorem witness_BusErrorsAreTheForbiddenAccesses :
    (∃ s v, HostWrites s 0x5FFFF 1 v ∧ Permitted 0x5FFFF 1) ∧ ∃ s x, HostReads s 0x00040 4 x ∧ ¬ Permitted 0x00040 4 := by
  refine ⟨⟨_, 0, hostWrites_of (s := State.reset) rfl, .inr ⟨.inl rfl, by decide +kernel, .fout, by decide +kernel, by decide +kernel⟩⟩,
    _, 0, hostReads_of (s := State.reset) rfl, ?_⟩
  rintro (⟨h, _⟩ | ⟨_, _, w, h, _⟩)
  · exact absurd h (by decide +kernel)
  · cases w <;> exact absurd h (by decide +kernel)

theorem witness_RegisterWritesStoreTheirFields :
    (∀ off ∈ [0x014, 0x018, 0x01C, 0x020, 0x000, 0x03C],
      ∃ s, HostWrites s off 4 (0xFFFFFFFF : Word) ∧ s.busy = false) ∧
    ∃ s, HostWrites s 0x008 4 0xFFFFFFFD ∧ s.busy = false ∧ (0xFFFFFFFD : Word).getLsbD 1 = false :=
  ⟨fun _ _ => ⟨_, hostWrites_of (s := State.reset) rfl, rfl⟩, _, hostWrites_of (s := State.reset) rfl, rfl, by decide +kernel⟩

/-- The last word of a writable window, and the first byte of a read-only one. -/
theorem witness_WindowWritesAreLittleEndian :
    (∃ s, HostWrites s 0x1FFFC 4 0x04030201 ∧ s.busy = false ∧ 0x1FFFC % 4 = 0 ∧ Window.base .data ≤ 0x1FFFC ∧
      0x1FFFC + 4 ≤ Window.base .data + Window.size .data) ∧
    ∃ s, HostWrites s 0x00130 1 7 ∧ s.busy = false ∧ Window.base .mac ≤ 0x00130 :=
  ⟨⟨_, hostWrites_of (s := State.reset) rfl, rfl, by decide +kernel, by decide +kernel, by decide +kernel⟩,
    _, hostWrites_of (s := State.reset) rfl, rfl, by decide +kernel⟩

theorem witness_ReadsReturnValuesWithoutSideEffects :
    (∃ s, HostReads s 0x03C 4 5 ∧ s.busy = false ∧ Permitted 0x03C 4 ∧ 0x03C = 4 * allRegs.idxOf Reg.res3) ∧
    ∃ s, HostReads s 0x00100 2 5 ∧ s.busy = false ∧ Permitted 0x00100 2 ∧ 0x40 ≤ 0x00100 :=
  ⟨⟨_, hostReads_of (s := State.reset) rfl, rfl, .inl (by decide +kernel), by decide +kernel⟩,
    _, hostReads_of (s := State.reset) rfl, rfl, .inr ⟨by decide +kernel, by decide +kernel, .key, by decide +kernel, by decide +kernel⟩, by decide +kernel⟩

theorem witness_StatusWriteClearsItsBits :
    ∃ s v, HostWrites s 0x010 4 v ∧ Inductive s ∧ s.busy = true ∧ v.getLsbD 1 = true := by
  refine ⟨hosting (running 0 1) [.write 4 0x010 0xE], 0xE, hostWrites_of rfl, ?_, rfl, rfl⟩
  exact { inductive_running with }

theorem witness_BusyWritesAreDropped :
    ∃ s, HostWrites s 0x00C 4 (0 : Word) ∧ s.busy = true ∧ Permitted 0x00C 4 :=
  ⟨_, hostWrites_of (s := running 0 1) rfl, rfl, .inl (by decide +kernel)⟩

theorem witness_BusyControlWritesTakeEffect :
    (∃ s v, s.busy = true ∧ HostWrites s 0x008 4 v ∧ v.getLsbD 1 = false) ∧
      (∃ s v, s.busy = true ∧ HostWrites s 0x008 4 v ∧ v.getLsbD 1 = true) ∧ ∃ s v, s.busy = true ∧ HostWrites s 0x010 4 v :=
  ⟨⟨_, 1, rfl, hostWrites_of (s := running 0 1) rfl, rfl⟩, ⟨_, 2, rfl, hostWrites_of (s := running 0 1) rfl, rfl⟩,
    _, 8, rfl, hostWrites_of (s := running 0 1) rfl⟩

/-- A state in which FENC.ACK runs differs from reset in the running command alone. -/
theorem inductive_runningAck (ops : List HostOp) : Inductive (hosting (running 1 1) ops) :=
  { inductive_running with
    starting := fun h => absurd (show (running 1 1).authState = .challengeSent from h) (by decide +kernel)
    executing := fun _ h => absurd (show decode (running 1 1).latch.cmd = .ok .authStart from h) (by decide +kernel)
    verifying := fun h => absurd (show (running 1 1).authState = .verifying from h) (by decide +kernel)
    issued := rfl }

/-- A register that is always read, LTK_INFO, SESS_INFO and SUBK_INFO under a command that may write none of them, and a window
byte next to those that FENC.ACK may write. -/
theorem witness_BusyReadsOfKnownStateReturnIt :
    (∃ s, HostReads s 0x010 4 3 ∧ s.busy = true ∧ Permitted 0x010 4 ∧ Inductive s ∧ 0x010 = 4 * allRegs.idxOf Reg.status) ∧
    (∀ r ∈ [Reg.ltkInfo, .sessInfo, .subkInfo], ∃ s, HostReads s (4 * allRegs.idxOf r) 4 3 ∧ s.busy = true ∧
      Permitted (4 * allRegs.idxOf r) 4 ∧ Inductive s ∧ s.latch.cmd = 1 ∧ r ∉ runningRegs s) ∧
    ∃ s, HostReads s 0x40006 1 3 ∧ s.busy = true ∧ Permitted 0x40006 1 ∧ Inductive s ∧
      inRanges (runningOutputs s) 0x40006 = false ∧ inRanges (runningOutputs s) 0x40005 = true := by
  refine ⟨⟨_, hostReads_of (s := running 0 1) rfl, rfl, .inl (by decide +kernel), inductive_running, by decide +kernel⟩, ?_,
    hosting (running 1 1) [.read 1 0x40006 3], hostReads_of rfl, rfl,
    .inr ⟨by decide +kernel, by decide +kernel, .fout, by decide +kernel, by decide +kernel⟩, inductive_runningAck _,
    by decide +kernel⟩
  intro r hr
  have low : ∀ r ∈ [Reg.ltkInfo, .sessInfo, .subkInfo], 4 * allRegs.idxOf r < 0x40 ∧ 4 = 4 ∧ 4 * allRegs.idxOf r % 4 = 0 := by
    decide +kernel
  have word : decode 1 = .ok .fencAck := by decide +kernel
  refine ⟨hosting (running 1 1) _, hostReads_of rfl, rfl, .inl (low r hr), inductive_runningAck _, rfl, ?_⟩
  rw [runningRegs_ok rfl word]
  revert r
  decide +kernel

/-- LTK_INFO is unspecified under KLOAD only, SESS_INFO under a command that logs out, RES0 under every word (rules R39 to R42). -/
theorem test_running_registers :
    runningRegs (running 0x110 1) = [.res0, .res1, .res2, .res3, .ltkInfo] ∧
      runningRegs (running 0x33 1) = [.res0, .res1, .res2, .res3, .sessInfo] ∧
      runningRegs (issueWith nist 0x10 1) = [.res0, .res1, .res2, .res3, .ltkInfo, .subkInfo] ∧
      runningRegs (running 0x07 1) = [.res0, .res1, .res2, .res3] ∧ runningRegs State.reset = [] := by decide +kernel

theorem witness_HiddenRecordIsInvisibleToTheHost :
    (∃ s t, completionDue s = false ∧ step s = .next t ∧ ¬ SoftResetNow s) ∧
      ∃ s f, completionDue s = false ∧ step s = .fault f := by
  refine ⟨⟨State.reset, _, rfl, rfl, ?_⟩, hosting State.reset [.read 4 0x40 0], _, rfl, rfl⟩
  rintro ⟨v, ⟨_, op, h, _⟩, _⟩
  exact absurd (show nextOp State.reset = none from rfl) (by rw [h]; nofun)

/-- The three ways FENC.INFO ends, at the boundaries of its checks. -/
theorem witness_InfoFramesAreEncoded :
    65533 < opLen (latched State.reset 0 65534 0) ∧
    (opLen (latched State.reset 4 65533 0) ≤ 65533 ∧
      65536 < opOff (latched State.reset 4 65533 0) + opLen (latched State.reset 4 65533 0)) ∧
    (opLen (latched State.reset 3 65533 0) ≤ 65533 ∧
      opOff (latched State.reset 3 65533 0) + opLen (latched State.reset 3 65533 0) ≤ 65536) := by decide +kernel

/-- No start code, and one byte string for each clause after a first start code. -/
theorem witness_HeaderParseFollowsItsRule :
    (∀ i, ¬ IsStart [0x00] i) ∧ FirstStart [0x00, 0x00, 0xFF, 0x00, 0xFF] 1 ∧
    parseHeader [0x00, 0xFF, 0x00] = .truncated 4 ∧
    parseHeader [0x00, 0x00, 0xFF, 0x00, 0xFF] = .ok ⟨.ack, 1, true, false, 0, 5, 6⟩ ∧
    parseHeader [0x00, 0xFF, 0xFF, 0x00] = .ok ⟨.nack, 0, false, false, 0, 4, 4⟩ ∧
    parseHeader [0x00, 0xFF, 0xFF, 0xFF, 0x01, 0x00] = .truncated 7 ∧
    parseHeader [0x00, 0xFF, 0xFF, 0xFF, 0x01, 0x00, 0x00] = .err .frameLenChecksum ∧
    parseHeader [0x00, 0xFF, 0xFF, 0xFF, 0x00, 0x00, 0x00] = .err .frameBadCode ∧
    parseHeader [0x00, 0xFF, 0xFF, 0xFF, 0xFF, 0xFF, 0x02] = .ok ⟨.data, 0, false, true, 65535, 7, 65543⟩ ∧
    parseHeader [0x00, 0xFF, 0x02, 0xFF] = .err .frameLenChecksum ∧
    parseHeader [0x00, 0xFF, 0x00, 0x00] = .err .frameBadCode ∧
    parseHeader [0x00, 0xFF, 0xFF, 0x01] = .ok ⟨.data, 0, false, false, 255, 4, 260⟩ := by
  have later : ∀ j < 1, ¬ IsStart [0x00, 0x00, 0xFF, 0x00, 0xFF] j := fun j hj h => by
    obtain rfl : j = 0 := by omega
    exact absurd h.2 (by decide +kernel)
  have never : ∀ i, ¬ IsStart [0x00] i := fun i h => by simpa using h.2
  exact ⟨never, ⟨⟨rfl, rfl⟩, later⟩, by decide +kernel⟩

/-- A state that received some bytes whole. -/
def receiving (b : List Byte) : State := latched (put State.reset [(.fin, 0, b)]) 0 b.length 0

theorem witness_FidentReportsTheHeader :
    parseHeader (Machine.received (receiving [0x00])) = .truncated 2 ∧
    parseHeader (Machine.received (receiving [0x00, 0xFF, 0x02, 0xFF])) = .err .frameLenChecksum ∧
    parseHeader (Machine.received (receiving [0x00, 0xFF, 0xFF, 0x00])) = .ok ⟨.nack, 0, false, false, 0, 4, 4⟩ ∧
    opLen (receiving []) = 0 ∧ Machine.received (receiving (hex 7 0x0000FF06FAD503)) = hex 7 0x0000FF06FAD503 := by decide +kernel

/-- One byte string for each clause. -/
theorem witness_FullParseFollowsItsRule :
    parseFrame [0x00, 0xFF, 0x00] = .truncated 4 ∧ parseFrame [0x00, 0xFF, 0x00, 0x00] = .err .frameBadCode ∧
    parseFrame [0x00, 0x00, 0xFF, 0x00, 0xFF] = .truncated 6 ∧
    parseFrame [0x00, 0x00, 0xFF, 0x00, 0xFF, 0x01] = .err .frameBadPostamble ∧
    parseFrame ackFrame = .ok ⟨.ack, 1, true, false, 0, 6, 0, 0, []⟩ ∧
    parseFrame [0x00, 0xFF, 0xFF, 0x00] = .ok ⟨.nack, 0, false, false, 0, 4, 0, 0, []⟩ ∧
    parseFrame (hex 8 0x0000FF01FF7F8000) = .err .frameDataChecksum ∧
    parseFrame (hex 8 0x0000FF01FF7F8101) = .err .frameBadPostamble ∧
    parseFrame (hex 8 0x0000FF01FF7F8100) = .ok ⟨.error, 1, true, false, 1, 8, 0, 0, []⟩ ∧
    parseFrame (hex 6 0x00FF01FF7E82) = .err .frameBadCode ∧
    parseFrame (hex 9 0x0000FF02FED4022A00) = .ok ⟨.info, 1, true, false, 2, 9, 0xD4, 0x02, []⟩ := by decide +kernel

theorem witness_FdecDeliversTheFrame :
    parseFrame (Machine.received (receiving [0x00])) = .truncated 2 ∧
    parseFrame (Machine.received (receiving (hex 6 0x00FF01FF7E82))) = .err .frameBadCode ∧
    parseFrame (Machine.received (receiving ackFrame)) = .ok ⟨.ack, 1, true, false, 0, 6, 0, 0, []⟩ ∧
    parseFrame (Machine.received (receiving (hex 9 0x0000FF02FED4022A00))) = .ok ⟨.info, 1, true, false, 2, 9, 0xD4, 0x02, []⟩ ∧
    Machine.received (receiving (hex 13 0x0000FF06FAD50332010607E800)) = hex 13 0x0000FF06FAD50332010607E800 := by decide +kernel

/-- FENC.ERR, behind a noise byte and before a trailing one. -/
theorem witness_FdecDecodesWhatWasEncoded :
    ∃ t, exec .fencErr State.reset = .next t ∧ t.err = false ∧ (∀ j, ¬ IsStart [0x55] j) ∧
      Machine.received (receiving ([0x55] ++ errFrame ++ [0xAA])) = [0x55] ++ t.window .fout 0 t.res1.toNat ++ [0xAA] := by
  refine ⟨_, rfl, rfl, ?_, by decide +kernel⟩
  rintro j ⟨_, h⟩
  simp at h

/-- The bytes that the clauses change, and the values they change to: of a frame of no payload byte, of the longest short one
(whose LCS is 01) and of the shortest long one. -/
theorem witness_ChangedFrameBytesGiveTheirResults :
    ruleInfoFrame 0xD4 0x02 [] = hex 9 0x0000FF02FED4022A00 ∧
    findStart ((ruleInfoFrame 0xD4 0x02 []).set 2 0xFE) = none ∧
    (ruleInfoFrame 0xD4 0x02 (zeros 252)).take 5 = hex 5 0x0000FFFE02 ∧
    (ruleInfoFrame 0x00 0x02 (zeros 253)).take 6 = hex 6 0x0000FFFF0100 ∧
    (ruleInfoFrame 0xD4 0x40 (zeros 254)).take 8 = hex 8 0x0000FFFFFF0100FF ∧
    parseFrame ((ruleInfoFrame 0x00 0x02 (zeros 253)).set 4 0x00) = .ok ⟨.nack, 1, true, false, 0, 6, 0, 0, []⟩ := by
  decide +kernel

/-- The forms of KLOAD: an empty slot and a loaded one, with and without a handshake in progress. -/
theorem witness_KloadLoadsTheKeySlot :
    { State.reset with authState := .awaitingChallenge }.authState = .awaitingChallenge ∧
      { State.reset with authState := .responseSent }.authState = .responseSent ∧
      State.reset.authState ≠ .awaitingChallenge ∧ State.reset.authState ≠ .responseSent := by decide +kernel

theorem witness_DegenerateKeysActAsSingleDes :
    let k := hex 16 0x00020406080A0C0E01030507090B0D0F
    k.length = 16 ∧ degenerate .tdes2 k = true ∧ (upTo 8).length = 8 ∧
      degenerate .tdes2 (hex 16 0x00020406080A0C0E01030507090B0D0D) = false := by decide +kernel

theorem witness_ChainsFollowTheBlockEquations :
    (upTo 8).length = klen .des ∧ (upTo 16).length = klen .tdes2 ∧ (upTo 24).length = klen .tdes3 ∧ (zeros 8).length = bs .tdes3 ∧
    (upTo 16).length = klen .aes128 ∧ (zeros 16).length = bs .aes128 ∧ (upTo 32).length = 2 * bs .aes128 := by decide +kernel

/-- A DES key in the long-term slot. -/
def desState : State := keyed 0x110 (hex 8 0x133457799BBCDFF1)

/-- For CencEncryptsInPlace, CdecDecryptsInPlace, CmacbAdvancesTheIv and CmsubkDerivesTheKeychain: no key, a range one too long,
a length off a block, the last range, and the empty one. -/
theorem witness_CencEncryptsInPlace :
    keyOf desState .sess = none ∧ keyOf desState .ltk = some ⟨.des, hex 8 0x133457799BBCDFF1⟩ ∧
    65536 < opOff (latched desState 65529 8 0) + opLen (latched desState 65529 8 0) ∧
    (opOff (latched desState 65527 9 0) + opLen (latched desState 65527 9 0) ≤ 65536 ∧
      opLen (latched desState 65527 9 0) % bs .des ≠ 0) ∧
    (opOff (latched desState 65528 8 0) + opLen (latched desState 65528 8 0) ≤ 65536 ∧
      opLen (latched desState 65528 8 0) % bs .des = 0) ∧
    opLen (latched desState 65535 0 0) % bs .des = 0 := by decide +kernel

theorem witness_KeySlotSelection :
    State.reset.ltk = none ∧ State.reset.session = none ∧ keyOf State.reset .ltk = none ∧ keyOf State.reset .sess = none ∧
      desState.ltk = some ⟨.des, 0, 0, true⟩ ∧ (after answered 0x32).session = some ⟨.tdes2, 0, true⟩ := by decide +kernel

/-- CENC of one block, and a state with its ciphertext and the IV it started from. -/
theorem witness_ChainLawsHold :
    (∃ t u, exec (.cenc .ltk) (latched desState 0 8 0) = .next t ∧ t.err = false ∧
      u = { latched desState 0 8 0 with mem := writeBytes t.mem (Window.base .iv) (zeros 16) } ∧
      keyOf u .ltk = keyOf (latched desState 0 8 0) .ltk ∧ opOff u = opOff (latched desState 0 8 0) ∧
      opLen u = opLen (latched desState 0 8 0) ∧ u.window .iv 0 16 = (latched desState 0 8 0).window .iv 0 16 ∧
      u.window .data 0 8 = t.window .data 0 8) ∧
    (8 % bs .des = 0 ∧ 65520 + 8 + 8 ≤ 65536 ∧ 65520 + 8 < 65536) := by
  obtain ⟨t, ht⟩ := exec_next (.cenc .ltk) (latched desState 0 8 0)
  have hm : t = target State.reset (exec (.cenc .ltk) (latched desState 0 8 0)) := target_of ht
  refine ⟨⟨t, _, ht, ?_, rfl, ?_, rfl, rfl, ?_, ?_⟩, by decide +kernel⟩ <;> (subst hm; decide +kernel)

theorem witness_DoublingIsAReducedShift :
    (hex 8 0x80000000000000FF).length = 8 ∧ (upTo 16).length = 16 ∧ (upTo 24).length = klen .tdes3 ∧
      256 ^ 8 / 2 ≤ beNat (hex 8 0x8000000000000000) ∧ ¬ 256 ^ 8 / 2 ≤ beNat (hex 8 0x7FFFFFFFFFFFFFFF) := by decide +kernel

/-- Messages of no byte, of a part of a block and of whole blocks; targets equal to the message's length and above it. -/
theorem witness_PreparedMessageFollowsItsRule :
    (zeros 8).length = 8 ∧ (upTo 8).length % 8 = 0 ∧ (upTo 9).length % 8 ≠ 0 ∧ legalTarget 8 8 8 = true ∧
      legalTarget 65536 8 65535 = true ∧ legalTarget 8 8 0 = true ∧ legalTarget 65544 8 0 = false := by decide +kernel

/-- A DES keychain of slot 0. -/
def macState : State := after desState 0x20

/-- The two ways to have no subkeys, and the boundaries of the range and of the target. -/
theorem witness_CmacComputesTheMac :
    keyOf State.reset .ltk = none ∧ desState.keychain = none ∧ keyOf desState .ltk ≠ none ∧
    macState.keychain = some ⟨.ltk, 8⟩ ∧ keyOf macState .ltk = some ⟨.des, hex 8 0x133457799BBCDFF1⟩ ∧
    65536 < opOff (latched macState 65535 2 0) + opLen (latched macState 65535 2 0) ∧
    opOff (latched macState 65535 1 0) + opLen (latched macState 65535 1 0) ≤ 65536 ∧
    opAux (latched macState 0 9 8) = 8 ∧ opLen (latched macState 0 9 8) = 9 ∧ opAux (latched macState 0 0 65544) = 65544 ∧
    opAux (latched macState 0 0 65536) = 65536 := by decide +kernel

/-- Two states that differ in one byte of the message. -/
theorem witness_CmacIsDeterminedAndSensitive :
    let s := latched (put macState [(.data, 0, [1, 2, 3])]) 0 3 0
    let u := latched (put macState [(.data, 0, [1, 0, 3])]) 0 3 0
    ∃ t, exec (.cmac .ltk) s = .next t ∧ t.err = false ∧ keyOf s .ltk = some ⟨.des, hex 8 0x133457799BBCDFF1⟩ ∧
      keyOf u .ltk = some ⟨.des, hex 8 0x133457799BBCDFF1⟩ ∧ keychainOf u .ltk = true ∧ opOff u + opLen u ≤ 65536 ∧
      opLen u = opLen s ∧ opAux u = opAux s ∧ u.window .iv 0 16 = s.window .iv 0 16 ∧
      u.window .subkPad 0 16 = s.window .subkPad 0 16 ∧ u.window .subkNopad 0 16 = s.window .subkNopad 0 16 ∧
      byteAt (u.window .data 0 3) 1 ≠ byteAt (s.window .data 0 3) 1 := by
  intro s u
  obtain ⟨t, ht⟩ := exec_next (.cmac .ltk) s
  have hm : t = target State.reset (exec (.cmac .ltk) s) := target_of ht
  refine ⟨t, ht, ?_, ?_, ?_, ?_, ?_, ?_, ?_, ?_, ?_, ?_, ?_⟩ <;> (subst hm; decide +kernel)

/-- A state in which AUTH.CHAL is due, the card's answer of 9 bytes in AC_RX. -/
def chalState (len : Nat) : State := latched challenged 0 len 0

/-- The five ways AUTH.CHAL ends. -/
theorem witness_AuthChalAnswersTheChallenge :
    State.reset.authState ≠ .awaitingChallenge ∧ challenged.ltk = some ⟨.tdes2, 0, 0, true⟩ ∧
    (chalState 9).authState = .awaitingChallenge ∧ 64 < opLen (chalState 65) ∧ opLen (chalState 0) < 1 ∧
    readByte (chalState 64).mem (Window.base .acRx + (opLen (chalState 64) - 1)) ≠ 0xAF ∧
    (readByte (put (chalState 1) [(.acRx, 0, [0xAF])]).mem (Window.base .acRx + (opLen (chalState 1) - 1)) = 0xAF ∧
      opLen (chalState 1) - 1 ≠ challengeLen .tdes2) ∧
    (opLen (chalState 9) = challengeLen .tdes2 + 1 ∧
      readByte (chalState 9).mem (Window.base .acRx + (opLen (chalState 9) - 1)) = 0xAF) ∧
    8 ≤ challenged.env.entropy.length := by decide +kernel

/-- A state in which AUTH.FINISH is due. -/
def finishState (len : Nat) : State := latched { answered with authState := .verifying } 0 len 0

/-- The six ways AUTH.FINISH ends past the state check. -/
theorem witness_AuthFinishInstallsTheSession :
    HandshakeForm (finishState 9) ⟨.tdes2, 0, 0, true⟩ ∧ (finishState 9).authState = .verifying ∧
    (upTo 16).length = challengeLen .tdes3 ∧ (upTo 8).length = challengeLen .tdes2 ∧ State.reset.authState ≠ .verifying ∧ 64 < opLen (finishState 65) ∧ opLen (finishState 0) < 1 ∧
    readByte (finishState 1).mem (Window.base .acRx + (opLen (finishState 1) - 1)) ≠ 0x00 ∧
    (readByte (finishState 64).mem (Window.base .acRx + (opLen (finishState 64) - 1)) = 0x00 ∧ opLen (finishState 64) - 1 ≠ 8) ∧
    (opLen (finishState 9) = challengeLen .tdes2 + 1 ∧
      readByte (finishState 9).mem (Window.base .acRx + (opLen (finishState 9) - 1)) = 0x00) ∧
    (cbcDec .tdes2 ((finishState 9).window .ltkKey 0 16) 1 ((finishState 9).hidden.civ.take 8)
      ((finishState 9).window .acRx 0 8)).out = rotl1 ((finishState 9).hidden.rnda.take 8) := by
  refine ⟨⟨?_, ?_, ?_, ?_, ?_⟩, ?_⟩ <;> decide +kernel

theorem witness_AuthStartBeginsAHandshake : State.reset.ltk = none ∧ desState.ltk = some ⟨.des, 0, 0, true⟩ := by decide +kernel

/-- Each state of the table, and a word of each of its columns. -/
theorem witness_AuthStateFollowsTheTransitionTable :
    (∀ a ∈ [AuthState.idle, .awaitingChallenge, .responseSent, .authenticated, .failed],
      let s : State := { State.reset with authState := a }
      s.busy = false ∧ s.authState ≠ .challengeSent ∧ s.authState ≠ .verifying) ∧
    decode 0xFF = .error .badOpcode ∧ decode 0x30 = .ok .authStart ∧ decode 0x31 = .ok .authChal ∧
    decode 0x32 = .ok .authFinish ∧ decode 0x33 = .ok .logout ∧ decode 0x10 = .ok (.kload none 0 0) ∧ decode 0 = .ok .nop := by
  decide +kernel

/-- T-A06's reply. -/
def tamperedState : State := (finishState 9).setWindow .acRx 0 [0x53]

theorem tamperedState_differs :
    (target State.reset (exec .authFinish (finishState 9))).err = false ∧
      tamperedState.window .ltkKey 0 24 = (finishState 9).window .ltkKey 0 24 ∧
      readByte tamperedState.mem (Window.base .acRx + (finishState 9).hidden.n) =
        readByte (finishState 9).mem (Window.base .acRx + (finishState 9).hidden.n) ∧
      tamperedState.window .acRx 0 (finishState 9).hidden.n ≠ (finishState 9).window .acRx 0 (finishState 9).hidden.n := by
  decide +kernel

/-- The reply of T-A03, and T-A06's. -/
theorem witness_TamperedReplyIsRejected :
    ∃ t, HandshakeForm (finishState 9) ⟨.tdes2, 0, 0, true⟩ ∧ exec .authFinish (finishState 9) = .next t ∧ t.err = false ∧
      tamperedState.ltk = (finishState 9).ltk ∧ tamperedState.hidden = (finishState 9).hidden ∧
      tamperedState.authState = (finishState 9).authState ∧ opLen tamperedState = opLen (finishState 9) ∧
      tamperedState.window .ltkKey 0 24 = (finishState 9).window .ltkKey 0 24 ∧
      readByte tamperedState.mem (Window.base .acRx + (finishState 9).hidden.n) =
        readByte (finishState 9).mem (Window.base .acRx + (finishState 9).hidden.n) ∧
      tamperedState.window .acRx 0 (finishState 9).hidden.n ≠ (finishState 9).window .acRx 0 (finishState 9).hidden.n := by
  obtain ⟨t, ht⟩ := exec_next .authFinish (finishState 9)
  refine ⟨t, witness_AuthFinishInstallsTheSession.1, ht, ?_, State.setWindow_ltk _ _ _ _, State.setWindow_hidden _ _ _ _,
    State.setWindow_authState _ _ _ _, congrArg (·.oplen.toNat) (State.setWindow_latch _ _ _ _), tamperedState_differs.2⟩
  rw [target_of ht]
  exact tamperedState_differs.1

/-- T-A03: the card's challenge is the encryption of its RndB, and its reply that of the rotated RndA. -/
theorem witness_HonestCardAuthenticates :
    let s := chalState 9
    let rndb := hex 8 0x1122334455667788
    let key := s.window .ltkKey 0 16
    let t := target State.reset (exec .authChal s)
    let u := finishState 9
    s.ltk = some ⟨.tdes2, 0, 0, true⟩ ∧ s.authState = .awaitingChallenge ∧ rndb.length = challengeLen .tdes2 ∧
      opLen s = challengeLen .tdes2 + 1 ∧ s.window .acRx 0 9 = cardSends .tdes2 key (zeros 8) rndb ++ [0xAF] ∧
      u.ltk = t.ltk ∧ u.window .ltkKey 0 24 = t.window .ltkKey 0 24 ∧ u.hidden = t.hidden ∧ u.authState = .verifying ∧
      u.window .acRx 0 9 =
        cardSends .tdes2 key (lastBlock 8 (t.window .acTx 1 16)) (rotl1 (drawnBytes s 8)) ++ [0x00] := by decide +kernel

/-- Steps that change the slots: the completions of KLOAD, CMSUBK, CMAC and AUTH.FINISH. -/
theorem witness_OnlyTheirCommandsWriteTheSlots :
    (∃ t, step (running 0x110 0) = .next t ∧ ¬ SoftResetNow (running 0x110 0) ∧ t.ltk.isSome = true ∧
      (running 0x110 0).ltk.isSome = false) ∧
    ((target State.reset (step (issueWith answered 0x32 0))).session.isSome = true ∧ answered.session.isSome = false ∧
      (target State.reset (step (issueWith answered 0x32 0))).hidden.n = 0 ∧ answered.hidden.n = 8) ∧
    ((target State.reset (step (issueWith desState 0x20 0))).keychain.isSome = true ∧ desState.keychain.isSome = false) ∧
    (target State.reset (step (issueWith macState 0x21 0))).window .mac 0 1 ≠ macState.window .mac 0 1 := by
  refine ⟨⟨_, rfl, ?_, rfl, rfl⟩, by decide +kernel, by decide +kernel, by decide +kernel⟩
  rintro ⟨v, ⟨h, _⟩, _⟩
  exact absurd h (by decide +kernel)

/-- For ResetMeetsEveryInvariant too: the first byte of DATA and the last of FOUT at any value. -/
theorem witness_PowerOnLeavesTheResetValues : PowerOn { State.reset with mem := [(0x10000, 7), (0x5FFFF, 1)] } :=
  ⟨rfl, by decide +kernel, by decide +kernel⟩

theorem witness_SoftResetKeepsOnlyTheBuffers :
    (∃ s, SoftResetNow s ∧ s.busy = false) ∧
      ∃ s, SoftResetNow s ∧ s.busy = true ∧ inRanges (runningOutputs s) 0x40006 = false :=
  ⟨⟨_, ⟨2, hostWrites_of (s := State.reset) rfl, rfl⟩, rfl⟩,
    ⟨_, ⟨2, hostWrites_of (s := running 1 1) rfl, rfl⟩, rfl, by decide +kernel⟩⟩

/-- For EveryStepKeepsTheInvariants, EveryStepKeepsTheKeyForms and EveryStepKeepsTheMemoryForm. -/
theorem witness_EveryStepKeepsTheInvariants :
    ∃ s t, Inductive s ∧ KeyForm s ∧ MemoryForm s ∧ step s = .next t := by
  refine ⟨hosting (running 0 1) [.read 4 0x010 3], _, inductive_running, ⟨?_, ?_, ?_, by decide +kernel⟩, ⟨by decide +kernel, ?_⟩, rfl⟩
  · intro l h; cases h
  · intro l h; cases h
  · intro c h; cases h
  · intro c h; cases h

/-- A power-on state whose host issues AUTH.START, which then takes two host steps. -/
def startingHost : State :=
  hosting { State.reset with env := { Environment.empty with schedule := [2] } } [.write 4 0x00C 0x30]

/-- The state after the issue, in which AUTH.START executes (rule R54 (e)). -/
theorem witness_ReachableStatesMeetTheInvariants :
    ∃ t, Reachable t ∧ t.busy = true ∧ decode t.latch.cmd = .ok .authStart :=
  ⟨target State.reset (step startingHost),
    .step startingHost _ (.powerOn _ ⟨rfl, by decide +kernel, fun c h => by cases h⟩) rfl, rfl, by decide +kernel⟩

theorem witness_OtherCommandsKeepTheHandshake : ∃ t, exec .fdec (receiving ackFrame) = .next t := exec_next _ _

/-- Words that are a command's and words that are none, and a host step that faults. -/
theorem witness_EveryStepHasAnOutcome :
    completionDue (running 0x103410 0) = true ∧ completionDue (running 0x07 0) = true ∧
      ∃ s f, step s = .fault f := ⟨rfl, rfl, hosting State.reset [.read 4 0x40 0], _, rfl⟩

end Sys2Proof.Tests
end

/-! SUPPORT. The window bytes a command writes, as a relation on memories: each store lies inside one window and inside one of the
ranges the model lists for it (Machine/Outputs.lean).  The frame of a command, the canonical form of memory and the windows that
keep their bytes all follow from it. -/

namespace Sys2Proof.Machine

/-- Memory `n` comes from `m` by stores that each lie inside one window of `ws` and fill one range of `rs`. -/
inductive Stores (ws : List Window) (rs : List Range) (m : List Host.Cell) : List Host.Cell → Prop where
  | none : Stores ws rs m m
  | store {n : List Host.Cell} (h : Stores ws rs m n) {w : Window} {off k : Nat} {b : List Byte} (hw : w ∈ ws)
      (hr : w.range off k ∈ rs) (hk : b.length = k) (hb : off + k ≤ w.size) : Stores ws rs m (writeBytes n (w.base + off) b)

/-- Stores allowed by some windows and ranges are allowed by more of them. -/
theorem Stores.mono {ws vs : List Window} {rs qs : List Range} {m n : List Host.Cell} (h : Stores ws rs m n) (hw : ws ⊆ vs)
    (hr : rs ⊆ qs) : Stores vs qs m n := by
  induction h with
  | none => exact .none
  | store _ h1 h2 h3 h4 ih => exact .store ih (hw h1) (hr h2) h3 h4

theorem Stores.trans {ws : List Window} {rs : List Range} {m n o : List Host.Cell} (h : Stores ws rs m n)
    (h' : Stores ws rs n o) : Stores ws rs m o := by
  induction h' with
  | none => exact h
  | store _ h1 h2 h3 h4 ih => exact .store ih h1 h2 h3 h4

/-- Every byte outside the ranges reads as before. -/
theorem Stores.readByte_outside {ws : List Window} {rs : List Range} {m n : List Host.Cell} (h : Stores ws rs m n) {a : Nat}
    (ha : inRanges rs a = false) : readByte n a = readByte m a := by
  induction h with
  | none => rfl
  | @store n _ w off k b _ hr hk _ ih =>
    have hn : (w.range off k).has a = false := by simpa using (List.any_eq_false.1 ha) _ hr
    have hn' : ¬ (w.base + off ≤ a ∧ a < w.base + off + k) := of_decide_eq_false hn
    rw [readByte_writeBytes, if_neg (by omega), ih]

/-- A window that no store reaches keeps its bytes. -/
theorem Stores.window_other {ws : List Window} {rs : List Range} {s t : State} (h : Stores ws rs s.mem t.mem) {v : Window}
    (hv : v ∉ ws) : t.window v 0 v.size = s.window v 0 v.size := by
  suffices ∀ n, Stores ws rs s.mem n → readBytes n (v.base + 0) v.size = readBytes s.mem (v.base + 0) v.size from this _ h
  intro n hn
  induction hn with
  | none => rfl
  | @store n _ w off k b hw _ hk hb ih =>
    have hne : w ≠ v := fun e => hv (e ▸ hw)
    rw [readBytes_writeBytes_apart _ _ _ _ _ (by rcases Window.apart hne with h | h <;> omega), ih]

/-- The cells of a memory after a write are old ones or lie in the range written. -/
theorem mem_writeBytes {m : List Host.Cell} {a : Nat} {b : List Byte} {c : Host.Cell} (h : c ∈ writeBytes m a b) :
    c ∈ m ∨ a ≤ c.1 ∧ c.1 < a + b.length := by
  simp only [writeBytes, List.mem_append, List.mem_filter] at h
  rcases h with (⟨h, _⟩ | h) | ⟨h, _⟩
  · exact .inl h
  · exact .inr (cellsOf_range h)
  · exact .inl h

theorem mem_allWindows (w : Window) : w ∈ allWindows := by cases w <;> decide

/-- An offset inside a window is one that some window answers for (rule R82). -/
theorem windowAt_isSome {w : Window} {a : Nat} (h1 : w.base ≤ a) (h2 : a < w.base + w.size) : (windowAt a).isSome :=
  List.find?_isSome.2 ⟨w, mem_allWindows w, by simp [h1, h2]⟩

/-- A write inside a window keeps the form of memory. -/
theorem MemoryForm.of_write {s t : State} (h : MemoryForm s) {w : Window} {off : Nat} {b : List Byte}
    (hb : off + b.length ≤ w.size) (ht : t.mem = writeBytes s.mem (w.base + off) b) : MemoryForm t where
  form := ht ▸ writeBytes_wf h.form _ _
  mapped := fun c hc => by
    rcases mem_writeBytes (ht ▸ hc) with hc | ⟨h1, h2⟩
    · exact h.mapped c hc
    · exact windowAt_isSome (w := w) (by omega) (by omega)

/-- Stores keep the form of memory. -/
theorem Stores.memoryForm {ws : List Window} {rs : List Range} {s t : State} (h : Stores ws rs s.mem t.mem)
    (hs : MemoryForm s) : MemoryForm t := by
  suffices ∀ n, Stores ws rs s.mem n → MemoryForm { s with mem := n } from ⟨(this _ h).form, (this _ h).mapped⟩
  intro n hn
  induction hn with
  | none => exact hs
  | store _ _ _ hk hb ih => exact ih.of_write (by omega) rfl

/-- A write that fills a listed range of a window. -/
theorem Stores.setWindow {ws : List Window} {rs : List Range} {m : List Host.Cell} {s : State} (h : Stores ws rs m s.mem)
    {w : Window} {off k : Nat} {b : List Byte} (hw : w ∈ ws) (hr : w.range off k ∈ rs) (hk : b.length = k)
    (hb : off + k ≤ w.size) : Stores ws rs m (s.setWindow w off b).mem := .store h hw hr hk hb

/-- A write that fills a listed window. -/
theorem Stores.setWhole {ws : List Window} {rs : List Range} {m : List Host.Cell} {s : State} (h : Stores ws rs m s.mem)
    {w : Window} {b : List Byte} (hw : w ∈ ws) (hr : w.whole ∈ rs) (hb : b.length = w.size) :
    Stores ws rs m (s.setWindow w 0 b).mem := h.setWindow hw hr hb (by omega)

/-- A part of a window reads the same where the whole of it does. -/
theorem State.window_part {s t : State} {w : Window} {k : Nat} (h : t.window w 0 k = s.window w 0 k) {x n : Nat}
    (hn : x + n ≤ k) : t.window w x n = s.window w x n := by
  refine readBytes_congr fun i hi => ?_
  have hb : ∀ u : State, (u.window w 0 k).getD (x + i) 0 = readByte u.mem (w.base + x + i) := fun u => by
    rw [State.window, readBytes_getD _ _ _ _ (by omega), Nat.add_zero, Nat.add_assoc]
  rw [← hb t, ← hb s, h]

/-! The stores of the shared operations -/

theorem invalidateSlot_stores (s : State) (k : KeySel) :
    Stores [.subkPad, .subkNopad] (slotOutputs s k) s.mem (invalidateSlot s k).mem := by
  unfold invalidateSlot slotOutputs
  split
  · have h : Stores [.subkPad, .subkNopad] [Window.subkPad.whole, Window.subkNopad.whole] s.mem
        ({ s with keychain := none }.setWindow .subkPad 0 (zeros 16)).mem :=
      .setWhole (s := { s with keychain := none }) .none (by simp) (by simp) (zeros_length 16)
    exact h.setWhole (by simp) (by simp) (zeros_length 16)
  · exact .none

theorem logout_stores (s : State) :
    Stores [.sessKey, .iv, .subkPad, .subkNopad] (logoutOutputs s) s.mem (logout s).mem := by
  have hu : Stores [.sessKey, .iv, .subkPad, .subkNopad] (logoutOutputs s) s.mem
      (({ s with session := none }.setWindow .sessKey 0 (zeros 24)).setWindow .iv 0 (zeros 16)).mem :=
    .setWhole (.setWhole (s := { s with session := none }) .none (by simp) (by simp [logoutOutputs]) (zeros_length 24))
      (by simp) (by simp [logoutOutputs]) (zeros_length 16)
  refine hu.trans (Stores.mono (rs := slotOutputs s .sess) ?_ (ws := [.subkPad, .subkNopad]) (by simp)
    (List.subset_append_right _ _))
  exact invalidateSlot_stores (({ s with session := none }.setWindow .sessKey 0 (zeros 24)).setWindow .iv 0 (zeros 16)) .sess

theorem installKeychain_stores (s : State) (k : KeySel) (b : Nat) {np pd : List Byte} (hn : np.length ≤ 16)
    (hp : pd.length ≤ 16) : Stores [.subkPad, .subkNopad] [Window.subkPad.whole, Window.subkNopad.whole] s.mem
      (installKeychain s k b np pd).mem :=
  .setWhole (.setWhole (s := { s with keychain := some { slot := k, bs := BitVec.ofNat 5 b } }) .none (by simp) (by simp)
    (padTo_length hn)) (by simp) (by simp) (padTo_length hp)

end Sys2Proof.Machine

/-! SUPPORT. What a completion does, said once: a command fails alone (rule R312), fails with a logout (rule R275), works on the
buffers, or is one of the few that write a key slot, the keychain or the handshake. -/

namespace Sys2Proof.Machine

/-- The commands that write windows and results only: no key slot, no keychain, no part of the handshake. -/
def worksOnBuffers : Instr → Bool
  | .nop | .fencAck | .fencNack | .fencErr | .fencInfo | .fident | .fdec => true
  | .cenc _ | .cdec _ | .cmacb _ | .cmac _ => true
  | .kload _ _ _ | .cmsubk _ | .authStart | .authChal | .authFinish | .logout => false

/-- The commands whose failure ends the handshake (rule R275). -/
def failsByLogout : Instr → Bool
  | .authStart | .authChal | .authFinish => true
  | .nop | .fencAck | .fencNack | .fencErr | .fencInfo | .fident | .fdec => false
  | .kload _ _ _ | .cenc _ | .cdec _ | .cmacb _ | .cmsubk _ | .cmac _ | .logout => false

/-- The windows that a command may write in some state. -/
def writtenWindows : Instr → List Window
  | .nop | .fident => []
  | .fencAck | .fencNack | .fencErr | .fencInfo => [.fout]
  | .fdec => [.data]
  | .kload _ _ _ => [.ltkKey, .sessKey, .iv, .subkPad, .subkNopad]
  | .cenc _ | .cdec _ => [.data, .iv]
  | .cmacb _ => [.iv]
  | .cmsubk _ => [.subkPad, .subkNopad]
  | .cmac _ => [.iv, .mac]
  | .authStart | .authChal => [.sessKey, .iv, .subkPad, .subkNopad, .acTx]
  | .authFinish | .logout => [.sessKey, .iv, .subkPad, .subkNopad]

/-- What the completion of a command can leave: one constructor for each form of its outcome. -/
inductive Effect (s : State) : Instr → State → Prop where
  /-- `fail(code)` (rule R312). -/
  | fails {i : Instr} {code : ErrCode} (need : Nat) (hi : failsByLogout i = false) (hc : code ≠ .ok) :
      Effect s i (fail s code need)
  /-- `auth_fail(code)` (rule R275). -/
  | aborts {i : Instr} {code : ErrCode} (hi : failsByLogout i = true) (hc : code ≠ .ok) : Effect s i (authFail s code)
  /-- Windows and results only. -/
  | works {i : Instr} {u : State} (r0 r1 r2 r3 : Word) (hi : worksOnBuffers i = true) (hu : u = { s with mem := u.mem })
      (hm : Stores (writtenWindows i) (mayWrite i s) s.mem u.mem) : Effect s i (succeed u r0 r1 r2 r3)
  /-- CMSUBK (rule R243). -/
  | derives {k : KeySel} {r : KeyRef} (hk : keyOf s k = some r) :
      Effect s (.cmsubk k) (succeed (installKeychain s k (bs r.fam) (subkeys r.fam r.key).nopad (subkeys r.fam r.key).pad) 0
        (wordOf (bs r.fam)) 0 0)
  /-- KLOAD of cipher None (rule R202). -/
  | empties (keyno : BitVec 4) (version : Byte) :
      Effect s (.kload none keyno version) (succeed (clearKey (invalidateSlot (abortHandshake s) .ltk)) 0 0 0 0)
  /-- KLOAD of a key (rule R202). -/
  | loads (c : Family) (keyno : BitVec 4) (version : Byte) :
      Effect s (.kload (some c) keyno version)
        (succeed (loadKey (invalidateSlot (abortHandshake s) .ltk) c keyno version) 0 (wordOf (klen c)) 0 0)
  /-- AUTH.START with a key (rule R273). -/
  | starts {l : LongTermKey} (hl : s.ltk = some l) :
      Effect s .authStart (succeed { (logout s).setWindow .acTx 0 [authCmd l.ciph, 0#4 ++ l.keyno] with
        authState := .awaitingChallenge } 0 2 0 0)
  /-- AUTH.CHAL (rule R276). -/
  | answers {x : AnswerInput} (hx : chalOperands s = .ok x) :
      Effect s .authChal (answerChallenge (afterDraw s (challengeLen x.ltk.ciph)) x (drawnBytes s (challengeLen x.ltk.ciph)))
  /-- AUTH.FINISH (rule R277). -/
  | finishes {x : AnswerInput} (hx : finishOperands s = .ok x) :
      Effect s .authFinish (succeed { installSession s x.ltk with authState := .authenticated } 0 0 0 0)
  /-- LOGOUT (rule R279). -/
  | logsOut : Effect s .logout (succeed { logout s with authState := .idle } 0 0 0 0)

/-- The header and full parses answer no error that is no error. -/
theorem parseHeader_ne_ok {b : List Byte} {e : ErrCode} (h : parseHeader b = .err e) : e ≠ .ok := by
  have len : ∀ {s l hdr : Nat} {p ext : Bool}, lengthHeader s p ext l hdr = .err e → e ≠ .ok := fun {s l hdr p ext} h => by
    unfold lengthHeader at h
    split at h <;> cases h
    decide
  unfold parseHeader at h
  split at h
  · cases h
  · dsimp only at h
    split at h <;> [cases h; skip]
    split at h <;> [cases h; skip]
    split at h <;> [cases h; skip]
    split at h
    · split at h <;> [cases h; skip]
      split at h
      · cases h; decide
      · exact len h
    · split at h
      · cases h; decide
      · exact len h

theorem parseData_ne_ok {b : List Byte} {h : Header} {e : ErrCode} (he : parseData b h = .err e) : e ≠ .ok := by
  unfold parseData at he
  dsimp only at he
  split at he
  · cases he; decide
  split at he
  · cases he; decide
  split at he
  · split at he <;> cases he
    decide
  · cases he

theorem parseFrame_ne_ok {b : List Byte} {e : ErrCode} (h : parseFrame b = .err e) : e ≠ .ok := by
  unfold parseFrame at h
  split at h
  · cases h
  · rename_i hh
    cases h
    exact parseHeader_ne_ok hh
  · split at h <;> [cases h; skip]
    split at h
    · split at h <;> cases h
      decide
    · split at h <;> cases h
      decide
    · exact parseData_ne_ok h
    · exact parseData_ne_ok h
    · exact parseData_ne_ok h

/-- CENC and CDEC store the output in DATA and the new chaining value in IV. -/
theorem chain_stores {s : State} {k : KeySel} {x : ChainInput} (hx : chainOperands s k = .ok x) {out iv : List Byte}
    (ho : out.length = opLen s) (hv : iv.length = bs x.ref.fam) :
    Stores [.data, .iv] (chainOutputs s k) s.mem ((s.setWindow .data (opOff s) out).setWindow .iv 0 iv).mem := by
  have hr : chainOutputs s k = [Window.data.range (opOff s) (opLen s), Window.iv.range 0 (bs x.ref.fam)] := by
    simp only [chainOutputs, hx]
  have hb := bs_le x.ref.fam
  rw [hr]
  exact .setWindow (.setWindow .none (by simp) (by simp) ho (chainOperands_cases hx).2.1) (by simp) (by simp) hv
    (by simpa [Window.size] using hb)

theorem cmacb_stores {s : State} {k : KeySel} {x : ChainInput} (hx : chainOperands s k = .ok x) :
    Stores [.iv] (macbOutputs s k) s.mem (s.setWindow .iv 0 (cbcMac x.ref.fam x.ref.key x.blocks x.iv x.data)).mem := by
  have hr : macbOutputs s k = [Window.iv.range 0 (bs x.ref.fam)] := by simp only [macbOutputs, hx]
  have hb := bs_le x.ref.fam
  rw [hr]
  exact .setWindow .none (by simp) (by simp) (chain_lengths hx).1 (by simpa [Window.size] using hb)

theorem cmac_stores {s : State} {k : KeySel} {x : CmacInput} (hx : cmacOperands s k = .ok x) {iv : List Byte}
    (hv : iv.length = bs x.ref.fam) :
    Stores [.iv, .mac] (cmacOutputs s k) s.mem ((s.setWindow .iv 0 iv).setWindow .mac 0 (macOf iv ++ zeros 8)).mem := by
  have hr : cmacOutputs s k = [Window.iv.range 0 (bs x.ref.fam), Window.mac.whole] := by simp only [cmacOutputs, hx]
  have hb := bs_le x.ref.fam
  have h8 : 8 ≤ bs x.ref.fam := by cases x.ref.fam <;> decide
  rw [hr]
  refine .setWhole (.setWindow .none (by simp) (by simp) hv (by simpa [Window.size] using hb)) (by simp) (by simp) ?_
  simp [macOf, hv, h8, Window.size]

theorem fencInfo_stores {s : State} {p : List Byte} (hp : infoOperands s = .ok p) :
    Stores [.fout] (infoOutputs s) s.mem (s.setWindow .fout 0 (infoFrame s.latch.tfi s.latch.fcmd p)).mem := by
  have hr : infoOutputs s = [Window.fout.range 0 (infoFrame s.latch.tfi s.latch.fcmd p).length] := by
    simp only [infoOutputs, hp]
  obtain ⟨h1, _, h3⟩ := infoOperands_cases hp
  have hl := infoFrame_length_le s.latch.tfi s.latch.fcmd p
  have hp' : p.length = opLen s := by simp [h3]
  rw [hr]
  refine .setWindow .none (by simp) (by simp) rfl ?_
  simp only [Window.size, frameBufBytes, maxPayload] at *
  omega

theorem fdec_stores {s : State} {f : Frame} (hf : parseFrame (received s) = .ok f) (hk : f.kind = .info) :
    Stores [.data] (fdecOutputs s) s.mem (s.setWindow .data 0 f.payload).mem := by
  obtain ⟨h1, h2, h, hh, hd, ht, hl⟩ := parseFrame_info hf hk
  have hr : fdecOutputs s = [Window.data.range 0 (h.len - 2)] := by
    have ht' : h.total ≤ opLen s := by simpa [received] using ht
    simp only [fdecOutputs, hh, hd, ht', and_self, if_true]
  rw [hr]
  refine .setWindow (k := h.len - 2) .none (by simp) (by simp) (by omega) ?_
  simp only [Window.size, dataBytes]
  omega

/-- Every completion has one of these effects. -/
theorem exec_effect {i : Instr} {s t : State} (h : exec i s = .next t) : Effect s i t := by
  cases i with
  | nop => cases h; exact .works _ _ _ _ rfl rfl .none
  | fencAck => cases h; exact .works _ _ _ _ rfl rfl (.setWindow .none (by decide) (.head _) rfl (by decide))
  | fencNack => cases h; exact .works _ _ _ _ rfl rfl (.setWindow .none (by decide) (.head _) rfl (by decide))
  | fencErr => cases h; exact .works _ _ _ _ rfl rfl (.setWindow .none (by decide) (.head _) rfl (by decide))
  | fencInfo =>
    simp only [exec, execFencInfo] at h
    split at h <;> cases h
    · exact .fails 0 rfl (infoOperands_ne_ok ‹_›)
    · exact .works _ _ _ _ rfl rfl (fencInfo_stores ‹_›)
  | fident =>
    simp only [exec, execFident] at h
    split at h <;> cases h
    · exact .fails _ rfl (by decide)
    · exact .fails 0 rfl (parseHeader_ne_ok ‹_›)
    · exact .works _ _ _ _ rfl rfl .none
  | fdec =>
    simp only [exec, execFdec] at h
    split at h
    · cases h; exact .fails _ rfl (by decide)
    · cases h; exact .fails 0 rfl (parseFrame_ne_ok ‹_›)
    · split at h <;> cases h
      · exact .works _ _ _ _ rfl rfl (fdec_stores ‹_› ‹_›)
      · exact .works _ _ _ _ rfl rfl .none
  | kload c n v =>
    cases c <;> cases h
    · exact .empties n v
    · exact .loads _ n v
  | cenc k =>
    simp only [exec, execCenc] at h
    split at h <;> cases h
    · exact .fails 0 rfl (chainOperands_ne_ok ‹_›)
    · rename_i x hx
      have hl := chain_lengths hx
      exact .works _ _ _ _ rfl rfl (chain_stores hx hl.2.1 hl.1)
  | cdec k =>
    simp only [exec, execCdec] at h
    split at h <;> cases h
    · exact .fails 0 rfl (chainOperands_ne_ok ‹_›)
    · rename_i x hx
      have hl := chain_lengths hx
      exact .works _ _ _ _ rfl rfl (chain_stores hx hl.2.2.2 hl.2.2.1)
  | cmacb k =>
    simp only [exec, execCmacb] at h
    split at h <;> cases h
    · exact .fails 0 rfl (chainOperands_ne_ok ‹_›)
    · exact .works _ _ _ _ rfl rfl (cmacb_stores ‹_›)
  | cmsubk k =>
    simp only [exec, execCmsubk] at h
    split at h <;> cases h
    · exact .fails 0 rfl (by decide)
    · exact .derives ‹_›
  | cmac k =>
    simp only [exec, execCmac] at h
    split at h <;> cases h
    · exact .fails 0 rfl (cmacOperands_ne_ok ‹_›)
    · exact .works _ _ _ _ rfl rfl (cmac_stores ‹_› (cmac_length ‹_›))
  | authStart =>
    simp only [exec, execAuthStart] at h
    split at h <;> cases h
    · exact Effect.aborts (i := .authStart) (code := .noKey) rfl (by decide)
    · exact .starts (by rwa [logout_ltk] at *)
  | authChal =>
    simp only [exec, execAuthChal] at h
    split at h <;> cases h
    · exact .aborts rfl (chalOperands_ne_ok ‹_›)
    · exact .answers ‹_›
  | authFinish =>
    simp only [exec, execAuthFinish] at h
    split at h <;> cases h
    · exact .aborts rfl (finishOperands_ne_ok ‹_›)
    · exact .finishes ‹_›
  | logout => cases h; exact .logsOut

end Sys2Proof.Machine

/-! SUPPORT. What every completion leaves alone: the operand registers and the host, and the bytes outside its ranges. -/

namespace Sys2Proof.Machine

theorem aesEncRounds_length_le {ks : List (List Byte)} {x : List Byte} (hx : x.length ≤ 16) :
    (aesEncRounds ks x).length ≤ 16 := by
  induction ks generalizing x with
  | nil => exact hx
  | cons k ks ih =>
    cases ks with
    | nil => simp [aesEncRounds]
    | cons k' ks => exact ih (by simp)

/-- No key makes an encrypted block longer than 16 bytes. -/
theorem encBlock_length_le (c : Family) (k : List Byte) {x : List Byte} (hx : x.length ≤ 16) :
    (encBlock c k x).length ≤ 16 := by
  cases c
  case aes128 => exact aesEncRounds_length_le (by simp; omega)
  all_goals simp [encBlock]

theorem dbl_length_le (b : Nat) (x : List Byte) : (dbl b x).length ≤ x.length := by
  unfold dbl
  split <;> simp [shiftLeft1_length]

/-- The subkeys of any key fit their windows. -/
theorem subkeys_length_le (c : Family) (k : List Byte) :
    (subkeys c k).nopad.length ≤ 16 ∧ (subkeys c k).pad.length ≤ 16 := by
  have h : (cryptogram c k).length ≤ 16 := encBlock_length_le c k (by simpa using bs_le c)
  have h1 := (dbl_length_le (bs c) (cryptogram c k)).trans h
  exact ⟨h1, (dbl_length_le (bs c) _).trans h1⟩

theorem slice_length (b : List Byte) (i j : Nat) : (slice b i j).length = min (j - i) (b.length - i) := by simp [slice]

/-- The session key of any challenges fits its window. -/
theorem deriveSessionKey_length_le (c : Family) (degen : Bool) (a b : List Byte) :
    (deriveSessionKey c degen a b).length ≤ 24 := by
  cases c with
  | tdes2 =>
    cases degen <;>
      simp only [deriveSessionKey, List.length_append, slice_length, if_true, if_false, Bool.false_eq_true] <;> omega
  | des | tdes3 | aes128 => simp only [deriveSessionKey, List.length_append, slice_length]; omega

/-- What an abort of a handshake in progress stores: a logout's bytes, or nothing. -/
theorem abortHandshake_stores (s : State) :
    Stores [.sessKey, .iv, .subkPad, .subkNopad]
      (if s.authState = .awaitingChallenge ∨ s.authState = .responseSent then logoutOutputs s else []) s.mem
      (abortHandshake s).mem := by
  unfold abortHandshake
  split
  · exact logout_stores s
  · exact .none

/-- A keychain that an abort leaves was there before. -/
theorem keychainOf_abortHandshake {s : State} {k : KeySel} (h : keychainOf (abortHandshake s) k = true) :
    keychainOf s k = true := by
  obtain ⟨c, hc, hk⟩ := (keychainOf_iff _ _).1 h
  refine (keychainOf_iff _ _).2 ⟨c, ?_, hk⟩
  unfold abortHandshake at hc
  split at hc
  · have hl : (logout s).keychain = some c := hc
    rw [logout_keychain] at hl
    split at hl
    · cases hl
    · exact hl
  · exact hc

/-- What KLOAD stores before it writes the long-term slot. -/
theorem kload_stores (s : State) (c : Option Family) (n : BitVec 4) (v : Byte) {b : List Byte} (hb : b.length = 24) {u : State}
    (hu : u.mem = (invalidateSlot (abortHandshake s) .ltk).mem) :
    Stores (writtenWindows (.kload c n v)) (kloadOutputs s) s.mem (u.setWindow .ltkKey 0 b).mem := by
  have h1 := (abortHandshake_stores s).mono (vs := writtenWindows (.kload c n v)) (qs := kloadOutputs s)
    (List.subset_cons_self _ _) fun r hr => List.mem_cons_of_mem _ (List.mem_append_right _ hr)
  have h2 : Stores (writtenWindows (.kload c n v)) (kloadOutputs s) (abortHandshake s).mem
      (invalidateSlot (abortHandshake s) .ltk).mem := by
    refine (invalidateSlot_stores _ .ltk).mono (by simp [writtenWindows]) fun r hr => ?_
    have hs : r ∈ slotOutputs s .ltk := by
      unfold slotOutputs at hr ⊢
      split at hr
      · rwa [if_pos (keychainOf_abortHandshake ‹_›)]
      · cases hr
    exact List.mem_cons_of_mem _ (List.mem_append_left _ hs)
  exact .setWhole (hu ▸ h1.trans h2) (.head _) (.head _) hb

/-- What AUTH.FINISH stores where it succeeds (rule R278): the session's key, a zero IV, and the subkeys of a family that uses a
keychain. -/
theorem installSession_stores (s : State) {l : LongTermKey} (hl : s.ltk = some l) :
    Stores [.sessKey, .iv, .subkPad, .subkNopad] (finishOutputs s) s.mem (installSession s l).mem := by
  have hr : finishOutputs s = logoutOutputs s ++
      if usesKeychain l.ciph then [Window.subkPad.whole, Window.subkNopad.whole] else [] := by simp only [finishOutputs, hl]
  have hk : (padTo 24 (sessionKey s l)).length = 24 := padTo_length (deriveSessionKey_length_le ..)
  have h1 : Stores [.sessKey, .iv, .subkPad, .subkNopad] (finishOutputs s) s.mem
      (({ s with session := some { ciph := l.ciph, keyno := l.keyno, degen := l.degen } }.setWindow .sessKey 0
        (padTo 24 (sessionKey s l))).setWindow .iv 0 (zeros 16)).mem :=
    .setWhole (.setWhole (s := { s with session := some _ }) .none (by simp) (by simp [hr, logoutOutputs]) hk)
      (by simp) (by simp [hr, logoutOutputs]) (zeros_length 16)
  refine h1.trans ?_
  have hs := subkeys_length_le l.ciph (sessionKey s l)
  simp only [installSession, sessionKeychain]
  split
  · refine (installKeychain_stores _ _ _ hs.1 hs.2).mono (by simp) ?_
    simp [*]
  · exact .none

/-- What AUTH.CHAL stores where it succeeds (rule R276): the answer to the card. -/
theorem answerChallenge_stores {s : State} {x : AnswerInput} (hx : chalOperands s = .ok x) :
    Stores [.acTx] [Window.acTx.range 0 (1 + 2 * challengeLen x.ltk.ciph)] s.mem
      (answerChallenge (afterDraw s (challengeLen x.ltk.ciph)) x (drawnBytes s (challengeLen x.ltk.ciph))).mem := by
  have hn := (chal_lengths hx (rnda := drawnBytes s (challengeLen x.ltk.ciph)) (by simp [drawnBytes])).1
  refine .setWindow (s := afterDraw s _) .none (k := 1 + 2 * challengeLen x.ltk.ciph) (.head _) (.head _) ?_ ?_
  · simp only [List.length_cons]; omega
  · cases x.ltk.ciph <;> decide

/-- What AUTH.START stores after its logout (rule R273): the authenticate command for the card. -/
theorem authStart_stores (s : State) (l : LongTermKey) : Stores [.acTx] [Window.acTx.range 0 2] (logout s).mem
    ((logout s).setWindow .acTx 0 [authCmd l.ciph, 0#4 ++ l.keyno]).mem :=
  .setWindow .none (.head _) (.head _) rfl (by decide)

/-- Every completion stores only where the model lists it, inside the command's windows. -/
theorem Effect.stores {i : Instr} {s t : State} (h : Effect s i t) : Stores (writtenWindows i) (mayWrite i s) s.mem t.mem := by
  cases h with
  | fails => exact .none
  | @aborts i code hi =>
    have hm : (authFail s code).mem = (logout s).mem := rfl
    rw [hm]
    cases i <;> cases hi
    · exact (logout_stores s).mono (by simp [writtenWindows]) (List.subset_append_left _ _)
    · exact (logout_stores s).mono (by simp [writtenWindows]) (List.subset_append_left _ _)
    · exact (logout_stores s).mono (by simp [writtenWindows]) (List.subset_append_left _ _)
  | works _ _ _ _ _ _ hm => exact hm
  | @derives k r hk =>
    have hs := subkeys_length_le r.fam r.key
    have hr : mayWrite (.cmsubk k) s = [Window.subkPad.whole, Window.subkNopad.whole] := by
      simp only [mayWrite, cmsubkOutputs, hk]
    rw [hr]
    exact installKeychain_stores _ _ _ hs.1 hs.2
  | empties n v => exact kload_stores s none n v (zeros_length 24) rfl
  | loads c n v => exact kload_stores s (some c) n v (padTo_length (by simpa using klen_le c)) rfl
  | @starts l hl =>
    have hr : mayWrite .authStart s = logoutOutputs s ++ [Window.acTx.range 0 2] := by simp [mayWrite, startOutputs, hl]
    rw [hr]
    exact ((logout_stores s).mono (by simp [writtenWindows]) (List.subset_append_left _ _)).trans
      ((authStart_stores s l).mono (by simp [writtenWindows]) (List.subset_append_right _ _))
  | @answers x hx =>
    have hl := (answerOperands_cases (chalOperands_cases hx).2).1
    have hr : mayWrite .authChal s = logoutOutputs s ++ [Window.acTx.range 0 (1 + 2 * challengeLen x.ltk.ciph)] := by
      simp only [mayWrite, chalOutputs, hl]
    rw [hr]
    exact (answerChallenge_stores hx).mono (by simp [writtenWindows]) (List.subset_append_right _ _)
  | finishes hx => exact installSession_stores s (answerOperands_cases (finishOperands_cases hx).2.1).1
  | logsOut => exact logout_stores s

/-- No completion writes an operand register, CTRL, CMD, CMD_OVR, a latched copy or the host. -/
theorem Effect.sameInputs {i : Instr} {s t : State} (h : Effect s i t) : SameInputs s t := by
  cases h with
  | fails need hi hc => exact (fail_failsWith s hc need).inputs
  | aborts hi hc => exact (authFail_authFailsWith s hc).inputs
  | works _ _ _ _ _ hu _ => rw [hu]; constructor <;> rfl
  | derives => constructor <;> simp
  | empties => constructor <;> simp [clearKey]
  | loads => constructor <;> simp [loadKey]
  | starts => constructor <;> simp
  | answers => constructor <;> simp [answerChallenge]
  | finishes => constructor <;> simp only [installSession, sessionKeychain] <;> split <;> simp
  | logsOut => constructor <;> simp

/-- Every completion clears BUSY and sets DONE. -/
theorem Effect.completes {i : Instr} {s t : State} (h : Effect s i t) : t.busy = false ∧ t.done = true := by
  cases h <;> exact ⟨rfl, rfl⟩

end Sys2Proof.Machine

/-! SUPPORT. The three slots, each with the windows that hold its bytes: what leaves a slot as it was, and what every completion
leaves in them. -/

namespace Sys2Proof.Machine

/-- The long-term slot and its key bytes are as before (rule R44). -/
structure SameLtk (s t : State) : Prop where
  slot : t.ltk = s.ltk
  key : t.window .ltkKey 0 24 = s.window .ltkKey 0 24

/-- The session slot and its key bytes are as before (rule R45). -/
structure SameSession (s t : State) : Prop where
  slot : t.session = s.session
  key : t.window .sessKey 0 24 = s.window .sessKey 0 24

/-- The keychain and its subkeys are as before (rule R46). -/
structure SameKeychain (s t : State) : Prop where
  slot : t.keychain = s.keychain
  pad : t.window .subkPad 0 16 = s.window .subkPad 0 16
  nopad : t.window .subkNopad 0 16 = s.window .subkNopad 0 16

theorem SameLtk.of_stores {ws : List Window} {rs : List Range} {s t : State} (h : Stores ws rs s.mem t.mem)
    (hw : Window.ltkKey ∉ ws) (hl : t.ltk = s.ltk) : SameLtk s t := ⟨hl, h.window_other hw⟩

theorem SameSession.of_stores {ws : List Window} {rs : List Range} {s t : State} (h : Stores ws rs s.mem t.mem)
    (hw : Window.sessKey ∉ ws) (hl : t.session = s.session) : SameSession s t := ⟨hl, h.window_other hw⟩

theorem SameKeychain.of_stores {ws : List Window} {rs : List Range} {s t : State} (h : Stores ws rs s.mem t.mem)
    (hp : Window.subkPad ∉ ws) (hn : Window.subkNopad ∉ ws) (hl : t.keychain = s.keychain) : SameKeychain s t :=
  ⟨hl, h.window_other hp, h.window_other hn⟩

/-- The commands that may end, advance or install a session (rules R202 and R272 to R279). -/
def handshakeCommand : Instr → Bool
  | .kload _ _ _ | .authStart | .authChal | .authFinish | .logout => true
  | .nop | .fencAck | .fencNack | .fencErr | .fencInfo | .fident | .fdec => false
  | .cenc _ | .cdec _ | .cmacb _ | .cmsubk _ | .cmac _ => false

theorem handshakeCommand_iff (i : Instr) : handshakeCommand i = true ↔
    i = .authStart ∨ i = .authChal ∨ i = .authFinish ∨ i = .logout ∨ ∃ c k v, i = .kload c k v := by
  cases i <;> simp [handshakeCommand]

theorem handshakeCommand_of_failsByLogout {i : Instr} (h : failsByLogout i = true) : handshakeCommand i = true := by
  cases i <;> simp_all [failsByLogout, handshakeCommand]

theorem handshakeCommand_of_worksOnBuffers {i : Instr} (h : worksOnBuffers i = true) :
    handshakeCommand i = false ∧ ∀ k, i ≠ .cmsubk k := by
  refine ⟨by cases i <;> simp_all [worksOnBuffers, handshakeCommand], ?_⟩
  rintro k rfl
  cases h

/-- Only KLOAD writes the long-term slot (rule R44). -/
theorem Effect.sameLtk {i : Instr} {s t : State} (h : Effect s i t) (hi : ∀ c k v, i ≠ .kload c k v) : SameLtk s t := by
  refine .of_stores h.stores (by cases i <;> simp_all [writtenWindows]) ?_
  cases h with
  | works _ _ _ _ _ hu => rw [hu]; rfl
  | empties => exact absurd rfl (hi _ _ _)
  | loads => exact absurd rfl (hi _ _ _)
  | finishes => simp only [installSession, sessionKeychain]; split <;> simp
  | fails | derives => rfl
  | aborts | starts | logsOut => simp [authFail]
  | answers => simp [answerChallenge]

/-- Only the handshake's commands and KLOAD write the session, the handshake's state and its hidden record (rules R45, R47 and
R49). -/
theorem Effect.sameHandshake {i : Instr} {s t : State} (h : Effect s i t) (hi : handshakeCommand i = false) :
    SameSession s t ∧ t.hidden = s.hidden ∧ t.authState = s.authState := by
  have hs : t.session = s.session ∧ t.hidden = s.hidden ∧ t.authState = s.authState := by
    cases h with
    | fails => exact ⟨rfl, rfl, rfl⟩
    | aborts hf => rw [handshakeCommand_of_failsByLogout hf] at hi; cases hi
    | works _ _ _ _ _ hu => rw [hu]; exact ⟨rfl, rfl, rfl⟩
    | derives => exact ⟨rfl, rfl, rfl⟩
    | empties | loads | starts | answers | finishes | logsOut => cases hi
  refine ⟨.of_stores h.stores ?_ hs.1, hs.2⟩
  cases i <;> simp_all [writtenWindows, handshakeCommand]

/-- Only those commands and CMSUBK write the keychain (rule R46). -/
theorem Effect.sameKeychain {i : Instr} {s t : State} (h : Effect s i t) (hi : handshakeCommand i = false)
    (hk : ∀ k, i ≠ .cmsubk k) : SameKeychain s t := by
  refine .of_stores h.stores ?_ ?_ ?_
  · cases i <;> simp_all [writtenWindows, handshakeCommand]
  · cases i <;> simp_all [writtenWindows, handshakeCommand]
  · cases h with
    | fails => rfl
    | aborts hf => rw [handshakeCommand_of_failsByLogout hf] at hi; cases hi
    | works _ _ _ _ _ hu => rw [hu]; rfl
    | derives => exact absurd rfl (hk _)
    | empties | loads | starts | answers | finishes | logsOut => cases hi

/-- A keychain that slots lose: it is gone with its subkeys, or it was derived from no such slot and is as before. -/
theorem KeychainDropped.cases {p : KeySel → Bool} {s t : State} (h : KeychainDropped p s t) :
    (t.keychain = none ∧ t.window .subkPad 0 16 = zeros 16 ∧ t.window .subkNopad 0 16 = zeros 16) ∨
      (SameKeychain s t ∧ ∀ c, s.keychain = some c → p c.slot = false) := by
  by_cases hk : ∀ c, s.keychain = some c → p c.slot = false
  · obtain ⟨h1, h2, h3⟩ := h.kept hk
    exact .inr ⟨⟨h1, h2, h3⟩, hk⟩
  · push Not at hk
    obtain ⟨c, hc, hp⟩ := hk
    exact .inl (h.dropped c hc (by simpa using hp))

/-- A window filled with a byte string padded by zeros: the bytes beyond the string read as zero. -/
theorem State.window_tail {s : State} {w : Window} {k n : Nat} {b : List Byte} (h : s.window w 0 k = padTo k b)
    (hb : b.length = n) (hn : n ≤ k) : s.window w 0 n = b ∧ s.window w n (k - n) = zeros (k - n) := by
  have hsplit : s.window w 0 n ++ s.window w n (k - n) = b ++ zeros (k - n) := by
    have ha := readBytes_add s.mem (w.base + 0) n (k - n)
    rw [Nat.add_sub_cancel' hn] at ha
    have hp : padTo k b = b ++ zeros (k - n) := by rw [padTo, hb]
    rw [← hp, ← h]
    exact ha.symm
  exact List.append_inj hsplit (by simp [hb])

end Sys2Proof.Machine

/-! SUPPORT. The invariants of rule R54 over a completion, in two parts: what they say of the slots and their windows, and what
they say of the handshake after a command has completed. -/

namespace Sys2Proof.Machine

/-- What `Inductive` says of the slots: an empty one has zero bytes, and a keychain's slot is held (rules R54 (a) to (c), R247). -/
structure Slots (s : State) : Prop where
  session : s.session = none → s.window .sessKey 0 24 = zeros 24
  ltk : s.ltk = none → s.window .ltkKey 0 24 = zeros 24
  keychain : s.keychain = none → s.window .subkPad 0 16 = zeros 16 ∧ s.window .subkNopad 0 16 = zeros 16
  slotLtk : ∀ c, s.keychain = some c → c.slot = .ltk → ∃ l, s.ltk = some l ∧ c.bs = BitVec.ofNat 5 (bs l.ciph)
  slotSess : ∀ c, s.keychain = some c → c.slot = .sess → ∃ l, s.session = some l ∧ c.bs = BitVec.ofNat 5 (bs l.ciph)

theorem Inductive.slots {s : State} (h : Inductive s) : Slots s where
  session := h.session
  ltk := h.ltk
  keychain := h.keychain
  slotLtk := h.slotLtk
  slotSess := h.slotSess

theorem Slots.of_same {s t : State} (h : Slots s) (hl : SameLtk s t) (hs : SameSession s t) (hk : SameKeychain s t) :
    Slots t where
  session := fun e => hs.key.trans (h.session (hs.slot ▸ e))
  ltk := fun e => hl.key.trans (h.ltk (hl.slot ▸ e))
  keychain := fun e => by
    rw [hk.pad, hk.nopad]
    exact h.keychain (hk.slot ▸ e)
  slotLtk := fun c hc hslot => hl.slot ▸ h.slotLtk c (hk.slot ▸ hc) hslot
  slotSess := fun c hc hslot => hs.slot ▸ h.slotSess c (hk.slot ▸ hc) hslot

/-- The slots after a logout (rule R272). -/
theorem Slots.of_loggedOut {s t : State} (h : Slots s) (ho : LoggedOut s t) (hl : SameLtk s t) : Slots t where
  session := fun _ => ho.ended.sessKey
  ltk := fun e => hl.key.trans (h.ltk (hl.slot ▸ e))
  keychain := fun e => by
    rcases ho.keychain.cases with ⟨_, hz⟩ | ⟨hk, _⟩
    · exact hz
    · rw [hk.pad, hk.nopad]
      exact h.keychain (hk.slot ▸ e)
  slotLtk := fun c hc hslot => by
    rcases ho.keychain.cases with ⟨hn, _⟩ | ⟨hk, _⟩
    · rw [hn] at hc; cases hc
    · exact hl.slot ▸ h.slotLtk c (hk.slot ▸ hc) hslot
  slotSess := fun c hc hslot => by
    rcases ho.keychain.cases with ⟨hn, _⟩ | ⟨hk, hp⟩
    · rw [hn] at hc; cases hc
    · have hp' := hp c (hk.slot ▸ hc)
      rw [hslot] at hp'
      cases hp'

/-- The slots after a keychain was stored (rules R243 and R278), from a key that its slot holds. -/
theorem Slots.of_installKeychain {s t : State} {k : KeySel} {c : Family} (h : Slots s) (hl : SameLtk s t) (hs : SameSession s t)
    (hk : t.keychain = some { slot := k, bs := BitVec.ofNat 5 (bs c) }) (hc : ∃ key, keyOf s k = some { fam := c, key := key }) :
    Slots t where
  session := fun e => hs.key.trans (h.session (hs.slot ▸ e))
  ltk := fun e => hl.key.trans (h.ltk (hl.slot ▸ e))
  keychain := fun e => by rw [hk] at e; cases e
  slotLtk := fun d hd hslot => by
    cases hk.symm.trans hd
    cases hslot
    obtain ⟨key, hkey⟩ := hc
    obtain ⟨l, hl', e⟩ := Option.map_eq_some_iff.1 ((keyOf_ltk s).symm.trans hkey)
    cases e
    exact ⟨l, hl.slot.trans hl', rfl⟩
  slotSess := fun d hd hslot => by
    cases hk.symm.trans hd
    cases hslot
    obtain ⟨key, hkey⟩ := hc
    obtain ⟨l, hl', e⟩ := Option.map_eq_some_iff.1 ((keyOf_sess s).symm.trans hkey)
    cases e
    exact ⟨l, hs.slot.trans hl', rfl⟩

theorem logout_sameLtk (s : State) : SameLtk s (logout s) := .of_stores (logout_stores s) (by decide) (logout_ltk s)

/-- An abort of a handshake in progress logs out, or changes nothing (rule R202). -/
theorem abortHandshake_cases (s : State) :
    (s.authState = .awaitingChallenge ∨ s.authState = .responseSent) ∧ abortHandshake s = handshakeAbort s ∨
      ¬ (s.authState = .awaitingChallenge ∨ s.authState = .responseSent) ∧ abortHandshake s = s := by
  unfold abortHandshake
  split
  · exact .inl ⟨‹_›, rfl⟩
  · exact .inr ⟨‹_›, rfl⟩

theorem handshakeAbort_loggedOut (s : State) : LoggedOut s (handshakeAbort s) :=
  (logout_loggedOut s).of_same rfl rfl rfl rfl rfl

theorem handshakeAbort_sameLtk (s : State) : SameLtk s (handshakeAbort s) :=
  ⟨(logout_sameLtk s).slot, (logout_sameLtk s).key⟩

theorem Slots.of_abortHandshake {s : State} (h : Slots s) : Slots (abortHandshake s) := by
  rcases abortHandshake_cases s with ⟨_, e⟩ | ⟨_, e⟩
  · rw [e]
    exact h.of_loggedOut (handshakeAbort_loggedOut s) (handshakeAbort_sameLtk s)
  · rwa [e]

/-- The slots after KLOAD (rule R202): a keychain of the long-term slot is gone before the slot is written. -/
theorem Slots.of_kload {s t : State} {b : List Byte} (h : Slots s)
    (hs : t.session = (invalidateSlot (abortHandshake s) .ltk).session)
    (hk : t.keychain = (invalidateSlot (abortHandshake s) .ltk).keychain)
    (hm : t.mem = ((invalidateSlot (abortHandshake s) .ltk).setWindow .ltkKey 0 b).mem) (hb : b.length = 24)
    (hz : t.ltk = none → b = zeros 24) : Slots t := by
  have ha := h.of_abortHandshake
  have hi := invalidateSlot_stores (abortHandshake s) .ltk
  have hd := invalidateSlot_dropped (abortHandshake s) .ltk
  have hw : ∀ {w : Window}, w ≠ .ltkKey → t.window w 0 w.size = (invalidateSlot (abortHandshake s) .ltk).window w 0 w.size :=
    fun hne => (State.window_congr _ _ _ hm).trans
      (State.window_setWindow_other _ (Ne.symm hne) (by simp [hb, Window.size]) (by simp))
  have hkey : t.window .ltkKey 0 24 = b := (State.window_congr _ _ _ hm).trans (State.window_setWindow_same _ _ _ hb)
  have hsess : SameSession (abortHandshake s) t :=
    ⟨hs.trans (invalidateSlot_session _ _), (hw (by decide)).trans (hi.window_other (by decide))⟩
  constructor
  · exact fun e => hsess.key.trans (ha.session (hsess.slot ▸ e))
  · exact fun e => hkey.trans (hz e)
  · intro e
    rw [show t.window .subkPad 0 16 = _ from hw (w := .subkPad) (by decide),
      show t.window .subkNopad 0 16 = _ from hw (w := .subkNopad) (by decide)]
    rcases hd.cases with ⟨_, hz⟩ | ⟨hsame, _⟩
    · exact hz
    · have hkc := ha.keychain (hsame.slot ▸ hk ▸ e)
      exact ⟨hsame.pad.trans hkc.1, hsame.nopad.trans hkc.2⟩
  · intro c hc hslot
    rcases hd.cases with ⟨hn, _⟩ | ⟨hsame, hp⟩
    · rw [hk, hn] at hc; cases hc
    · have hp' := hp c (hsame.slot ▸ hk ▸ hc)
      rw [hslot] at hp'
      cases hp'
  · intro c hc hslot
    rcases hd.cases with ⟨hn, _⟩ | ⟨hsame, _⟩
    · rw [hk, hn] at hc; cases hc
    · exact hsess.slot ▸ ha.slotSess c (hsame.slot ▸ hk ▸ hc) hslot

/-- The slots after AUTH.FINISH installs a session where none was (rule R278). -/
theorem Slots.of_installSession {s t : State} {l : LongTermKey} (h : Slots s) (hn : s.session = none)
    (hl : SameLtk s t) (hs : t.session = some { ciph := l.ciph, keyno := l.keyno, degen := l.degen })
    (hk : SameKeychain s t ∨ t.keychain = some { slot := .sess, bs := BitVec.ofNat 5 (bs l.ciph) }) : Slots t where
  session := fun e => by rw [hs] at e; cases e
  ltk := fun e => hl.key.trans (h.ltk (hl.slot ▸ e))
  keychain := fun e => by
    rcases hk with hk | hk
    · rw [hk.pad, hk.nopad]
      exact h.keychain (hk.slot ▸ e)
    · rw [hk] at e; cases e
  slotLtk := fun c hc hslot => by
    rcases hk with hk | hk
    · exact hl.slot ▸ h.slotLtk c (hk.slot ▸ hc) hslot
    · cases hk.symm.trans hc; cases hslot
  slotSess := fun c hc hslot => by
    rcases hk with hk | hk
    · obtain ⟨l', hl', _⟩ := h.slotSess c (hk.slot ▸ hc) hslot
      rw [hn] at hl'; cases hl'
    · cases hk.symm.trans hc
      exact ⟨_, hs, rfl⟩

end Sys2Proof.Machine

/-! The session that AUTH.FINISH installs -/

namespace Sys2Proof.Machine

/-- A fresh session keychain leaves the session slot alone. -/
theorem sessionKeychain_sameSession (s : State) (c : Family) (sk : List Byte) : SameSession s (sessionKeychain s c sk) := by
  have hs := subkeys_length_le c sk
  unfold sessionKeychain
  split
  · exact .of_stores (installKeychain_stores s .sess (bs c) hs.1 hs.2) (by decide) rfl
  · exact ⟨rfl, rfl⟩

/-- The keychain of the session: a fresh one for the families that use one, else the one that was there (rule R278). -/
theorem sessionKeychain_keychain (s : State) (c : Family) (sk : List Byte) :
    SameKeychain s (sessionKeychain s c sk) ∨
      ((sessionKeychain s c sk).keychain = some { slot := .sess, bs := BitVec.ofNat 5 (bs c) } ∧
        (sessionKeychain s c sk).window .subkPad 0 16 = padTo 16 (subkeys c sk).pad ∧
        (sessionKeychain s c sk).window .subkNopad 0 16 = padTo 16 (subkeys c sk).nopad) := by
  have hs := subkeys_length_le c sk
  unfold sessionKeychain
  split
  · have hw := installKeychain_windows s .sess (bs c) hs.1 hs.2
    exact .inr ⟨rfl, hw.2, hw.1⟩
  · exact .inl ⟨rfl, rfl, rfl⟩

/-- What AUTH.FINISH leaves in the session slot and in SESS_KEY (rule R278). -/
theorem installSession_session (s : State) (l : LongTermKey) :
    (installSession s l).session = some { ciph := l.ciph, keyno := l.keyno, degen := l.degen } ∧
      (installSession s l).window .sessKey 0 24 = padTo 24 (sessionKey s l) := by
  have hk : (padTo 24 (sessionKey s l)).length = 24 := padTo_length (deriveSessionKey_length_le ..)
  have hsame := sessionKeychain_sameSession (({ s with session := some { ciph := l.ciph, keyno := l.keyno, degen := l.degen }
    }.setWindow .sessKey 0 (padTo 24 (sessionKey s l))).setWindow .iv 0 (zeros 16)) l.ciph (sessionKey s l)
  refine ⟨hsame.slot, hsame.key.trans ?_⟩
  rw [State.window_setWindow_other _ (by decide) (by decide) (by decide), State.window_setWindow_same _ _ _ hk]

/-- What AUTH.FINISH leaves in the keychain (rule R278). -/
theorem installSession_keychain (s : State) (l : LongTermKey) :
    SameKeychain s (installSession s l) ∨
      ((installSession s l).keychain = some { slot := .sess, bs := BitVec.ofNat 5 (bs l.ciph) } ∧
        (installSession s l).window .subkPad 0 16 = padTo 16 (subkeys l.ciph (sessionKey s l)).pad ∧
        (installSession s l).window .subkNopad 0 16 = padTo 16 (subkeys l.ciph (sessionKey s l)).nopad) := by
  have hk : (padTo 24 (sessionKey s l)).length = 24 := padTo_length (deriveSessionKey_length_le ..)
  have hcases := sessionKeychain_keychain (({ s with session := some { ciph := l.ciph, keyno := l.keyno, degen := l.degen }
    }.setWindow .sessKey 0 (padTo 24 (sessionKey s l))).setWindow .iv 0 (zeros 16)) l.ciph (sessionKey s l)
  refine hcases.imp (fun h => ⟨h.slot, h.pad.trans ?_, h.nopad.trans ?_⟩) id <;>
    rw [State.window_setWindow_other _ (by decide) (by decide) (by decide),
      State.window_setWindow_other _ (by decide) (by rw [hk]; decide) (by decide)] <;>
    rfl

end Sys2Proof.Machine

/-! The invariants over a completion -/

namespace Sys2Proof.Machine

/-- Every completion keeps what the invariants say of the slots. -/
theorem Effect.slots {i : Instr} {s t : State} (h : Effect s i t) (hs : Slots s)
    (hv : s.authState = .verifying → s.session = none) : Slots t := by
  have he := h
  cases h with
  | fails need hi hc => exact hs.of_same ⟨rfl, rfl⟩ ⟨rfl, rfl⟩ ⟨rfl, rfl, rfl⟩
  | works _ _ _ _ hi hu hm =>
    have hn := handshakeCommand_of_worksOnBuffers hi
    refine hs.of_same (he.sameLtk ?_) (he.sameHandshake hn.1).1 (he.sameKeychain hn.1 hn.2)
    rintro c k v rfl
    cases hn.1
  | aborts hi hc =>
    refine hs.of_loggedOut (authFail_authFailsWith s hc).loggedOut (he.sameLtk ?_)
    rintro c k v rfl
    cases hi
  | derives hk => exact hs.of_installKeychain (he.sameLtk nofun) (he.sameHandshake rfl).1 rfl ⟨_, hk⟩
  | empties n v => exact hs.of_kload rfl rfl rfl (zeros_length 24) fun _ => rfl
  | loads c n v =>
    exact hs.of_kload rfl rfl rfl (padTo_length (by simpa using klen_le c)) fun e => by cases e
  | @starts l hl =>
    have hlog := hs.of_loggedOut (logout_loggedOut s) (logout_sameLtk s)
    have hm := authStart_stores s l
    exact hlog.of_same (.of_stores hm (by decide) rfl) (.of_stores hm (by decide) rfl)
      (.of_stores hm (by decide) (by decide) rfl)
  | answers hx =>
    have hm := answerChallenge_stores hx
    exact hs.of_same (he.sameLtk nofun) (.of_stores hm (by decide) rfl) (.of_stores hm (by decide) (by decide) rfl)
  | @finishes x hx =>
    refine hs.of_installSession (hv (finishOperands_cases hx).1) (he.sameLtk nofun) (installSession_session s x.ltk).1 ?_
    exact (installSession_keychain s x.ltk).imp (fun h => ⟨h.slot, h.pad, h.nopad⟩) fun h => h.1
  | logsOut => exact hs.of_loggedOut ((logout_loggedOut s).of_same rfl rfl rfl rfl rfl) (he.sameLtk nofun)

/-- What the invariants say of the handshake while no command runs (rules R54 (d) to (f), R49, R276). -/
structure Settled (s : State) : Prop where
  starting : s.authState ≠ .challengeSent
  verifying : s.authState ≠ .verifying
  hidden : holdsChallenge s.authState = false → s.hidden = Handshake.clear
  authenticated : s.authState = .authenticated ↔ s.session.isSome
  held : needsKey s.authState = true → s.ltk.isSome
  challenge : s.authState = .responseSent → ∀ l, s.ltk = some l → s.hidden.n = challengeLen l.ciph

/-- With no command running, the invariants are those of the slots and of the handshake. -/
theorem Inductive.of_idle {s : State} (hb : s.busy = false) (hc : s.cmd = s.latch.cmd) (hs : Slots s) (ha : Settled s) :
    Inductive s where
  session := hs.session
  ltk := hs.ltk
  keychain := hs.keychain
  slotLtk := hs.slotLtk
  slotSess := hs.slotSess
  hidden := ha.hidden
  authenticated := fun _ => ha.authenticated
  starting := fun e => absurd e ha.starting
  executing := fun e => by rw [hb] at e; cases e
  verifying := fun e => absurd e ha.verifying
  held := ha.held
  challenge := fun e => ha.challenge (e.resolve_right ha.verifying)
  running := fun e => by rw [hb] at e; cases e
  issued := hc

theorem Inductive.settled {s : State} (h : Inductive s) (h1 : s.authState ≠ .challengeSent) (h4 : s.authState ≠ .verifying) :
    Settled s where
  starting := h1
  verifying := h4
  hidden := h.hidden
  authenticated := h.authenticated h1
  held := h.held
  challenge := fun e => h.challenge (.inl e)

theorem Settled.of_same {s t : State} (h : Settled s) (ha : t.authState = s.authState) (hh : t.hidden = s.hidden)
    (hs : t.session = s.session) (hl : t.ltk = s.ltk) : Settled t := by
  constructor
  · rw [ha]; exact h.starting
  · rw [ha]; exact h.verifying
  · rw [ha, hh]; exact h.hidden
  · rw [ha, hs]; exact h.authenticated
  · rw [ha, hl]; exact h.held
  · rw [ha, hl, hh]; exact h.challenge

/-- A logged-out handshake: it has ended, or it waits for the card's challenge with the key it needs (rules R272 and R273). -/
theorem Settled.of_loggedOut {t : State} (hh : t.hidden = Handshake.clear) (hs : t.session = none)
    (ha : t.authState = .idle ∨ t.authState = .failed ∨ t.authState = .awaitingChallenge ∧ t.ltk.isSome) : Settled t := by
  have hc : ∀ a, t.authState = a → a = .idle ∨ a = .failed ∨ a = .awaitingChallenge := by
    rintro a rfl
    exact ha.imp_right (Or.imp_right And.left)
  constructor
  · exact fun e => by simpa using hc _ e
  · exact fun e => by simpa using hc _ e
  · exact fun _ => hh
  · rw [hs]
    exact ⟨fun e => by simpa using hc _ e, fun e => by cases e⟩
  · intro e
    rcases ha with ha | ha | ⟨_, hl⟩
    · rw [ha] at e; cases e
    · rw [ha] at e; cases e
    · exact hl
  · exact fun e => by simpa using hc _ e

/-- A state in which the completion of a command is next: the transient handshake states are those of AUTH.START and AUTH.FINISH
(rule R271). -/
theorem Inductive.not_transient {s : State} (h : Inductive s) {r : Except DecodeError Instr} (hd : decode s.latch.cmd = r)
    (h1 : r ≠ .ok .authStart) (h4 : r ≠ .ok .authFinish) : s.authState ≠ .challengeSent ∧ s.authState ≠ .verifying :=
  ⟨fun e => h1 (hd.symm.trans (h.starting e).2), fun e => h4 (hd.symm.trans (h.verifying e).2)⟩

/-- No session is installed while an answer is verified or a challenge awaited (rule R54 (e)). -/
theorem Inductive.no_session {s : State} (h : Inductive s) (h1 : s.authState ≠ .challengeSent)
    (h5 : s.authState ≠ .authenticated) : s.session = none := by
  simpa [h5] using (h.authenticated h1)

/-- The handshake after KLOAD (rules R202 and R275): one in progress is aborted, and one that is over needs no key. -/
theorem Settled.of_kload {s t : State} (h : Inductive s) (hn : s.authState ≠ .challengeSent ∧ s.authState ≠ .verifying)
    (ha : t.authState = (invalidateSlot (abortHandshake s) .ltk).authState)
    (hh : t.hidden = (invalidateSlot (abortHandshake s) .ltk).hidden)
    (hs : t.session = (invalidateSlot (abortHandshake s) .ltk).session) : Settled t := by
  rw [invalidateSlot_authState] at ha
  rw [invalidateSlot_hidden] at hh
  rw [invalidateSlot_session] at hs
  rcases abortHandshake_cases s with ⟨_, e⟩ | ⟨hp, e⟩ <;> rw [e] at ha hh hs
  · exact .of_loggedOut (hh.trans (handshakeAbort_hidden s)) (hs.trans (handshakeAbort_session s))
      (.inr (.inl (ha.trans (handshakeAbort_authState s))))
  · have hset := h.settled hn.1 hn.2
    have hover : needsKey t.authState = false ∧ t.authState ≠ .responseSent := by
      rw [ha]
      cases hst : s.authState <;> simp_all [needsKey]
    constructor
    · rw [ha]; exact hset.starting
    · rw [ha]; exact hset.verifying
    · rw [ha, hh]; exact hset.hidden
    · rw [ha, hs]; exact hset.authenticated
    · exact fun e => by rw [hover.1] at e; cases e
    · exact fun e => absurd e hover.2

/-- Every completion of the running command leaves the handshake settled. -/
theorem Effect.settled {i : Instr} {s t : State} (h : Effect s i t) (hs : Inductive s) (hd : decode s.latch.cmd = .ok i) :
    Settled t := by
  have same : handshakeCommand i = false → Settled t := fun hi => by
    have hne : ∀ j, handshakeCommand j = true → (Except.ok i : Except DecodeError Instr) ≠ .ok j := by
      rintro j hj e
      cases e
      rw [hi] at hj; cases hj
    obtain ⟨h1, h4⟩ := hs.not_transient hd (hne .authStart rfl) (hne .authFinish rfl)
    obtain ⟨hsess, hh, ha⟩ := h.sameHandshake hi
    have hl := h.sameLtk (by rintro c k v rfl; cases hi)
    exact (hs.settled h1 h4).of_same ha hh hsess.slot hl.slot
  cases h with
  | @fails i _ _ hi =>
    by_cases hk : handshakeCommand i = false
    · exact same hk
    · obtain ⟨h1, h4⟩ := hs.not_transient hd (by rintro ⟨⟩; cases hi) (by rintro ⟨⟩; cases hi)
      exact (hs.settled h1 h4).of_same rfl rfl rfl rfl
  | works _ _ _ _ hi => exact same (handshakeCommand_of_worksOnBuffers hi).1
  | derives => exact same rfl
  | aborts hi hc =>
    have ho := (authFail_authFailsWith s hc).loggedOut
    exact .of_loggedOut ho.ended.hidden ho.ended.session (.inr (.inl rfl))
  | empties n v =>
    exact .of_kload hs (hs.not_transient hd nofun nofun) rfl rfl rfl
  | loads c n v =>
    exact .of_kload hs (hs.not_transient hd nofun nofun) rfl rfl rfl
  | @starts l hl =>
    refine .of_loggedOut (logout_hidden s) (logout_session s) (.inr (.inr ⟨rfl, ?_⟩))
    rw [((Effect.starts hl).sameLtk nofun).slot, hl]; rfl
  | @answers x hx =>
    obtain ⟨hst, ha⟩ := chalOperands_cases hx
    have hl := (answerOperands_cases ha).1
    have hn := hs.no_session (by rw [hst]; decide) (by rw [hst]; decide)
    refine ⟨nofun, nofun, nofun, ⟨nofun, fun e => ?_⟩, fun _ => ?_, fun _ l hl' => ?_⟩
    · have e' : s.session.isSome := e
      rw [hn] at e'; cases e'
    · rw [((Effect.answers hx).sameLtk nofun).slot, hl]; rfl
    · cases hl.symm.trans hl'
      rfl
  | @finishes x hx =>
    have hi := (installSession_session s x.ltk).1
    exact ⟨nofun, nofun, fun _ => rfl, ⟨fun _ => Option.isSome_of_eq_some hi, fun _ => rfl⟩, nofun, nofun⟩
  | logsOut => exact .of_loggedOut (logout_hidden s) (logout_session s) (.inl rfl)

end Sys2Proof.Machine

/-! SUPPORT. What a step of the host does, said once: it issues a command, resets FCSE, or leaves alone all that the invariants
speak of. -/

namespace Sys2Proof.Machine

/-- A register is reached by its own offset alone (rules R82 and R84). -/
theorem busTarget_reg {off width : Nat} {r : Reg} (h : busTarget off width = some (.reg r)) :
    width = 4 ∧ off = 4 * allRegs.idxOf r := by
  unfold busTarget at h
  split at h
  · split at h
    · rename_i hw
      obtain ⟨r', hr, e⟩ := Option.map_eq_some_iff.1 h
      cases e
      obtain ⟨hlt, e⟩ := List.getElem?_eq_some_iff.1 hr
      have hi := List.Nodup.idxOf_getElem (xs := allRegs) (by decide) (off / 4) hlt
      rw [e] at hi
      exact ⟨hw.1, by omega⟩
    · cases h
  · split at h
    · split at h
      · split at h <;> cases h
      · cases h
    · cases h

/-- An access that reaches a window lies inside it (rule R84). -/
theorem busTarget_win {off width : Nat} {w : Window} {i : Nat} (h : busTarget off width = some (.win w i)) :
    off = w.base + i ∧ i + width ≤ w.size := by
  unfold busTarget at h
  split at h
  · split at h
    · obtain ⟨r', _, e⟩ := Option.map_eq_some_iff.1 h
      cases e
    · cases h
  · split at h
    · split at h
      · rename_i w' hw'
        split at h
        · cases h
          have hin := List.find?_some hw'
          simp only [decide_eq_true_eq] at hin
          omega
        · cases h
      · cases h
    · cases h

@[simp] theorem leBytes_length (n : Nat) (v : Word) : (leBytes n v).length = n := by
  induction n generalizing v with
  | zero => rfl
  | succ n ih => simp [leBytes, ih]

/-- The windows the host may write (rule R43). -/
def hostWindows : List Window := [.key, .iv, .acRx, .data, .fin]

theorem mem_hostWindows {w : Window} (h : w.hostWritable = true) : w ∈ hostWindows := by
  revert h
  cases w <;> decide

/-- What a host step that neither issues a command nor resets FCSE leaves alone: the slots, the keychain, the handshake, the command
engine, and every window the host may not write.  DONE and ERR may be cleared. -/
structure Quiet (s t : State) : Prop where
  ltk : t.ltk = s.ltk
  session : t.session = s.session
  keychain : t.keychain = s.keychain
  authState : t.authState = s.authState
  hidden : t.hidden = s.hidden
  cmd : t.cmd = s.cmd
  latch : t.latch = s.latch
  busy : t.busy = s.busy
  errCode : t.errCode = s.errCode
  done : s.done = false → t.done = false
  err : s.err = false → t.err = false
  mem : ∃ rs, Stores hostWindows rs s.mem t.mem

/-- A step that leaves memory alone too. -/
theorem Stores.of_eq {ws : List Window} {m n : List Host.Cell} (h : n = m) : ∃ rs, Stores ws rs m n := ⟨[], h ▸ .none⟩

theorem Quiet.trans {s t u : State} (h : Quiet s t) (h' : Quiet t u) : Quiet s u where
  ltk := h'.ltk.trans h.ltk
  session := h'.session.trans h.session
  keychain := h'.keychain.trans h.keychain
  authState := h'.authState.trans h.authState
  hidden := h'.hidden.trans h.hidden
  cmd := h'.cmd.trans h.cmd
  latch := h'.latch.trans h.latch
  busy := h'.busy.trans h.busy
  errCode := h'.errCode.trans h.errCode
  done := fun e => h'.done (h.done e)
  err := fun e => h'.err (h.err e)
  mem := by
    obtain ⟨rs, hm⟩ := h.mem
    obtain ⟨qs, hm'⟩ := h'.mem
    exact ⟨rs ++ qs, (hm.mono (List.Subset.refl _) (List.subset_append_left _ _)).trans
      (hm'.mono (List.Subset.refl _) (List.subset_append_right _ _))⟩

theorem quiet_countDown (s : State) : Quiet s (countDown s) := by
  constructor <;> simp [Stores.of_eq]

theorem quiet_hostAdvance (s : State) : Quiet s (hostAdvance s) := by
  constructor <;> simp [Stores.of_eq]

theorem quiet_setHostPc (s : State) (p : Nat) : Quiet s (s.setHostPc p) := by
  constructor <;> simp [Stores.of_eq]

theorem quiet_read (s : State) (x : Nat) (v : Word) : Quiet s ((afterRead s).setHostTemp x v) := by
  constructor <;> simp [Stores.of_eq]

/-- What a permitted write does: it issues, resets, or is quiet (rules R34, R351 and R355). -/
theorem writeTarget_cases (s : State) {g : Target} {off width : Nat} (hg : busTarget off width = some g) (v : Word) :
    Quiet s (writeTarget s g width v) ∨
      (g = .reg .cmd ∧ s.busy = false ∧ writeTarget s g width v = issue s v) ∨
      (g = .reg .ctrl ∧ v.getLsbD 1 = true ∧ writeTarget s g width v = softReset s) := by
  have same : Quiet s s := by constructor <;> simp [Stores.of_eq]
  by_cases hb : s.busy = true ∧ writableWhileBusy g = false
  · unfold writeTarget
    rw [if_pos hb]
    exact .inl { same with }
  · unfold writeTarget
    rw [if_neg hb]
    cases g with
    | win w i =>
      dsimp only
      split
      · exact .inl { same with
          mem := ⟨[w.range i width],
            .setWindow .none (mem_hostWindows ‹_›) (.head _) (leBytes_length _ _) (busTarget_win hg).2⟩ }
      · exact .inl same
    | reg r =>
      cases r with
      | cmd => exact .inr (.inl ⟨rfl, by simpa [writableWhileBusy] using hb, rfl⟩)
      | ctrl =>
        by_cases hv : v.getLsbD 1 = true
        · exact .inr (.inr ⟨rfl, hv, by simp only [writeReg, writeCtrl, hv, if_true]⟩)
        · have he : writeReg s .ctrl v = { s with irqEn := v.getLsbD 0 } := by
            simp only [writeReg, writeCtrl, hv, if_false, Bool.false_eq_true]
          refine .inl (show Quiet s (writeReg s .ctrl v) from ?_)
          rw [he]
          exact { same with }
      | status => exact .inl { same with done := fun e => by simp [writeReg, e], err := fun e => by simp [writeReg, e] }
      | oplen | opoff | opaux | frhdr => exact .inl { same with }
      | id | version | ltkInfo | sessInfo | subkInfo | res0 | res1 | res2 | res3 => exact .inl same

/-- What a host step can do (rule R118). -/
inductive HostEffect (s : State) : State → Prop where
  | quiet {t : State} (h : Quiet s t) : HostEffect s t
  | issues {w : Word} (h : HostWrites s 0x00C 4 w) (hb : s.busy = false) : HostEffect s (hostAdvance (issue s w))
  | resets (h : SoftResetNow s) : HostEffect s (hostAdvance (softReset (countDown s)))

/-- Every step that is no completion has one of these effects. -/
theorem step_hostEffect {s t : State} (h : step s = .next t) (hd : completionDue s = false) : HostEffect s t := by
  rcases step_cases h with ⟨i, hc, _⟩ | ⟨e, hc, _⟩ | ⟨op, _, hop, ho⟩ | ⟨_, _, rfl⟩
  · rw [hd] at hc; cases hc
  · rw [hd] at hc; cases hc
  · rcases hostOp_cases ho with ⟨width, off, v, g, hg, hw, rfl⟩ | ⟨width, off, x, g, hg, _, rfl⟩ | ⟨taken, target, rfl⟩
    · have hwrites : HostWrites s off width v := by
        refine ⟨hd, op, hop, ?_⟩
        rcases hw with rfl | ⟨x, rfl, rfl⟩
        · rfl
        · simp [writeOf]
      rcases writeTarget_cases (countDown s) hg v with hq | ⟨rfl, hb, he⟩ | ⟨rfl, hv, he⟩
      · exact .quiet ((quiet_countDown s).trans (hq.trans (quiet_hostAdvance _)))
      · obtain ⟨rfl, rfl⟩ := busTarget_reg hg
        rw [countDown_busy] at hb
        have hs : countDown s = s := by rw [countDown, hb]; rfl
        rw [he, hs]
        exact .issues hwrites hb
      · obtain ⟨rfl, rfl⟩ := busTarget_reg hg
        rw [he]
        exact .resets ⟨v, hwrites, hv⟩
    · exact .quiet ((quiet_countDown s).trans ((quiet_read _ _ _).trans (quiet_hostAdvance _)))
    · refine .quiet ((quiet_countDown s).trans ?_)
      split
      · exact quiet_setHostPc _ _
      · exact quiet_hostAdvance _
  · exact .quiet (quiet_countDown s)

/-- What a step does: it completes a command, rejects a word that is none, or is the host's. -/
theorem step_effect {s t : State} (h : step s = .next t) :
    (∃ i, CompletesNow s i ∧ Effect s i t) ∨
      (∃ e, decode s.latch.cmd = .error e ∧ t = rejectWord s e) ∨ HostEffect s t := by
  cases hd : completionDue s with
  | false => exact .inr (.inr (step_hostEffect h hd))
  | true =>
    rcases step_cases h with ⟨i, _, hi, he⟩ | ⟨e, _, he, ht⟩ | ⟨op, hc, _⟩ | ⟨hc, _⟩
    · exact .inl ⟨i, ⟨hd, hi⟩, exec_effect he⟩
    · exact .inr (.inl ⟨e, he, ht⟩)
    · rw [hd] at hc; cases hc
    · rw [hd] at hc; cases hc

theorem Quiet.sameLtk {s t : State} (h : Quiet s t) : SameLtk s t := h.mem.elim fun _ hm => .of_stores hm (by decide) h.ltk

theorem Quiet.sameSession {s t : State} (h : Quiet s t) : SameSession s t :=
  h.mem.elim fun _ hm => .of_stores hm (by decide) h.session

theorem Quiet.sameKeychain {s t : State} (h : Quiet s t) : SameKeychain s t :=
  h.mem.elim fun _ hm => .of_stores hm (by decide) (by decide) h.keychain

end Sys2Proof.Machine

/-! The soft reset and the reset values -/

namespace Sys2Proof.Machine

/-- A range of bytes inside one window. -/
def Range.InWindow (r : Range) : Prop := ∃ (w : Window) (off n : Nat), r = w.range off n ∧ off + n ≤ w.size

theorem Window.range_inWindow {w : Window} {off n : Nat} (h : off + n ≤ w.size) : (w.range off n).InWindow :=
  ⟨w, off, n, rfl, h⟩

theorem Window.whole_inWindow (w : Window) : w.whole.InWindow := ⟨w, 0, w.size, rfl, by omega⟩

theorem slotOutputs_inWindow (s : State) (k : KeySel) : ∀ r ∈ slotOutputs s k, r.InWindow := by
  unfold slotOutputs
  split <;> simp [Window.whole_inWindow]

theorem logoutOutputs_inWindow (s : State) : ∀ r ∈ logoutOutputs s, r.InWindow := by
  intro r hr
  rcases List.mem_append.1 hr with hr | hr
  · simp only [List.mem_cons, List.not_mem_nil, or_false] at hr
    rcases hr with rfl | rfl <;> exact Window.whole_inWindow _
  · exact slotOutputs_inWindow s _ r hr

/-- Every range that a command may write lies inside one window. -/
theorem mayWrite_inWindow (i : Instr) (s : State) : ∀ r ∈ mayWrite i s, r.InWindow := by
  have iv : ∀ c, (Window.iv.range 0 (bs c)).InWindow := fun c => Window.range_inWindow (by simpa [Window.size] using bs_le c)
  cases i with
  | nop | fident => nofun
  | fencAck | fencNack | fencErr =>
    simp only [mayWrite, List.mem_singleton, forall_eq]
    exact Window.range_inWindow (by decide)
  | fencInfo =>
    simp only [mayWrite, infoOutputs]
    split
    · simp
    · rename_i p hp
      obtain ⟨h1, _, h3⟩ := infoOperands_cases hp
      have hl := infoFrame_length_le s.latch.tfi s.latch.fcmd p
      have hp' : p.length = opLen s := by simp [h3]
      simp only [List.mem_singleton, forall_eq]
      refine Window.range_inWindow ?_
      simp only [Window.size, frameBufBytes, maxPayload] at *
      omega
  | fdec =>
    simp only [mayWrite, fdecOutputs]
    split
    · simp
    · simp
    · rename_i h hh
      split
      · rename_i hk
        have hlen := parseHeader_ok hh
        simp only [hk.1, reduceCtorEq, or_self, false_or, true_and] at hlen
        simp only [List.mem_singleton, forall_eq]
        refine Window.range_inWindow ?_
        simp only [Window.size, dataBytes]
        omega
      · simp
  | kload c n v =>
    intro r hr
    rcases List.mem_cons.1 hr with rfl | hr
    · exact Window.whole_inWindow _
    rcases List.mem_append.1 hr with hr | hr
    · exact slotOutputs_inWindow s _ r hr
    · split at hr
      · exact logoutOutputs_inWindow s r hr
      · cases hr
  | cenc k | cdec k =>
    simp only [mayWrite, chainOutputs]
    split
    · simp
    · have hr := Window.range_inWindow (w := .data) (chainOperands_cases ‹_›).2.1
      simp [iv, hr]
  | cmacb k =>
    simp only [mayWrite, macbOutputs]
    split <;> simp [iv]
  | cmsubk k =>
    simp only [mayWrite, cmsubkOutputs]
    split <;> simp [Window.whole_inWindow]
  | cmac k =>
    simp only [mayWrite, cmacOutputs]
    split <;> simp [iv, Window.whole_inWindow]
  | authStart =>
    intro r hr
    rcases List.mem_append.1 hr with hr | hr
    · exact logoutOutputs_inWindow s r hr
    · split at hr <;> simp at hr
      subst hr
      exact Window.range_inWindow (by decide)
  | authChal =>
    intro r hr
    rcases List.mem_append.1 hr with hr | hr
    · exact logoutOutputs_inWindow s r hr
    · split at hr <;> simp at hr
      subst hr
      exact Window.range_inWindow (by cases LongTermKey.ciph _ <;> decide)
  | authFinish =>
    intro r hr
    rcases List.mem_append.1 hr with hr | hr
    · exact logoutOutputs_inWindow s r hr
    · split at hr <;> [split at hr; skip] <;> simp at hr
      rcases hr with rfl | rfl <;> exact Window.whole_inWindow _
  | logout => exact logoutOutputs_inWindow s

theorem runningOutputs_inWindow (s : State) : ∀ r ∈ runningOutputs s, r.InWindow := by
  unfold runningOutputs
  split
  · split
    · exact mayWrite_inWindow _ s
    · nofun
  · nofun

/-- Making bytes unspecified keeps the form of memory. -/
theorem scramble_memoryForm (s : State) {rs : List Range} (hr : ∀ r ∈ rs, r.InWindow) {u : State} (h : MemoryForm u) :
    MemoryForm { u with mem := scramble s rs u.mem } := by
  induction rs generalizing u with
  | nil => exact h
  | cons r rs ih =>
    have ih' := @ih fun q hq => hr q (List.mem_cons_of_mem _ hq)
    simp only [scramble]
    split
    · obtain ⟨w, off, n, rfl, hn⟩ := hr r (List.mem_cons_self ..)
      have hl : (freeBytes s (w.base + off) n).length = n := by simp [freeBytes]
      exact ih' (u := { u with mem := writeBytes u.mem (w.base + off) (freeBytes s (w.base + off) n) })
        (h.of_write (w := w) (off := off) (by rw [hl]; exact hn) rfl)
    · exact ih' h

/-- Making bytes unspecified leaves every byte before DATA alone (rule R362). -/
theorem readByte_scramble_low (s : State) (rs : List Range) (m : List Host.Cell) {a : Nat} (ha : a < Window.base .data) :
    readByte (scramble s rs m) a = readByte m a := by
  induction rs generalizing m with
  | nil => rfl
  | cons r rs ih =>
    simp only [scramble]
    split
    · rw [ih, readByte_writeBytes, if_neg (by omega)]
    · exact ih m

/-- The windows before DATA read as zero where their bytes do. -/
theorem window_zeros {s : State} (h : ∀ a < Window.base .data, readByte s.mem a = 0) {w : Window}
    (hw : w.base < Window.base .data) : s.window w 0 w.size = zeros w.size := by
  have hend : w.base + w.size ≤ Window.base .data := by
    revert hw
    cases w <;> decide
  refine bytes_ext (by simp) fun i hi => ?_
  have hi' : i < w.size := by simpa using hi
  rw [State.window, readBytes_getD _ _ _ _ hi', h _ (by omega), List.getD_eq_getElem?_getD]
  simp [zeros, hi']

/-- A soft reset leaves the reset values (rule R351). -/
theorem softReset_resetValues (s : State) : ResetValues (softReset s) where
  fields := rfl
  windows := fun _ hw => window_zeros (fun a ha => by
    have hf := readByte_filter (fun i => decide (Window.base .data ≤ i)) s.mem a
    have hn : decide (Window.base .data ≤ a) = false := by simpa using ha
    rw [hn] at hf
    exact (readByte_scramble_low _ _ _ ha).trans hf) hw

theorem softReset_memoryForm {s : State} (h : MemoryForm s) : MemoryForm (softReset s) := by
  have hkept : MemoryForm { s with mem := s.mem.filter keepsOverReset } :=
    ⟨filter_wf h.form _, fun c hc => h.mapped c (List.mem_filter.1 hc).1⟩
  have hscr := scramble_memoryForm s (runningOutputs_inWindow s) hkept
  exact ⟨hscr.form, hscr.mapped⟩

/-- A power-on leaves the reset values (rule R350). -/
theorem PowerOn.resetValues {s : State} (h : PowerOn s) : ResetValues s where
  fields := h.fcse
  windows := fun _ hw => window_zeros (fun a ha => readByte_eq_zero fun c hc e => by
    have := (h.buffers c hc).1
    omega) hw

theorem ResetValues.of_hostAdvance {s : State} (h : ResetValues s) : ResetValues (hostAdvance s) where
  fields := by rw [h.fields]; rfl
  windows := h.windows

end Sys2Proof.Machine

/-! The invariants over every step (rule R54): statements EveryStepKeepsTheInvariants and ReachableStatesMeetTheInvariants -/

namespace Sys2Proof.Machine

/-- The completion of the running command keeps the invariants. -/
theorem Effect.inductive {i : Instr} {s t : State} (h : Effect s i t) (hs : Inductive s) (hd : decode s.latch.cmd = .ok i) :
    Inductive t := by
  have hin := h.sameInputs
  refine .of_idle h.completes.1 (by rw [hin.cmd, hin.latch, hs.issued]) (h.slots hs.slots fun e => ?_) (h.settled hs hd)
  exact hs.no_session (by rw [e]; decide) (by rw [e]; decide)

/-- The completion of a word that is no command keeps the invariants (rule R113). -/
theorem Inductive.of_rejectWord {s : State} (h : Inductive s) {e : DecodeError} (hd : decode s.latch.cmd = .error e) :
    Inductive (rejectWord s e) := by
  obtain ⟨h1, h4⟩ := h.not_transient hd nofun nofun
  exact .of_idle rfl h.issued (h.slots.of_same ⟨rfl, rfl⟩ ⟨rfl, rfl⟩ ⟨rfl, rfl, rfl⟩) ((h.settled h1 h4).of_same rfl rfl rfl rfl)

/-- A quiet step of the host keeps the invariants. -/
theorem Inductive.of_quiet {s t : State} (h : Inductive s) (hq : Quiet s t) : Inductive t := by
  have hslots := h.slots.of_same hq.sameLtk hq.sameSession hq.sameKeychain
  constructor
  · exact hslots.session
  · exact hslots.ltk
  · exact hslots.keychain
  · rw [hq.authState, hq.hidden]; exact h.hidden
  · rw [hq.authState, hq.session]; exact h.authenticated
  · rw [hq.authState, hq.busy, hq.latch]; exact h.starting
  · rw [hq.authState, hq.busy, hq.latch]; exact h.executing
  · rw [hq.authState, hq.busy, hq.latch]; exact h.verifying
  · rw [hq.authState, hq.ltk]; exact h.held
  · rw [hq.authState, hq.ltk, hq.hidden]; exact h.challenge
  · exact hslots.slotLtk
  · exact hslots.slotSess
  · intro hb
    obtain ⟨hd, he, hc⟩ := h.running (hq.busy ▸ hb)
    exact ⟨hq.done hd, hq.err he, hq.errCode.trans hc⟩
  · rw [hq.cmd, hq.latch]; exact h.issued

/-- AUTH_STATE at the issue of a word (rules R88 and R271): the two transient states, or as before. -/
theorem issueAuthState_cases (w : Word) (a : AuthState) :
    (decode w = .ok .authStart ∧ issueAuthState w a = .challengeSent) ∨
      (decode w = .ok .authFinish ∧ a = .responseSent ∧ issueAuthState w a = .verifying) ∨
      (decode w ≠ .ok .authStart ∧ issueAuthState w a = a) := by
  unfold issueAuthState
  split
  · exact .inl ⟨‹_›, rfl⟩
  · rename_i hd
    split
    · exact .inr (.inl ⟨hd, ‹_›, rfl⟩)
    · exact .inr (.inr ⟨by rw [hd]; nofun, rfl⟩)
  · rename_i hn _
    exact .inr (.inr ⟨hn, rfl⟩)

/-- The transient states are shown while a command runs only (rule R54 (f)). -/
theorem Inductive.idle_not_transient {s : State} (h : Inductive s) (hb : s.busy = false) :
    s.authState ≠ .challengeSent ∧ s.authState ≠ .verifying :=
  ⟨fun e => Bool.false_ne_true (hb.symm.trans (h.starting e).1),
    fun e => Bool.false_ne_true (hb.symm.trans (h.verifying e).1)⟩

/-- An issue keeps the invariants: AUTH.START shows state 1, and AUTH.FINISH shows state 4 where it was awaited (rule R271). -/
theorem Inductive.of_issue {s : State} (h : Inductive s) (hb : s.busy = false) (w : Word) : Inductive (issue s w) := by
  obtain ⟨h1, h4⟩ := h.idle_not_transient hb
  have ha : (issue s w).authState = issueAuthState w s.authState := rfl
  have hslots : Slots (issue s w) := h.slots.of_same ⟨rfl, rfl⟩ ⟨rfl, rfl⟩ ⟨rfl, rfl, rfl⟩
  refine
    { hslots with
      hidden := ?_, authenticated := ?_, starting := ?_, executing := ?_, verifying := ?_, held := ?_, challenge := ?_
      running := fun _ => ⟨rfl, rfl, rfl⟩
      issued := rfl } <;>
    rw [ha] <;>
    -- Field by field, the three cases of AUTH_STATE in their order: AUTH.START, AUTH.FINISH, any other word.
    rcases issueAuthState_cases w s.authState with ⟨hw, e⟩ | ⟨hw, hr, e⟩ | ⟨hw, e⟩ <;> rw [e]
  · nofun
  · nofun
  · exact h.hidden
  · exact fun hne => absurd rfl hne
  · rw [show (issue s w).session = none from h.no_session h1 (by rw [hr]; decide)]
    exact fun _ => ⟨nofun, nofun⟩
  · exact h.authenticated
  · exact fun _ => ⟨rfl, hw⟩
  · nofun
  · exact fun e => absurd e h1
  · exact fun _ _ => rfl
  · exact fun _ hd => by cases hw.symm.trans hd
  · exact fun _ hd => absurd hd hw
  · nofun
  · exact fun _ => ⟨rfl, hw⟩
  · exact fun e => absurd e h4
  · nofun
  · exact fun _ => h.held (by rw [hr]; rfl)
  · exact h.held
  · nofun
  · exact fun _ => h.challenge (.inl hr)
  · exact h.challenge

/-- The reset values meet the invariants (rules R350 and R351). -/
theorem ResetValues.inductive {t : State} (h : ResetValues t) : Inductive t := by
  have hbusy : t.busy = false := congrArg State.busy h.fields
  have hauth : t.authState = .idle := congrArg State.authState h.fields
  have hltk : t.ltk = none := congrArg State.ltk h.fields
  have hsess : t.session = none := congrArg State.session h.fields
  have hkey : t.keychain = none := congrArg State.keychain h.fields
  have hcmd : t.cmd = 0 := congrArg State.cmd h.fields
  have hlatch : t.latch = Latch.clear := congrArg State.latch h.fields
  refine .of_idle hbusy (by rw [hcmd, hlatch]; rfl) ⟨?_, ?_, ?_, ?_, ?_⟩
    (.of_loggedOut (congrArg State.hidden h.fields) hsess (.inl hauth))
  · exact fun _ => h.windows .sessKey (by decide)
  · exact fun _ => h.windows .ltkKey (by decide)
  · exact fun _ => ⟨h.windows .subkPad (by decide), h.windows .subkNopad (by decide)⟩
  · exact fun c hc => by rw [hkey] at hc; cases hc
  · exact fun c hc => by rw [hkey] at hc; cases hc

/-- Settles O53: a completion keeps the slots and leaves the handshake settled; a step of the host issues, resets or is quiet. -/
theorem everyStepKeepsTheInvariants : Obligations.EveryStepKeepsTheInvariants := by
  intro s t hs h
  rcases step_effect h with ⟨i, hi, he⟩ | ⟨e, he, rfl⟩ | hh
  · exact he.inductive hs hi.2
  · exact hs.of_rejectWord he
  · cases hh with
    | quiet hq => exact hs.of_quiet hq
    | issues _ hb => exact (hs.of_issue hb _).of_quiet (quiet_hostAdvance _)
    | resets => exact (softReset_resetValues _).of_hostAdvance.inductive

/-- The invariants of rule R54 as it states them follow from what every step keeps. -/
theorem Inductive.stateInvariant {s : State} (h : Inductive s) : StateInvariant s where
  session := fun e => ⟨by rw [sessInfoValue, e], by rw [sessDegen, e], h.session e⟩
  ltk := fun e => ⟨by rw [ltkInfoValue, e], by rw [ltkDegen, e], h.ltk e⟩
  keychain := fun e => ⟨by rw [subkSlot, e], by rw [subkInfoValue, e], h.keychain e⟩
  hidden := fun e => by rw [h.hidden (by rcases e with e | e | e <;> rw [e] <;> rfl)]; rfl
  authenticated := fun hb => h.authenticated (h.idle_not_transient hb).1
  executing := h.executing
  transient := h.idle_not_transient

/-- What every step keeps holds of every reachable state. -/
theorem Reachable.inductive {s : State} (h : Reachable s) : Inductive s := by
  induction h with
  | powerOn s hp => exact hp.resetValues.inductive
  | step s t _ hs ih => exact everyStepKeepsTheInvariants s t ih hs

/-- Settles O56: the power-on states meet the inductive invariant and every step keeps it. -/
theorem reachableStatesMeetTheInvariants : Obligations.ReachableStatesMeetTheInvariants :=
  fun _ h => h.inductive.stateInvariant

end Sys2Proof.Machine

/-! The form of memory over every step: statement EveryStepKeepsTheMemoryForm -/

namespace Sys2Proof.Machine

theorem MemoryForm.of_same {s t : State} (h : MemoryForm s) (hm : t.mem = s.mem) : MemoryForm t :=
  ⟨hm ▸ h.form, hm ▸ h.mapped⟩

/-- Settles O55: every step stores inside windows only, and a soft reset drops cells and stores inside windows. -/
theorem everyStepKeepsTheMemoryForm : Obligations.EveryStepKeepsTheMemoryForm := by
  intro s t hs h
  rcases step_effect h with ⟨i, _, he⟩ | ⟨e, _, rfl⟩ | hh
  · exact he.stores.memoryForm hs
  · exact hs.of_same rfl
  · cases hh with
    | quiet hq => exact hq.mem.elim fun _ hm => hm.memoryForm hs
    | issues => exact hs.of_same rfl
    | resets => exact (softReset_memoryForm (hs.of_same (countDown_mem s))).of_same rfl

end Sys2Proof.Machine

/-! The forms of the keys over every step: statement EveryStepKeepsTheKeyForms -/

namespace Sys2Proof.Machine

/-! One field of `KeyForm` for each slot, so that a step is spoken of slot by slot. -/

/-- The form of the long-term slot (rules R44 and R203). -/
def LtkForm (s : State) : Prop :=
  ∀ l, s.ltk = some l → l.keyno.toNat ≤ 13 ∧ l.degen = degenerate l.ciph (ltkKeyBytes s l.ciph) ∧
    s.window .ltkKey (klen l.ciph) (24 - klen l.ciph) = zeros (24 - klen l.ciph)

/-- The form of the session slot (rule R45). -/
def SessionForm (s : State) : Prop :=
  ∀ l, s.session = some l →
    l.keyno.toNat ≤ 13 ∧ s.window .sessKey (klen l.ciph) (24 - klen l.ciph) = zeros (24 - klen l.ciph)

/-- The form of the keychain (rule R46). -/
def KeychainForm (s : State) : Prop :=
  ∀ c, s.keychain = some c → (c.bs = 8 ∨ c.bs = 16) ∧
    s.window .subkPad c.bs.toNat (16 - c.bs.toNat) = zeros (16 - c.bs.toNat) ∧
    s.window .subkNopad c.bs.toNat (16 - c.bs.toNat) = zeros (16 - c.bs.toNat)

/-- The form of the hidden record (rule R49). -/
def HiddenForm (s : State) : Prop :=
  s.hidden.rnda.length = 16 ∧ s.hidden.rndb.length = 16 ∧ s.hidden.civ.length = 16

theorem keyForm_iff (s : State) : KeyForm s ↔ LtkForm s ∧ SessionForm s ∧ KeychainForm s ∧ HiddenForm s :=
  ⟨fun h => ⟨h.ltk, h.session, h.keychain, h.hidden⟩, fun ⟨h1, h2, h3, h4⟩ => ⟨h1, h2, h3, h4⟩⟩

theorem LtkForm.of_same {s t : State} (h : LtkForm s) (hs : SameLtk s t) : LtkForm t := fun l hl => by
  obtain ⟨h1, h2, h3⟩ := h l (hs.slot ▸ hl)
  have hk := klen_le l.ciph
  refine ⟨h1, ?_, ?_⟩
  · rw [ltkKeyBytes, State.window_part hs.key (by omega)]
    exact h2
  · rw [State.window_part hs.key (by omega)]
    exact h3

theorem SessionForm.of_same {s t : State} (h : SessionForm s) (hs : SameSession s t) : SessionForm t := fun l hl => by
  obtain ⟨h1, h2⟩ := h l (hs.slot ▸ hl)
  have hk := klen_le l.ciph
  exact ⟨h1, by rw [State.window_part hs.key (by omega)]; exact h2⟩

theorem SessionForm.of_none {t : State} (h : t.session = none) : SessionForm t := fun l hl => by rw [h] at hl; cases hl

theorem KeychainForm.of_none {t : State} (h : t.keychain = none) : KeychainForm t := fun c hc => by rw [h] at hc; cases hc

theorem KeychainForm.of_same {s t : State} (h : KeychainForm s) (hs : SameKeychain s t) : KeychainForm t := fun c hc => by
  obtain ⟨h1, h2, h3⟩ := h c (hs.slot ▸ hc)
  have hle : c.bs.toNat + (16 - c.bs.toNat) ≤ 16 := by rcases h1 with e | e <;> rw [e] <;> decide
  refine ⟨h1, ?_, ?_⟩
  · rw [State.window_part hs.pad hle]
    exact h2
  · rw [State.window_part hs.nopad hle]
    exact h3

theorem KeychainForm.of_dropped {s t : State} {p : KeySel → Bool} (h : KeychainForm s) (hd : KeychainDropped p s t) :
    KeychainForm t := by
  rcases hd.cases with ⟨hn, _⟩ | ⟨hk, _⟩
  · exact .of_none hn
  · exact h.of_same hk

/-- Subkeys of a key of the family's length fill their windows up with zeros (rules R243 and R278). -/
theorem KeychainForm.of_subkeys {t : State} {k : KeySel} {c : Family} {key : List Byte} (hkey : key.length = klen c)
    (hc : t.keychain = some { slot := k, bs := BitVec.ofNat 5 (bs c) })
    (hp : t.window .subkPad 0 16 = padTo 16 (subkeys c key).pad) (hn : t.window .subkNopad 0 16 = padTo 16 (subkeys c key).nopad) :
    KeychainForm t := fun d hd => by
  cases hc.symm.trans hd
  have hbs : (BitVec.ofNat 5 (bs c)).toNat = bs c := by cases c <;> rfl
  obtain ⟨ln, lp⟩ := subkeys_length hkey
  have h816 : BitVec.ofNat 5 (bs c) = 8 ∨ BitVec.ofNat 5 (bs c) = 16 := by cases c <;> decide
  refine ⟨h816, ?_, ?_⟩ <;> dsimp only <;> rw [hbs]
  · exact (State.window_tail hp lp (bs_le c)).2
  · exact (State.window_tail hn ln (bs_le c)).2

theorem HiddenForm.of_same {s t : State} (h : HiddenForm s) (ht : t.hidden = s.hidden) : HiddenForm t := by
  rw [HiddenForm, ht]
  exact h

theorem HiddenForm.of_clear {t : State} (ht : t.hidden = Handshake.clear) : HiddenForm t := by
  rw [HiddenForm, ht]
  exact ⟨rfl, rfl, rfl⟩

/-- The forms after a logout (rule R272). -/
theorem KeyForm.of_loggedOut {s t : State} (h : KeyForm s) (ho : LoggedOut s t) (hl : SameLtk s t) : KeyForm t := by
  obtain ⟨h1, _, h3, _⟩ := (keyForm_iff s).1 h
  exact (keyForm_iff t).2 ⟨h1.of_same hl, .of_none ho.ended.session, h3.of_dropped ho.keychain, .of_clear ho.ended.hidden⟩

theorem KeyForm.of_same {s t : State} (h : KeyForm s) (hl : SameLtk s t) (hs : SameSession s t) (hk : SameKeychain s t)
    (hh : t.hidden = s.hidden) : KeyForm t := by
  obtain ⟨h1, h2, h3, h4⟩ := (keyForm_iff s).1 h
  exact (keyForm_iff t).2 ⟨h1.of_same hl, h2.of_same hs, h3.of_same hk, h4.of_same hh⟩

theorem KeyForm.of_quiet {s t : State} (h : KeyForm s) (hq : Quiet s t) : KeyForm t :=
  h.of_same hq.sameLtk hq.sameSession hq.sameKeychain hq.hidden

theorem decodeF0_ok {w : Word} {i j : Instr} (h : decodeF0 w i = .ok j) : j = i := by
  unfold decodeF0 at h
  split at h <;> [cases h; skip]
  split at h <;> cases h
  rfl

theorem decodeFS_ok {w : Word} {f : KeySel → Instr} {j : Instr} (h : decodeFS w f = .ok j) : ∃ k, j = f k := by
  unfold decodeFS at h
  split at h <;> [cases h; skip]
  split at h <;> cases h
  exact ⟨_, rfl⟩

theorem decodeFK_ok {w : Word} {f : Option Family → BitVec 4 → Byte → Instr} {j : Instr} (h : decodeFK w f = .ok j) :
    ∃ c k v, j = f c k v ∧ k.toNat ≤ 13 := by
  unfold decodeFK at h
  split at h <;> [cases h; skip]
  split at h <;> [cases h; skip]
  split at h <;> [cases h; skip]
  split at h <;> cases h
  exact ⟨_, _, _, rfl, by omega⟩

/-- A decoded command is well formed: KLOAD's key number is legal (rule R113). -/
theorem decode_wellFormed {w : Word} {i : Instr} (h : decode w = .ok i) : WellFormed i = true := by
  unfold decode at h
  split at h
  case h_8 =>
    obtain ⟨c, k, v, rfl, hk⟩ := decodeFK_ok h
    simpa [WellFormed] using hk
  case h_9 | h_10 | h_11 | h_12 | h_13 =>
    obtain ⟨k, rfl⟩ := decodeFS_ok h
    rfl
  case h_18 => cases h
  all_goals
    rw [decodeF0_ok h]
    rfl

/-- The session key of challenges of the family's length has the family's key length (rule R210). -/
theorem deriveSessionKey_length {c : Family} {a b : List Byte} (degen : Bool) (ha : a.length = challengeLen c)
    (hb : b.length = challengeLen c) : (deriveSessionKey c degen a b).length = klen c := by
  cases c with
  | tdes2 => cases degen <;> simp [deriveSessionKey, slice_length, ha, hb, challengeLen, klen]
  | des | tdes3 | aes128 => simp [deriveSessionKey, slice_length, ha, hb, challengeLen, klen]

/-- The long-term slot after KLOAD of a key (rules R44, R202 and R203). -/
theorem loadKey_form (s : State) (c : Family) {keyno : BitVec 4} (version : Byte) (h : keyno.toNat ≤ 13) :
    LtkForm (loadKey s c keyno version) := fun l hl => by
  cases hl
  have hk := klen_le c
  have hlen : (s.window .key 0 (klen c)).length = klen c := by simp
  have hw := State.window_tail (s := loadKey s c keyno version)
    (State.window_setWindow_same _ _ _ (padTo_length (hlen.trans_le hk))) hlen hk
  exact ⟨h, by rw [ltkKeyBytes, hw.1], hw.2⟩

/-- The session that AUTH.FINISH installs, from a record of the right form (rules R45 and R278). -/
theorem sessionKey_length {s : State} {l : LongTermKey} (hh : HiddenForm s) (hn : s.hidden.n = challengeLen l.ciph) :
    (sessionKey s l).length = klen l.ciph := by
  have h16 : challengeLen l.ciph ≤ 16 := by cases l.ciph <;> decide
  exact deriveSessionKey_length _ (by simp [hn, hh.1, h16]) (by simp [hn, hh.2.1, h16])

/-- KLOAD leaves the session, the keychain and the hidden record in form (rule R202). -/
theorem KeyForm.of_kload {s t : State} (h : KeyForm s) {b : List Byte} (hl : LtkForm t)
    (hs : t.session = (invalidateSlot (abortHandshake s) .ltk).session)
    (hk : t.keychain = (invalidateSlot (abortHandshake s) .ltk).keychain)
    (hh : t.hidden = (invalidateSlot (abortHandshake s) .ltk).hidden)
    (hm : t.mem = ((invalidateSlot (abortHandshake s) .ltk).setWindow .ltkKey 0 b).mem) (hb : b.length = 24) : KeyForm t := by
  have ha : KeyForm (abortHandshake s) := by
    rcases abortHandshake_cases s with ⟨_, e⟩ | ⟨_, e⟩ <;> rw [e]
    · exact h.of_loggedOut (handshakeAbort_loggedOut s) (handshakeAbort_sameLtk s)
    · exact h
  obtain ⟨_, h2, h3, h4⟩ := (keyForm_iff _).1 ha
  have hst : Stores [.ltkKey] [Window.ltkKey.whole] (invalidateSlot (abortHandshake s) .ltk).mem t.mem := by
    rw [hm]
    exact .setWhole .none (.head _) (.head _) hb
  have hi := invalidateSlot_stores (abortHandshake s) .ltk
  have hsess : SameSession (abortHandshake s) (invalidateSlot (abortHandshake s) .ltk) :=
    .of_stores hi (by decide) (invalidateSlot_session _ _)
  refine (keyForm_iff t).2 ⟨hl, (h2.of_same hsess).of_same (.of_stores hst (by decide) hs), ?_, ?_⟩
  · exact (h3.of_dropped (invalidateSlot_dropped _ _)).of_same (.of_stores hst (by decide) (by decide) hk)
  · exact h4.of_same (hh.trans (invalidateSlot_hidden _ _))

/-- Every completion of the running command keeps the forms. -/
theorem Effect.keyForm {i : Instr} {s t : State} (h : Effect s i t) (hs : Inductive s) (hf : KeyForm s)
    (hd : decode s.latch.cmd = .ok i) : KeyForm t := by
  have he := h
  obtain ⟨h1, h2, h3, h4⟩ := (keyForm_iff s).1 hf
  cases h with
  | fails => exact hf.of_same ⟨rfl, rfl⟩ ⟨rfl, rfl⟩ ⟨rfl, rfl, rfl⟩ rfl
  | works _ _ _ _ hi =>
    have hn := handshakeCommand_of_worksOnBuffers hi
    refine hf.of_same (he.sameLtk ?_) (he.sameHandshake hn.1).1 (he.sameKeychain hn.1 hn.2) (he.sameHandshake hn.1).2.1
    rintro c k v rfl
    cases hn.1
  | aborts hi hc =>
    refine hf.of_loggedOut (authFail_authFailsWith s hc).loggedOut (he.sameLtk ?_)
    rintro c k v rfl
    cases hi
  | @derives k r hk =>
    have hw := installKeychain_windows s k (bs r.fam) (subkeys_length_le r.fam r.key).1 (subkeys_length_le r.fam r.key).2
    exact (keyForm_iff _).2 ⟨h1.of_same (he.sameLtk nofun), h2.of_same (he.sameHandshake rfl).1,
      .of_subkeys (keyOf_length hk) rfl hw.2 hw.1, h4.of_same rfl⟩
  | empties => exact hf.of_kload nofun rfl rfl rfl rfl (zeros_length 24)
  | loads c n v =>
    have hn : n.toNat ≤ 13 := by simpa [WellFormed] using decode_wellFormed hd
    exact hf.of_kload (loadKey_form _ c v hn) rfl rfl rfl rfl (padTo_length (by simpa using klen_le c))
  | @starts l hl =>
    have hm := authStart_stores s l
    exact (hf.of_loggedOut (logout_loggedOut s) (logout_sameLtk s)).of_same (.of_stores hm (by decide) rfl)
      (.of_stores hm (by decide) rfl) (.of_stores hm (by decide) (by decide) rfl) rfl
  | @answers x hx =>
    have hm := answerChallenge_stores hx
    obtain ⟨_, hr, hb⟩ := chal_lengths hx (rnda := drawnBytes s (challengeLen x.ltk.ciph)) (by simp [drawnBytes])
    have h16 : challengeLen x.ltk.ciph ≤ 16 := by cases x.ltk.ciph <;> decide
    refine (keyForm_iff _).2 ⟨h1.of_same (he.sameLtk nofun), h2.of_same (.of_stores hm (by decide) rfl),
      h3.of_same (.of_stores hm (by decide) (by decide) rfl), padTo_length ?_, padTo_length ?_, padTo_length ?_⟩
    · simpa [drawnBytes] using h16
    · exact hb.trans_le h16
    · exact hr.trans_le (bs_le _)
  | @finishes x hx =>
    obtain ⟨hst, ha, _⟩ := finishOperands_cases hx
    have hl := (answerOperands_cases ha).1
    have hlen := sessionKey_length h4 (hs.challenge (.inr hst) _ hl)
    obtain ⟨hss, hsk⟩ := installSession_session s x.ltk
    refine (keyForm_iff _).2 ⟨h1.of_same (he.sameLtk nofun), fun d hd => ?_, ?_, .of_clear rfl⟩
    · cases hss.symm.trans hd
      exact ⟨(h1 _ hl).1, (State.window_tail hsk hlen (klen_le _)).2⟩
    · rcases installSession_keychain s x.ltk with hk | ⟨hk, hp, hn⟩
      · exact h3.of_same ⟨hk.slot, hk.pad, hk.nopad⟩
      · exact .of_subkeys hlen hk hp hn
  | logsOut => exact hf.of_loggedOut ((logout_loggedOut s).of_same rfl rfl rfl rfl rfl) (he.sameLtk nofun)

/-- The reset values have the forms. -/
theorem ResetValues.keyForm {t : State} (h : ResetValues t) : KeyForm t := by
  have hltk : t.ltk = none := congrArg State.ltk h.fields
  refine (keyForm_iff t).2 ⟨fun l hl => ?_, .of_none (congrArg State.session h.fields),
    .of_none (congrArg State.keychain h.fields), .of_clear (congrArg State.hidden h.fields)⟩
  rw [hltk] at hl
  cases hl

/-- Settles O54: slot by slot, a step leaves the slot's form as it was or stores a padded key. -/
theorem everyStepKeepsTheKeyForms : Obligations.EveryStepKeepsTheKeyForms := by
  intro s t hs hf h
  rcases step_effect h with ⟨i, hi, he⟩ | ⟨e, _, rfl⟩ | hh
  · exact he.keyForm hs hf hi.2
  · exact hf.of_same ⟨rfl, rfl⟩ ⟨rfl, rfl⟩ ⟨rfl, rfl, rfl⟩ rfl
  · cases hh with
    | quiet hq => exact hf.of_quiet hq
    | issues => exact hf.of_same ⟨rfl, rfl⟩ ⟨rfl, rfl⟩ ⟨rfl, rfl, rfl⟩ rfl
    | resets => exact (softReset_resetValues _).of_hostAdvance.keyForm

end Sys2Proof.Machine

/-! Who writes what: statements CommandsKeepInputsAndUnlistedBytes and OnlyTheirCommandsWriteTheSlots -/

namespace Sys2Proof.Machine

/-- A logout writes the keychain where it lists SUBK_INFO only (rules R46 and R272). -/
theorem logout_keychain_unlisted {s : State} (h : Reg.subkInfo ∉ logoutRegs s) : (logout s).keychain = s.keychain := by
  have hk : ¬ keychainOf s .sess = true := fun hk => h (by simp [logoutRegs, slotRegs, hk])
  rw [logout_keychain, if_neg hk]

/-- A command writes the long-term slot where it lists LTK_INFO only (rule R39). -/
theorem Effect.ltk_unlisted {i : Instr} {s t : State} (h : Effect s i t) (hr : Reg.ltkInfo ∉ mayWriteInfo i s) :
    t.ltk = s.ltk := by
  refine (h.sameLtk ?_).slot
  rintro c k v rfl
  exact hr (.head _)

/-- A command writes the session slot where it lists SESS_INFO only (rule R40). -/
theorem Effect.session_unlisted {i : Instr} {s t : State} (h : Effect s i t) (hr : Reg.sessInfo ∉ mayWriteInfo i s) :
    t.session = s.session := by
  by_cases hi : handshakeCommand i = true
  · rcases (handshakeCommand_iff i).1 hi with rfl | rfl | rfl | rfl | ⟨c, k, v, rfl⟩
    · exact absurd (.head _) hr
    · exact absurd (.head _) hr
    · exact absurd (List.mem_append_left _ (.head _)) hr
    · exact absurd (.head _) hr
    · have hp : ¬ (s.authState = .awaitingChallenge ∨ s.authState = .responseSent) := fun hp =>
        hr (by simp [mayWriteInfo, kloadRegs, logoutRegs, hp])
      have hsess : (invalidateSlot (abortHandshake s) .ltk).session = s.session := by
        rw [invalidateSlot_session, abortHandshake, if_neg hp]
      cases h with
      | fails => rfl
      | aborts hf => cases hf
      | works _ _ _ _ hw => cases hw
      | empties => exact hsess
      | loads => exact hsess
  · exact (h.sameHandshake (by simpa using hi)).1.slot

/-- KLOAD writes the keychain where it lists SUBK_INFO only (rules R46 and R202). -/
theorem kload_keychain_unlisted {s : State} (hr : Reg.subkInfo ∉ kloadRegs s) :
    (invalidateSlot (abortHandshake s) .ltk).keychain = s.keychain := by
  simp only [kloadRegs, List.mem_cons, List.mem_append, not_or] at hr
  obtain ⟨_, hltk, hlog⟩ := hr
  have hk : ¬ keychainOf (abortHandshake s) .ltk = true := fun hk => hltk (by simp [slotRegs, keychainOf_abortHandshake hk])
  rw [invalidateSlot_keychain, if_neg hk]
  rcases abortHandshake_cases s with ⟨hp, e⟩ | ⟨_, e⟩ <;> rw [e]
  rw [if_pos hp] at hlog
  exact logout_keychain_unlisted hlog

/-- A command writes the keychain where it lists SUBK_INFO only (rule R41). -/
theorem Effect.keychain_unlisted {i : Instr} {s t : State} (h : Effect s i t) (hr : Reg.subkInfo ∉ mayWriteInfo i s) :
    t.keychain = s.keychain := by
  cases h with
  | fails => rfl
  | works _ _ _ _ _ hu => rw [hu]; rfl
  | @aborts i _ hi =>
    refine logout_keychain_unlisted (s := s) fun hm => hr ?_
    cases i <;> cases hi
    · exact hm
    · exact hm
    · exact List.mem_append_left _ hm
  | derives hk => exact absurd (by simp [mayWriteInfo, cmsubkRegs, hk]) hr
  | empties => exact kload_keychain_unlisted (s := s) hr
  | loads => exact kload_keychain_unlisted (s := s) hr
  | starts => exact logout_keychain_unlisted (s := s) hr
  | answers => rfl
  | @finishes x hx =>
    have hl := (answerOperands_cases (finishOperands_cases hx).2.1).1
    have hu : ¬ usesKeychain x.ltk.ciph = true := fun hu => hr (by simp [mayWriteInfo, finishRegs, hl, hu])
    simp only [installSession, sessionKeychain, hu, if_false, Bool.false_eq_true]
    rfl
  | logsOut => exact logout_keychain_unlisted (s := s) hr

/-- Settles O9: each command's effect keeps the inputs, stores inside its ranges, and writes a slot only where it lists its
register. -/
theorem commandsKeepInputsAndUnlistedBytes : Obligations.CommandsKeepInputsAndUnlistedBytes := by
  intro i s t h
  have he := exec_effect h
  have hin := he.sameInputs
  refine ⟨hin, fun a ha => he.stores.readByte_outside ha, fun r hr hm => ?_⟩
  cases r with
  | id | version => rfl
  | ctrl => simp [regValue, ctrlValue, hin.irqEn]
  | cmd => exact hin.cmd
  | oplen => simp [regValue, hin.oplen]
  | opoff => simp [regValue, hin.opoff]
  | opaux => simp [regValue, hin.opaux]
  | frhdr => simp [regValue, hin.frhdr]
  | ltkInfo => simp [regValue, ltkInfoValue, he.ltk_unlisted hm]
  | sessInfo => simp [regValue, sessInfoValue, he.session_unlisted hm]
  | subkInfo => simp [regValue, subkInfoValue, he.keychain_unlisted hm]
  | status | res0 | res1 | res2 | res3 => simp at hr

/-- What a step that completes no command and resets nothing leaves alone; AUTH_STATE changes at an issue only (rule R88). -/
structure KeepsSlots (s t : State) : Prop where
  ltk : SameLtk s t
  session : SameSession s t
  keychain : SameKeychain s t
  hidden : t.hidden = s.hidden
  mac : t.window .mac 0 16 = s.window .mac 0 16
  authState : t.authState = s.authState ∨ ∃ w, HostWrites s 0x00C 4 w ∧ s.busy = false ∧
    (decode w = .ok .authStart ∨ decode w = .ok .authFinish)

/-- A step that is no soft reset is the completion of a command, or keeps the slots. -/
theorem step_effect_or_keepsSlots {s t : State} (h : step s = .next t) (hn : ¬ SoftResetNow s) :
    (∃ i, CompletesNow s i ∧ Effect s i t) ∨ KeepsSlots s t := by
  rcases step_effect h with hc | ⟨e, _, rfl⟩ | hh
  · exact .inl hc
  · exact .inr ⟨⟨rfl, rfl⟩, ⟨rfl, rfl⟩, ⟨rfl, rfl, rfl⟩, rfl, rfl, .inl rfl⟩
  · refine .inr ?_
    cases hh with
    | quiet hq =>
      have hmac := hq.mem.elim fun _ hm => hm.window_other (v := .mac) (by decide)
      exact ⟨hq.sameLtk, hq.sameSession, hq.sameKeychain, hq.hidden, hmac, .inl hq.authState⟩
    | @issues w hw hb =>
      refine ⟨⟨rfl, rfl⟩, ⟨rfl, rfl⟩, ⟨rfl, rfl, rfl⟩, rfl, rfl, ?_⟩
      rcases issueAuthState_cases w s.authState with ⟨hs, _⟩ | ⟨hf, _, _⟩ | ⟨_, e⟩
      · exact .inr ⟨w, hw, hb, .inl hs⟩
      · exact .inr ⟨w, hw, hb, .inr hf⟩
      · exact .inl e
    | resets hr => exact absurd hr hn

/-- A session appears at a completion of AUTH.FINISH only (rule R45). -/
theorem Effect.session_cases {i : Instr} {s t : State} (h : Effect s i t) :
    t.session = s.session ∨ t.session = none ∨ i = .authFinish := by
  have hk : (invalidateSlot (abortHandshake s) .ltk).session = s.session ∨
      (invalidateSlot (abortHandshake s) .ltk).session = none := by
    rw [invalidateSlot_session]
    rcases abortHandshake_cases s with ⟨_, e⟩ | ⟨_, e⟩ <;> rw [e]
    · exact .inr (handshakeAbort_session s)
    · exact .inl rfl
  cases h with
  | fails | derives | answers => exact .inl rfl
  | works _ _ _ _ _ hu => rw [hu]; exact .inl rfl
  | aborts => exact .inr (.inl (handshakeAbort_session s))
  | empties => exact hk.imp_right .inl
  | loads => exact hk.imp_right .inl
  | starts => exact .inr (.inl (logout_session s))
  | finishes => exact .inr (.inr rfl)
  | logsOut => exact .inr (.inl (logout_session s))

/-- Settles O49: a completion writes the slots that its command's effect writes, and no other step but a soft reset writes any. -/
theorem onlyTheirCommandsWriteTheSlots : Obligations.OnlyTheirCommandsWriteTheSlots := by
  intro s t h hn handshake
  rcases step_effect_or_keepsSlots h hn with ⟨i, hi, he⟩ | hk
  · have named : ¬ handshake → handshakeCommand i = false := fun hh => by
      by_contra hc
      exact hh ⟨i, hi, (handshakeCommand_iff i).1 (by simpa using hc)⟩
    refine ⟨fun hne => ?_, fun hne => ?_, fun h1 h2 => ?_, fun hne => ?_, fun hne => ?_, fun hne => ?_, fun hne => ?_⟩
    · by_contra hc
      have hs := he.sameLtk (by rintro c k v rfl; exact hc ⟨c, k, v, hi⟩)
      exact hne.elim (· hs.slot) (· hs.key)
    · by_contra hc
      have hs := (he.sameHandshake (named hc)).1
      exact hne.elim (· hs.slot) (· hs.key)
    · rcases he.session_cases with e | e | rfl
      · exact absurd e h2
      · exact absurd e h1
      · exact hi
    · by_contra hc
      obtain ⟨hh, hsubk⟩ := not_or.1 hc
      have hs := he.sameKeychain (named hh) (by rintro k rfl; exact hsubk ⟨k, hi⟩)
      exact hne.elim (· hs.slot) (·.elim (· hs.pad) (· hs.nopad))
    · by_contra hc
      exact hne (he.sameHandshake (named hc)).2.1
    · by_contra hc
      exact hne (he.sameHandshake (named (not_or.1 hc).1)).2.2
    · by_contra hc
      have hw : Window.mac ∉ writtenWindows i := by
        cases i with
        | cmac k => exact absurd ⟨k, hi⟩ hc
        | _ => simp [writtenWindows]
      exact hne (he.stores.window_other hw)
  · refine ⟨?_, ?_, fun _ hne => absurd hk.session.slot hne, ?_, fun hne => absurd hk.hidden hne, ?_, fun hne => absurd hk.mac hne⟩
    · exact fun hne => absurd hk.ltk.key (hne.resolve_left (absurd hk.ltk.slot))
    · exact fun hne => absurd hk.session.key (hne.resolve_left (absurd hk.session.slot))
    · exact fun hne => hne.elim (absurd hk.keychain.slot) (·.elim (absurd hk.keychain.pad) (absurd hk.keychain.nopad))
    · exact fun hne => .inr (hk.authState.resolve_left hne)

end Sys2Proof.Machine

/-! The host's writes to registers: statements RegisterWritesStoreTheirFields and StatusWriteClearsItsBits -/

namespace Sys2Proof.Machine

/-- A host write steps to what its target does with it (rule R83). -/
theorem step_of_hostWrites {s : State} {off width : Nat} {v : Word} {g : Target} (h : HostWrites s off width v)
    (hg : busTarget off width = some g) : step s = .next (hostAdvance (writeTarget (countDown s) g width v)) := by
  obtain ⟨hd, op, hop, hw⟩ := h
  have hop' : (countDown s).host.script[(countDown s).host.pc]? = some op := by rw [countDown_host]; exact hop
  rw [step, hd, if_neg Bool.false_ne_true, hostStep, hop']
  cases op with
  | write width' off' v' =>
    cases hw
    simp only [hostOp, hostWrite, hg]
  | writeTemp width' off' x =>
    cases hw
    simp only [hostOp, hostWrite, hg, countDown_host]
  | read | bnz | bz => cases hw

/-- A register is reached at its own offset (rules R30 and R84). -/
theorem busTarget_regOffset (r : Reg) : busTarget (4 * allRegs.idxOf r) 4 = some (.reg r) := by cases r <;> rfl

theorem countDown_idle {s : State} (h : s.busy = false) : countDown s = s := by rw [countDown, h]; rfl

theorem countDown_eq (s : State) : countDown s = { s with countdown := (countDown s).countdown } := by
  unfold countDown
  split <;> rfl

/-- A write to a register while no command runs. -/
theorem step_of_regWrite {s : State} {r : Reg} {v : Word} (hb : s.busy = false) (h : HostWrites s (4 * allRegs.idxOf r) 4 v) :
    step s = .next (hostAdvance (writeReg s r v)) := by
  rw [step_of_hostWrites h (busTarget_regOffset r), countDown_idle hb]
  simp [writeTarget, hb]

/-- The low `k` bits of a register's value, as a mask keeps them. -/
theorem setWidth_eq_mask (k : Nat) (v : Word) : (v.setWidth k).setWidth 32 = v &&& BitVec.ofNat 32 (2 ^ k - 1) := by
  apply BitVec.eq_of_getLsbD_eq
  intro j hj
  rw [BitVec.getLsbD_setWidth, BitVec.getLsbD_setWidth, BitVec.getLsbD_and, BitVec.getLsbD_ofNat, Nat.testBit_two_pow_sub_one,
    Bool.and_comm (v.getLsbD j)]
  simp only [hj, decide_true, Bool.true_and]

/-- Settles O13: each write steps to the register's own update, whose value is masked. -/
theorem registerWritesStoreTheirFields : Obligations.RegisterWritesStoreTheirFields := by
  intro s v hb
  refine ⟨fun h hv => ?_, fun h => ?_, fun h => ?_, fun h => ?_, fun h => ?_, ?_⟩
  · have hw : writeReg s .ctrl v = { s with irqEn := v.getLsbD 0 } := by
      simp only [writeReg, writeCtrl, hv, if_false, Bool.false_eq_true]
    refine ⟨_, step_of_regWrite (r := .ctrl) hb h, ?_, ?_, ?_⟩ <;> rw [hw]
    · rfl
    · rfl
    · have hbit : (0#31 ++ BitVec.ofBool (v.getLsbD 0) : Word) = (v.setWidth 1).setWidth 32 := by
        apply BitVec.eq_of_getLsbD_eq
        intro j hj
        rw [BitVec.getLsbD_append, BitVec.getLsbD_setWidth, BitVec.getLsbD_setWidth, BitVec.getLsbD_ofBool]
        cases j <;> simp
      exact hbit.trans (setWidth_eq_mask 1 v)
  · exact ⟨_, step_of_regWrite (r := .oplen) hb h, rfl, rfl, setWidth_eq_mask 17 v⟩
  · exact ⟨_, step_of_regWrite (r := .opoff) hb h, rfl, rfl, setWidth_eq_mask 16 v⟩
  · exact ⟨_, step_of_regWrite (r := .opaux) hb h, rfl, rfl, setWidth_eq_mask 17 v⟩
  · exact ⟨_, step_of_regWrite (r := .frhdr) hb h, rfl, rfl, setWidth_eq_mask 16 v⟩
  · have readOnly : ∀ r ∈ [Reg.id, .version, .ltkInfo, .sessInfo, .subkInfo, .res0, .res1, .res2, .res3],
        HostWrites s (4 * allRegs.idxOf r) 4 v → ∃ t, step s = .next t ∧ SameFcse s t ∧ t.env = s.env := by
      intro r hr h
      have hw : writeReg s r v = s := by cases r <;> simp_all [writeReg]
      refine ⟨_, step_of_regWrite hb h, ?_, ?_⟩ <;> rw [hw] <;> rfl
    have offsets : [0x000, 0x004, 0x024, 0x028, 0x02C, 0x030, 0x034, 0x038, 0x03C] =
        [Reg.id, .version, .ltkInfo, .sessInfo, .subkInfo, .res0, .res1, .res2, .res3].map fun r => 4 * allRegs.idxOf r := rfl
    rw [offsets]
    exact List.forall_mem_map.2 readOnly

/-- Settles O16: a write to STATUS is accepted at any time, and DONE and ERR are clear already while a command runs (rule R35). -/
theorem statusWriteClearsItsBits : Obligations.StatusWriteClearsItsBits := by
  intro s v h
  have hw : writeTarget (countDown s) (.reg .status) 4 v = clearW1C (countDown s) v := by
    simp [writeTarget, writableWhileBusy, writeReg]
  refine ⟨_, step_of_hostWrites h (busTarget_regOffset .status), ?_, fun hi hb => ?_, fun hv => ?_⟩ <;> rw [hw]
  · rw [countDown_eq]
    rfl
  · obtain ⟨hd, he, _⟩ := hi.running hb
    simp [hd, he]
  · simp [irq, hv]

end Sys2Proof.Machine

/-! The hidden handshake record and the host: statement HiddenRecordIsInvisibleToTheHost -/

namespace Sys2Proof.Machine

/-- The state with another hidden record. -/
def State.withHidden (s : State) (h : Handshake) : State := { s with hidden := h }

/-- Two states that differ in the hidden record alone. -/
def SameButHidden (t u : State) : Prop := u.withHidden t.hidden = t

theorem SameButHidden.of_hostAdvance {t u : State} (h : SameButHidden t u) : SameButHidden (hostAdvance t) (hostAdvance u) := by
  show hostAdvance (u.withHidden t.hidden) = hostAdvance t
  rw [h]

/-- Whatever a running command may write does not depend on the hidden record (rules R49 and R90). -/
theorem runningOutputs_withHidden (s : State) (h : Handshake) : runningOutputs (s.withHidden h) = runningOutputs s := by
  have hm : ∀ i, mayWrite i (s.withHidden h) = mayWrite i s := fun i => by cases i <;> rfl
  simp only [runningOutputs, hm]
  rfl

theorem runningRegs_withHidden (s : State) (h : Handshake) : runningRegs (s.withHidden h) = runningRegs s := by
  have hm : ∀ i, mayWriteInfo i (s.withHidden h) = mayWriteInfo i s := fun i => by cases i <;> rfl
  simp only [runningRegs, hm]
  rfl

/-- No read shows the hidden record. -/
theorem readTarget_withHidden (s : State) (h : Handshake) (g : Target) (width : Nat) :
    readTarget (s.withHidden h) g width = readTarget s g width := by
  cases g with
  | reg r =>
    have hv : regValue (s.withHidden h) r = regValue s r := by cases r <;> rfl
    simp only [readTarget, readReg_eq, runningRegs_withHidden, hv]
    rfl
  | win w i =>
    simp only [readTarget, readWindowByte, runningOutputs_withHidden]
    rfl

theorem afterRead_withHidden (s : State) (h : Handshake) : afterRead (s.withHidden h) = (afterRead s).withHidden h := by
  have hb : (s.withHidden h).busy = s.busy := rfl
  unfold afterRead
  rw [hb]
  split <;> rfl

theorem countDown_withHidden (s : State) (h : Handshake) : countDown (s.withHidden h) = (countDown s).withHidden h := by
  have hb : (s.withHidden h).busy = s.busy := rfl
  unfold countDown
  rw [hb]
  split <;> rfl

theorem scramble_withHidden (s : State) (h : Handshake) (rs : List Range) (m : List Host.Cell) :
    scramble (s.withHidden h) rs m = scramble s rs m := by
  induction rs generalizing m with
  | nil => rfl
  | cons r rs ih =>
    simp only [scramble, ih]
    rfl

/-- A soft reset forgets the hidden record. -/
theorem softReset_withHidden (s : State) (h : Handshake) : softReset (s.withHidden h) = softReset s := by
  simp only [softReset, scramble_withHidden, runningOutputs_withHidden, afterRead_withHidden]
  rfl

/-- A permitted write does the same whatever the hidden record. -/
theorem writeTarget_sameButHidden (s : State) (h : Handshake) (g : Target) (width : Nat) (v : Word) :
    SameButHidden (writeTarget s g width v) (writeTarget (s.withHidden h) g width v) := by
  have hb : (s.withHidden h).busy = s.busy := rfl
  unfold writeTarget
  rw [hb]
  split
  · rfl
  · cases g with
    | win w i => dsimp only; split <;> rfl
    | reg r =>
      cases r with
      | ctrl =>
        simp only [writeReg, writeCtrl]
        split
        · rw [softReset_withHidden]; rfl
        · rfl
      | _ => rfl

/-- An operation of the host does the same whatever the hidden record: it steps alike, or faults alike. -/
theorem hostOp_withHidden (s : State) (h : Handshake) (op : HostOp) :
    (∀ t, hostOp s op = .next t → ∃ u, hostOp (s.withHidden h) op = .next u ∧ SameButHidden t u) ∧
      ∀ f, hostOp s op = .fault f → hostOp (s.withHidden h) op = .fault f := by
  have write : ∀ width off v,
      (∀ t, hostWrite s width off v = .next t →
          ∃ u, hostWrite (s.withHidden h) width off v = .next u ∧ SameButHidden t u) ∧
        ∀ f, hostWrite s width off v = .fault f → hostWrite (s.withHidden h) width off v = .fault f := by
    intro width off v
    cases hg : busTarget off width with
    | none => simp only [hostWrite, hg]; exact ⟨fun _ e => (by cases e), fun _ e => e⟩
    | some g =>
      simp only [hostWrite, hg]
      refine ⟨fun t e => ?_, fun _ e => by cases e⟩
      cases e
      exact ⟨_, rfl, (writeTarget_sameButHidden s h g width v).of_hostAdvance⟩
  have branch : ∀ taken target t, hostBranch s taken target = .next t →
      ∃ u, hostBranch (s.withHidden h) taken target = .next u ∧ SameButHidden t u := by
    intro taken target t e
    cases e
    cases taken <;> exact ⟨_, rfl, rfl⟩
  cases op with
  | write width off v => exact write width off v
  | writeTemp width off x => exact write width off (tempValue s.host.temps x)
  | read width off x =>
    cases hg : busTarget off width with
    | none => simp only [hostOp, hostRead, hg]; exact ⟨fun _ e => (by cases e), fun _ e => e⟩
    | some g =>
      simp only [hostOp, hostRead, hg]
      refine ⟨fun t e => ?_, fun _ e => by cases e⟩
      cases e
      refine ⟨_, rfl, ?_⟩
      rw [afterRead_withHidden, readTarget_withHidden]
      rfl
  | bnz x mask target => exact ⟨branch _ target, fun _ e => by cases e⟩
  | bz x mask target => exact ⟨branch _ target, fun _ e => by cases e⟩

/-- A step of the host writes the hidden record by a soft reset only. -/
theorem HostEffect.hidden {s t : State} (h : HostEffect s t) (hn : ¬ SoftResetNow s) : t.hidden = s.hidden := by
  cases h with
  | quiet hq => exact hq.hidden
  | issues => rfl
  | resets hr => exact absurd hr hn

/-- Settles O20: a host step neither reads nor writes the hidden record, and a soft reset clears it whatever it was. -/
theorem hiddenRecordIsInvisibleToTheHost : Obligations.HiddenRecordIsInvisibleToTheHost := by
  intro s h hd
  have hstep : step s = hostStep (countDown s) := by rw [step, hd]; rfl
  have hstep' : step (s.withHidden h) = hostStep ((countDown s).withHidden h) := by
    rw [step, show completionDue (s.withHidden h) = false from hd, countDown_withHidden]; rfl
  have key : (∀ t, step s = .next t → ∃ u, step (s.withHidden h) = .next u ∧ SameButHidden t u) ∧
      ∀ f, step s = .fault f → step (s.withHidden h) = .fault f := by
    rw [hstep, hstep']
    unfold hostStep
    rw [show ((countDown s).withHidden h).host = (countDown s).host from rfl]
    split
    · exact hostOp_withHidden _ h _
    · exact ⟨fun t e => ⟨_, rfl, by cases e; rfl⟩, nofun⟩
  exact ⟨fun t ht => ⟨(step_hostEffect ht hd).hidden, key.1 t ht⟩, key.2⟩

end Sys2Proof.Machine

/-! SUPPORT. The step at a completion, and the issue: statements StepRunsTheDecodedCommand and CommandWriteIssues -/

namespace Sys2Proof.Machine

/-- A completion is not next while no command runs or the countdown has host steps left (rule R88). -/
theorem completionDue_eq_false_iff (s : State) : completionDue s = false ↔ s.busy = false ∨ s.countdown ≠ 0 := by
  simp [completionDue, or_iff_not_imp_left]

/-- Settles O5: a due completion runs the decoded command, which is well formed, and any other step is the host's. -/
theorem stepRunsTheDecodedCommand : Obligations.StepRunsTheDecodedCommand := by
  refine ⟨fun s i hb hc hi => ⟨decode_wellFormed hi, ?_⟩, fun s h => ?_⟩
  · have hd : completionDue s = true := by simp [completionDue, hb, hc]
    rw [step, if_pos hd, complete, hi]
  · rw [step, (completionDue_eq_false_iff s).2 h, if_neg Bool.false_ne_true]

/-- A decoded word carries its command's opcode (rule R112). -/
theorem opField_of_decode {w : Word} {i : Instr} (h : decode w = .ok i) : opField w = opField (encode i) := by
  unfold decode at h
  split at h
  case h_8 hop =>
    obtain ⟨c, k, v, rfl, -⟩ := decodeFK_ok h
    have hk : opField (encodeFK 0x10 c k v) = 0x10 := BitVec.extractLsb'_append_eq_right
    exact (BitVec.eq_of_toNat_eq hop).trans hk.symm
  case h_9 hop | h_10 hop | h_11 hop | h_12 hop | h_13 hop =>
    obtain ⟨k, rfl⟩ := decodeFS_ok h
    cases k <;> exact BitVec.eq_of_toNat_eq hop
  case h_18 => cases h
  all_goals
    rw [decodeF0_ok h]
    exact BitVec.eq_of_toNat_eq ‹_›

/-- A word that its opcode sends to the checks of format F0, and that passes them, is that opcode's command (rule R113). -/
theorem decode_of_decodeF0 {w : Word} {i : Instr} (hd : decode w = decodeF0 w i) (hok : (decode w).isOk = true) :
    decode w = .ok i := by
  cases h : decode w with
  | error e => rw [h] at hok; cases hok
  | ok j => rw [decodeF0_ok (hd.symm.trans h)]

/-- A word is AUTH.START's where it has the opcode and passes the decode checks (rules R112 and R113). -/
theorem decode_authStart_iff (w : Word) : decode w = .ok .authStart ↔ opField w = 0x30 ∧ (decode w).isOk = true :=
  ⟨fun h => ⟨opField_of_decode h, by rw [h]; rfl⟩, fun ⟨hop, hok⟩ => decode_of_decodeF0 (by rw [decode, hop]; rfl) hok⟩

/-- A word is AUTH.FINISH's where it has the opcode and passes the decode checks (rules R112 and R113). -/
theorem decode_authFinish_iff (w : Word) : decode w = .ok .authFinish ↔ opField w = 0x32 ∧ (decode w).isOk = true :=
  ⟨fun h => ⟨opField_of_decode h, by rw [h]; rfl⟩, fun ⟨hop, hok⟩ => decode_of_decodeF0 (by rw [decode, hop]; rfl) hok⟩

/-- AUTH_STATE at the issue of a word, by its opcode (rule R271). -/
theorem issueAuthState_eq (w : Word) (a : AuthState) :
    issueAuthState w a =
      if opField w = 0x30 ∧ (decode w).isOk = true then .challengeSent
      else if opField w = 0x32 ∧ (decode w).isOk = true ∧ a = .responseSent then .verifying
      else a := by
  simp only [← and_assoc, ← decode_authStart_iff, ← decode_authFinish_iff]
  unfold issueAuthState
  split <;> simp_all

/-- Settles O7: the step is the issue of the word, and its AUTH_STATE reads off the opcode. -/
theorem commandWriteIssues : Obligations.CommandWriteIssues := by
  intro s w h hb
  refine ⟨_, step_of_regWrite (r := .cmd) hb h, ?_⟩
  rw [← issueAuthState_eq]
  rfl

end Sys2Proof.Machine

/-! SUPPORT. Byte order on the bus (rule R86): the bytes of a value, and the value of bytes. -/

namespace Sys2Proof.Machine

/-- Byte `j` in bus order is bits `8 * j + 7` to `8 * j` of the value. -/
theorem leBytes_getD {n j : Nat} (h : j < n) (v : Word) : (leBytes n v).getD j 0 = v.extractLsb' (8 * j) 8 := by
  induction n generalizing j v with
  | zero => omega
  | succ n ih =>
    cases j with
    | zero => rfl
    | succ j =>
      rw [leBytes, List.getD_cons_succ, ih (by omega)]
      ext i hi
      simp only [BitVec.getElem_extractLsb', BitVec.getLsbD_ushiftRight]
      congr 1
      omega

/-- The value of some bytes has no bit above them. -/
theorem ofLeBytes_lt (b : List Byte) : (ofLeBytes b).toNat < 256 ^ b.length := by
  induction b with
  | nil => decide
  | cons x b ih =>
    have hx : (x.setWidth 32).toNat < 2 ^ 8 := by simp only [BitVec.toNat_setWidth]; omega
    have hle : (ofLeBytes b <<< 8).toNat ≤ (ofLeBytes b).toNat * 2 ^ 8 := by
      rw [BitVec.toNat_shiftLeft, Nat.shiftLeft_eq]
      exact Nat.mod_le _ _
    have pow : ∀ n, 256 ^ n = 2 ^ (8 * n) := fun n => pow_mul 2 8 n ▸ rfl
    rw [pow] at ih ⊢
    rw [ofLeBytes, BitVec.toNat_or, List.length_cons, Nat.mul_succ]
    refine Nat.or_lt_two_pow (hx.trans_le (Nat.pow_le_pow_right (by omega) (by omega))) ?_
    rw [pow_add]
    exact hle.trans_lt (Nat.mul_lt_mul_of_pos_right ih (by decide))

/-- The value of up to four bytes holds each of them in its place. -/
theorem ofLeBytes_extractLsb' {b : List Byte} (hb : b.length ≤ 4) {j : Nat} (hj : j < b.length) :
    (ofLeBytes b).extractLsb' (8 * j) 8 = b.getD j 0 := by
  induction b generalizing j with
  | nil => simp at hj
  | cons x b ih =>
    rw [List.length_cons] at hb hj
    ext i hi
    rw [BitVec.getElem_extractLsb', ofLeBytes, BitVec.getLsbD_or, BitVec.getLsbD_setWidth, BitVec.getLsbD_shiftLeft]
    cases j with
    | zero =>
      have hin : 8 * 0 + i < 32 ∧ 8 * 0 + i < 8 := by omega
      simp only [hin, decide_true, Bool.not_true, Bool.and_false, Bool.false_and, Bool.or_false, Bool.true_and]
      simp [hi]
    | succ j =>
      rw [List.getD_cons_succ, ← ih (by omega) (by omega), BitVec.getElem_extractLsb',
        BitVec.getLsbD_of_ge x _ (by omega), show 8 * (j + 1) + i - 8 = 8 * j + i by omega]
      have hin : 8 * (j + 1) + i < 32 ∧ ¬ 8 * (j + 1) + i < 8 := by omega
      simp only [hin, decide_true, decide_false, Bool.and_false, Bool.false_or, Bool.not_false, Bool.true_and]

/-- The value of up to four bytes that are given by their places. -/
theorem ofLeBytes_map_range (f : Nat → Byte) {n : Nat} (hn : n ≤ 4) :
    (ofLeBytes ((List.range n).map f)).toNat < 256 ^ n ∧
      ∀ j < n, (ofLeBytes ((List.range n).map f)).extractLsb' (8 * j) 8 = f j := by
  have hl : ((List.range n).map f).length = n := by simp
  refine ⟨by simpa using ofLeBytes_lt ((List.range n).map f), fun j hj => ?_⟩
  rw [ofLeBytes_extractLsb' (by omega) (by omega)]
  simp [hj]

end Sys2Proof.Machine

/-! SUPPORT. Which accesses reach a target, and the step of one: statement BusErrorsAreTheForbiddenAccesses -/

namespace Sys2Proof.Machine

/-- No window lies among the registers (rule R82). -/
theorem Window.base_ge (w : Window) : 0x40 ≤ w.base := by cases w <;> decide

/-- A register stands below every window (rule R82). -/
theorem regOffset_lt (r : Reg) : 4 * allRegs.idxOf r < 0x40 := by cases r <;> decide

/-- The windows do not overlap, so the one that an offset lies in is the one found (rule R82). -/
theorem windowAt_eq {w : Window} {a : Nat} (h1 : w.base ≤ a) (h2 : a < w.base + w.size) : windowAt a = some w := by
  obtain ⟨v, hv⟩ := Option.isSome_iff_exists.1 (windowAt_isSome h1 h2)
  have hin := List.find?_some hv
  simp only [decide_eq_true_eq] at hin
  have e : v = w := by
    by_contra hne
    have := Window.apart hne
    omega
  exact e ▸ hv

/-- An aligned access inside a window reaches it (rule R84). -/
theorem busTarget_window {off width : Nat} {w : Window} (hw : width = 1 ∨ width = 2 ∨ width = 4) (ha : off % width = 0)
    (h1 : w.base ≤ off) (h2 : off + width ≤ w.base + w.size) : busTarget off width = some (.win w (off - w.base)) := by
  have hb := w.base_ge
  rw [busTarget, if_neg (by omega), if_pos ⟨hw, ha⟩, windowAt_eq h1 (by omega)]
  exact if_pos h2

/-- A permitted access reaches a register or a window (rule R84). -/
theorem busTarget_of_permitted {off width : Nat} (h : Permitted off width) : ∃ g, busTarget off width = some g := by
  obtain ⟨hlt, rfl, ha⟩ | ⟨hw, ha, w, h1, h2⟩ := h
  · have hk : off / 4 < allRegs.length := show off / 4 < 16 by omega
    exact ⟨.reg allRegs[off / 4], by rw [busTarget, if_pos hlt, if_pos ⟨rfl, ha⟩, List.getElem?_eq_getElem hk]; rfl⟩
  · exact ⟨_, busTarget_window hw ha h1 h2⟩

/-- An access that reaches something is permitted (rule R84). -/
theorem permitted_of_busTarget {off width : Nat} {g : Target} (h : busTarget off width = some g) : Permitted off width := by
  cases g with
  | reg r =>
    obtain ⟨rfl, rfl⟩ := busTarget_reg h
    exact .inl ⟨regOffset_lt r, rfl, by omega⟩
  | win w i =>
    obtain ⟨rfl, hin⟩ := busTarget_win h
    have hb := w.base_ge
    rw [busTarget, if_neg (by omega)] at h
    split at h
    · rename_i hw
      exact .inr ⟨hw.1, hw.2, w, by omega, by omega⟩
    · cases h

/-- A step that is no completion is the host's next operation (rule R118). -/
theorem step_of_nextOp {s : State} {op : HostOp} (hd : completionDue s = false) (hop : nextOp s = some op) :
    step s = hostOp (countDown s) op := by
  have hop' : (countDown s).host.script[(countDown s).host.pc]? = some op := by rw [countDown_host]; exact hop
  rw [step, hd, if_neg Bool.false_ne_true, hostStep, hop']

/-- A host read, permitted or not (rules R83 and R85). -/
theorem step_eq_hostRead {s : State} {off width x : Nat} (h : HostReads s off width x) :
    step s = hostRead (countDown s) width off x := step_of_nextOp h.1 h.2

/-- A host write, permitted or not (rules R83 and R85). -/
theorem step_eq_hostWrite {s : State} {off width : Nat} {v : Word} (h : HostWrites s off width v) :
    step s = hostWrite (countDown s) width off v := by
  obtain ⟨hd, op, hop, hw⟩ := h
  rw [step_of_nextOp hd hop]
  cases op with
  | write width' off' v' => cases hw; rfl
  | writeTemp width' off' x =>
    cases hw
    rw [hostOp, countDown_host]
  | read | bnz | bz => cases hw

/-- Settles O12: an access reaches a target exactly where it is permitted, and it steps where it reaches one. -/
theorem busErrorsAreTheForbiddenAccesses : Obligations.BusErrorsAreTheForbiddenAccesses := by
  intro s off width h
  constructor
  · intro hp
    obtain ⟨g, hg⟩ := busTarget_of_permitted hp
    rcases h with ⟨v, hw⟩ | ⟨x, hr⟩
    · exact ⟨_, step_of_hostWrites hw hg⟩
    · exact ⟨_, by rw [step_eq_hostRead hr, hostRead, hg]⟩
  · intro hp
    have hg : busTarget off width = none := Option.eq_none_iff_forall_ne_some.2 fun g hg => hp (permitted_of_busTarget hg)
    rcases h with ⟨v, hw⟩ | ⟨x, hr⟩
    · rw [step_eq_hostWrite hw, hostWrite, hg]
    · rw [step_eq_hostRead hr, hostRead, hg]

end Sys2Proof.Machine

/-! SUPPORT. The countdown is an input of no command and of no read (rule R361): what the running command may write, and what a read
returns, is the same in a host step as before it. -/

namespace Sys2Proof.Machine

theorem runningOutputs_countDown (s : State) : runningOutputs (countDown s) = runningOutputs s := by
  have hm : ∀ i, mayWrite i (countDown s) = mayWrite i s := fun i => by rw [countDown_eq]; cases i <;> rfl
  simp only [runningOutputs, hm, countDown_busy, countDown_latch]

theorem runningRegs_countDown (s : State) : runningRegs (countDown s) = runningRegs s := by
  have hm : ∀ i, mayWriteInfo i (countDown s) = mayWriteInfo i s := fun i => by rw [countDown_eq]; cases i <;> rfl
  simp only [runningRegs, hm, countDown_busy, countDown_latch]

theorem regValue_countDown (s : State) (r : Reg) : regValue (countDown s) r = regValue s r := by
  rw [countDown_eq]
  cases r <;> rfl

theorem freeByteAt_countDown (s : State) (a : Nat) : freeByteAt (countDown s) a = freeByteAt s a := by
  rw [freeByteAt, countDown_env]; rfl

theorem readTarget_countDown (s : State) (g : Target) (width : Nat) :
    readTarget (countDown s) g width = readTarget s g width := by
  cases g with
  | reg r => simp only [readTarget, readReg_eq, runningRegs_countDown, regValue_countDown, freeBytes, freeByteAt_countDown]
  | win w i => simp only [readTarget, readWindowByte, runningOutputs_countDown, countDown_mem, freeByteAt_countDown]

end Sys2Proof.Machine

/-! The host's accesses while no command runs: statements WindowWritesAreLittleEndian and ReadsReturnValuesWithoutSideEffects -/

namespace Sys2Proof.Machine

/-- A write to a window while no command runs stores where the host may write the window (rules R43 and R87). -/
theorem writeTarget_win {s : State} (hb : s.busy = false) (w : Window) (i width : Nat) (v : Word) :
    writeTarget s (.win w i) width v = if w.hostWritable then s.setWindow w i (leBytes width v) else s := by
  rw [writeTarget, hb, if_neg (by simp)]

/-- The bytes of such a write (rule R86): where the host may write the window, byte `j` of the access is
byte `j` of the value, and every other byte reads as before. -/
theorem readByte_writeTarget_win {s : State} (hb : s.busy = false) (w : Window) (i width : Nat) (v : Word) (a : Nat) :
    readByte (writeTarget s (.win w i) width v).mem a =
      if w.hostWritable = true ∧ w.base + i ≤ a ∧ a < w.base + i + width then v.extractLsb' (8 * (a - (w.base + i))) 8
      else readByte s.mem a := by
  rw [writeTarget_win hb]
  by_cases hw : w.hostWritable = true
  · simp only [hw, if_true, true_and, readByte_setWindow, leBytes_length]
    split
    · exact leBytes_getD (by omega) v
    · rfl
  · simp only [hw, if_false, false_and, Bool.false_eq_true]

/-- Settles O14: the write reaches the window at its offset and stores the value's bytes there. -/
theorem windowWritesAreLittleEndian : Obligations.WindowWritesAreLittleEndian := by
  intro s off width v w h hb hw ha h1 h2
  refine ⟨_, step_of_hostWrites h (busTarget_window hw ha h1 h2), ?_, fun a => ?_⟩ <;> rw [countDown_idle hb]
  · rw [writeTarget_win hb]
    split <;> rfl
  · rw [hostAdvance_mem, readByte_writeTarget_win hb, Nat.add_sub_cancel' h1]

/-- The state after a host read: the value in the named temporary, and FCSE as before (rules R83 and R87). -/
structure ReadsInto (s t : State) (x : Nat) (v : Word) : Prop where
  fcse : SameFcse s t
  env : s.busy = false → t.env = s.env
  temp : tempValue t.host.temps x = v
  others : ∀ y, y ≠ x → tempValue t.host.temps y = tempValue s.host.temps y

/-- A permitted read steps, with the value of what it reaches. -/
theorem step_of_permittedRead {s : State} {off width x : Nat} {g : Target} (h : HostReads s off width x)
    (hg : busTarget off width = some g) : ∃ t, step s = .next t ∧ ReadsInto s t x (readTarget s g width) := by
  refine ⟨_, by rw [step_eq_hostRead h, hostRead, hg], ?_⟩
  rw [readTarget_countDown]
  have temps : ∀ y, tempValue (hostAdvance ((afterRead (countDown s)).setHostTemp x (readTarget s g width))).host.temps y =
      if y = x then readTarget s g width else tempValue s.host.temps y := fun y => by
    show tempValue (setTemp (afterRead (countDown s)).host.temps x _) y = _
    rw [tempValue_setTemp, afterRead_host, countDown_host]
  refine ⟨?_, fun hb => ?_, ?_, fun y hy => ?_⟩
  · unfold afterRead
    rw [countDown_eq]
    split <;> rfl
  · have hr : afterRead s = s := by rw [afterRead, hb]; rfl
    rw [countDown_idle hb, hr]
    rfl
  · rw [temps, if_pos rfl]
  · rw [temps, if_neg hy]

/-- A read at a register's offset returns what that register reads as. -/
theorem readTarget_regOffset (s : State) {r : Reg} {g : Target} (hg : busTarget (4 * allRegs.idxOf r) 4 = some g) :
    readTarget s g 4 = readReg s r := by
  cases (busTarget_regOffset r).symm.trans hg
  rfl

/-- A read in a window returns its bytes in bus order, and no bit above them (rule R86). -/
theorem readTarget_windowOffset (s : State) {off width : Nat} {g : Target} (hg : busTarget off width = some g) (ho : 0x40 ≤ off) :
    (readTarget s g width).toNat < 256 ^ width ∧
      ∀ j < width, (readTarget s g width).extractLsb' (8 * j) 8 = readWindowByte s (off + j) := by
  have hw : width ≤ 4 := by rcases permitted_of_busTarget hg with ⟨-, h, -⟩ | ⟨h, -⟩ <;> omega
  cases g with
  | reg r =>
    have := (busTarget_reg hg).2
    have := regOffset_lt r
    omega
  | win w i =>
    obtain ⟨rfl, -⟩ := busTarget_win hg
    exact ofLeBytes_map_range _ hw

/-- A window byte that the running command may not write reads as it is (rule R357). -/
theorem readWindowByte_eq {s : State} {a : Nat} (h : inRanges (runningOutputs s) a = false) :
    readWindowByte s a = readByte s.mem a := by
  rw [readWindowByte, h, if_neg Bool.false_ne_true]

/-- Settles O15: while no command runs, no register and no byte is one that a command may write. -/
theorem readsReturnValuesWithoutSideEffects : Obligations.ReadsReturnValuesWithoutSideEffects := by
  intro s off width x h hb hp
  obtain ⟨g, hg⟩ := busTarget_of_permitted hp
  obtain ⟨t, ht, hr⟩ := step_of_permittedRead h hg
  refine ⟨t, ht, hr.fcse, hr.env hb, hr.others, ?_, fun ho => ?_⟩ <;> rw [hr.temp]
  · rintro r rfl rfl
    rw [readTarget_regOffset s hg, readReg_eq, runningRegs_idle hb]
    rfl
  · obtain ⟨hlt, hbytes⟩ := readTarget_windowOffset s hg ho
    have idle : runningOutputs s = [] := by rw [runningOutputs, hb]; rfl
    exact ⟨hlt, fun j hj => (hbytes j hj).trans (readWindowByte_eq (by rw [idle]; rfl))⟩

end Sys2Proof.Machine

/-! The host's reads while a command runs: statement BusyReadsOfKnownStateReturnIt -/

namespace Sys2Proof.Machine

/-- The registers that read as unspecified are the results and those that the running command's rule may write (rule R90). -/
theorem mem_runningRegs {s : State} {r : Reg} (h : r ∈ runningRegs s) :
    r ∈ [Reg.res0, .res1, .res2, .res3] ∨ ∃ i, decode s.latch.cmd = .ok i ∧ r ∈ mayWriteInfo i s := by
  unfold runningRegs at h
  split at h
  · refine (List.mem_append.1 h).imp id fun h => ?_
    split at h
    · exact ⟨_, ‹_›, h⟩
    · cases h
  · cases h

/-- Which commands may write an information register: KLOAD any, CMSUBK SUBK_INFO, and the handshake's any but LTK_INFO (rules R39 to
R41). -/
theorem mem_mayWriteInfo_command {i : Instr} {s : State} {r : Reg} (h : r ∈ mayWriteInfo i s) :
    (∃ c k v, i = .kload c k v) ∨ (r = .subkInfo ∧ ∃ k, i = .cmsubk k) ∨
      (r ≠ .ltkInfo ∧ i ∈ [Instr.authStart, .authChal, .authFinish, .logout]) := by
  have out : r ∈ logoutRegs s → r ≠ .ltkInfo := by
    rintro hr rfl
    simp only [logoutRegs, slotRegs, List.mem_cons, reduceCtorEq, false_or] at hr
    split at hr <;> simp at hr
  cases i
  case kload c k v => exact .inl ⟨c, k, v, rfl⟩
  case cmsubk k =>
    simp only [mayWriteInfo, cmsubkRegs] at h
    split at h
    · exact .inr (.inl ⟨List.mem_singleton.1 h, k, rfl⟩)
    · cases h
  case authStart | authChal | logout => exact .inr (.inr ⟨out h, by decide⟩)
  case authFinish =>
    refine .inr (.inr ⟨?_, by decide⟩)
    rcases List.mem_append.1 h with hr | hr
    · exact out hr
    · split at hr <;> [split at hr; skip] <;> simp_all
  all_goals cases h

/-- The operand registers, CTRL, CMD, STATUS and the constants read as their values at any time (rule R357). -/
theorem inputs_disjoint_runningRegs (s : State) :
    [Reg.id, .version, .ctrl, .cmd, .status, .oplen, .opoff, .opaux, .frhdr].Disjoint (runningRegs s) := by
  intro r hr hm
  have results : ∀ r ∈ [Reg.id, .version, .ctrl, .cmd, .status, .oplen, .opoff, .opaux, .frhdr],
      r ∉ [Reg.res0, .res1, .res2, .res3] := by decide
  rcases mem_runningRegs hm with hm | ⟨i, -, hm⟩
  · exact results r hr hm
  · rcases mem_mayWriteInfo hm with rfl | rfl | rfl <;> exact absurd hr (by decide)

/-- Under which commands but KLOAD an information register reads as unspecified (rules R40, R41 and R90). -/
theorem mem_runningRegs_command {s : State} {r : Reg} (hr : r ∉ [Reg.res0, .res1, .res2, .res3]) (hm : r ∈ runningRegs s)
    (hk : ∀ c k v, decode s.latch.cmd ≠ .ok (.kload c k v)) :
    (r = .subkInfo ∧ ∃ k, decode s.latch.cmd = .ok (.cmsubk k)) ∨
      (r ≠ .ltkInfo ∧ ∃ i ∈ [Instr.authStart, .authChal, .authFinish, .logout], decode s.latch.cmd = .ok i) := by
  obtain ⟨i, hd, hi⟩ := (mem_runningRegs hm).resolve_left hr
  rcases mem_mayWriteInfo_command hi with ⟨c, k, v, rfl⟩ | ⟨e, k, rfl⟩ | ⟨e, hmem⟩
  · exact absurd hd (hk c k v)
  · exact .inl ⟨e, k, hd⟩
  · exact .inr ⟨e, i, hmem, hd⟩

/-- The low three bits of a value put together bit by bit. -/
theorem extractLsb'_append_three {n : Nat} (x : BitVec n) (a b c : BitVec 1) :
    (x ++ a ++ b ++ c).extractLsb' 0 3 = a ++ b ++ c := by
  ext i hi
  rw [BitVec.getElem_extractLsb', ← BitVec.getLsbD_eq_getElem]
  simp only [BitVec.getLsbD_append]
  interval_cases i <;> simp

/-- BUSY, DONE and ERR in STATUS (rule R35). -/
theorem statusValue_flags (s : State) :
    (statusValue s).extractLsb' 0 3 = BitVec.ofBool s.err ++ BitVec.ofBool s.done ++ BitVec.ofBool s.busy :=
  extractLsb'_append_three _ _ _ _

/-- ERR_CODE in STATUS (rule R35). -/
theorem statusValue_errCode (s : State) : (statusValue s).extractLsb' 8 8 = s.errCode.code := by
  unfold statusValue
  iterate 5 rw [BitVec.extractLsb'_append_eq_of_le (by decide)]
  exact BitVec.extractLsb'_append_eq_right

/-- Settles O19: a register reads as its value unless the running command's rule may write it, and a byte likewise. -/
theorem busyReadsOfKnownStateReturnIt : Obligations.BusyReadsOfKnownStateReturnIt := by
  intro s off width x h hb hp hi
  obtain ⟨g, hg⟩ := busTarget_of_permitted hp
  obtain ⟨t, ht, hr⟩ := step_of_permittedRead h hg
  have known : ∀ r ∉ runningRegs s, width = 4 → off = 4 * allRegs.idxOf r → tempValue t.host.temps x = regValue s r := by
    rintro r hn rfl rfl
    rw [hr.temp, readTarget_regOffset s hg, readReg_eq, if_neg hn]
  have inputs := inputs_disjoint_runningRegs s
  refine ⟨t, ht, hr.fcse, fun r hm => known r (inputs hm), fun hw ho => ?_, known, fun hk => ⟨known .ltkInfo fun hm => ?_,
    fun ha => ⟨known .sessInfo fun hm => ?_, fun hs => known .subkInfo fun hm => ?_⟩⟩, fun ho => ?_⟩
  · obtain ⟨hdone, herr, hcode⟩ := hi.running hb
    rw [known .status (inputs (by decide)) hw ho]
    show (statusValue s).extractLsb' 0 3 = _ ∧ (statusValue s).extractLsb' 8 8 = _
    rw [statusValue_flags, statusValue_errCode, hb, hdone, herr, hcode]
    exact ⟨rfl, rfl⟩
  · rcases mem_runningRegs_command (by decide) hm hk with ⟨e, -⟩ | ⟨e, -⟩
    · cases e
    · exact e rfl
  · rcases mem_runningRegs_command (by decide) hm hk with ⟨e, -⟩ | ⟨-, i, hmem, hd⟩
    · cases e
    · exact ha i hmem hd
  · rcases mem_runningRegs_command (by decide) hm hk with ⟨-, k, hd⟩ | ⟨-, i, hmem, hd⟩
    · exact hs k hd
    · exact ha i hmem hd
  · obtain ⟨hlt, hbytes⟩ := readTarget_windowOffset s hg ho
    rw [hr.temp]
    exact ⟨hlt, fun j hj hn => (hbytes j hj).trans (readWindowByte_eq hn)⟩

end Sys2Proof.Machine

/-! SUPPORT. The encoder's words field by field: what the three formats of a command word hold (30_encoding.md rules R110 and R114),
and that the format's decode checks read the operands back. -/

namespace Sys2Proof.Machine

@[simp] theorem opField_encodeF0 (op : Byte) : opField (encodeF0 op) = op := BitVec.extractLsb'_append_eq_right

@[simp] theorem opField_encodeFS (op : Byte) (k : KeySel) : opField (encodeFS op k) = op := BitVec.extractLsb'_append_eq_right

@[simp] theorem opField_encodeFK (op : Byte) (c : Option Family) (n : BitVec 4) (v : Byte) :
    opField (encodeFK op c n v) = op := BitVec.extractLsb'_append_eq_right

@[simp] theorem ciphField_encodeFS (op : Byte) (k : KeySel) : ciphField (encodeFS op k) = 0 :=
  (BitVec.extractLsb'_append_eq_of_le (by decide)).trans BitVec.extractLsb'_append_eq_right

@[simp] theorem kselField_encodeFS (op : Byte) (k : KeySel) : kselField (encodeFS op k) = kselCode k := by
  unfold kselField encodeFS
  iterate 2 rw [BitVec.extractLsb'_append_eq_of_le (by decide)]
  exact BitVec.extractLsb'_append_eq_right

@[simp] theorem ciphField_encodeFK (op : Byte) (c : Option Family) (n : BitVec 4) (v : Byte) :
    ciphField (encodeFK op c n v) = ciphCode c :=
  (BitVec.extractLsb'_append_eq_of_le (by decide)).trans BitVec.extractLsb'_append_eq_right

@[simp] theorem kselField_encodeFK (op : Byte) (c : Option Family) (n : BitVec 4) (v : Byte) :
    kselField (encodeFK op c n v) = 0 := by
  unfold kselField encodeFK
  iterate 2 rw [BitVec.extractLsb'_append_eq_of_le (by decide)]
  exact BitVec.extractLsb'_append_eq_right

@[simp] theorem keynoField_encodeFK (op : Byte) (c : Option Family) (n : BitVec 4) (v : Byte) :
    keynoField (encodeFK op c n v) = n := by
  unfold keynoField encodeFK
  iterate 3 rw [BitVec.extractLsb'_append_eq_of_le (by decide)]
  exact BitVec.extractLsb'_append_eq_right

@[simp] theorem argField_encodeFK (op : Byte) (c : Option Family) (n : BitVec 4) (v : Byte) :
    argField (encodeFK op c n v) = v := by
  unfold argField encodeFK
  iterate 4 rw [BitVec.extractLsb'_append_eq_of_le (by decide)]
  exact BitVec.extractLsb'_append_eq_right

@[simp] theorem kselOfField_kselCode (k : KeySel) : kselOfField (kselCode k) = k := by cases k <;> rfl

@[simp] theorem kselCode_kselOfField (v : BitVec 1) : kselCode (kselOfField v) = v := by
  rcases BitVec.eq_zero_or_eq_one v with rfl | rfl <;> rfl

@[simp] theorem ciphOfField_ciphCode (c : Option Family) : ciphOfField (ciphCode c) = some c := by
  rcases c with _ | _ | _ | _ | _ <;> rfl

/-- A cipher type has one CIPH value (rule R6). -/
theorem ciphCode_of_ciphOfField {v : BitVec 3} {c : Option Family} (h : ciphOfField v = some c) : ciphCode c = v := by
  unfold ciphOfField at h
  split at h <;> cases h
  all_goals exact (BitVec.eq_of_toNat_eq ‹_›).symm

/-- The CIPH values 5 to 7 are reserved (rule R6). -/
theorem ciphOfField_eq_none_iff : ∀ v : BitVec 3, ciphOfField v = none ↔ 4 < v.toNat := by decide

/-- A word of format F0 passes its checks. -/
theorem decodeF0_encodeF0 (op : Byte) (i : Instr) : decodeF0 (encodeF0 op) i = .ok i := by
  have rest : (encodeF0 op).extractLsb' 8 16 = 0 := BitVec.extractLsb'_append_eq_of_le (by decide)
  simp [decodeF0, Laws.topField_encodeF0, rest]

/-- A word of format FS passes its checks with the slot it was written with. -/
theorem decodeFS_encodeFS (op : Byte) (f : KeySel → Instr) (k : KeySel) : decodeFS (encodeFS op k) f = .ok (f k) := by
  have rest : (encodeFS op k).extractLsb' 12 12 = 0 := by
    unfold encodeFS
    iterate 3 rw [BitVec.extractLsb'_append_eq_of_le (by decide)]
    rfl
  simp [decodeFS, Laws.topField_encodeFS, rest]

/-- A word of format FK with a legal key number passes its checks with the operands it was written with. -/
theorem decodeFK_encodeFK (op : Byte) (f : Option Family → BitVec 4 → Byte → Instr) (c : Option Family) {n : BitVec 4}
    (v : Byte) (hn : n.toNat ≤ 13) : decodeFK (encodeFK op c n v) f = .ok (f c n v) := by
  simp [decodeFK, Laws.topField_encodeFK, hn]

/-- Settles O1: the opcode selects the command's format, and the format's checks give the operands back. -/
theorem decodeOfEncodeIsTheCommand : Obligations.DecodeOfEncodeIsTheCommand := by
  intro i hi
  cases i with
  | kload c n v =>
    rw [encode, decode, opField_encodeFK]
    exact decodeFK_encodeFK _ _ _ _ (of_decide_eq_true hi)
  | cenc k | cdec k | cmacb k | cmsubk k | cmac k =>
    rw [encode, decode, opField_encodeFS]
    exact decodeFS_encodeFS _ _ _
  | nop | fencAck | fencNack | fencErr | fencInfo | fident | fdec | authStart | authChal | authFinish | logout =>
    rw [encode, decode, opField_encodeF0]
    exact decodeF0_encodeF0 _ _

/-- Settles O4: each word is the encoding of its command. -/
theorem wordsOfTheTableDecode : Obligations.WordsOfTheTableDecode :=
  have word {w : Word} {i : Instr} (hi : WellFormed i = true) (hw : encode i = w) : decode w = .ok i :=
    hw ▸ decodeOfEncodeIsTheCommand i hi
  ⟨word rfl rfl, word rfl rfl, word rfl rfl, word rfl rfl, word rfl rfl, word rfl rfl, word rfl rfl, word rfl rfl⟩

end Sys2Proof.Machine

/-! SUPPORT. A word put together again from its fields, for each format: a word that passes a format's checks is the word that the
encoder writes for the operands read (rules R113 and R114). -/

namespace Sys2Proof.Machine

/-- The fields that format F0 checks (rule R113) make up the word. -/
theorem append_fields_F0 (w : Word) : topField w ++ w.extractLsb' 8 16 ++ opField w = w := by
  unfold topField opField
  iterate 2 rw [BitVec.extractLsb'_append_extractLsb'_eq_extractLsb']
  · exact BitVec.extractLsb'_eq_self
  all_goals rfl

/-- The fields that format FS reads (rule R113) make up the word. -/
theorem append_fields_FS (w : Word) :
    topField w ++ w.extractLsb' 12 12 ++ kselField w ++ ciphField w ++ opField w = w := by
  unfold topField kselField ciphField opField
  iterate 4 rw [BitVec.extractLsb'_append_extractLsb'_eq_extractLsb']
  · exact BitVec.extractLsb'_eq_self
  all_goals rfl

/-- The fields of rule R110 make up the word. -/
theorem append_fields_FK (w : Word) :
    topField w ++ argField w ++ keynoField w ++ kselField w ++ ciphField w ++ opField w = w := by
  unfold topField argField keynoField kselField ciphField opField
  iterate 5 rw [BitVec.extractLsb'_append_extractLsb'_eq_extractLsb']
  · exact BitVec.extractLsb'_eq_self
  all_goals rfl

theorem encodeF0_of_decodeF0 {w : Word} {i j : Instr} (h : decodeF0 w i = .ok j) : encodeF0 (opField w) = w := by
  unfold decodeF0 at h
  split at h <;> [cases h; rename_i htop]
  split at h <;> [cases h; rename_i hrest]
  calc encodeF0 (opField w) = topField w ++ w.extractLsb' 8 16 ++ opField w := by
        rw [not_not.1 htop, not_not.1 hrest]; rfl
    _ = w := append_fields_F0 w

theorem encodeFS_of_decodeFS {w : Word} {f : KeySel → Instr} {j : Instr} (h : decodeFS w f = .ok j) :
    ∃ k, j = f k ∧ encodeFS (opField w) k = w := by
  unfold decodeFS at h
  split at h <;> [cases h; rename_i htop]
  split at h <;> [cases h; rename_i hrest]
  cases h
  obtain ⟨hciph, hrest⟩ := not_or.1 hrest
  refine ⟨_, rfl, ?_⟩
  calc encodeFS (opField w) (kselOfField (kselField w))
      = topField w ++ w.extractLsb' 12 12 ++ kselField w ++ ciphField w ++ opField w := by
        rw [encodeFS, kselCode_kselOfField, not_not.1 htop, not_not.1 hrest, not_not.1 hciph]; rfl
    _ = w := append_fields_FS w

theorem encodeFK_of_decodeFK {w : Word} {f : Option Family → BitVec 4 → Byte → Instr} {j : Instr}
    (h : decodeFK w f = .ok j) : ∃ c n v, j = f c n v ∧ encodeFK (opField w) c n v = w := by
  unfold decodeFK at h
  split at h <;> [cases h; rename_i htop]
  split at h <;> [cases h; rename_i hksel]
  split at h <;> [cases h; rename_i c hciph]
  split at h <;> cases h
  refine ⟨_, _, _, rfl, ?_⟩
  calc encodeFK (opField w) c (keynoField w) (argField w)
      = topField w ++ argField w ++ keynoField w ++ kselField w ++ ciphField w ++ opField w := by
        rw [encodeFK, ciphCode_of_ciphOfField hciph, not_not.1 htop, not_not.1 hksel]; rfl
    _ = w := append_fields_FK w

/-- Settles O2: an accepted word is its format's word for the opcode and the operands read. -/
theorem encodeOfDecodeIsTheWord : Obligations.EncodeOfDecodeIsTheWord := by
  intro w i h
  refine ⟨decode_wellFormed h, ?_⟩
  have hop := opField_of_decode h
  unfold decode at h
  split at h
  case h_8 =>
    obtain ⟨c, n, v, rfl, hw⟩ := encodeFK_of_decodeFK h
    rwa [hop, encode, opField_encodeFK] at hw
  case h_9 | h_10 | h_11 | h_12 | h_13 =>
    obtain ⟨k, rfl, hw⟩ := encodeFS_of_decodeFS h
    rwa [hop, encode, opField_encodeFS] at hw
  case h_18 => cases h
  all_goals
    have hw := encodeF0_of_decodeF0 h
    rw [decodeF0_ok h] at hop ⊢
    rwa [hop, encode, opField_encodeF0] at hw

end Sys2Proof.Machine

/-! SUPPORT. The decode checks of rule R113 as arithmetic on the word, and the format that an opcode of rule R112 selects. -/

namespace Sys2Proof.Machine

/-- A field of a word is zero where its bits are. -/
theorem extractLsb'_eq_zero_iff (w : Word) (i n : Nat) : w.extractLsb' i n = 0 ↔ w.toNat / 2 ^ i % 2 ^ n = 0 := by
  rw [← BitVec.toNat_inj, BitVec.extractLsb'_toNat, Nat.shiftRight_eq_div_pow]
  rfl

theorem opField_toNat (w : Word) : (opField w).toNat = w.toNat % 256 := BitVec.extractLsb'_toNat 0 8 w

theorem ciphField_toNat (w : Word) : (ciphField w).toNat = w.toNat / 2 ^ 8 % 8 := by
  rw [ciphField, BitVec.extractLsb'_toNat, Nat.shiftRight_eq_div_pow]

theorem keynoField_toNat (w : Word) : (keynoField w).toNat = w.toNat / 2 ^ 12 % 16 := by
  rw [keynoField, BitVec.extractLsb'_toNat, Nat.shiftRight_eq_div_pow]

theorem topField_eq_zero_iff (w : Word) : topField w = 0 ↔ w.toNat / 2 ^ 24 = 0 := by
  have hw := w.isLt
  rw [topField, extractLsb'_eq_zero_iff]
  omega

/-- The checks of format F0 refuse a word with a bit above the opcode (rule R113). -/
theorem decodeF0_eq_error_iff (w : Word) (i : Instr) (e : DecodeError) :
    decodeF0 w i = .error e ↔ e = .badOperand ∧ w.toNat / 2 ^ 8 ≠ 0 := by
  have hbits : w.toNat / 2 ^ 8 ≠ 0 ↔ topField w ≠ 0 ∨ w.extractLsb' 8 16 ≠ 0 := by
    have hw := w.isLt
    simp only [ne_eq, topField_eq_zero_iff, extractLsb'_eq_zero_iff]
    omega
  rw [hbits, decodeF0]
  split <;> [skip; split] <;> simp_all [@eq_comm _ DecodeError.badOperand e]

/-- The checks of format FS refuse a word with a bit above the opcode other than KSEL (rule R113). -/
theorem decodeFS_eq_error_iff (w : Word) (f : KeySel → Instr) (e : DecodeError) :
    decodeFS w f = .error e ↔ e = .badOperand ∧ (w.toNat / 2 ^ 8 % 8 ≠ 0 ∨ w.toNat / 2 ^ 12 ≠ 0) := by
  have hbits : w.toNat / 2 ^ 8 % 8 ≠ 0 ∨ w.toNat / 2 ^ 12 ≠ 0 ↔
      topField w ≠ 0 ∨ ciphField w ≠ 0 ∨ w.extractLsb' 12 12 ≠ 0 := by
    have hw := w.isLt
    simp only [ne_eq, ciphField, topField_eq_zero_iff, extractLsb'_eq_zero_iff]
    omega
  rw [hbits, decodeFS]
  split <;> [skip; split] <;> simp_all [@eq_comm _ DecodeError.badOperand e]

/-- The checks of format FK refuse a nonzero top byte or KSEL, a reserved CIPH and a KEYNO over 13 (rule R113). -/
theorem decodeFK_eq_error_iff (w : Word) (f : Option Family → BitVec 4 → Byte → Instr) (e : DecodeError) :
    decodeFK w f = .error e ↔ e = .badOperand ∧ (w.toNat / 2 ^ 24 ≠ 0 ∨
      w.toNat / 2 ^ 11 % 2 ≠ 0 ∨ 4 < w.toNat / 2 ^ 8 % 8 ∨ 13 < w.toNat / 2 ^ 12 % 16) := by
  have hksel : w.toNat / 2 ^ 11 % 2 = 0 ↔ kselField w = 0 := (extractLsb'_eq_zero_iff w 11 1).symm
  simp only [ne_eq, hksel, ← topField_eq_zero_iff, ← ciphField_toNat, ← keynoField_toNat, ← ciphOfField_eq_none_iff]
  have hsymm := @eq_comm _ DecodeError.badOperand e
  rw [decodeFK]
  split
  case isTrue htop => simp_all
  split
  case isTrue hset => simp_all
  split
  case h_1 hciph => simp_all
  split <;> simp_all

/-- The opcodes of format F0 (rule R112). -/
def f0Opcodes : List Nat := [0x00, 0x01, 0x02, 0x03, 0x04, 0x08, 0x09, 0x30, 0x31, 0x32, 0x33]

/-- The opcodes of format FS (rule R112). -/
def fsOpcodes : List Nat := [0x11, 0x12, 0x13, 0x20, 0x21]

theorem decode_of_mem_f0Opcodes {w : Word} (h : w.toNat % 256 ∈ f0Opcodes) : ∃ i, decode w = decodeF0 w i := by
  rw [← opField_toNat] at h
  simp only [f0Opcodes, List.mem_cons, List.not_mem_nil, or_false] at h
  rcases h with h | h | h | h | h | h | h | h | h | h | h <;> rw [decode, h] <;> exact ⟨_, rfl⟩

theorem decode_of_mem_fsOpcodes {w : Word} (h : w.toNat % 256 ∈ fsOpcodes) : ∃ f, decode w = decodeFS w f := by
  rw [← opField_toNat] at h
  simp only [fsOpcodes, List.mem_cons, List.not_mem_nil, or_false] at h
  rcases h with h | h | h | h | h <;> rw [decode, h] <;> exact ⟨_, rfl⟩

theorem decode_of_kloadOpcode {w : Word} (h : w.toNat % 256 = 0x10) : decode w = decodeFK w .kload := by
  rw [decode, opField_toNat, h]
  rfl

theorem decode_of_noOpcode {w : Word} (h : w.toNat % 256 ∉ f0Opcodes ++ fsOpcodes ++ [0x10]) :
    decode w = .error .badOpcode := by
  rw [← opField_toNat] at h
  unfold decode
  split
  case h_18 => rfl
  all_goals
    rename_i hop
    exact absurd (hop ▸ h) (by decide)

/-- An opcode's word fails its checks with BAD_OPERAND, and so where its top byte is not zero (rule R113). -/
theorem decode_eq_error_of_opcode {w : Word} (h : w.toNat % 256 ∈ f0Opcodes ++ fsOpcodes ++ [0x10]) :
    decode w ≠ .error .badOpcode ∧ (w.toNat / 2 ^ 24 ≠ 0 → decode w = .error .badOperand) := by
  rcases List.mem_append.1 h with h | h
  · rcases List.mem_append.1 h with h | h
    · obtain ⟨i, hd⟩ := decode_of_mem_f0Opcodes h
      rw [hd, ne_eq, decodeF0_eq_error_iff, decodeF0_eq_error_iff]
      exact ⟨nofun, fun ht => ⟨rfl, by omega⟩⟩
    · obtain ⟨f, hd⟩ := decode_of_mem_fsOpcodes h
      rw [hd, ne_eq, decodeFS_eq_error_iff, decodeFS_eq_error_iff]
      exact ⟨nofun, fun ht => ⟨rfl, by omega⟩⟩
  · rw [decode_of_kloadOpcode (List.mem_singleton.1 h), ne_eq, decodeFK_eq_error_iff, decodeFK_eq_error_iff]
    exact ⟨nofun, fun ht => ⟨rfl, .inl ht⟩⟩

/-- The completion step of a word that is no command (rules R113 and R311). -/
theorem step_of_decode_error {s : State} {e : DecodeError} (hd : completionDue s = true)
    (he : decode s.latch.cmd = .error e) : step s = .next (rejectWord s e) := by
  rw [step, if_pos hd, complete, he]

theorem rejectWord_failsWith (s : State) (e : DecodeError) : FailsWith s (rejectWord s e) (decodeErrCode e) 0 :=
  fail_failsWith s (by cases e <;> decide) 0

/-- The issue of a word that is no command leaves AUTH_STATE alone (rule R113). -/
theorem issueAuthState_of_decode_error {w : Word} {e : DecodeError} (h : decode w = .error e) (a : AuthState) :
    issueAuthState w a = a := by
  rw [issueAuthState, h]

/-- Settles O3: the opcode is looked up first, then the checks of its format decide; a word that fails one is rejected. -/
theorem decodeChecksFollowTheirOrder : Obligations.DecodeChecksFollowTheirOrder := by
  refine ⟨fun w => ⟨decode_of_noOpcode, fun h => (decode_eq_error_of_opcode h).1, fun h => (decode_eq_error_of_opcode h).2,
    fun h _ => ?_, fun h _ => ?_, fun h ht => ?_⟩, fun s e he hd => ?_, fun w s e he => issueAuthState_of_decode_error he _⟩
  · obtain ⟨i, hd⟩ := decode_of_mem_f0Opcodes h
    rw [hd, decodeF0_eq_error_iff, and_iff_right rfl]
  · obtain ⟨f, hd⟩ := decode_of_mem_fsOpcodes h
    rw [hd, decodeFS_eq_error_iff, and_iff_right rfl]
  · rw [decode_of_kloadOpcode h, decodeFK_eq_error_iff, and_iff_right rfl, or_iff_right (not_not.2 ht)]
  · refine ⟨_, step_of_decode_error hd he, ?_⟩
    cases e <;> exact rejectWord_failsWith s _

end Sys2Proof.Machine

/-! SUPPORT. No step refuses (rule R115): a due completion completes, and the host's operation steps or faults on the bus. -/

namespace Sys2Proof.Machine

theorem hostWrite_unrefused (s : State) (width off : Nat) (v : Word) : Unrefused (hostWrite s width off v) := by
  unfold hostWrite
  split <;> trivial

theorem hostRead_unrefused (s : State) (width off x : Nat) : Unrefused (hostRead s width off x) := by
  unfold hostRead
  split <;> trivial

theorem hostOp_unrefused (s : State) (op : HostOp) : Unrefused (hostOp s op) := by
  cases op with
  | write width off v => exact hostWrite_unrefused s width off v
  | writeTemp width off x => exact hostWrite_unrefused s width off _
  | read width off x => exact hostRead_unrefused s width off x
  | bnz | bz => trivial

theorem hostStep_unrefused (s : State) : Unrefused (hostStep s) := by
  unfold hostStep
  split
  · exact hostOp_unrefused s _
  · trivial

/-- A due completion completes, whatever word is latched (rules R113 and R115). -/
theorem step_of_completionDue {s : State} (hd : completionDue s = true) :
    ∃ t, step s = .next t ∧ t.busy = false ∧ t.done = true ∧ SameInputs s t := by
  cases h : decode s.latch.cmd with
  | ok i =>
    obtain ⟨t, ht⟩ := exec_next i s
    have he := exec_effect ht
    obtain ⟨hbusy, hdone⟩ := he.completes
    exact ⟨t, by rw [step, if_pos hd, complete, h]; exact ht, hbusy, hdone, he.sameInputs⟩
  | error e => exact ⟨_, step_of_decode_error hd h, rfl, rfl, (rejectWord_failsWith s e).inputs⟩

theorem step_unrefused (s : State) : Unrefused (step s) := by
  cases hd : completionDue s with
  | true =>
    obtain ⟨t, ht, -⟩ := step_of_completionDue hd
    rw [ht]
    trivial
  | false =>
    rw [step, hd, if_neg Bool.false_ne_true]
    exact hostStep_unrefused _

/-- Settles O58: a due completion completes, and the step right after an issue is one. -/
theorem everyStepHasAnOutcome : Obligations.EveryStepHasAnOutcome := by
  refine ⟨step_unrefused, fun s hd => step_of_completionDue hd, fun s w => ?_⟩
  obtain ⟨t, ht, hbusy, hdone, hinputs⟩ := step_of_completionDue (s := issueWith s w 0) rfl
  exact ⟨t, ht, hbusy, hdone, hinputs.cmd⟩

end Sys2Proof.Machine

/-! SUPPORT. The start code of a frame (rules R140 and R147): where the first one stands, and what bytes around it change. -/

namespace Sys2Proof.Machine

@[simp] theorem isStart_cons_succ (x : Byte) (b : List Byte) (i : Nat) : IsStart (x :: b) (i + 1) ↔ IsStart b i := by
  simp [IsStart]

/-- No start code is found where there is none. -/
theorem findStart_eq_none_iff (b : List Byte) : findStart b = none ↔ ∀ i, ¬ IsStart b i := by
  induction b using findStart.induct with
  | case1 => simp [findStart, IsStart]
  | case2 x => simp [findStart, IsStart]
  | case3 x y b h => exact iff_of_false (by simp [findStart, h]) fun hn => hn 0 (by simp [IsStart, h])
  | case4 x y b h ih =>
    rw [findStart, if_neg h, Option.map_eq_none_iff, ih]
    refine ⟨fun hn i => ?_, fun hn i => by simpa using hn (i + 1)⟩
    cases i with
    | zero => simpa [IsStart] using h
    | succ i => simpa using hn i

/-- A first start code splits the bytes into noise without one and what follows it. -/
theorem FirstStart.split {b : List Byte} {s : Nat} (h : FirstStart b s) :
    ∃ pre r, b = pre ++ 0x00 :: 0xFF :: r ∧ pre.length = s ∧ findStart pre = none := by
  obtain ⟨⟨h0, h1⟩, hmin⟩ := h
  obtain ⟨hs, e0⟩ := List.getElem?_eq_some_iff.1 h0
  obtain ⟨hs', e1⟩ := List.getElem?_eq_some_iff.1 h1
  refine ⟨b.take s, b.drop (s + 2), ?_, by simp; omega, ?_⟩
  · rw [← e0, ← e1, ← List.drop_eq_getElem_cons, ← List.drop_eq_getElem_cons, List.take_append_drop]
  · refine (findStart_eq_none_iff _).2 fun j ⟨hj, hj'⟩ => ?_
    obtain ⟨hlt, -⟩ := List.getElem?_eq_some_iff.1 hj'
    have hlt : j + 1 < s := by simp at hlt; omega
    rw [List.getElem?_take_of_lt (by omega)] at hj hj'
    exact hmin j (by omega) ⟨hj, hj'⟩

/-- Behind noise without a start code, the first one is the one written there. -/
theorem findStart_append_start {pre : List Byte} (h : findStart pre = none) (r : List Byte) :
    findStart (pre ++ 0x00 :: 0xFF :: r) = some pre.length := by
  induction pre using findStart.induct with
  | case1 => rfl
  | case2 x => simp [findStart]
  | case3 x y b hxy => simp [findStart, hxy] at h
  | case4 x y b hxy ih =>
    rw [findStart, if_neg hxy, Option.map_eq_none_iff] at h
    rw [List.cons_append, List.cons_append, findStart, if_neg hxy, ← List.cons_append, ih h]
    rfl

/-- Behind noise without a start code, a byte 00 makes none. -/
theorem findStart_concat_zero {b : List Byte} (h : findStart b = none) : findStart (b ++ [0x00]) = none := by
  induction b using findStart.induct with
  | case1 => rfl
  | case2 x => simp [findStart]
  | case3 x y b hxy => simp [findStart, hxy] at h
  | case4 x y b hxy ih =>
    rw [findStart, if_neg hxy, Option.map_eq_none_iff] at h
    rw [List.cons_append, List.cons_append, findStart, if_neg hxy, ← List.cons_append, ih h]
    rfl

/-- Bytes received later leave the first start code where it is. -/
theorem FirstStart.append {b : List Byte} {s : Nat} (h : FirstStart b s) (c : List Byte) : FirstStart (b ++ c) s := by
  obtain ⟨⟨h0, h1⟩, hmin⟩ := h
  obtain ⟨hs, -⟩ := List.getElem?_eq_some_iff.1 h1
  have old {i : Nat} (hi : i < b.length) : (b ++ c)[i]? = b[i]? := List.getElem?_append_left hi
  refine ⟨⟨by rwa [old (by omega)], by rwa [old hs]⟩, fun j hj => ?_⟩
  rw [IsStart, old (by omega), old (by omega)]
  exact hmin j hj

end Sys2Proof.Machine

/-! SUPPORT. The header parse as a function of the bytes behind the start code (rule R147): statement HeaderParseFollowsItsRule -/

namespace Sys2Proof.Machine

/-- The header of a frame in the extended form, from the bytes behind its marker `FF FF` (rule R147). -/
def longHeader (s : Nat) : List Byte → Parse Header
  | m :: l :: k :: _ =>
    if (m.toNat + l.toNat + k.toNat) % 256 ≠ 0 then .err .frameLenChecksum
    else lengthHeader s (decide (0 < s)) true (256 * m.toNat + l.toNat) (s + 7)
  | _ => .truncated (s + 7)

/-- The header of an ACK or NACK frame (rule R147). -/
def specialHeader (kind : FrameKind) (s : Nat) : Header :=
  { kind := kind, start := s, pre := decide (0 < s), ext := false, len := 0, hdr := s + 4,
    total := s + 4 + (decide (0 < s)).toNat }

/-- The header of a frame whose start code stands at `s`, from the bytes behind the start code (rule R147). -/
def codeHeader (s : Nat) : List Byte → Parse Header
  | c0 :: c1 :: r =>
    if c0 = 0x00 ∧ c1 = 0xFF then .ok (specialHeader .ack s)
    else if c0 = 0xFF ∧ c1 = 0x00 then .ok (specialHeader .nack s)
    else if c0 = 0xFF ∧ c1 = 0xFF then longHeader s r
    else if (c0.toNat + c1.toNat) % 256 ≠ 0 then .err .frameLenChecksum
    else lengthHeader s (decide (0 < s)) false c0.toNat (s + 4)
  | _ => .truncated (s + 4)

@[simp] theorem byteAt_cons_zero (x : Byte) (b : List Byte) : byteAt (x :: b) 0 = x := rfl

@[simp] theorem byteAt_cons_succ (x : Byte) (b : List Byte) (i : Nat) : byteAt (x :: b) (i + 1) = byteAt b i := rfl

theorem byteAt_append_right (a b : List Byte) (i : Nat) : byteAt (a ++ b) (a.length + i) = byteAt b i := by
  rw [byteAt, byteAt, List.getD_append_right _ _ _ _ (Nat.le_add_right _ _), Nat.add_sub_cancel_left]

theorem byteAt_append_left {a : List Byte} {i : Nat} (h : i < a.length) (b : List Byte) :
    byteAt (a ++ b) i = byteAt a i := by
  simp [byteAt, List.getD_eq_getElem?_getD, List.getElem?_append_left h]

theorem parseHeader_of_noStart {b : List Byte} (h : findStart b = none) :
    parseHeader b = .truncated (max 2 (b.length + 1)) := by rw [parseHeader, h]

/-- The extended form's branch of the header parse (rule R147). -/
theorem longHeader_eq (s : Nat) (r : List Byte) :
    longHeader s r =
      if r.length < 3 then .truncated (s + 7)
      else if ((byteAt r 0).toNat + (byteAt r 1).toNat + (byteAt r 2).toNat) % 256 ≠ 0 then .err .frameLenChecksum
      else lengthHeader s (decide (0 < s)) true (256 * (byteAt r 0).toNat + (byteAt r 1).toNat) (s + 7) := by
  match r with
  | [] | [_] | [_, _] => rfl
  | m :: l :: k :: r => rw [if_neg (by simp)]; rfl

/-- The header parse finds the start code behind noise without one, and reads what stands behind it. -/
theorem parseHeader_of_start {pre : List Byte} (h : findStart pre = none) (r : List Byte) :
    parseHeader (pre ++ 0x00 :: 0xFF :: r) = codeHeader pre.length r := by
  have byte (i : Nat) : byteAt (pre ++ 0x00 :: 0xFF :: r) (pre.length + (i + 2)) = byteAt r i := byteAt_append_right _ _ _
  have few (n : Nat) : (pre ++ 0x00 :: 0xFF :: r).length < pre.length + (n + 2) ↔ r.length < n := by simp
  rw [parseHeader, findStart_append_start h]
  simp only [few 2, few 5, byte 0, byte 1, byte 2, byte 3, byte 4]
  match r with
  | [] | [_] => rfl
  | c0 :: c1 :: r =>
    have many : ¬ (c0 :: c1 :: r).length < 2 := by simp
    have long : (c0 :: c1 :: r).length < 5 ↔ r.length < 3 := by simp only [List.length_cons]; omega
    rw [if_neg many, codeHeader, longHeader_eq]
    simp only [long, byteAt_cons_zero, byteAt_cons_succ]
    rfl

/-- Either there is no start code, or the header is read behind the first one. -/
theorem start_cases (b : List Byte) :
    findStart b = none ∨ ∃ pre r, b = pre ++ 0x00 :: 0xFF :: r ∧ findStart pre = none := by
  refine or_iff_not_imp_left.2 fun h => ?_
  rw [findStart_eq_none_iff] at h
  push Not at h
  classical
  obtain ⟨pre, r, hb, -, hpre⟩ :=
    FirstStart.split (b := b) (s := Nat.find h) ⟨Nat.find_spec h, fun j hj => Nat.find_min h hj⟩
  exact ⟨pre, r, hb, hpre⟩

theorem lengthHeader_zero (s : Nat) (p ext : Bool) (hdr : Nat) : lengthHeader s p ext 0 hdr = .err .frameBadCode := rfl

theorem lengthHeader_of_ne_zero (s : Nat) (p ext : Bool) {l : Nat} (hl : l ≠ 0) (hdr : Nat) :
    lengthHeader s p ext l hdr = .ok ⟨.data, s, p, ext, l, hdr, hdr + l + 1 + p.toNat⟩ := if_neg hl

theorem lengthHeader_ne_truncated (s : Nat) (p ext : Bool) (l hdr need : Nat) :
    lengthHeader s p ext l hdr ≠ .truncated need := by
  unfold lengthHeader
  split <;> nofun

theorem longHeader_truncated_iff (s need : Nat) (r : List Byte) :
    longHeader s r = .truncated need ↔ r.length < 3 ∧ need = s + 7 := by
  rw [longHeader_eq]
  split
  case isTrue h => simp [h, eq_comm]
  split <;> simp [lengthHeader_ne_truncated, *]

theorem longHeader_of_badSum (s : Nat) {m l k : Byte} (h : (m.toNat + l.toNat + k.toNat) % 256 ≠ 0) (r : List Byte) :
    longHeader s (m :: l :: k :: r) = .err .frameLenChecksum := if_pos h

theorem longHeader_of_goodSum (s : Nat) {m l k : Byte} (h : (m.toNat + l.toNat + k.toNat) % 256 = 0) (r : List Byte) :
    longHeader s (m :: l :: k :: r) = lengthHeader s (decide (0 < s)) true (256 * m.toNat + l.toNat) (s + 7) :=
  if_neg (not_not.2 h)

/-- The three pairs of code bytes that are no length field (rule R140). -/
def SpecialCode (c0 c1 : Byte) : Prop := (c0 = 0x00 ∧ c1 = 0xFF) ∨ (c0 = 0xFF ∧ c1 = 0x00) ∨ (c0 = 0xFF ∧ c1 = 0xFF)

theorem codeHeader_of_not_special (s : Nat) {c0 c1 : Byte} (h : ¬ SpecialCode c0 c1) (r : List Byte) :
    codeHeader s (c0 :: c1 :: r) =
      if (c0.toNat + c1.toNat) % 256 ≠ 0 then .err .frameLenChecksum
      else lengthHeader s (decide (0 < s)) false c0.toNat (s + 4) := by
  obtain ⟨h1, h2, h3⟩ : _ ∧ _ ∧ _ := by simpa only [SpecialCode, not_or] using h
  rw [codeHeader, if_neg h1, if_neg h2, if_neg h3]

/-- A length field with a good checksum is no special code (rule R142). -/
theorem codeHeader_of_goodSum (s : Nat) {c0 c1 : Byte} (h : (c0.toNat + c1.toNat) % 256 = 0) (r : List Byte) :
    codeHeader s (c0 :: c1 :: r) = lengthHeader s (decide (0 < s)) false c0.toNat (s + 4) := by
  rw [codeHeader_of_not_special, if_neg (not_not.2 h)]
  rintro (⟨rfl, rfl⟩ | ⟨rfl, rfl⟩ | ⟨rfl, rfl⟩) <;> exact absurd h (by decide)

/-- A header asks for more bytes where its two code bytes are not there, or where they are the marker `FF FF` and its length field
is not there (rule R147). -/
theorem codeHeader_truncated_iff (s need : Nat) (r : List Byte) :
    codeHeader s r = .truncated need ↔
      (r.length < 2 ∧ need = s + 4) ∨ ([0xFF, 0xFF] <+: r ∧ r.length < 5 ∧ need = s + 7) := by
  match r with
  | [] => simp [codeHeader, @eq_comm _ need]
  | [_] => simp [codeHeader, @eq_comm _ need]
  | c0 :: c1 :: r =>
    have many : ¬ (c0 :: c1 :: r).length < 2 := by simp
    have long : (c0 :: c1 :: r).length < 5 ↔ r.length < 3 := by simp only [List.length_cons]; omega
    have marker : [0xFF, 0xFF] <+: c0 :: c1 :: r ↔ c0 = 0xFF ∧ c1 = 0xFF := by simp [@eq_comm _ c0, @eq_comm _ c1]
    rw [codeHeader, marker, long]
    by_cases hm : c0 = 0xFF ∧ c1 = 0xFF
    · simp [hm, longHeader_truncated_iff]
    · simp only [hm, many, if_false, false_and, or_false, iff_false]
      split <;> [nofun; skip]
      split <;> [nofun; skip]
      split <;> [nofun; exact lengthHeader_ne_truncated _ _ _ _ _ _]

/-- Bytes received later do not change a header that was read. -/
theorem codeHeader_append {s : Nat} {r : List Byte} (h : ∀ need, codeHeader s r ≠ .truncated need) (c : List Byte) :
    codeHeader s (r ++ c) = codeHeader s r := by
  match r with
  | [] | [_] => exact absurd rfl (h (s + 4))
  | c0 :: c1 :: r =>
    have long (hm : c0 = 0xFF ∧ c1 = 0xFF) : longHeader s (r ++ c) = longHeader s r := by
      match r with
      | [] | [_] | [_, _] => exact absurd ((codeHeader_truncated_iff _ _ _).2 (.inr ⟨by simp [hm], by simp, rfl⟩)) (h (s + 7))
      | _ :: _ :: _ :: _ => rfl
    rw [List.cons_append, List.cons_append, codeHeader, codeHeader]
    by_cases hm : c0 = 0xFF ∧ c1 = 0xFF
    · rw [long hm]
    · simp only [hm, if_false]

/-- A truncated header asks for more bytes than there are, and keeps its answer until they are there. -/
theorem codeHeader_truncated_append {s need : Nat} {r : List Byte} (h : codeHeader s r = .truncated need) :
    s + (r.length + 2) < need ∧
      ∀ c : List Byte, s + ((r ++ c).length + 2) < need → codeHeader s (r ++ c) = .truncated need := by
  rcases (codeHeader_truncated_iff s need r).1 h with ⟨hr, rfl⟩ | ⟨hm, hr, rfl⟩
  · exact ⟨by omega, fun c hc => (codeHeader_truncated_iff _ _ _).2 (.inl ⟨by omega, rfl⟩)⟩
  · exact ⟨by omega, fun c hc =>
      (codeHeader_truncated_iff _ _ _).2 (.inr ⟨hm.trans (List.prefix_append r c), by omega, rfl⟩)⟩

/-- Bytes received later do not change a header parse that asked for none (rule R147). -/
theorem parseHeader_append {b : List Byte} (h : ∀ need, parseHeader b ≠ .truncated need) (c : List Byte) :
    parseHeader (b ++ c) = parseHeader b := by
  rcases start_cases b with hb | ⟨pre, r, rfl, hpre⟩
  · exact absurd (parseHeader_of_noStart hb) (h _)
  · rw [parseHeader_of_start hpre] at h
    rw [List.append_assoc, List.cons_append, List.cons_append, parseHeader_of_start hpre, parseHeader_of_start hpre,
      codeHeader_append h]

/-- A truncated header parse asks for more bytes than there are, and keeps its answer until they are there (rule R147). -/
theorem parseHeader_truncated_append {b : List Byte} {need : Nat} (h : parseHeader b = .truncated need) (c : List Byte) :
    b.length < need ∧ ((b ++ c).length < need → parseHeader (b ++ c) = .truncated need) := by
  rcases start_cases b with hb | ⟨pre, r, rfl, hpre⟩
  · obtain rfl : max 2 (b.length + 1) = need := by simpa [parseHeader_of_noStart hb] using h
    refine ⟨by omega, fun hc => ?_⟩
    rw [List.length_append] at hc
    match b, c with
    | b, [] => rw [List.append_nil, parseHeader_of_noStart hb]
    | [], [_] => rfl
    | [], _ :: _ :: _ | _ :: _, _ :: _ => simp only [List.length_cons, List.length_nil] at hc; omega
  · rw [parseHeader_of_start hpre] at h
    obtain ⟨hlt, hkeep⟩ := codeHeader_truncated_append h
    refine ⟨by simpa using hlt, fun hc => ?_⟩
    rw [List.append_assoc, List.cons_append, List.cons_append, parseHeader_of_start hpre]
    exact hkeep c (by simp only [List.length_append, List.length_cons] at hc ⊢; omega)

theorem eq_cons_cons_of_getElem? {r : List Byte} {x y : Byte} (h0 : r[0]? = some x) (h1 : r[1]? = some y) :
    ∃ q, r = x :: y :: q := by
  match r with
  | [] | [_] => simp at h1
  | _ :: _ :: q => simp_all

/-- Settles O23: the parse is that of the bytes behind the first start code, so each case reads off `codeHeader`. -/
theorem headerParseFollowsItsRule : Obligations.HeaderParseFollowsItsRule := by
  refine ⟨fun b h => parseHeader_of_noStart ((findStart_eq_none_iff b).2 h), fun b s h => ?_, fun b c s h => h.append c,
    fun b c need h => parseHeader_truncated_append h c, fun b c h hb => ?_, fun b c e hb => ?_⟩
  · obtain ⟨pre, r, rfl, rfl, hpre⟩ := h.split
    have byte (i : Nat) : (pre ++ 0x00 :: 0xFF :: r)[pre.length + (i + 2)]? = r[i]? := by
      rw [List.getElem?_append_right (Nat.le_add_right _ _), Nat.add_sub_cancel_left]; rfl
    have few (n : Nat) : (pre ++ 0x00 :: 0xFF :: r).length < pre.length + (n + 2) ↔ r.length < n := by simp
    simp only [parseHeader_of_start hpre, few 2, few 5, byte 0, byte 1, byte 2, byte 3, byte 4]
    refine ⟨fun hr => (codeHeader_truncated_iff _ _ _).2 (.inl ⟨hr, rfl⟩), fun c0 c1 h0 h1 => ?_⟩
    obtain ⟨r, rfl⟩ := eq_cons_cons_of_getElem? h0 h1
    refine ⟨fun e0 e1 => ?_, fun e0 e1 => ?_, fun e0 e1 => ⟨fun hr => ?_, fun m l k hm hl hk => ?_⟩, fun n1 n2 n3 => ?_⟩
    · subst e0 e1; rfl
    · subst e0 e1; rfl
    · subst e0 e1
      exact (longHeader_truncated_iff _ _ _).2 ⟨by simp only [List.length_cons] at hr; omega, rfl⟩
    · subst e0 e1
      obtain ⟨r, rfl⟩ := eq_cons_cons_of_getElem? hm hl
      obtain ⟨r, rfl⟩ : ∃ q, r = k :: q := List.head?_eq_some_iff.1 (List.head?_eq_getElem?.trans hk)
      refine ⟨fun hs => longHeader_of_badSum _ hs r, fun hs m0 l0 => ?_, fun hs hn => ?_⟩
      · subst m0 l0
        exact (longHeader_of_goodSum _ hs r).trans (lengthHeader_zero ..)
      · refine (longHeader_of_goodSum _ hs r).trans (lengthHeader_of_ne_zero _ _ _ (fun h0 => hn ?_) _)
        simp only [BitVec.ofNat_eq_ofNat, ← BitVec.toNat_inj, BitVec.toNat_ofNat]
        omega
    · have hn : ¬ SpecialCode c0 c1 := not_or.2 ⟨n1, not_or.2 ⟨n2, n3⟩⟩
      refine ⟨fun hs => (codeHeader_of_not_special _ hn r).trans (if_pos hs), fun hs h0 => ?_, fun hs h0 => ?_⟩
      · subst h0
        exact (codeHeader_of_goodSum _ hs r).trans (lengthHeader_zero ..)
      · refine (codeHeader_of_goodSum _ hs r).trans (lengthHeader_of_ne_zero _ _ _ (fun h => h0 ?_) _)
        exact BitVec.eq_of_toNat_eq h
  · rw [parseHeader_append (by simp [hb]), hb]
  · rw [parseHeader_append (by simp [hb]), hb]

end Sys2Proof.Machine

/-! SUPPORT. The full parse (rule R149): statement FullParseFollowsItsRule -/

namespace Sys2Proof.Machine

/-- What an accepted data field is read as: ERROR, a length-1 field that is none, or INFO (rule R149). -/
def dataFrame (h : Header) (d : List Byte) : Parse Frame :=
  if h.len = 1 then if byteAt d 0 = 0x7F then .ok (plainFrame h .error) else .err .frameBadCode
  else
    .ok { kind := .info, start := h.start, pre := h.pre, ext := h.ext, len := h.len, total := h.total,
          tfi := byteAt d 0, fcmd := byteAt d 1, payload := d.drop 2 }

/-- The checks of a whole frame with a length field, in their order (rule R149). -/
theorem parseData_eq (b : List Byte) (h : Header) :
    parseData b h =
      if (sumBytes (slice b h.hdr (h.hdr + h.len)) + (byteAt b (h.hdr + h.len)).toNat) % 256 ≠ 0 then .err .frameDataChecksum
      else if badPostamble b h (h.hdr + h.len + 1) then .err .frameBadPostamble
      else dataFrame h (slice b h.hdr (h.hdr + h.len)) := by
  rw [slice, Nat.add_sub_cancel_left]
  rfl

/-- What an accepted header says (rule R147): an ACK or NACK frame ends right behind its code bytes, any other behind its data field
and checksum, and a postamble follows where there is a preamble. -/
structure AcceptedHeader (h : Header) : Prop where
  kind : h.kind = .ack ∨ h.kind = .nack ∨ h.kind = .data
  special : h.kind = .ack ∨ h.kind = .nack → h.ext = false ∧ h.len = 0 ∧ h.total = h.start + 4 + h.pre.toNat
  data : h.kind = .data → h.len ≠ 0 ∧ h.start + 4 ≤ h.hdr ∧ h.total = h.hdr + h.len + 1 + h.pre.toNat

theorem AcceptedHeader.of_special {kind : FrameKind} (hk : kind = .ack ∨ kind = .nack) (s : Nat) :
    AcceptedHeader (specialHeader kind s) :=
  ⟨by rcases hk with rfl | rfl <;> simp [specialHeader], fun _ => ⟨rfl, rfl, rfl⟩,
    fun h => by rcases hk with rfl | rfl <;> cases h⟩

theorem AcceptedHeader.of_lengthHeader {s l hdr : Nat} {p ext : Bool} {h : Header} (hd : s + 4 ≤ hdr)
    (e : lengthHeader s p ext l hdr = .ok h) : AcceptedHeader h := by
  unfold lengthHeader at e
  split at e <;> cases e
  exact ⟨.inr (.inr rfl), fun h => (by rcases h with h | h <;> cases h), fun _ => ⟨‹_›, hd, rfl⟩⟩

theorem AcceptedHeader.of_codeHeader {s : Nat} {r : List Byte} {h : Header} (e : codeHeader s r = .ok h) : AcceptedHeader h := by
  match r with
  | [] | [_] => cases e
  | c0 :: c1 :: r =>
    rw [codeHeader, longHeader_eq] at e
    split at e
    · cases e; exact .of_special (.inl rfl) s
    split at e
    · cases e; exact .of_special (.inr rfl) s
    split at e
    · split at e <;> [cases e; skip]
      split at e <;> [cases e; exact .of_lengthHeader (by omega) e]
    · split at e <;> [cases e; exact .of_lengthHeader le_rfl e]

theorem AcceptedHeader.of_parseHeader {b : List Byte} {h : Header} (e : parseHeader b = .ok h) : AcceptedHeader h := by
  rcases start_cases b with hb | ⟨pre, r, rfl, hpre⟩
  · rw [parseHeader_of_noStart hb] at e; cases e
  · rw [parseHeader_of_start hpre] at e
    exact .of_codeHeader e

theorem parseFrame_of_truncated {b : List Byte} {need : Nat} (h : parseHeader b = .truncated need) :
    parseFrame b = .truncated need := by rw [parseFrame, h]

theorem parseFrame_of_err {b : List Byte} {e : ErrCode} (h : parseHeader b = .err e) : parseFrame b = .err e := by
  rw [parseFrame, h]

theorem parseFrame_of_short {b : List Byte} {h : Header} (hh : parseHeader b = .ok h) (hb : b.length < h.total) :
    parseFrame b = .truncated h.total := by
  rw [parseFrame, hh]
  exact if_pos hb

/-- The parse of a whole ACK or NACK frame (rule R149). -/
theorem parseFrame_of_special {b : List Byte} {h : Header} (hh : parseHeader b = .ok h) (hb : h.total ≤ b.length)
    (hk : h.kind = .ack ∨ h.kind = .nack) :
    parseFrame b = if badPostamble b h (h.start + 4) then .err .frameBadPostamble else .ok (plainFrame h h.kind) := by
  simp only [parseFrame, hh, Nat.not_lt.2 hb, if_false]
  rcases hk with hk | hk <;> rw [hk]

/-- The parse of a whole frame with a length field (rule R149). -/
theorem parseFrame_of_data {b : List Byte} {h : Header} (hh : parseHeader b = .ok h) (hb : h.total ≤ b.length)
    (hk : h.kind = .data) : parseFrame b = parseData b h := by
  simp only [parseFrame, hh, Nat.not_lt.2 hb, if_false, hk]

/-- A frame comes of an accepted header whose frame is there whole. -/
theorem parseFrame_header {b : List Byte} {f : Frame} (e : parseFrame b = .ok f) :
    ∃ h, parseHeader b = .ok h ∧ h.total ≤ b.length := by
  cases hh : parseHeader b with
  | truncated need => rw [parseFrame_of_truncated hh] at e; cases e
  | err code => rw [parseFrame_of_err hh] at e; cases e
  | ok h =>
    refine ⟨h, rfl, not_lt.1 fun hb => ?_⟩
    rw [parseFrame_of_short hh hb] at e
    cases e

theorem getElem?_eq_some_byteAt {b : List Byte} {i : Nat} (h : i < b.length) : b[i]? = some (byteAt b i) := by
  simp [byteAt, h]

theorem byteAt_of_getElem? {b : List Byte} {i : Nat} {x : Byte} (h : b[i]? = some x) : byteAt b i = x := by
  simp [byteAt, List.getD_eq_getElem?_getD, h]

/-- A postamble is wrong where one is expected and another byte than 00 stands there (rule R149). -/
theorem badPostamble_iff {b : List Byte} {h : Header} {i : Nat} (hi : i + h.pre.toNat ≤ b.length) :
    badPostamble b h i = true ↔ h.pre = true ∧ b[i]? ≠ some 0x00 := by
  rw [badPostamble, Bool.and_eq_true, decide_eq_true_iff]
  refine and_congr_right fun hp => ?_
  rw [hp] at hi
  rw [getElem?_eq_some_byteAt hi, ne_eq, ne_eq, Option.some_inj]

/-- A postamble is right where none is expected, or 00 stands there (rule R149). -/
theorem badPostamble_eq_false {b : List Byte} {h : Header} {i : Nat} (hi : i + h.pre.toNat ≤ b.length)
    (hq : h.pre = false ∨ b[i]? = some 0x00) : badPostamble b h i = false := by
  rw [← Bool.not_eq_true, badPostamble_iff hi]
  rintro ⟨hp, hne⟩
  exact hq.elim (by simp [hp]) hne

theorem byteAt_slice {i j k : Nat} (b : List Byte) (h : i + k < j) : byteAt (slice b i j) k = byteAt b (i + k) := by
  have hk : k < j - i := by omega
  simp [byteAt, slice, List.getD_eq_getElem?_getD, hk]

/-- Byte strings that agree over a range have the same slice there. -/
theorem slice_congr {b c : List Byte} {i j : Nat} (hb : j ≤ b.length) (hc : j ≤ c.length)
    (h : ∀ k, i ≤ k → k < j → byteAt b k = byteAt c k) : slice b i j = slice c i j := by
  refine bytes_ext (by rw [slice_length, slice_length]; omega) fun k hk => ?_
  rw [slice_length] at hk
  calc byteAt (slice b i j) k = byteAt b (i + k) := byteAt_slice b (by omega)
    _ = byteAt c (i + k) := h _ (by omega) (by omega)
    _ = byteAt (slice c i j) k := (byteAt_slice c (by omega)).symm

/-- The full parse of a whole frame reads nothing before the start code's second byte and nothing behind the frame's end. -/
theorem parseFrame_congr {b c : List Byte} {h : Header} (hb : parseHeader b = .ok h) (hc : parseHeader c = .ok h)
    (tb : h.total ≤ b.length) (tc : h.total ≤ c.length)
    (hbytes : ∀ i, h.start < i → i < h.total → byteAt b i = byteAt c i) : parseFrame b = parseFrame c := by
  have postamble {i : Nat} (h1 : h.start < i) (h2 : i + h.pre.toNat ≤ h.total) :
      badPostamble b h i = badPostamble c h i := by
    cases hp : h.pre with
    | false => rw [badPostamble, badPostamble, hp]; rfl
    | true => rw [badPostamble, badPostamble, hbytes i h1 (by rw [hp] at h2; exact h2)]
  have ha := AcceptedHeader.of_parseHeader hb
  rcases or_assoc.2 ha.kind with hk | hk
  · obtain ⟨-, -, ht⟩ := ha.special hk
    rw [parseFrame_of_special hb tb hk, parseFrame_of_special hc tc hk, postamble (by omega) ht.ge]
  · obtain ⟨-, hd, ht⟩ := ha.data hk
    rw [parseFrame_of_data hb tb hk, parseFrame_of_data hc tc hk, parseData_eq, parseData_eq,
      slice_congr (by omega) (by omega) fun k h1 h2 => hbytes k (by omega) (by omega),
      hbytes _ (by omega) (by omega), postamble (by omega) ht.ge]

/-- Bytes behind a whole frame are ignored (rule R149). -/
theorem parseFrame_append {b : List Byte} {h : Header} (hb : parseHeader b = .ok h) (tb : h.total ≤ b.length) (c : List Byte) :
    parseFrame (b ++ c) = parseFrame b := by
  have hc : parseHeader (b ++ c) = .ok h := by rw [parseHeader_append (by simp [hb]), hb]
  exact parseFrame_congr hc hb (tb.trans (by simp)) tb fun i _ hi => byteAt_append_left (by omega) c

theorem dataFrame_error {h : Header} (hl : h.len = 1) :
    dataFrame h [0x7F] = .ok (plainFrame h .error) := (if_pos hl).trans (if_pos rfl)

theorem dataFrame_badCode {h : Header} (hl : h.len = 1) {x : Byte} (hx : x ≠ 0x7F) :
    dataFrame h [x] = .err .frameBadCode := (if_pos hl).trans (if_neg hx)

theorem dataFrame_info {h : Header} (hl : h.len ≠ 1) (x y : Byte) (p : List Byte) :
    dataFrame h (x :: y :: p) = .ok ⟨.info, h.start, h.pre, h.ext, h.len, h.total, x, y, p⟩ := if_neg hl

/-- Settles O25: the full parse by the header parse's answer, and by the kind of an accepted header. -/
theorem fullParseFollowsItsRule : Obligations.FullParseFollowsItsRule := by
  intro b
  refine ⟨fun need => parseFrame_of_truncated, fun e => parseFrame_of_err, fun h => parseFrame_of_short,
    fun h hh hb => ⟨fun hk => ?_, fun hk => ?_⟩, fun c f hf => ?_⟩
  · obtain ⟨hext, hlen, ht⟩ := (AcceptedHeader.of_parseHeader hh).special hk
    rw [parseFrame_of_special hh hb hk]
    refine ⟨fun hp hq => if_pos ((badPostamble_iff (ht ▸ hb)).2 ⟨hp, hq⟩), fun hq => ?_⟩
    rw [badPostamble_eq_false (ht ▸ hb) hq, plainFrame, hext, hlen]
    rfl
  · obtain ⟨hl, hd, ht⟩ := (AcceptedHeader.of_parseHeader hh).data hk
    rw [parseFrame_of_data hh hb hk, parseData_eq]
    intro d
    have hlen : d.length = h.len := by rw [slice_length]; omega
    refine ⟨fun c hc hs => ?_, fun c hc hs => ?_⟩
    · rw [byteAt_of_getElem? hc]
      exact if_pos hs
    · rw [byteAt_of_getElem? hc, if_neg (not_not.2 hs)]
      refine ⟨fun hp hq => if_pos ((badPostamble_iff (ht ▸ hb)).2 ⟨hp, hq⟩), fun hq => ?_⟩
      rw [badPostamble_eq_false (ht ▸ hb) hq, if_neg Bool.false_ne_true]
      refine ⟨fun he => ?_, fun h1 hne => ?_, fun x y p hxy => ?_⟩
      · have h1 : h.len = 1 := by rw [← hlen, he]; rfl
        rw [show slice _ _ _ = _ from he, dataFrame_error h1, plainFrame, h1]
      · obtain ⟨x, hx⟩ := List.length_eq_one_iff.1 (hlen.trans h1)
        rw [show slice _ _ _ = _ from hx]
        exact dataFrame_badCode h1 fun h7 => hne (h7 ▸ hx)
      · have h1 : h.len ≠ 1 := by rw [← hlen, hxy]; simp
        rw [show slice _ _ _ = _ from hxy, dataFrame_info h1]
  · obtain ⟨h, hh, hb⟩ := parseFrame_header hf
    rw [parseFrame_append hh hb, hf]

end Sys2Proof.Machine

/-! SUPPORT. The frame commands' words, results and completions (rules R113, R143 to R150): statements FixedFramesAreEncoded,
InfoFramesAreEncoded, FidentReportsTheHeader and FdecDeliversTheFrame -/

namespace Sys2Proof.Machine

/-- The words of an opcode of format F0 (rule R113): the command's own word, and words with a bit set above the opcode. -/
theorem wordsDecodeTo_of_decodeF0 {op : Byte} {i : Instr} (hi : WellFormed i = true)
    (hd : ∀ w, opField w = op → decode w = decodeF0 w i) : WordsDecodeTo op (· = i) := by
  intro w hw
  cases h : decode w with
  | ok j =>
    obtain rfl : j = i := decodeF0_ok ((hd w hw).symm.trans h)
    exact .inl ⟨j, rfl, (encodeOfDecodeIsTheWord w j h).2, rfl⟩
  | error e =>
    obtain ⟨rfl, -⟩ := (decodeF0_eq_error_iff w i e).1 ((hd w hw).symm.trans h)
    refine .inr ⟨?_, rfl⟩
    rintro _ rfl rfl
    rw [decodeOfEncodeIsTheCommand _ hi] at h
    cases h

theorem setWidth_append_eq_or {m n : Nat} (k : Nat) (x : BitVec m) (y : BitVec n) :
    (x ++ y).setWidth k = y.setWidth k ||| x.setWidth k <<< n := by
  ext i hi
  by_cases h : i < n
  · simp [BitVec.getLsbD_append, h]
  · simp [BitVec.getLsbD_append, h, BitVec.getLsbD_of_ge y i (by omega)]

theorem or_or_shiftLeft {w : Nat} (x y z : BitVec w) (m n : Nat) :
    z ||| (y ||| x <<< m) <<< n = z ||| y <<< n ||| x <<< (m + n) := by
  rw [BitVec.shiftLeft_or_distrib, ← BitVec.shiftLeft_add, BitVec.or_assoc]

/-- RES0 as the model puts it together, field by field, is the word of rule R148. -/
theorem frameWord_eq_rule (kind : FrameKind) (ext pre : Bool) (tfi fcmd : Byte) :
    frameWord kind ext pre tfi fcmd = ruleFrameWord (ruleKind kind) ext pre tfi fcmd := by
  have shifted (k : Nat) (z : BitVec 8) (o : BitVec 3) (p e : BitVec 1) (c : BitVec 3) :
      (z ++ fcmd ++ tfi ++ o ++ p ++ e ++ c).setWidth k =
        c.setWidth k ||| e.setWidth k <<< 3 ||| p.setWidth k <<< 4 ||| o.setWidth k <<< 5 ||| tfi.setWidth k <<< 8 |||
          fcmd.setWidth k <<< 16 ||| z.setWidth k <<< 24 := by
    iterate 6 rw [setWidth_append_eq_or]
    iterate 5 rw [or_or_shiftLeft]
  have hext : (BitVec.ofBool ext).setWidth 32 = (ext.toNat : Word) := by cases ext <;> rfl
  have hpre : (BitVec.ofBool pre).setWidth 32 = (pre.toNat : Word) := by cases pre <;> rfl
  have hkind : (kindCode kind).setWidth 32 = ruleKind kind := by cases kind <;> rfl
  refine (BitVec.setWidth_eq _).symm.trans ((shifted 32 0#8 0#3 _ _ _).trans ?_)
  rw [BitVec.setWidth_zero, BitVec.setWidth_zero, BitVec.zero_shiftLeft, BitVec.zero_shiftLeft, BitVec.or_zero, BitVec.or_zero,
    hext, hpre, hkind, ruleFrameWord]

/-- Results alone leave the inputs, the keys and the bytes. -/
theorem succeed_sameInputs (s : State) (r0 r1 r2 r3 : Word) : SameInputs s (succeed s r0 r1 r2 r3) :=
  ⟨rfl, rfl, rfl, rfl, rfl, rfl, rfl, rfl, rfl, rfl⟩

/-- A write to a window and the results leave the inputs. -/
theorem succeed_setWindow_sameInputs (s : State) (w : Window) (off : Nat) (b : List Byte) (r0 r1 r2 r3 : Word) :
    SameInputs s (succeed (s.setWindow w off b) r0 r1 r2 r3) := ⟨rfl, rfl, rfl, rfl, rfl, rfl, rfl, rfl, rfl, rfl⟩

theorem succeed_sameKeys (s : State) (r0 r1 r2 r3 : Word) : SameKeys s (succeed s r0 r1 r2 r3) := ⟨rfl, rfl, rfl, rfl, rfl, rfl⟩

theorem succeed_setWindow_sameKeys (s : State) (w : Window) (off : Nat) (b : List Byte) (r0 r1 r2 r3 : Word) :
    SameKeys s (succeed (s.setWindow w off b) r0 r1 r2 r3) := ⟨rfl, rfl, rfl, rfl, rfl, rfl⟩

/-- A write to a window leaves the bytes outside its range. -/
theorem succeed_setWindow_sameOutside (s : State) (w : Window) (off : Nat) (b : List Byte) (r0 r1 r2 r3 : Word) :
    SameOutside [w.range off b.length] s (succeed (s.setWindow w off b) r0 r1 r2 r3) := fun a ha =>
  readByte_setWindow_outside s le_rfl (by simpa using ha)

/-- Frame commands succeed with their frame in FOUT (rules R143 to R146). -/
theorem emitFrame_window (s : State) (f : List Byte) (r0 : Word) (l : Nat) :
    (emitFrame s f r0 l).window .fout 0 f.length = f := State.window_setWindow_same s .fout 0 rfl

/-- A command that emits one frame in every state encodes it (rules R143, R144 and R146). -/
theorem encodesFixedFrame_of_emitFrame {i : Instr} {op : Byte} {kind : FrameKind} {f : List Byte} {l : Nat}
    (hw : WordsDecodeTo op (· = i)) (he : ∀ s, exec i s = .next (emitFrame s f (frameWord kind false true 0 0) l)) :
    EncodesFixedFrame i op (ruleKind kind) f l :=
  ⟨hw, fun s => ⟨_, he s, frameWord_eq_rule .. ▸ succeed_completed .., emitFrame_window .., succeed_setWindow_sameInputs ..,
    succeed_setWindow_sameKeys .., succeed_setWindow_sameOutside s _ _ _ _ _ _ _⟩⟩

/-- Settles O21: the three commands emit the frames of the rules, and the last is parsed back. -/
theorem fixedFramesAreEncoded : Obligations.FixedFramesAreEncoded :=
  ⟨encodesFixedFrame_of_emitFrame (kind := .ack) (wordsDecodeTo_of_decodeF0 rfl fun w h => by rw [decode, h]; rfl) fun _ => rfl,
    encodesFixedFrame_of_emitFrame (kind := .nack) (wordsDecodeTo_of_decodeF0 rfl fun w h => by rw [decode, h]; rfl) fun _ => rfl,
    encodesFixedFrame_of_emitFrame (kind := .error) (wordsDecodeTo_of_decodeF0 rfl fun w h => by rw [decode, h]; rfl) fun _ => rfl,
    _, rfl, rfl⟩

/-- `-x mod 256` is the negation of the byte (rule R9). -/
theorem negMod256_eq (x : Nat) : negMod256 x = -BitVec.ofNat 8 x := by
  apply BitVec.eq_of_toNat_eq
  simp [negMod256]

/-- The header of a short Info frame (rule R145). -/
theorem infoHeader_short {k : Nat} (h : k ≤ 253) :
    infoHeader k = [0x00, 0x00, 0xFF, BitVec.ofNat 8 (k + 2), negMod256 (k + 2)] := by
  simp [infoHeader, extendedForm, Nat.not_lt.2 h]

/-- The header of an extended Info frame (rule R145). -/
theorem infoHeader_extended {k : Nat} (h : 253 < k) :
    infoHeader k = [0x00, 0x00, 0xFF, 0xFF, 0xFF, BitVec.ofNat 8 ((k + 2) / 256), BitVec.ofNat 8 ((k + 2) % 256),
      negMod256 ((k + 2) / 256 + (k + 2) % 256)] := by
  simp [infoHeader, extendedForm, h]

/-- The Info frame of the model is the one of rule R145. -/
theorem infoFrame_eq_rule (tfi fcmd : Byte) (p : List Byte) : infoFrame tfi fcmd p = ruleInfoFrame tfi fcmd p := by
  have high (l : Nat) : l >>> 8 = l / 256 := Nat.shiftRight_eq_div_pow l 8
  have low (l : Nat) : l &&& 0xFF = l % 256 := Nat.and_two_pow_sub_one_eq_mod l 8
  have sum : sumBytes (tfi :: fcmd :: p) = tfi.toNat + fcmd.toNat + sumBytes p := by simp only [sumBytes]; omega
  rw [infoFrame, dataChecksum, sum, negMod256_eq]
  unfold ruleInfoFrame
  by_cases h : p.length ≤ 253
  · simp [h, infoHeader_short, negMod256_eq]
  · simp [h, infoHeader_extended (Nat.not_le.1 h), negMod256_eq, high, low]

theorem infoHeader_length (k : Nat) : (infoHeader k).length = if k ≤ 253 then 5 else 8 := by
  by_cases h : k ≤ 253
  · rw [infoHeader_short h, if_pos h]; rfl
  · rw [infoHeader_extended (Nat.not_le.1 h), if_neg h]; rfl

theorem infoFrame_length (tfi fcmd : Byte) (p : List Byte) :
    (infoFrame tfi fcmd p).length = p.length + if p.length ≤ 253 then 9 else 12 := by
  simp only [infoFrame, List.length_append, infoHeader_length, List.length_cons, List.length_nil]
  split <;> omega

/-- Settles O22: the two checks in their order, then the frame of the rule. -/
theorem infoFramesAreEncoded : Obligations.InfoFramesAreEncoded := by
  refine ⟨wordsDecodeTo_of_decodeF0 rfl fun w h => by rw [decode, h]; rfl,
    fun s => ⟨fun h => ?_, fun h1 h2 => ?_, fun h1 h2 => ?_⟩⟩
  · have he : infoOperands s = .error .frameTooLong := if_pos h
    exact ⟨_, by rw [exec, execFencInfo, he], fail_failsWith s (by decide) 0⟩
  · have he : infoOperands s = .error .badOperand := (if_neg (Nat.not_lt.2 h1)).trans (if_pos h2)
    exact ⟨_, by rw [exec, execFencInfo, he], fail_failsWith s (by decide) 0⟩
  · have he : infoOperands s = .ok (s.window .data (opOff s) (opLen s)) :=
      (if_neg (Nat.not_lt.2 h1)).trans (if_neg (Nat.not_lt.2 h2))
    intro f
    have hf : infoFrame s.latch.tfi s.latch.fcmd (s.window .data (opOff s) (opLen s)) = f := infoFrame_eq_rule ..
    have hlen : f.length = opLen s + if opLen s ≤ 253 then 9 else 12 := by
      rw [← hf, infoFrame_length, State.window_length]
    refine ⟨hlen, _, by rw [exec, execFencInfo, he], ?_⟩
    rw [hf, State.window_length, frameWord_eq_rule]
    exact ⟨succeed_completed .., emitFrame_window .., succeed_setWindow_sameInputs .., succeed_setWindow_sameKeys ..,
      succeed_setWindow_sameOutside s _ _ _ _ _ _ _⟩

/-- Settles O24: FIDENT follows the header parse. -/
theorem fidentReportsTheHeader : Obligations.FidentReportsTheHeader := by
  have truncated (s : State) {need : Nat} (h : parseHeader (received s) = .truncated need) :
      Fails .fident s .frameTruncated need := ⟨_, by rw [exec, execFident, h], fail_failsWith s (by decide) need⟩
  have reports (s : State) {h : Header} (hh : parseHeader (received s) = .ok h) :
      exec .fident s = .next (succeed s (ruleFrameWord (ruleKind h.kind) h.ext h.pre 0 0) (wordOf h.total) (wordOf h.len)
        (wordOf h.start)) := by rw [exec, execFident, hh, ← frameWord_eq_rule]
  refine ⟨wordsDecodeTo_of_decodeF0 rfl fun w h => by rw [decode, h]; rfl,
    fun s => ⟨fun need => truncated s, fun code h => ?_, fun h hh => ?_, fun h0 => ?_, fun hb => ?_⟩⟩
  · exact ⟨_, by rw [exec, execFident, h], fail_failsWith s (parseHeader_ne_ok h) 0⟩
  · exact ⟨_, reports s hh, succeed_completed .., (AcceptedHeader.of_parseHeader hh).kind, succeed_sameInputs ..,
      succeed_sameKeys .., fun _ => rfl⟩
  · have hb : received s = [] := by rw [received, h0]; rfl
    exact truncated s (by rw [hb]; rfl)
  · have hh : parseHeader (received s) = .ok ⟨.data, 1, true, false, 6, 5, 13⟩ := by rw [hb]; decide
    exact ⟨_, reports s hh, succeed_completed ..⟩

/-- A frame without a payload carries no TFI and no FCMD (rule R149). -/
theorem parseFrame_plain {b : List Byte} {f : Frame} (e : parseFrame b = .ok f) (hk : f.kind ≠ .info) :
    f.tfi = 0 ∧ f.fcmd = 0 := by
  obtain ⟨h, hh, hb⟩ := parseFrame_header e
  rcases or_assoc.2 (AcceptedHeader.of_parseHeader hh).kind with hs | hd
  · rw [parseFrame_of_special hh hb hs] at e
    split at e <;> cases e
    exact ⟨rfl, rfl⟩
  · rw [parseFrame_of_data hh hb hd, parseData_eq, dataFrame] at e
    split at e <;> [cases e; skip]
    split at e <;> [cases e; skip]
    split at e
    · split at e <;> cases e
      exact ⟨rfl, rfl⟩
    · cases e
      exact absurd rfl hk

/-- FDEC of an INFO frame: its payload goes to DATA (rule R150). -/
theorem exec_fdec_info {s : State} {f : Frame} (hf : parseFrame (received s) = .ok f) (hk : f.kind = .info) :
    exec .fdec s = .next (succeed (s.setWindow .data 0 f.payload) (ruleFrameWord 4 f.ext f.pre f.tfi f.fcmd)
      (wordOf f.total) (wordOf f.len) (wordOf f.start)) := by
  have hword : ruleFrameWord 4 f.ext f.pre f.tfi f.fcmd = frameWord f.kind f.ext f.pre f.tfi f.fcmd := by
    rw [frameWord_eq_rule, hk]; rfl
  rw [exec, execFdec, hf, hword]
  exact if_pos hk

/-- FDEC of another frame: results alone (rule R150). -/
theorem exec_fdec_plain {s : State} {f : Frame} (hf : parseFrame (received s) = .ok f) (hk : f.kind ≠ .info) :
    exec .fdec s = .next (succeed s (ruleFrameWord (ruleKind f.kind) f.ext f.pre 0 0)
      (wordOf f.total) (wordOf f.len) (wordOf f.start)) := by
  have hword : ruleFrameWord (ruleKind f.kind) f.ext f.pre 0 0 = frameWord f.kind f.ext f.pre f.tfi f.fcmd := by
    rw [frameWord_eq_rule, (parseFrame_plain hf hk).1, (parseFrame_plain hf hk).2]
  rw [exec, execFdec, hf, hword]
  exact if_neg hk

/-- Settles O26: FDEC follows the full parse, and only an INFO frame's payload is written. -/
theorem fdecDeliversTheFrame : Obligations.FdecDeliversTheFrame := by
  refine ⟨wordsDecodeTo_of_decodeF0 rfl fun w h => by rw [decode, h]; rfl,
    fun s => ⟨fun need h => ?_, fun code h => ?_, fun f hf => ?_, fun hb => ?_⟩⟩
  · exact ⟨_, by rw [exec, execFdec, h], fail_failsWith s (by decide) need⟩
  · exact ⟨_, by rw [exec, execFdec, h], fail_failsWith s (parseFrame_ne_ok h) 0⟩
  · by_cases hk : f.kind = .info
    · obtain ⟨hpayload, hmax, -⟩ := parseFrame_info hf hk
      have hlen : f.payload.length = f.len - 2 := by omega
      refine ⟨_, exec_fdec_info hf hk, ?_, succeed_setWindow_sameInputs .., succeed_setWindow_sameKeys .., fun _ => ?_,
        fun h => absurd hk h⟩
      · rw [if_pos hk]; exact succeed_completed ..
      · exact ⟨by omega, State.window_setWindow_same s .data 0 hlen, hlen ▸ succeed_setWindow_sameOutside s _ _ _ _ _ _ _⟩
    · refine ⟨_, exec_fdec_plain hf hk, ?_, succeed_sameInputs .., succeed_sameKeys .., fun h => absurd h hk, fun _ _ => rfl⟩
      rw [if_neg hk]; exact succeed_completed ..
  · have hf : parseFrame (received s) = .ok ⟨.info, 1, true, false, 6, 13, 0xD5, 0x03, [0x32, 0x01, 0x06, 0x07]⟩ := by
      rw [hb]; decide
    exact ⟨_, exec_fdec_info hf rfl, succeed_completed .., State.window_setWindow_same s .data 0 rfl⟩

end Sys2Proof.Machine

/-! SUPPORT. The parse of encoded frames behind noise (rules R141 and R151): statement FdecDecodesWhatWasEncoded -/

namespace Sys2Proof.Machine

@[simp] theorem sumBytes_append (a b : List Byte) : sumBytes (a ++ b) = sumBytes a + sumBytes b := by
  induction a with
  | nil => simp [sumBytes]
  | cons x a ih => rw [List.cons_append, sumBytes, sumBytes, ih]; omega

/-- A number and its checksum make zero (rule R142). -/
theorem add_negMod256_mod (x : Nat) : (x + (negMod256 x).toNat) % 256 = 0 := by
  rw [negMod256, BitVec.toNat_ofNat]
  omega

/-- Bytes behind the start code that are a length field: the header reads the length and the form off them (rule R142). -/
def IsLengthField (lf : List Byte) (ext : Bool) (n : Nat) : Prop :=
  ∀ s r, codeHeader s (lf ++ r) = lengthHeader s (decide (0 < s)) ext n (s + 2 + lf.length)

theorem isLengthField_short {c0 c1 : Byte} (h : (c0.toNat + c1.toNat) % 256 = 0) : IsLengthField [c0, c1] false c0.toNat :=
  fun s r => codeHeader_of_goodSum s h r

theorem isLengthField_long {m l k : Byte} (h : (m.toNat + l.toNat + k.toNat) % 256 = 0) :
    IsLengthField [0xFF, 0xFF, m, l, k] true (256 * m.toNat + l.toNat) := fun s r => longHeader_of_goodSum s h r

/-- The header of an Info frame ends with the length field of its data field (rules R141 and R145). -/
theorem infoHeader_lengthField {k : Nat} (hk : k ≤ 65533) :
    ∃ lf, infoHeader k = 0x00 :: 0x00 :: 0xFF :: lf ∧ IsLengthField lf (extendedForm k) (k + 2) := by
  by_cases h : k ≤ 253
  · have hlen : (BitVec.ofNat 8 (k + 2)).toNat = k + 2 := by rw [BitVec.toNat_ofNat]; omega
    have hfield := isLengthField_short (c0 := BitVec.ofNat 8 (k + 2)) (c1 := negMod256 (k + 2))
      (by rw [hlen]; exact add_negMod256_mod _)
    rw [hlen] at hfield
    exact ⟨_, infoHeader_short h, by rwa [extendedForm, decide_eq_false (by omega)]⟩
  · have hm : (BitVec.ofNat 8 ((k + 2) / 256)).toNat = (k + 2) / 256 := by rw [BitVec.toNat_ofNat]; omega
    have hl : (BitVec.ofNat 8 ((k + 2) % 256)).toNat = (k + 2) % 256 := by rw [BitVec.toNat_ofNat]; omega
    have hfield := isLengthField_long (m := BitVec.ofNat 8 ((k + 2) / 256)) (l := BitVec.ofNat 8 ((k + 2) % 256))
      (k := negMod256 ((k + 2) / 256 + (k + 2) % 256)) (by rw [hm, hl]; exact add_negMod256_mod _)
    rw [hm, hl, Nat.div_add_mod] at hfield
    exact ⟨_, infoHeader_extended (by omega), by rwa [extendedForm, decide_eq_true (by omega)]⟩

/-- The parse of a whole ACK or NACK frame behind noise: its postamble decides (rule R149). -/
theorem parseFrame_specialFrame {pre : List Byte} (hpre : findStart pre = none) (h0 : 0 < pre.length) {kind : FrameKind}
    (hk : kind = .ack ∨ kind = .nack) {c0 c1 : Byte}
    (hc : ∀ r, codeHeader pre.length (c0 :: c1 :: r) = .ok (specialHeader kind pre.length)) (q : Byte) (r : List Byte) :
    parseFrame (pre ++ 0x00 :: 0xFF :: c0 :: c1 :: q :: r) =
      if q = 0x00 then .ok ⟨kind, pre.length, true, false, 0, pre.length + 5, 0, 0, []⟩ else .err .frameBadPostamble := by
  have hh := (parseHeader_of_start hpre (c0 :: c1 :: q :: r)).trans (hc _)
  have hq : byteAt (pre ++ 0x00 :: 0xFF :: c0 :: c1 :: q :: r) (pre.length + 4) = q := byteAt_append_right _ _ _
  have hp : decide (0 < pre.length) = true := decide_eq_true h0
  rw [parseFrame_of_special hh (by simp [specialHeader, hp]) hk]
  simp only [badPostamble, specialHeader, plainFrame, hp, hq, Bool.true_and, Bool.toNat_true, decide_eq_true_eq]
  split <;> simp_all

theorem parseFrame_ack {pre : List Byte} (hpre : findStart pre = none) (h0 : 0 < pre.length) (q : Byte) (r : List Byte) :
    parseFrame (pre ++ 0x00 :: 0xFF :: 0x00 :: 0xFF :: q :: r) =
      if q = 0x00 then .ok ⟨.ack, pre.length, true, false, 0, pre.length + 5, 0, 0, []⟩ else .err .frameBadPostamble :=
  parseFrame_specialFrame hpre h0 (.inl rfl) (fun _ => rfl) q r

theorem parseFrame_nack {pre : List Byte} (hpre : findStart pre = none) (h0 : 0 < pre.length) (q : Byte) (r : List Byte) :
    parseFrame (pre ++ 0x00 :: 0xFF :: 0xFF :: 0x00 :: q :: r) =
      if q = 0x00 then .ok ⟨.nack, pre.length, true, false, 0, pre.length + 5, 0, 0, []⟩ else .err .frameBadPostamble :=
  parseFrame_specialFrame hpre h0 (.inr rfl) (fun _ => rfl) q r

/-- The checks of a data field and its checksum, `e`, and the postamble behind it (rule R149). -/
theorem parseData_append {a e : List Byte} {h : Header} (ha : h.hdr = a.length) (he : e.length = h.len + 1)
    (hp : h.pre = true) (q : Byte) (r : List Byte) :
    parseData (a ++ (e ++ q :: r)) h =
      if sumBytes e % 256 ≠ 0 then .err .frameDataChecksum
      else if q ≠ 0x00 then .err .frameBadPostamble
      else dataFrame h (e.take h.len) := by
  have hfield : slice (a ++ (e ++ q :: r)) a.length (a.length + h.len) = e.take h.len := by
    rw [slice, List.drop_left, Nat.add_sub_cancel_left, List.take_append_of_le_length (by omega)]
  have hsum : byteAt (a ++ (e ++ q :: r)) (a.length + h.len) = byteAt e h.len := by
    rw [byteAt_append_right, byteAt_append_left (by omega)]
  have hpost : byteAt (a ++ (e ++ q :: r)) (a.length + h.len + 1) = q := by
    rw [Nat.add_assoc, byteAt_append_right, ← he]
    exact byteAt_append_right e (q :: r) 0
  have hlast : e.drop h.len = [byteAt e h.len] := by
    rw [List.drop_eq_getElem_cons (by omega), List.drop_eq_nil_of_le (by omega)]
    simp [byteAt, he]
  have htotal : sumBytes e = sumBytes (e.take h.len) + (byteAt e h.len).toNat := by
    conv_lhs => rw [← List.take_append_drop h.len e, hlast, sumBytes_append]
    rfl
  rw [parseData_eq, ha, hfield, hsum, ← htotal, badPostamble, hp, hpost]
  simp only [Bool.true_and, decide_eq_true_eq]

/-- The parse of a whole frame with a length field behind noise (rule R149). -/
theorem parseFrame_lengthFrame {pre lf e : List Byte} {ext : Bool} {n : Nat} (hpre : findStart pre = none) (h0 : 0 < pre.length)
    (hlf : IsLengthField lf ext n) (hn : n ≠ 0) (he : e.length = n + 1) (q : Byte) (r : List Byte) :
    parseFrame (pre ++ 0x00 :: 0xFF :: (lf ++ (e ++ q :: r))) =
      if sumBytes e % 256 ≠ 0 then .err .frameDataChecksum
      else if q ≠ 0x00 then .err .frameBadPostamble
      else dataFrame ⟨.data, pre.length, true, ext, n, pre.length + 2 + lf.length, pre.length + 2 + lf.length + n + 2⟩
        (e.take n) := by
  have hh := (parseHeader_of_start hpre _).trans ((hlf _ (e ++ q :: r)).trans (lengthHeader_of_ne_zero _ _ _ hn _))
  rw [decide_eq_true h0] at hh
  have hsplit : pre ++ 0x00 :: 0xFF :: (lf ++ (e ++ q :: r)) = (pre ++ 0x00 :: 0xFF :: lf) ++ (e ++ q :: r) := by simp
  rw [parseFrame_of_data hh (by simp; omega) rfl, hsplit]
  exact parseData_append (by simp; omega) he rfl q r

theorem parseFrame_ackFrame {noise : List Byte} (hn : findStart noise = none) (tail : List Byte) :
    parseFrame (noise ++ ackFrame ++ tail) =
      .ok ⟨.ack, noise.length + 1, true, false, 0, noise.length + ackFrame.length, 0, 0, []⟩ := by
  have h := parseFrame_ack (findStart_concat_zero hn) (by simp) 0x00 tail
  simpa [ackFrame] using h

theorem parseFrame_nackFrame {noise : List Byte} (hn : findStart noise = none) (tail : List Byte) :
    parseFrame (noise ++ nackFrame ++ tail) =
      .ok ⟨.nack, noise.length + 1, true, false, 0, noise.length + nackFrame.length, 0, 0, []⟩ := by
  have h := parseFrame_nack (findStart_concat_zero hn) (by simp) 0x00 tail
  simpa [nackFrame] using h

theorem parseFrame_errFrame {noise : List Byte} (hn : findStart noise = none) (tail : List Byte) :
    parseFrame (noise ++ errFrame ++ tail) =
      .ok ⟨.error, noise.length + 1, true, false, 1, noise.length + errFrame.length, 0, 0, []⟩ := by
  have h := parseFrame_lengthFrame (findStart_concat_zero hn) (by simp)
    (isLengthField_short (c0 := 0x01) (c1 := 0xFF) (by decide)) (by decide) (e := [0x7F, 0x81]) rfl 0x00 tail
  simpa [errFrame, sumBytes, dataFrame, plainFrame] using h

/-- The data field of an Info frame with its checksum (rules R141 and R142). -/
def checkedField (tfi fcmd : Byte) (p : List Byte) : List Byte := tfi :: fcmd :: p ++ [dataChecksum (tfi :: fcmd :: p)]

theorem checkedField_length (tfi fcmd : Byte) (p : List Byte) : (checkedField tfi fcmd p).length = p.length + 2 + 1 := by
  simp [checkedField]

theorem sumBytes_checkedField (tfi fcmd : Byte) (p : List Byte) : sumBytes (checkedField tfi fcmd p) % 256 = 0 := by
  rw [checkedField, sumBytes_append]
  exact add_negMod256_mod _

theorem infoFrame_split (tfi fcmd : Byte) {p : List Byte} {lf : List Byte} (h : infoHeader p.length = 0x00 :: 0x00 :: 0xFF :: lf) :
    infoFrame tfi fcmd p = 0x00 :: 0x00 :: 0xFF :: (lf ++ (checkedField tfi fcmd p ++ [0x00])) := by
  simp [infoFrame, checkedField, h]

theorem parseFrame_infoFrame {noise : List Byte} (hn : findStart noise = none) (tfi fcmd : Byte) {p : List Byte}
    (hp : p.length ≤ 65533) (tail : List Byte) :
    parseFrame (noise ++ infoFrame tfi fcmd p ++ tail) =
      .ok ⟨.info, noise.length + 1, true, extendedForm p.length, p.length + 2,
        noise.length + (infoFrame tfi fcmd p).length, tfi, fcmd, p⟩ := by
  obtain ⟨lf, hlf, hfield⟩ := infoHeader_lengthField hp
  have h := parseFrame_lengthFrame (findStart_concat_zero hn) (by simp) hfield (by omega)
    (checkedField_length tfi fcmd p) 0x00 tail
  rw [if_neg (not_not.2 (sumBytes_checkedField tfi fcmd p)), if_neg (not_not.2 rfl)] at h
  have htake : (checkedField tfi fcmd p).take (p.length + 2) = tfi :: fcmd :: p := by simp [checkedField]
  have htotal : noise.length + 1 + 2 + lf.length + (p.length + 2) + 2 = noise.length + (infoFrame tfi fcmd p).length := by
    rw [infoFrame_split tfi fcmd hlf]
    simp [checkedField_length]
    omega
  rw [htake, dataFrame_info (by simp), List.length_append, List.length_singleton, htotal] at h
  rw [infoFrame_split tfi fcmd hlf] at h ⊢
  simpa using h

/-- RES1 of an emitted frame is its length (rules R143 to R146). -/
theorem emitFrame_res1 (s : State) {f : List Byte} (h : f.length < 2 ^ 32) (r0 : Word) (l : Nat) :
    (emitFrame s f r0 l).res1.toNat = f.length := Nat.mod_eq_of_lt h

/-- FDEC of an emitted frame without a payload, behind noise and before a tail, where the parse reads the frame back. -/
theorem fdec_decodes_plain {kind : FrameKind} (hk : kind ≠ .info) {f : List Byte} (hlen : f.length < 2 ^ 32) {l : Nat}
    {s u : State} {noise tail : List Byte}
    (hf : parseFrame (noise ++ f ++ tail) = .ok ⟨kind, noise.length + 1, true, false, l, noise.length + f.length, 0, 0, []⟩)
    {t : State} (ht : .next t = (.next (emitFrame s f (frameWord kind false true 0 0) l) : StepResult))
    (hu : received u = noise ++ t.window .fout 0 t.res1.toNat ++ tail) :
    ∃ v, exec .fdec u = .next v ∧
      Completed v .ok t.res0 (wordOf (noise.length + t.res1.toNat)) t.res2 (wordOf (noise.length + 1)) ∧ SameBytes u v := by
  cases ht
  rw [emitFrame_res1 s hlen] at hu ⊢
  rw [emitFrame_window] at hu
  rw [← hu] at hf
  have hres0 : (emitFrame s f (frameWord kind false true 0 0) l).res0 = ruleFrameWord (ruleKind kind) false true 0 0 :=
    frameWord_eq_rule ..
  exact ⟨_, exec_fdec_plain hf hk, hres0 ▸ succeed_completed .., fun _ => rfl⟩

theorem fencInfo_emits {s t : State} (ht : exec .fencInfo s = .next t) (he : t.err = false) :
    ∃ p, infoOperands s = .ok p ∧ t = emitFrame s (infoFrame s.latch.tfi s.latch.fcmd p)
      (frameWord .info (extendedForm p.length) true s.latch.tfi s.latch.fcmd) (p.length + 2) := by
  rw [exec, execFencInfo] at ht
  cases h : infoOperands s with
  | error e => rw [h] at ht; cases ht; cases he
  | ok p => rw [h] at ht; cases ht; exact ⟨p, rfl, rfl⟩

/-- Settles O27: the parse reads each encoder's frame back. -/
theorem fdecDecodesWhatWasEncoded : Obligations.FdecDecodesWhatWasEncoded := by
  intro i s t u noise tail hi ht he hn hu
  rw [← findStart_eq_none_iff] at hn
  rcases hi with rfl | rfl | rfl | rfl
  · obtain ⟨v, hv, hc, hb⟩ := fdec_decodes_plain (by decide) (by decide) (parseFrame_ackFrame hn tail) ht.symm hu
    exact ⟨v, hv, hc, nofun, fun _ => hb⟩
  · obtain ⟨v, hv, hc, hb⟩ := fdec_decodes_plain (by decide) (by decide) (parseFrame_nackFrame hn tail) ht.symm hu
    exact ⟨v, hv, hc, nofun, fun _ => hb⟩
  · obtain ⟨v, hv, hc, hb⟩ := fdec_decodes_plain (by decide) (by decide) (parseFrame_errFrame hn tail) ht.symm hu
    exact ⟨v, hv, hc, nofun, fun _ => hb⟩
  · obtain ⟨p, hp, rfl⟩ := fencInfo_emits ht he
    obtain ⟨hmax, -, hdata⟩ := infoOperands_cases hp
    have hlen : p.length = opLen s := by rw [hdata, State.window_length]
    have hmax : p.length ≤ 65533 := hlen.trans_le hmax
    have hshort : (infoFrame s.latch.tfi s.latch.fcmd p).length < 2 ^ 32 :=
      (infoFrame_length_le _ _ p).trans_lt (by omega)
    rw [emitFrame_res1 s hshort] at hu ⊢
    rw [emitFrame_window] at hu
    have hf := parseFrame_infoFrame hn s.latch.tfi s.latch.fcmd hmax tail
    rw [← hu] at hf
    have hres0 (r0 : Word) : (emitFrame s (infoFrame s.latch.tfi s.latch.fcmd p) r0 (p.length + 2)).res0 = r0 := rfl
    rw [hres0, frameWord_eq_rule]
    refine ⟨_, exec_fdec_info hf rfl, succeed_completed .., fun _ => ?_, fun h => absurd rfl h⟩
    exact (State.window_setWindow_same u .data 0 hlen).trans hdata

end Sys2Proof.Machine

/-! SUPPORT. The parse of a frame with one byte changed (rules R147, R149 and R152): statement ChangedFrameBytesGiveTheirResults -/

namespace Sys2Proof.Machine

/-- A byte string with another byte at one place has another sum modulo 256. -/
theorem sumBytes_set {b : List Byte} {i : Nat} {x : Byte} (hi : i < b.length) (hx : b[i]? ≠ some x) :
    sumBytes (b.set i x) % 256 ≠ sumBytes b % 256 := by
  induction b generalizing i with
  | nil => simp at hi
  | cons y b ih =>
    cases i with
    | zero =>
      have hne : y.toNat ≠ x.toNat := fun h => hx (by simp [BitVec.eq_of_toNat_eq h])
      simp only [List.set_cons_zero, sumBytes]
      omega
    | succ i =>
      have := ih (by simpa using hi) (by simpa using hx)
      simp only [List.set_cons_succ, sumBytes]
      omega

/-- A changed byte before the start code changes nothing (rule R152). -/
theorem parseFrame_changedPreamble (x y : Byte) (r : List Byte) :
    parseFrame (x :: 0x00 :: 0xFF :: r) = parseFrame (y :: 0x00 :: 0xFF :: r) := by
  have hx (z : Byte) : parseHeader (z :: 0x00 :: 0xFF :: r) = codeHeader 1 r := parseHeader_of_start (pre := [z]) rfl r
  cases hh : codeHeader 1 r with
  | truncated need => rw [parseFrame_of_truncated ((hx x).trans hh), parseFrame_of_truncated ((hx y).trans hh)]
  | err e => rw [parseFrame_of_err ((hx x).trans hh), parseFrame_of_err ((hx y).trans hh)]
  | ok h =>
    by_cases ht : h.total ≤ (x :: 0x00 :: 0xFF :: r).length
    · refine parseFrame_congr ((hx x).trans hh) ((hx y).trans hh) ht ht fun i hi _ => ?_
      match i with
      | 0 => omega
      | i + 1 => rfl
    · rw [parseFrame_of_short ((hx x).trans hh) (by omega), parseFrame_of_short ((hx y).trans hh) (by simpa using ht)]

/-- Code bytes that are neither special nor a length with its checksum (rule R147). -/
theorem parseFrame_badLength {pre : List Byte} (hpre : findStart pre = none) {c0 c1 : Byte}
    (hc : ¬ SpecialCode c0 c1 ∧ (c0.toNat + c1.toNat) % 256 ≠ 0) (r : List Byte) :
    parseFrame (pre ++ 0x00 :: 0xFF :: c0 :: c1 :: r) = .err .frameLenChecksum :=
  parseFrame_of_err ((parseHeader_of_start hpre _).trans ((codeHeader_of_not_special _ hc.1 r).trans (if_pos hc.2)))

/-- Bytes without a start code ask for one byte more (rule R147). -/
theorem parseFrame_noStart {b : List Byte} (h : findStart b = none) (hb : b ≠ []) :
    parseFrame b = .truncated (b.length + 1) := by
  have := List.length_pos_iff.2 hb
  rw [parseFrame_of_truncated (parseHeader_of_noStart h), max_eq_right (by omega)]

theorem specialCode_iff (c0 c1 : Byte) : SpecialCode c0 c1 ↔
    (c0.toNat = 0 ∧ c1.toNat = 255) ∨ (c0.toNat = 255 ∧ c1.toNat = 0) ∨ (c0.toNat = 255 ∧ c1.toNat = 255) := by
  simp only [SpecialCode, ← BitVec.toNat_inj]
  rfl

/-- The ACK frame with a byte changed between its preamble and its postamble. -/
theorem parseFrame_changedAck (x : Byte) :
    (x ≠ 0x00 → parseFrame (ackFrame.set 1 x) =
      if x = 0xFF then .ok ⟨.nack, 0, false, false, 0, 4, 0, 0, []⟩ else .truncated 7) ∧
    (x ≠ 0xFF → parseFrame (ackFrame.set 2 x) = .truncated 7) ∧
    (x ≠ 0x00 → parseFrame (ackFrame.set 3 x) =
      if x = 0x01 ∨ x = 0xFF then .truncated 8 else .err .frameLenChecksum) ∧
    (x ≠ 0xFF → parseFrame (ackFrame.set 4 x) = if x = 0x00 then .err .frameBadCode else .err .frameLenChecksum) := by
  refine ⟨fun h0 => ?_, fun hF => ?_, fun h0 => ?_, fun hF => ?_⟩
  · split
    case isTrue h => subst h; rfl
    case isFalse hF =>
      have hpre : findStart [0x00, x, 0xFF] = none := by simp_all [findStart]
      exact parseFrame_of_truncated (parseHeader_of_start hpre [0x00])
  · have hpre : findStart [0x00, 0x00, x] = none := by simp_all [findStart]
    exact parseFrame_of_truncated (parseHeader_of_start hpre [0x00])
  · split
    case isTrue h => rcases h with rfl | rfl <;> rfl
    case isFalse h =>
      exact parseFrame_badLength (pre := [0x00]) rfl (c0 := x) (c1 := 0xFF) (by rw [specialCode_iff]; bv_omega) [0x00]
  · split
    case isTrue h => subst h; rfl
    case isFalse h =>
      exact parseFrame_badLength (pre := [0x00]) rfl (c0 := 0x00) (c1 := x) (by rw [specialCode_iff]; bv_omega) [0x00]

/-- The NACK frame with a byte changed between its preamble and its postamble. -/
theorem parseFrame_changedNack (x : Byte) :
    (x ≠ 0x00 → parseFrame (nackFrame.set 1 x) = .truncated 7) ∧
    (x ≠ 0xFF → parseFrame (nackFrame.set 2 x) = if x = 0x00 then .err .frameBadCode else .truncated 7) ∧
    (x ≠ 0xFF → parseFrame (nackFrame.set 3 x) = if x = 0x00 then .err .frameBadCode else .err .frameLenChecksum) ∧
    (x ≠ 0x00 → parseFrame (nackFrame.set 4 x) =
      if x = 0x01 then .truncated 262 else if x = 0xFF then .truncated 8 else .err .frameLenChecksum) := by
  refine ⟨fun h0 => ?_, fun hF => ?_, fun hF => ?_, fun h0 => ?_⟩
  · by_cases hF : x = 0xFF
    · subst hF; rfl
    · exact parseFrame_noStart (b := [0x00, x, 0xFF, 0xFF, 0x00, 0x00]) (by simp_all [findStart]) (by simp)
  · split
    case isTrue h => subst h; rfl
    case isFalse h0 =>
      exact parseFrame_noStart (b := [0x00, 0x00, x, 0xFF, 0x00, 0x00]) (by simp_all [findStart]) (by simp)
  · split
    case isTrue h => subst h; rfl
    case isFalse h =>
      exact parseFrame_badLength (pre := [0x00]) rfl (c0 := x) (c1 := 0x00) (by rw [specialCode_iff]; bv_omega) [0x00]
  · split
    case isTrue h => subst h; rfl
    split
    case isTrue h => subst h; rfl
    case isFalse h1 hF =>
      exact parseFrame_badLength (pre := [0x00]) rfl (c0 := 0xFF) (c1 := x) (by rw [specialCode_iff]; bv_omega) [0x00]

/-- A frame behind a preamble whose data field and checksum have no good sum (rule R149). -/
theorem parseFrame_badSum {lf e : List Byte} {ext : Bool} {n : Nat} (hlf : IsLengthField lf ext n) (hn : n ≠ 0)
    (he : e.length = n + 1) (hs : sumBytes e % 256 ≠ 0) (q : Byte) :
    parseFrame (0x00 :: 0x00 :: 0xFF :: (lf ++ (e ++ [q]))) = .err .frameDataChecksum :=
  (parseFrame_lengthFrame (pre := [0x00]) rfl (by decide) hlf hn he q []).trans (if_pos hs)

/-- A frame behind a preamble with a good checksum and a changed postamble (rule R149). -/
theorem parseFrame_badPostamble {lf e : List Byte} {ext : Bool} {n : Nat} (hlf : IsLengthField lf ext n) (hn : n ≠ 0)
    (he : e.length = n + 1) (hs : sumBytes e % 256 = 0) {q : Byte} (hq : q ≠ 0x00) :
    parseFrame (0x00 :: 0x00 :: 0xFF :: (lf ++ (e ++ [q]))) = .err .frameBadPostamble :=
  ((parseFrame_lengthFrame (pre := [0x00]) rfl (by decide) hlf hn he q []).trans (if_neg (not_not.2 hs))).trans (if_pos hq)

/-- The length field of the Error frame (rule R141). -/
theorem errFrame_lengthField : IsLengthField [0x01, 0xFF] false 1 := isLengthField_short (c0 := 0x01) (c1 := 0xFF) (by decide)

/-- The Error frame with a byte changed between its preamble and its postamble. -/
theorem parseFrame_changedErr (x : Byte) :
    (x ≠ 0x00 → parseFrame (errFrame.set 1 x) = if x = 0xFF then .truncated 260 else .truncated 9) ∧
    (x ≠ 0xFF → parseFrame (errFrame.set 2 x) = .truncated 9) ∧
    (x ≠ 0x01 → parseFrame (errFrame.set 3 x) =
      if x = 0x00 then .err .frameBadPostamble else if x = 0xFF then .truncated 32651 else .err .frameLenChecksum) ∧
    (x ≠ 0xFF → parseFrame (errFrame.set 4 x) = .err .frameLenChecksum) ∧
    (x ≠ 0x7F → parseFrame (errFrame.set 5 x) = .err .frameDataChecksum) ∧
    (x ≠ 0x81 → parseFrame (errFrame.set 6 x) = .err .frameDataChecksum) := by
  have field {i : Nat} (hi : i < 2) (hx : [(0x7F : Byte), 0x81][i]? ≠ some x) :
      parseFrame (0x00 :: 0x00 :: 0xFF :: ([0x01, 0xFF] ++ ([0x7F, 0x81].set i x ++ [0x00]))) = .err .frameDataChecksum :=
    parseFrame_badSum errFrame_lengthField (by decide) (by simp) (sumBytes_set hi hx) 0x00
  refine ⟨fun h0 => ?_, fun hF => ?_, fun h1 => ?_, fun hF => ?_, fun h7 => ?_, fun h8 => ?_⟩
  · split
    case isTrue h => subst h; rfl
    case isFalse hF =>
      exact parseFrame_noStart (b := [0x00, x, 0xFF, 0x01, 0xFF, 0x7F, 0x81, 0x00]) (by simp_all [findStart]) (by simp)
  · exact parseFrame_noStart (b := [0x00, 0x00, x, 0x01, 0xFF, 0x7F, 0x81, 0x00]) (by simp_all [findStart]) (by simp)
  · split
    case isTrue h => subst h; rfl
    split
    case isTrue h => subst h; rfl
    case isFalse h0 hF =>
      exact parseFrame_badLength (pre := [0x00]) rfl (c0 := x) (c1 := 0xFF) (by rw [specialCode_iff]; bv_omega) [0x7F, 0x81, 0x00]
  · exact parseFrame_badLength (pre := [0x00]) rfl (c0 := 0x01) (c1 := x) (by rw [specialCode_iff]; bv_omega) [0x7F, 0x81, 0x00]
  · exact field (i := 0) (by decide) (by simpa using Ne.symm h7)
  · exact field (i := 1) (by decide) (by simpa using Ne.symm h8)

end Sys2Proof.Machine

/-! SUPPORT. An Info frame with one byte changed, by the part of the frame the byte stands in (rules R145, R147 and R149) -/

namespace Sys2Proof.Machine

/-- The code bytes of a short Info frame: its length, and what makes it 256 (rule R145). -/
theorem infoFrame_short (tfi fcmd : Byte) {p : List Byte} (hp : p.length ≤ 253) :
    ∃ c0 c1, infoFrame tfi fcmd p = 0x00 :: 0x00 :: 0xFF :: c0 :: c1 :: (checkedField tfi fcmd p ++ [0x00]) ∧
      c0.toNat = p.length + 2 ∧ c1.toNat = 254 - p.length := by
  refine ⟨_, _, infoFrame_split tfi fcmd (infoHeader_short hp), ?_, ?_⟩
  · rw [BitVec.toNat_ofNat]; omega
  · rw [negMod256, BitVec.toNat_ofNat]; omega

/-- The length bytes of an extended Info frame, and their checksum (rule R145). -/
theorem infoFrame_extended (tfi fcmd : Byte) {p : List Byte} (hp : 253 < p.length) (hmax : p.length ≤ 65533) :
    ∃ m l c, infoFrame tfi fcmd p = 0x00 :: 0x00 :: 0xFF :: 0xFF :: 0xFF :: m :: l :: c :: (checkedField tfi fcmd p ++ [0x00]) ∧
      m ≠ 0x00 ∧ (m.toNat + l.toNat + c.toNat) % 256 = 0 := by
  have hm : (BitVec.ofNat 8 ((p.length + 2) / 256)).toNat = (p.length + 2) / 256 := by rw [BitVec.toNat_ofNat]; omega
  have hl : (BitVec.ofNat 8 ((p.length + 2) % 256)).toNat = (p.length + 2) % 256 := by rw [BitVec.toNat_ofNat]; omega
  refine ⟨_, _, _, infoFrame_split tfi fcmd (infoHeader_extended hp), fun h => ?_, ?_⟩
  · rw [h] at hm
    have h0 : (0x00 : Byte).toNat = 0 := rfl
    omega
  · rw [hm, hl]; exact add_negMod256_mod _

/-- A changed data byte or data checksum. -/
theorem parseFrame_changedField (tfi fcmd : Byte) {p : List Byte} (hp : p.length ≤ 65533) {i : Nat} {x : Byte}
    (h1 : (infoHeader p.length).length ≤ i) (h2 : i + 1 < (infoFrame tfi fcmd p).length)
    (hx : (infoFrame tfi fcmd p)[i]? ≠ some x) : parseFrame ((infoFrame tfi fcmd p).set i x) = .err .frameDataChecksum := by
  obtain ⟨lf, hlf, hfield⟩ := infoHeader_lengthField hp
  obtain ⟨j, rfl⟩ := Nat.exists_eq_add_of_le h1
  have hsplit : infoFrame tfi fcmd p = infoHeader p.length ++ (checkedField tfi fcmd p ++ [0x00]) := by
    rw [infoFrame_split tfi fcmd hlf, hlf]; rfl
  rw [hsplit] at h2 hx ⊢
  have hj : j < (checkedField tfi fcmd p).length := by
    simp only [List.length_append, List.length_singleton] at h2; omega
  rw [List.getElem?_append_right (by omega), Nat.add_sub_cancel_left, List.getElem?_append_left hj] at hx
  rw [List.set_append_right _ _ (by omega), Nat.add_sub_cancel_left, List.set_append_left _ _ hj, hlf]
  have hsum := sumBytes_set hj hx
  rw [sumBytes_checkedField] at hsum
  exact parseFrame_badSum hfield (by omega) (by rw [List.length_set, checkedField_length]) hsum 0x00

/-- A changed postamble. -/
theorem parseFrame_changedPostamble (tfi fcmd : Byte) {p : List Byte} (hp : p.length ≤ 65533) {i : Nat} {x : Byte}
    (hi : i + 1 = (infoFrame tfi fcmd p).length) (hx : (infoFrame tfi fcmd p)[i]? ≠ some x) :
    parseFrame ((infoFrame tfi fcmd p).set i x) = .err .frameBadPostamble := by
  obtain ⟨lf, hlf, hfield⟩ := infoHeader_lengthField hp
  have hsplit : infoFrame tfi fcmd p = (0x00 :: 0x00 :: 0xFF :: (lf ++ checkedField tfi fcmd p)) ++ [0x00] := by
    rw [infoFrame_split tfi fcmd hlf]; simp
  rw [hsplit] at hi hx ⊢
  obtain rfl : i = (0x00 :: 0x00 :: 0xFF :: (lf ++ checkedField tfi fcmd p)).length + 0 := by
    rw [List.length_append] at hi; exact Nat.succ.inj hi
  rw [List.getElem?_append_right (by omega), Nat.add_sub_cancel_left] at hx
  rw [List.set_append_right _ _ (by omega), Nat.add_sub_cancel_left]
  have h := parseFrame_badPostamble hfield (by omega) (checkedField_length tfi fcmd p) (sumBytes_checkedField tfi fcmd p)
    (q := x) fun h => hx (by rw [h]; rfl)
  simpa using h

/-- A changed start code that leaves none. -/
theorem parseFrame_startLost {f : List Byte} {i : Nat} {x : Byte} (hf : f ≠ []) (h : ∀ j, ¬ IsStart (f.set i x) j) :
    parseFrame (f.set i x) = .truncated (f.length + 1) := by
  rw [parseFrame_noStart ((findStart_eq_none_iff _).2 h) (by simpa using hf), List.length_set]

/-- A short Info frame with its second byte changed to FF: the start code comes one byte earlier, before FF and LEN. -/
theorem parseFrame_shortEarlyStart (tfi fcmd : Byte) {p : List Byte} (hp : p.length ≤ 252) :
    parseFrame ((infoFrame tfi fcmd p).set 1 0xFF) = .err .frameLenChecksum := by
  obtain ⟨c0, c1, hf, h0, -⟩ := infoFrame_short tfi fcmd (p := p) (by omega)
  rw [hf]
  exact parseFrame_badLength (pre := []) rfl (c0 := 0xFF) (c1 := c0) (by rw [specialCode_iff]; bv_omega) _

/-- A short Info frame with a changed LEN. -/
theorem parseFrame_shortLen (tfi fcmd : Byte) {p : List Byte} (hp : p.length ≤ 253) {x : Byte}
    (hx : (infoFrame tfi fcmd p)[3]? ≠ some x) : parseFrame ((infoFrame tfi fcmd p).set 3 x) = .err .frameLenChecksum := by
  obtain ⟨c0, c1, hf, h0, h1⟩ := infoFrame_short tfi fcmd hp
  rw [hf] at hx ⊢
  have hne : x ≠ c0 := fun h => hx (congrArg some h.symm)
  exact parseFrame_badLength (pre := [0x00]) rfl (c0 := x) (c1 := c1) (by rw [specialCode_iff]; bv_omega) _

/-- A short Info frame with a changed LCS that makes no special code. -/
theorem parseFrame_shortLcs (tfi fcmd : Byte) {p : List Byte} (hp : p.length ≤ 253) {x : Byte}
    (hx : (infoFrame tfi fcmd p)[4]? ≠ some x) (hs : p.length = 253 → x ≠ 0x00 ∧ x ≠ 0xFF) :
    parseFrame ((infoFrame tfi fcmd p).set 4 x) = .err .frameLenChecksum := by
  obtain ⟨c0, c1, hf, h0, h1⟩ := infoFrame_short tfi fcmd hp
  rw [hf] at hx ⊢
  have hne : x ≠ c1 := fun h => hx (congrArg some h.symm)
  exact parseFrame_badLength (pre := [0x00]) rfl (c0 := c0) (c1 := x) (by rw [specialCode_iff]; bv_omega) _

/-- The longest short Info frame with LCS 00: a NACK, whose postamble is TFI. -/
theorem parseFrame_shortNack (tfi fcmd : Byte) {p : List Byte} (hp : p.length = 253) :
    parseFrame ((infoFrame tfi fcmd p).set 4 0x00) =
      if tfi = 0x00 then .ok ⟨.nack, 1, true, false, 0, 6, 0, 0, []⟩ else .err .frameBadPostamble := by
  obtain ⟨c0, c1, hf, h0, -⟩ := infoFrame_short tfi fcmd hp.le
  obtain rfl : c0 = 0xFF := BitVec.eq_of_toNat_eq (h0.trans (by rw [hp]; rfl))
  rw [hf]
  exact parseFrame_nack (pre := [0x00]) rfl (by decide) tfi _

/-- An extended Info frame with a marker byte changed to 00: an ACK or a NACK, whose postamble is LENM. -/
theorem parseFrame_extendedSpecial (tfi fcmd : Byte) {p : List Byte} (hp : 253 < p.length) (hmax : p.length ≤ 65533) {i : Nat}
    (hi : i = 3 ∨ i = 4) : parseFrame ((infoFrame tfi fcmd p).set i 0x00) = .err .frameBadPostamble := by
  obtain ⟨m, l, c, hf, hm, -⟩ := infoFrame_extended tfi fcmd hp hmax
  rw [hf]
  rcases hi with rfl | rfl
  · exact (parseFrame_ack (pre := [0x00]) rfl (by decide) m _).trans (if_neg hm)
  · exact (parseFrame_nack (pre := [0x00]) rfl (by decide) m _).trans (if_neg hm)

/-- An extended Info frame with a marker byte changed to no special code and to no length with checksum FF. -/
theorem parseFrame_extendedMarker (tfi fcmd : Byte) {p : List Byte} (hp : 253 < p.length) (hmax : p.length ≤ 65533) {i : Nat}
    {x : Byte} (hi : i = 3 ∨ i = 4) (h0 : x ≠ 0x00) (h1 : x ≠ 0x01) (hx : (infoFrame tfi fcmd p)[i]? ≠ some x) :
    parseFrame ((infoFrame tfi fcmd p).set i x) = .err .frameLenChecksum := by
  obtain ⟨m, l, c, hf, -, -⟩ := infoFrame_extended tfi fcmd hp hmax
  rw [hf] at hx ⊢
  rcases hi with rfl | rfl
  · have hne : x ≠ 0xFF := fun h => hx (congrArg some h.symm)
    exact parseFrame_badLength (pre := [0x00]) rfl (c0 := x) (c1 := 0xFF) (by rw [specialCode_iff]; bv_omega) _
  · have hne : x ≠ 0xFF := fun h => hx (congrArg some h.symm)
    exact parseFrame_badLength (pre := [0x00]) rfl (c0 := 0xFF) (c1 := x) (by rw [specialCode_iff]; bv_omega) _

/-- An extended Info frame with a changed length byte or length checksum. -/
theorem parseFrame_extendedLength (tfi fcmd : Byte) {p : List Byte} (hp : 253 < p.length) (hmax : p.length ≤ 65533) {i : Nat}
    {x : Byte} (h5 : 5 ≤ i) (h8 : i < 8) (hx : (infoFrame tfi fcmd p)[i]? ≠ some x) :
    parseFrame ((infoFrame tfi fcmd p).set i x) = .err .frameLenChecksum := by
  obtain ⟨m, l, c, hf, -, hs⟩ := infoFrame_extended tfi fcmd hp hmax
  have bad {a b d : Byte} (h : (a.toNat + b.toNat + d.toNat) % 256 ≠ 0) (r : List Byte) :
      parseFrame ([0x00] ++ 0x00 :: 0xFF :: 0xFF :: 0xFF :: a :: b :: d :: r) = .err .frameLenChecksum :=
    parseFrame_of_err ((parseHeader_of_start rfl _).trans (longHeader_of_badSum _ h r))
  rw [hf] at hx ⊢
  obtain rfl | rfl | rfl : i = 5 ∨ i = 6 ∨ i = 7 := by omega
  · have hne : x ≠ m := fun h => hx (congrArg some h.symm)
    exact bad (a := x) (b := l) (d := c) (by bv_omega) _
  · have hne : x ≠ l := fun h => hx (congrArg some h.symm)
    exact bad (a := m) (b := x) (d := c) (by bv_omega) _
  · have hne : x ≠ c := fun h => hx (congrArg some h.symm)
    exact bad (a := m) (b := l) (d := x) (by bv_omega) _

/-- A fixed frame with a changed postamble. -/
theorem parseFrame_fixedPostamble {x : Byte} (hx : x ≠ 0x00) {f : List Byte} (hf : f ∈ [ackFrame, nackFrame, errFrame]) :
    parseFrame (f.set (f.length - 1) x) = .err .frameBadPostamble := by
  simp only [List.mem_cons, List.not_mem_nil, or_false] at hf
  rcases hf with rfl | rfl | rfl
  · exact (parseFrame_ack (pre := [0x00]) rfl (by decide) x []).trans (if_neg hx)
  · exact (parseFrame_nack (pre := [0x00]) rfl (by decide) x []).trans (if_neg hx)
  · exact parseFrame_badPostamble errFrame_lengthField (by decide) (e := [0x7F, 0x81]) rfl rfl hx

/-- Settles O28: each part of each frame by its own lemma. -/
theorem changedFrameBytesGiveTheirResults : Obligations.ChangedFrameBytesGiveTheirResults := by
  refine ⟨fun f hf x hx => ⟨?_, parseFrame_fixedPostamble hx hf⟩, parseFrame_changedAck, parseFrame_changedNack,
    parseFrame_changedErr, fun tfi fcmd p i x hp => ?_⟩
  · simp only [List.mem_cons, List.not_mem_nil, or_false] at hf
    rcases hf with rfl | rfl | rfl <;> exact parseFrame_changedPreamble x 0x00 _
  · rw [← infoFrame_eq_rule]
    intro f h hi hx
    obtain ⟨lf, hlf, -⟩ := infoHeader_lengthField hp
    refine ⟨?_, fun _ hn => parseFrame_startLost (by simp [f, infoFrame]) hn, ?_, ?_, ?_, ?_, ?_, ?_, ?_,
      fun hl h5 h8 => parseFrame_extendedLength tfi fcmd hl hp h5 h8 hx, fun hh h2 => ?_,
      fun hlast => parseFrame_changedPostamble tfi fcmd hp hlast hx⟩
    · rintro rfl
      have hsplit : f = 0x00 :: 0x00 :: 0xFF :: _ := infoFrame_split tfi fcmd hlf
      rw [hsplit]
      exact parseFrame_changedPreamble x 0x00 _
    · rintro rfl rfl hs
      exact parseFrame_shortEarlyStart tfi fcmd hs
    · rintro hs rfl
      exact parseFrame_shortLen tfi fcmd hs hx
    · rintro hs rfl
      exact parseFrame_shortLcs tfi fcmd (by omega) hx (by omega)
    · rintro hs rfl h0 hF
      exact parseFrame_shortLcs tfi fcmd hs.le hx fun _ => ⟨h0, hF⟩
    · rintro hs rfl rfl
      exact parseFrame_shortNack tfi fcmd hs
    · rintro hl h34 rfl
      exact parseFrame_extendedSpecial tfi fcmd hl hp h34
    · intro hl h34 h0 h1
      exact parseFrame_extendedMarker tfi fcmd hl hp h34 h0 h1 hx
    · exact parseFrame_changedField tfi fcmd hp (by rwa [infoHeader_length]) h2 hx

end Sys2Proof.Machine

/-! Degenerate keys (rules R203 and R213): statement DegenerateKeysActAsSingleDes -/

namespace Sys2Proof.Machine

/-- A two-key key is degenerate where its halves agree up to bit 0 of each byte (rule R203). -/
theorem degenerate_tdes2_iff {k : List Byte} (hk : k.length = 16) :
    degenerate .tdes2 k = true ↔ ∀ i < 8, byteAt k i &&& 0xFE = byteAt k (8 + i) &&& 0xFE := by
  have h1 (i : Nat) (hi : i < 16) : k[i] = byteAt k i := by simp [byteAt, List.getD_eq_getElem?_getD, hk, hi]
  simp only [degenerate, sameUpToParity, decide_eq_true_eq, key1, key2, List.ext_getElem_iff, List.length_map, List.length_take,
    List.length_drop, List.getElem_map, List.getElem_take, List.getElem_drop]
  constructor
  · rintro ⟨-, h⟩ i hi
    rw [← h1 i (by omega), ← h1 (8 + i) (by omega)]
    exact h i (by omega) (by omega)
  · refine fun h => ⟨by omega, fun i hi _ => ?_⟩
    rw [h1 i (by omega), h1 (8 + i) (by omega)]
    exact h i (by omega)

/-- A degenerate two-key key is single DES under its first half (rule R213): the inner step undoes one of the outer two. -/
theorem tdes2_of_degenerate {k x : List Byte} (hk : k.length = 16) (hd : degenerate .tdes2 k = true) (hx : x.length = 8) :
    encBlock .tdes2 k x = desE8 (k.take 8) x ∧ decBlock .tdes2 k x = desD8 (k.take 8) x := by
  have h1 : (key1 k).length = 8 := by simp [key1, hk]
  have h2 : (key2 k).length = 8 := by simp [key2, hk]
  have he : (key1 k).map (· &&& 0xFE) = (key2 k).map (· &&& 0xFE) := of_decide_eq_true hd
  constructor
  · rw [encBlock, ← desD8_parity h1 h2 he, desD8_desE8 _ hx, key1]
  · rw [decBlock, ← desE8_parity h1 h2 he, desE8_desD8 _ hx, key1]

/-- The session key of a degenerate two-key key has equal halves (rule R210), so it is degenerate again. -/
theorem deriveSessionKey_degenerate {a b : List Byte} (ha : a.length = 8) (hb : b.length = 8) :
    degenerate .tdes2 (deriveSessionKey .tdes2 true a b) = true := by
  have hhalf : (slice a 0 4 ++ slice b 0 4).length = 8 := by simp [slice_length, ha, hb]
  have hk : deriveSessionKey .tdes2 true a b = (slice a 0 4 ++ slice b 0 4) ++ (slice a 0 4 ++ slice b 0 4) := by
    simp [deriveSessionKey]
  rw [hk, degenerate, sameUpToParity, key1, key2, List.take_left' hhalf, List.drop_left' hhalf, List.take_of_length_le hhalf.le]
  exact decide_eq_true rfl

/-- Settles O30: degeneracy is read off the key's halves, and its halves' single DES is what a degenerate key computes. -/
theorem degenerateKeysActAsSingleDes : Obligations.DegenerateKeysActAsSingleDes := by
  refine ⟨fun _ => ⟨rfl, rfl, rfl⟩, fun _ => degenerate_tdes2_iff, fun _ hk hd _ => tdes2_of_degenerate hk hd,
    fun a b ha hb => ?_⟩
  have hk : (deriveSessionKey .tdes2 true a b).length = 16 := deriveSessionKey_length true ha hb
  have hd := deriveSessionKey_degenerate ha hb
  exact ⟨hk, hd, fun x => tdes2_of_degenerate hk hd⟩

end Sys2Proof.Machine

/-! The chains block by block (rules R205 to R207): statement ChainsFollowTheBlockEquations -/

namespace Sys2Proof.Machine

/-- The block that stands before block `i` in a chain over `x`: the chaining value before the first (rules R205 and R206). -/
def priorBlock (b : Nat) (iv x : List Byte) (i : Nat) : List Byte := if i = 0 then iv else block b x (i - 1)

/-- A block as the `b` bytes from its place on. -/
theorem block_eq_take_drop (b : Nat) (x : List Byte) (i : Nat) : block b x i = (x.drop (i * b)).take b := by
  rw [block, slice, Nat.succ_mul, Nat.add_sub_cancel_left]

theorem block_zero_append {b : Nat} {q : List Byte} (r : List Byte) (hq : q.length = b) : block b (q ++ r) 0 = q := by
  simp [block, slice, List.take_left' hq]

theorem block_succ_append {b : Nat} {q : List Byte} (r : List Byte) (i : Nat) (hq : q.length = b) :
    block b (q ++ r) (i + 1) = block b r i := by
  have hplace : (i + 1) * b = q.length + i * b := by rw [hq, Nat.succ_mul, Nat.add_comm]
  rw [block_eq_take_drop, block_eq_take_drop, hplace, List.drop_length_add_append]

@[simp] theorem priorBlock_zero (b : Nat) (iv x : List Byte) : priorBlock b iv x 0 = iv := rfl

theorem priorBlock_succ_append {b : Nat} {q : List Byte} (iv r : List Byte) (i : Nat) (hq : q.length = b) :
    priorBlock b iv (q ++ r) (i + 1) = priorBlock b q r i := by
  cases i with
  | zero => exact block_zero_append r hq
  | succ i => exact block_succ_append r i hq

/-- Data of `m + 1` blocks: its first block and `m` more. -/
theorem exists_append_of_length_succ_mul {b m : Nat} {p : List Byte} (hp : p.length = (m + 1) * b) :
    ∃ x r, p = x ++ r ∧ x.length = b ∧ r.length = m * b := by
  rw [Nat.succ_mul] at hp
  exact ⟨p.take b, p.drop b, (List.take_append_drop b p).symm, by simp; omega, by simp; omega⟩

/-- Rule R205 for the first block of some. -/
theorem cbcEnc_append_succ {c : Family} (k iv : List Byte) (m : Nat) {x : List Byte} (r : List Byte) (hx : x.length = bs c) :
    cbcEnc c k (m + 1) iv (x ++ r) =
      { out := encBlock c k (xorBytes x iv) ++ (cbcEnc c k m (encBlock c k (xorBytes x iv)) r).out,
        iv := (cbcEnc c k m (encBlock c k (xorBytes x iv)) r).iv } := by
  rw [cbcEnc_succ, List.take_left' hx, List.drop_left' hx]

/-- Rule R206 for the first block of some. -/
theorem cbcDec_append_succ {c : Family} (k iv : List Byte) (m : Nat) {x : List Byte} (r : List Byte) (hx : x.length = bs c) :
    cbcDec c k (m + 1) iv (x ++ r) =
      { out := xorBytes (decBlock c k x) iv ++ (cbcDec c k m x r).out, iv := (cbcDec c k m x r).iv } := by
  rw [cbcDec_succ, List.take_left' hx, List.drop_left' hx]

/-- Rule R205: each block is the encryption of its input block XOR the output block before it, and the last one is the new
chaining value. -/
theorem cbcEnc_blocks {c : Family} {k : List Byte} (hk : k.length = klen c) (m : Nat) {iv p : List Byte}
    (hiv : iv.length = bs c) (hp : p.length = m * bs c) :
    (∀ i < m, block (bs c) (cbcEnc c k m iv p).out i =
      encBlock c k (xorBytes (block (bs c) p i) (priorBlock (bs c) iv (cbcEnc c k m iv p).out i))) ∧
    (cbcEnc c k m iv p).iv = priorBlock (bs c) iv (cbcEnc c k m iv p).out m := by
  induction m generalizing iv p with
  | zero => exact ⟨nofun, rfl⟩
  | succ m ih =>
    obtain ⟨x, r, rfl, hx, hr⟩ := exists_append_of_length_succ_mul hp
    have hq : (encBlock c k (xorBytes x iv)).length = bs c := encBlock_length hk (by simp [hx, hiv])
    obtain ⟨hblocks, hlast⟩ := ih hq hr
    rw [cbcEnc_append_succ k iv m r hx]
    refine ⟨fun i hi => ?_, hlast.trans (priorBlock_succ_append _ _ m hq).symm⟩
    cases i with
    | zero => rw [block_zero_append _ hq, block_zero_append _ hx, priorBlock_zero]
    | succ i =>
      rw [block_succ_append _ i hq, block_succ_append _ i hx, priorBlock_succ_append _ _ i hq]
      exact hblocks i (by omega)

/-- Rule R206: each block is the decryption of its input block XOR the input block before it, and the last input block is the
new chaining value. -/
theorem cbcDec_blocks {c : Family} {k : List Byte} (hk : k.length = klen c) (m : Nat) {iv q : List Byte}
    (hiv : iv.length = bs c) (hq : q.length = m * bs c) :
    (∀ i < m, block (bs c) (cbcDec c k m iv q).out i =
      xorBytes (decBlock c k (block (bs c) q i)) (priorBlock (bs c) iv q i)) ∧
    (cbcDec c k m iv q).iv = priorBlock (bs c) iv q m := by
  induction m generalizing iv q with
  | zero => exact ⟨nofun, rfl⟩
  | succ m ih =>
    obtain ⟨x, r, rfl, hx, hr⟩ := exists_append_of_length_succ_mul hq
    have hp : (xorBytes (decBlock c k x) iv).length = bs c := by simp [decBlock_length hk hx, hiv]
    obtain ⟨hblocks, hlast⟩ := ih hx hr
    rw [cbcDec_append_succ k iv m r hx]
    refine ⟨fun i hi => ?_, hlast.trans (priorBlock_succ_append _ _ m hx).symm⟩
    cases i with
    | zero => rw [block_zero_append _ hp, block_zero_append _ hx, priorBlock_zero]
    | succ i =>
      rw [block_succ_append _ i hp, block_succ_append _ i hx, priorBlock_succ_append _ _ i hx]
      exact hblocks i (by omega)

/-- Settles O31: the block functions are those of the table and undo each other, and the chains follow their equations block by
block. -/
theorem chainsFollowTheBlockEquations : Obligations.ChainsFollowTheBlockEquations := by
  refine ⟨fun key x => ⟨fun _ _ => ⟨rfl, rfl⟩, fun _ _ => ⟨rfl, rfl⟩, fun _ _ => ⟨rfl, rfl⟩, fun _ _ => ⟨rfl, rfl⟩,
    fun c hk hx => ?_⟩, fun c key m iv p hk hiv hp => ?_⟩
  · exact ⟨encBlock_length hk hx, decBlock_length hk hx, decBlock_encBlock hk hx, encBlock_decBlock hk hx⟩
  · obtain ⟨henc, hencIv⟩ := cbcEnc_blocks hk m hiv hp
    obtain ⟨hdec, hdecIv⟩ := cbcDec_blocks hk m hiv hp
    have hencLen := (cbcEnc_lengths hk m hiv hp).1.trans hp.symm
    have hdecLen := (cbcDec_lengths hk m hiv hp).1.trans hp.symm
    exact ⟨hencLen, hdecLen, henc, hdec, hencIv, hdecIv, rfl⟩

end Sys2Proof.Machine

/-! SUPPORT. The words of an opcode with operands (rule R113), for formats FS and FK. -/

namespace Sys2Proof.Machine

/-- An opcode's words are its forms' words and BAD_OPERAND, where its format accepts the forms alone and has no other error. -/
theorem wordsDecodeTo_of_decode {op : Byte} {forms : Instr → Prop} (hwf : ∀ i, forms i → WellFormed i = true)
    (hok : ∀ w i, opField w = op → decode w = .ok i → forms i)
    (herr : ∀ w e, opField w = op → decode w = .error e → e = .badOperand) : WordsDecodeTo op forms := by
  intro w hw
  cases h : decode w with
  | ok i => exact .inl ⟨i, hok w i hw h, (encodeOfDecodeIsTheWord w i h).2, rfl⟩
  | error e =>
    obtain rfl := herr w e hw h
    refine .inr ⟨?_, rfl⟩
    rintro i hi rfl
    rw [decodeOfEncodeIsTheCommand i (hwf i hi)] at h
    cases h

/-- The words of an opcode of format FS: the command with either slot, or BAD_OPERAND. -/
theorem wordsDecodeTo_of_decodeFS {op : Byte} {f : KeySel → Instr} (hwf : ∀ k, WellFormed (f k) = true)
    (hd : ∀ w, opField w = op → decode w = decodeFS w f) : WordsDecodeTo op (fun i => ∃ k, i = f k) := by
  refine wordsDecodeTo_of_decode ?_ (fun w i hw h => decodeFS_ok ((hd w hw).symm.trans h))
    fun w e hw h => ((decodeFS_eq_error_iff w f e).1 ((hd w hw).symm.trans h)).1
  rintro i ⟨k, rfl⟩
  exact hwf k

end Sys2Proof.Machine

/-! SUPPORT. Bytes after writes to windows, byte for byte and whatever the cells that list them. -/

namespace Sys2Proof.Machine

theorem SameBytes.refl (s : State) : SameBytes s s := fun _ => rfl

theorem SameBytes.symm {s t : State} (h : SameBytes s t) : SameBytes t s := fun a => (h a).symm

theorem SameBytes.trans {s t u : State} (h : SameBytes s t) (h' : SameBytes t u) : SameBytes s u := fun a => (h' a).trans (h a)

theorem SameBytes.window {s t : State} (h : SameBytes s t) (w : Window) (off n : Nat) : t.window w off n = s.window w off n :=
  readBytes_congr fun _ _ => h _

/-- The same write to the same bytes. -/
theorem SameBytes.setWindow {s t : State} (h : SameBytes s t) (w : Window) (off : Nat) (b : List Byte) :
    SameBytes (s.setWindow w off b) (t.setWindow w off b) := fun a => by
  rw [readByte_setWindow, readByte_setWindow, h a]

/-- Writing back what a range holds changes no byte. -/
theorem setWindow_window_sameBytes (s : State) (w : Window) (off n : Nat) :
    SameBytes s (s.setWindow w off (s.window w off n)) := fun a => by
  rw [readByte_setWindow, State.window_length]
  split
  · rw [State.window, readBytes_getD _ _ _ _ (by omega), Nat.add_sub_cancel' (by omega)]
  · rfl

/-- A write of no byte changes no byte. -/
theorem setWindow_nil_sameBytes (s : State) (w : Window) (off : Nat) : SameBytes s (s.setWindow w off []) :=
  setWindow_window_sameBytes s w off 0

/-- A second write to the same range replaces the first. -/
theorem setWindow_setWindow_sameBytes (s : State) (w : Window) (off : Nat) {b c : List Byte} (h : b.length = c.length) :
    SameBytes (s.setWindow w off c) ((s.setWindow w off b).setWindow w off c) := fun a => by
  rw [readByte_setWindow, readByte_setWindow, readByte_setWindow, h]
  split <;> rfl

/-- Writes side by side are one write of the joined bytes. -/
theorem setWindow_append_sameBytes (s : State) (w : Window) (off : Nat) (b c : List Byte) :
    SameBytes (s.setWindow w off (b ++ c)) ((s.setWindow w off b).setWindow w (off + b.length) c) := fun a => by
  rw [readByte_setWindow, readByte_setWindow, readByte_setWindow, List.length_append]
  by_cases h1 : w.base + off ≤ a ∧ a < w.base + off + b.length
  · rw [if_neg (by omega), if_pos h1, if_pos (by omega), List.getD_append _ _ _ _ (by omega)]
  · rw [if_neg h1]
    by_cases h2 : w.base + (off + b.length) ≤ a ∧ a < w.base + (off + b.length) + c.length
    · rw [if_pos h2, if_pos (by omega), List.getD_append_right _ _ _ _ (by omega)]
      congr 1
      omega
    · rw [if_neg h2, if_neg (by omega)]

/-- Writes to two windows may change places. -/
theorem setWindow_comm_sameBytes (s : State) {w v : Window} (hne : w ≠ v) {x y : Nat} {b c : List Byte}
    (hb : x + b.length ≤ w.size) (hc : y + c.length ≤ v.size) :
    SameBytes ((s.setWindow w x b).setWindow v y c) ((s.setWindow v y c).setWindow w x b) := fun a => by
  have hapart := Window.apart hne
  simp only [readByte_setWindow]
  by_cases h : w.base + x ≤ a ∧ a < w.base + x + b.length
  · rw [if_pos h, if_pos h, if_neg (by omega)]
  · rw [if_neg h, if_neg h]

/-- A range read in two parts. -/
theorem State.window_add (s : State) (w : Window) (off n k : Nat) :
    s.window w off (n + k) = s.window w off n ++ s.window w (off + n) k := by
  rw [State.window, readBytes_add, Nat.add_assoc]
  rfl

end Sys2Proof.Machine

/-! SUPPORT. CENC, CDEC and CMACB as one command with three chains (rules R205 to R209 and R211): their checks, and what they
leave. -/

namespace Sys2Proof.Machine

/-- The three commands that run a chain over DATA. -/
inductive ChainKind where
  | enc
  | dec
  | mac

/-- The command of a kind. -/
def ChainKind.instr : ChainKind → KeySel → Instr
  | .enc => .cenc
  | .dec => .cdec
  | .mac => .cmacb

/-- What a kind's chain makes of some blocks: its output, which for CMACB is the data as it was, and the new chaining value. -/
def ChainKind.run (q : ChainKind) (c : Family) (key : List Byte) (m : Nat) (iv p : List Byte) : Chain :=
  match q with
  | .enc => cbcEnc c key m iv p
  | .dec => cbcDec c key m iv p
  | .mac => { out := p, iv := cbcMac c key m iv p }

theorem ChainKind.run_lengths (q : ChainKind) {c : Family} {key : List Byte} (hk : key.length = klen c) {m : Nat}
    {iv p : List Byte} (hiv : iv.length = bs c) (hp : p.length = m * bs c) :
    (q.run c key m iv p).out.length = m * bs c ∧ (q.run c key m iv p).iv.length = bs c := by
  cases q with
  | enc => exact cbcEnc_lengths hk m hiv hp
  | dec => exact cbcDec_lengths hk m hiv hp
  | mac => exact ⟨hp, (cbcEnc_lengths hk m hiv hp).2⟩

/-- No block leaves the chaining value as it was (rule R205). -/
theorem ChainKind.run_zero (q : ChainKind) (c : Family) (key iv : List Byte) :
    q.run c key 0 iv [] = { out := [], iv := iv } := by cases q <;> rfl

/-- A chain of decryptions over joined data is the chain over the one and then the other. -/
theorem cbcDec_append {c : Family} (k : List Byte) (m n : Nat) (iv : List Byte) {p : List Byte} (r : List Byte)
    (hp : p.length = m * bs c) :
    cbcDec c k (m + n) iv (p ++ r) =
      { out := (cbcDec c k m iv p).out ++ (cbcDec c k n (cbcDec c k m iv p).iv r).out,
        iv := (cbcDec c k n (cbcDec c k m iv p).iv r).iv } := by
  induction m generalizing iv p with
  | zero =>
    obtain rfl : p = [] := List.length_eq_zero_iff.1 (by simpa using hp)
    simp [cbcDec]
  | succ m ih =>
    obtain ⟨x, y, rfl, hx, hy⟩ := exists_append_of_length_succ_mul hp
    rw [Nat.add_right_comm, List.append_assoc, cbcDec_append_succ k iv _ _ hx, cbcDec_append_succ k iv _ _ hx, ih x hy,
      List.append_assoc]

/-- Each chain may be split at a block boundary (rule R214). -/
theorem ChainKind.run_append (q : ChainKind) {c : Family} (key : List Byte) (m n : Nat) (iv : List Byte) {p : List Byte}
    (r : List Byte) (hp : p.length = m * bs c) :
    q.run c key (m + n) iv (p ++ r) =
      { out := (q.run c key m iv p).out ++ (q.run c key n (q.run c key m iv p).iv r).out,
        iv := (q.run c key n (q.run c key m iv p).iv r).iv } := by
  cases q with
  | enc => exact cbcEnc_append key m n iv r hp
  | dec => exact cbcDec_append key m n iv r hp
  | mac => simp only [ChainKind.run, cbcMac, cbcEnc_append key m n iv r hp]

/-- What a chain command that succeeds leaves: `out` in DATA and `iv` in IV, its results, and all else as before. -/
structure ChainDone (s t : State) (out iv : List Byte) : Prop where
  completed : Completed t .ok 0 (wordOf (opLen s)) 0 0
  inputs : SameInputs s t
  keys : SameKeys s t
  bytes : SameBytes ((s.setWindow .data (opOff s) out).setWindow .iv 0 iv) t

/-- A range of DATA that the chain commands accept, with the key they use (rules R208, R209 and R211). -/
structure ChainReady (s : State) (k : KeySel) (r : KeyRef) : Prop where
  key : keyOf s k = some r
  range : opOff s + opLen s ≤ 65536
  blocks : opLen s % bs r.fam = 0

theorem chainOperands_eq_error_of_noKey {s : State} {k : KeySel} (h : keyOf s k = none) :
    chainOperands s k = .error .noKey := by
  rw [chainOperands, h]

theorem chainOperands_eq_error_of_range {s : State} {k : KeySel} {r : KeyRef} (hk : keyOf s k = some r)
    (h : 65536 < opOff s + opLen s) : chainOperands s k = .error .badOperand := by
  rw [chainOperands, hk]
  exact if_pos h

theorem chainOperands_eq_error_of_blocks {s : State} {k : KeySel} {r : KeyRef} (hk : keyOf s k = some r)
    (hr : opOff s + opLen s ≤ 65536) (h : opLen s % bs r.fam ≠ 0) : chainOperands s k = .error .badBlockLength := by
  rw [chainOperands, hk]
  exact (if_neg (Nat.not_lt.2 hr)).trans (if_pos h)

/-- A failed check fails each of the three commands with its code (rule R312). -/
theorem ChainKind.fails (q : ChainKind) {k : KeySel} {s : State} {code : ErrCode} (h : chainOperands s k = .error code) :
    Fails (q.instr k) s code 0 := by
  refine ⟨fail s code, ?_, fail_failsWith s (chainOperands_ne_ok h) 0⟩
  cases q with
  | enc => rw [ChainKind.instr, exec, execCenc, h]
  | dec => rw [ChainKind.instr, exec, execCdec, h]
  | mac => rw [ChainKind.instr, exec, execCmacb, h]

/-- What the chain of a kind gives on the operands of a state, under a key. -/
def chainResult (s : State) (r : KeyRef) (q : ChainKind) : Chain :=
  q.run r.fam r.key (opLen s / bs r.fam) (s.window .iv 0 (bs r.fam)) (s.window .data (opOff s) (opLen s))

/-- Over no data, a chain gives no output and the IV as it was. -/
theorem chainResult_nil {s : State} (r : KeyRef) (q : ChainKind) (h : opLen s = 0) :
    chainResult s r q = { out := [], iv := s.window .iv 0 (bs r.fam) } := by
  rw [chainResult, h, Nat.zero_div]
  exact q.run_zero ..

/-- The data is `opLen s / bs` whole blocks. -/
theorem ChainReady.div_mul {s : State} {k : KeySel} {r : KeyRef} (h : ChainReady s k r) :
    opLen s / bs r.fam * bs r.fam = opLen s := Nat.div_mul_cancel (Nat.dvd_of_mod_eq_zero h.blocks)

theorem ChainReady.result_lengths {s : State} {k : KeySel} {r : KeyRef} (h : ChainReady s k r) (q : ChainKind) :
    (chainResult s r q).out.length = opLen s ∧ (chainResult s r q).iv.length = bs r.fam := by
  have hl := q.run_lengths (keyOf_length h.key) (s.window_length .iv 0 (bs r.fam))
    ((s.window_length .data (opOff s) (opLen s)).trans h.div_mul.symm)
  exact ⟨hl.1.trans h.div_mul, hl.2⟩

/-- The stores of CENC and CDEC. -/
theorem chainDone_of_stores (s : State) (out iv : List Byte) :
    ChainDone s (succeed ((s.setWindow .data (opOff s) out).setWindow .iv 0 iv) 0 (wordOf (opLen s)) 0 0) out iv where
  completed := succeed_completed ..
  inputs := ⟨rfl, rfl, rfl, rfl, rfl, rfl, rfl, rfl, rfl, rfl⟩
  keys := ⟨rfl, rfl, rfl, rfl, rfl, rfl⟩
  bytes := SameBytes.refl _

/-- CMACB stores IV alone: its DATA is the data it read. -/
theorem chainDone_of_iv (s : State) (iv : List Byte) :
    ChainDone s (succeed (s.setWindow .iv 0 iv) 0 (wordOf (opLen s)) 0 0) (s.window .data (opOff s) (opLen s)) iv where
  completed := succeed_completed ..
  inputs := succeed_setWindow_sameInputs ..
  keys := succeed_setWindow_sameKeys ..
  bytes := ((setWindow_window_sameBytes s .data (opOff s) (opLen s)).setWindow .iv 0 iv).symm

/-- Each of the three commands succeeds where the checks pass (rules R208, R209 and R211). -/
theorem ChainReady.exec_done {s : State} {k : KeySel} {r : KeyRef} (h : ChainReady s k r) (q : ChainKind) :
    ∃ t, exec (q.instr k) s = .next t ∧ ChainDone s t (chainResult s r q).out (chainResult s r q).iv := by
  have hx := chainOperands_ok h.key h.range h.blocks
  cases q with
  | enc | dec =>
    refine ⟨_, ?_, chainDone_of_stores s _ _⟩
    simp only [ChainKind.instr, exec, execCenc, execCdec, hx, ChainInput.blocks, State.window_length, chainResult, ChainKind.run]
  | mac =>
    refine ⟨_, ?_, chainDone_of_iv s _⟩
    simp only [ChainKind.instr, exec, execCmacb, hx, ChainInput.blocks, State.window_length, chainResult, ChainKind.run]

namespace ChainDone

variable {s t : State} {out iv : List Byte}

theorem ivWindow {n : Nat} (h : ChainDone s t out iv) (hiv : iv.length = n) : t.window .iv 0 n = iv :=
  (h.bytes.window ..).trans (State.window_setWindow_same _ _ _ hiv)

/-- The bytes of IV beyond the block are as before. -/
theorem ivTail {n m : Nat} (h : ChainDone s t out iv) (hiv : iv.length = n) (hm : n + m ≤ 16)
    (hd : opOff s + out.length ≤ 65536) : t.window .iv n m = s.window .iv n m := by
  rw [h.bytes.window, State.window_setWindow_apart _ _ _ _ _ _ (.inr (by omega)),
    State.window_setWindow_other _ (by decide) hd hm]

theorem dataWindow {n : Nat} (h : ChainDone s t out iv) (hout : out.length = n) (hiv : iv.length ≤ 16)
    (hd : opOff s + n ≤ 65536) : t.window .data (opOff s) n = out := by
  rw [h.bytes.window, State.window_setWindow_other _ (by decide) (by simpa [Window.size] using hiv) hd,
    State.window_setWindow_same _ _ _ hout]

theorem sameOutside {n m : Nat} (h : ChainDone s t out iv) (hout : out.length = n) (hiv : iv.length = m) :
    SameOutside [Window.data.range (opOff s) n, Window.iv.range 0 m] s t := fun a ha => by
  obtain ⟨hdata, hivs⟩ := Bool.or_eq_false_iff.1 ha
  rw [h.bytes a, readByte_setWindow_outside _ hiv.le (by simpa using hivs), readByte_setWindow_outside _ hout.le hdata]

/-- A command that puts back the data it read stores IV alone. -/
theorem sameOutside_iv {n m : Nat} (h : ChainDone s t (s.window .data (opOff s) n) iv) (hiv : iv.length = m) :
    SameOutside [Window.iv.range 0 m] s t := fun a ha => by
  rw [h.bytes a, readByte_setWindow_outside _ hiv.le (by simpa using ha), setWindow_window_sameBytes]

/-- A command over no data changes no byte. -/
theorem sameBytes_of_nil {n : Nat} (h : ChainDone s t [] (s.window .iv 0 n)) : SameBytes s t :=
  ((setWindow_window_sameBytes s .iv 0 n).trans ((setWindow_nil_sameBytes s .data (opOff s)).setWindow .iv 0 _)).trans h.bytes

end ChainDone

end Sys2Proof.Machine

/-! The chain commands (rules R208, R209 and R211): statements CencEncryptsInPlace, CdecDecryptsInPlace and CmacbAdvancesTheIv -/

namespace Sys2Proof.Machine

/-- A block of a window's range is a window's range. -/
theorem block_window (s : State) (w : Window) (off : Nat) {b n i : Nat} (h : (i + 1) * b ≤ n) :
    block b (s.window w off n) i = s.window w (off + i * b) b := by
  obtain ⟨rest, rfl⟩ := Nat.exists_eq_add_of_le h
  rw [block_eq_take_drop, Nat.succ_mul, Nat.add_assoc, State.window_add, State.window_add,
    List.drop_left' (State.window_length ..), List.take_left' (State.window_length ..)]

/-- The order of the three commands' checks (rules R208, R209, R211 and R315). -/
theorem ChainKind.checks (q : ChainKind) (k : KeySel) (s : State) :
    (keyOf s k = none → Fails (q.instr k) s .noKey 0) ∧
    ∀ r, keyOf s k = some r →
      (65536 < opOff s + opLen s → Fails (q.instr k) s .badOperand 0) ∧
      (opOff s + opLen s ≤ 65536 → opLen s % bs r.fam ≠ 0 → Fails (q.instr k) s .badBlockLength 0) :=
  ⟨fun h => q.fails (chainOperands_eq_error_of_noKey h), fun _ hk =>
    ⟨fun h => q.fails (chainOperands_eq_error_of_range hk h),
      fun hr h => q.fails (chainOperands_eq_error_of_blocks hk hr h)⟩⟩

/-- What a chain command leaves where it succeeds, window by window. -/
theorem ChainReady.exec_windows {s : State} {k : KeySel} {r : KeyRef} (h : ChainReady s k r) (q : ChainKind) :
    ∃ t, exec (q.instr k) s = .next t ∧ Completed t .ok 0 (wordOf (opLen s)) 0 0 ∧
      t.window .data (opOff s) (opLen s) = (chainResult s r q).out ∧ t.window .iv 0 (bs r.fam) = (chainResult s r q).iv ∧
      SameInputs s t ∧ SameKeys s t ∧
      SameOutside [Window.data.range (opOff s) (opLen s), Window.iv.range 0 (bs r.fam)] s t ∧
      (opLen s = 0 → SameBytes s t) := by
  obtain ⟨t, he, hd⟩ := h.exec_done q
  obtain ⟨hout, hiv⟩ := h.result_lengths q
  refine ⟨t, he, hd.completed, hd.dataWindow hout (hiv.trans_le (bs_le _)) h.range, hd.ivWindow hiv, hd.inputs, hd.keys,
    hd.sameOutside hout hiv, fun h0 => ?_⟩
  rw [chainResult_nil r q h0] at hd
  exact hd.sameBytes_of_nil

/-- Settles O32: the checks in their order, then the chain of encryptions in place. -/
theorem cencEncryptsInPlace : Obligations.CencEncryptsInPlace := by
  refine ⟨wordsDecodeTo_of_decodeFS (fun _ => rfl) fun w h => by rw [decode, h]; rfl, fun k s => ?_⟩
  obtain ⟨hnone, hchecks⟩ := ChainKind.enc.checks k s
  refine ⟨hnone, fun r hk => ⟨(hchecks r hk).1, (hchecks r hk).2, fun hr hb => ?_⟩⟩
  exact ChainReady.exec_windows ⟨hk, hr, hb⟩ .enc

/-- The new chaining value of CDEC is the last block of DATA as it stood (rule R209). -/
theorem ChainReady.dec_iv {s : State} {k : KeySel} {r : KeyRef} (h : ChainReady s k r) (h0 : opLen s ≠ 0) :
    (chainResult s r .dec).iv = s.window .data (opOff s + (opLen s - bs r.fam)) (bs r.fam) := by
  have hlast := (cbcDec_blocks (keyOf_length h.key) _ (s.window_length .iv 0 (bs r.fam))
    ((s.window_length .data (opOff s) (opLen s)).trans h.div_mul.symm)).2
  obtain ⟨m, hm⟩ : ∃ m, opLen s / bs r.fam = m + 1 := by
    refine Nat.exists_eq_succ_of_ne_zero fun hm => h0 ?_
    rw [← h.div_mul, hm, Nat.zero_mul]
  have hlen : (m + 1) * bs r.fam = opLen s := by rw [← hm, h.div_mul]
  have hoff : opLen s - bs r.fam = m * bs r.fam := by rw [← hlen, Nat.succ_mul, Nat.add_sub_cancel]
  rw [hm] at hlast
  rw [chainResult, hm, hoff]
  exact hlast.trans (block_window s .data (opOff s) hlen.le)

/-- Settles O33: the checks in their order, then the chain of decryptions in place. -/
theorem cdecDecryptsInPlace : Obligations.CdecDecryptsInPlace := by
  refine ⟨wordsDecodeTo_of_decodeFS (fun _ => rfl) fun w h => by rw [decode, h]; rfl, fun k s => ?_⟩
  obtain ⟨hnone, hchecks⟩ := ChainKind.dec.checks k s
  refine ⟨hnone, fun r hk => ⟨(hchecks r hk).1, (hchecks r hk).2, fun hr hb => ?_⟩⟩
  have h : ChainReady s k r := ⟨hk, hr, hb⟩
  obtain ⟨t, he, hc, hdata, hiv, hin, hkeys, hout, hnil⟩ := h.exec_windows .dec
  exact ⟨t, he, hc, hdata, hiv, fun h0 => hiv.trans (h.dec_iv h0), hin, hkeys, hout, hnil⟩

/-- Settles O34: the checks in their order, then the MAC chain, which stores IV alone. -/
theorem cmacbAdvancesTheIv : Obligations.CmacbAdvancesTheIv := by
  refine ⟨wordsDecodeTo_of_decodeFS (fun _ => rfl) fun w h => by rw [decode, h]; rfl, fun k s => ?_⟩
  obtain ⟨hnone, hchecks⟩ := ChainKind.mac.checks k s
  refine ⟨hnone, fun r hk => ⟨(hchecks r hk).1, (hchecks r hk).2, fun hr hb => ?_⟩⟩
  have h : ChainReady s k r := ⟨hk, hr, hb⟩
  obtain ⟨t, he, hd⟩ := h.exec_done .mac
  have hiv := (h.result_lengths .mac).2
  refine ⟨t, he, hd.completed, hd.ivWindow hiv, hd.inputs, hd.keys, hd.sameOutside_iv hiv, fun h0 => ?_⟩
  rw [chainResult_nil r .mac h0] at hd
  exact hd.sameBytes_of_nil

/-- Settles O35: a slot's key is its record's family with the first bytes of its window, and an empty slot is NO_KEY. -/
theorem keySlotSelection : Obligations.KeySlotSelection := by
  refine fun s => ⟨fun h => by rw [keyOf_ltk, h]; rfl, fun h => by rw [keyOf_sess, h]; rfl,
    fun l h => by rw [keyOf_ltk, h]; rfl, fun l h => by rw [keyOf_sess, h]; rfl, fun k h => ?_⟩
  have hcmac : cmacOperands s k = .error .noKey := by rw [cmacOperands, h]
  exact ⟨(ChainKind.enc.checks k s).1 h, (ChainKind.dec.checks k s).1 h, (ChainKind.mac.checks k s).1 h,
    ⟨_, by rw [exec, execCmsubk, h], fail_failsWith s (by decide) 0⟩,
    ⟨_, by rw [exec, execCmac, hcmac], fail_failsWith s (by decide) 0⟩⟩

end Sys2Proof.Machine

/-! The laws of the chains (rule R214): statement ChainLawsHold -/

namespace Sys2Proof.Machine

/-- A chain command either fails its checks, whatever its kind, or is ready to run. -/
theorem chainOperands_error_or_ready (s : State) (k : KeySel) :
    (∃ code, chainOperands s k = .error code) ∨ ∃ r, ChainReady s k r := by
  cases h : chainOperands s k with
  | error code => exact .inl ⟨code, rfl⟩
  | ok x =>
    obtain ⟨hk, hr, hb, -, -⟩ := chainOperands_cases h
    exact .inr ⟨x.ref, hk, hr, hb⟩

/-- A chain command that reports no error was ready to run, and is done. -/
theorem ChainKind.done_of_exec {q : ChainKind} {k : KeySel} {s t : State} (h : exec (q.instr k) s = .next t)
    (ht : t.err = false) :
    ∃ r, ChainReady s k r ∧ ChainDone s t (chainResult s r q).out (chainResult s r q).iv := by
  rcases chainOperands_error_or_ready s k with ⟨code, he⟩ | ⟨r, hr⟩
  · obtain ⟨u, hu, hf⟩ := q.fails he
    cases hu.symm.trans h
    have herr := hf.completed.err
    rw [ht, eq_comm, decide_eq_false_iff_not, not_not] at herr
    exact absurd herr (chainOperands_ne_ok he)
  · obtain ⟨u, hu, hd⟩ := hr.exec_done q
    cases hu.symm.trans h
    exact ⟨r, hr, hd⟩

/-- The whole of IV after a chain: the new chaining value, and the bytes beyond the block as before. -/
theorem ChainReady.ivWindow_done {s t : State} {k : KeySel} {r : KeyRef} {q : ChainKind} (h : ChainReady s k r)
    (hd : ChainDone s t (chainResult s r q).out (chainResult s r q).iv) :
    t.window .iv 0 16 = (chainResult s r q).iv ++ s.window .iv (bs r.fam) (16 - bs r.fam) := by
  obtain ⟨hout, hiv⟩ := h.result_lengths q
  have hb := bs_le r.fam
  have hsplit : 16 = bs r.fam + (16 - bs r.fam) := by omega
  conv_lhs => rw [hsplit, State.window_add, Nat.zero_add]
  rw [hd.ivWindow hiv, hd.ivTail hiv hsplit.ge (by rw [hout]; exact h.range)]

/-- The chain of CDEC with the key, the range and the IV that CENC had, over its ciphertext: the plaintext, and the chaining value
of CENC. -/
theorem chainResult_dec_of_enc {s u : State} {k : KeySel} {r : KeyRef} (h : ChainReady s k r) (hlen : opLen u = opLen s)
    (hiv : u.window .iv 0 (bs r.fam) = s.window .iv 0 (bs r.fam))
    (hdata : u.window .data (opOff u) (opLen u) = (chainResult s r .enc).out) :
    chainResult u r .dec = { out := s.window .data (opOff s) (opLen s), iv := (chainResult s r .enc).iv } := by
  rw [chainResult, hlen, hiv, ← hlen, hdata, hlen]
  exact cbcDec_cbcEnc (keyOf_length h.key) _ (State.window_length ..) ((State.window_length ..).trans h.div_mul.symm)

/-- Rule R214, its first law: CDEC after CENC restores DATA and leaves the IV that CENC leaves. -/
theorem cdec_undoes_cenc {k : KeySel} {s t u : State} (he : exec (.cenc k) s = .next t) (ht : t.err = false)
    (hk : keyOf u k = keyOf s k) (hoff : opOff u = opOff s) (hlen : opLen u = opLen s)
    (hiv : u.window .iv 0 16 = s.window .iv 0 16)
    (hdata : u.window .data (opOff s) (opLen s) = t.window .data (opOff s) (opLen s)) :
    ∃ v, exec (.cdec k) u = .next v ∧ v.err = false ∧
      v.window .data (opOff s) (opLen s) = s.window .data (opOff s) (opLen s) ∧
      v.window .iv 0 16 = t.window .iv 0 16 := by
  obtain ⟨r, hs, hd⟩ := ChainKind.done_of_exec (q := .enc) he ht
  obtain ⟨hout, hivLen⟩ := hs.result_lengths .enc
  have hb := bs_le r.fam
  have hu : ChainReady u k r := ⟨hk.trans hs.key, by rw [hoff, hlen]; exact hs.range, by rw [hlen]; exact hs.blocks⟩
  have hcipher := hdata.trans (hd.dataWindow hout (hivLen.trans_le hb) hs.range)
  have hres := chainResult_dec_of_enc (u := u) hs hlen (State.window_part hiv (by omega)) (by rw [hoff, hlen]; exact hcipher)
  obtain ⟨v, hv, hvd⟩ := hu.exec_done .dec
  refine ⟨v, hv, hvd.completed.err, ?_, ?_⟩
  · obtain ⟨houtDec, hivDec⟩ := hu.result_lengths .dec
    rw [← hoff, ← hlen, hvd.dataWindow houtDec (hivDec.trans_le hb) hu.range, hres, hoff, hlen]
  · rw [hu.ivWindow_done hvd, hs.ivWindow_done hd, hres, State.window_part hiv (by omega)]

/-- Rule R214, its second law: CMACB reports what CENC reports and leaves the IV that CENC leaves. -/
theorem cmacb_leaves_iv_of_cenc {k : KeySel} {s t : State} (he : exec (.cenc k) s = .next t) :
    ∃ v, exec (.cmacb k) s = .next v ∧ v.errCode = t.errCode ∧ v.window .iv 0 16 = t.window .iv 0 16 := by
  rcases chainOperands_error_or_ready s k with ⟨code, hc⟩ | ⟨r, hr⟩
  · obtain ⟨u, hu, hf⟩ := ChainKind.enc.fails hc
    obtain ⟨v, hv, hg⟩ := ChainKind.mac.fails hc
    cases hu.symm.trans he
    exact ⟨v, hv, hg.completed.errCode.trans hf.completed.errCode.symm,
      (hg.bytes.window ..).trans (hf.bytes.window ..).symm⟩
  · obtain ⟨u, hu, hd⟩ := hr.exec_done .enc
    obtain ⟨v, hv, hg⟩ := hr.exec_done .mac
    cases hu.symm.trans he
    exact ⟨v, hv, hg.completed.errCode.trans hd.completed.errCode.symm,
      (hr.ivWindow_done hg).trans (hr.ivWindow_done hd).symm⟩

theorem opOff_withRange (s : State) {off : Nat} (len : Nat) (h : off < 65536) : opOff (withRange s off len) = off := by
  simp [opOff, withRange, Nat.mod_eq_of_lt h]

theorem opLen_withRange (s : State) (off : Nat) {len : Nat} (h : len ≤ 65536) : opLen (withRange s off len) = len := by
  simp [opLen, withRange]
  omega

@[simp] theorem keyOf_withRange (s : State) (off len : Nat) (k : KeySel) : keyOf (withRange s off len) k = keyOf s k := by
  cases k <;> rfl

/-- The operands of a chain command with its range given as numbers. -/
theorem chainReady_withRange {s : State} {k : KeySel} {r : KeyRef} (hk : keyOf s k = some r) {off len : Nat} (hoff : off < 65536)
    (hr : off + len ≤ 65536) (hb : len % bs r.fam = 0) : ChainReady (withRange s off len) k r where
  key := (keyOf_withRange ..).trans hk
  range := by rw [opOff_withRange s len hoff, opLen_withRange s off (by omega)]; exact hr
  blocks := by rw [opLen_withRange s off (by omega)]; exact hb

theorem chainResult_withRange (s : State) (r : KeyRef) (q : ChainKind) {off len : Nat} (hoff : off < 65536)
    (hlen : len ≤ 65536) :
    chainResult (withRange s off len) r q =
      q.run r.fam r.key (len / bs r.fam) (s.window .iv 0 (bs r.fam)) (s.window .data off len) := by
  rw [chainResult, opOff_withRange s len hoff, opLen_withRange s off hlen]
  rfl

/-- The bytes that a chain over a given range leaves. -/
theorem ChainDone.bytes_withRange {s t : State} {off len : Nat} {out iv : List Byte} (hoff : off < 65536)
    (h : ChainDone (withRange s off len) t out iv) : SameBytes ((s.setWindow .data off out).setWindow .iv 0 iv) t := by
  have hb := h.bytes
  rwa [opOff_withRange s len hoff] at hb

/-- A key slot's window is apart from DATA and IV, so a chain leaves the keys as they were (rule R204). -/
theorem ChainDone.keyOf_eq {s t : State} {out iv : List Byte} (h : ChainDone s t out iv) (hout : opOff s + out.length ≤ 65536)
    (hiv : iv.length ≤ 16) (k : KeySel) : keyOf t k = keyOf s k := by
  have hw {w : Window} (hd : Window.data ≠ w) (hi : Window.iv ≠ w) (c : Family) (hs : w.size = 24) :
      t.window w 0 (klen c) = s.window w 0 (klen c) := by
    have hc : 0 + klen c ≤ w.size := by rw [hs, Nat.zero_add]; exact klen_le c
    rw [h.bytes.window, State.window_setWindow_other _ hi (by simpa [Window.size] using hiv) hc,
      State.window_setWindow_other _ hd hout hc]
  cases k with
  | ltk =>
    rw [keyOf_ltk, keyOf_ltk, h.keys.ltk]
    congr 1
    funext l
    rw [ltkKeyBytes, hw (by decide) (by decide) l.ciph rfl, ltkKeyBytes]
  | sess =>
    rw [keyOf_sess, keyOf_sess, h.keys.session]
    congr 1
    funext l
    rw [sessKeyBytes, hw (by decide) (by decide) l.ciph rfl, sessKeyBytes]

/-- Two chains one behind the other store what one chain over both ranges stores. -/
theorem setWindow_chain_sameBytes (s : State) {off n : Nat} {out1 out2 iv1 iv2 : List Byte} (hn : out1.length = n)
    (h1 : iv1.length ≤ 16) (h2 : iv1.length = iv2.length) (hd : off + n + out2.length ≤ 65536) :
    SameBytes ((s.setWindow .data off (out1 ++ out2)).setWindow .iv 0 iv2)
      ((((s.setWindow .data off out1).setWindow .iv 0 iv1).setWindow .data (off + n) out2).setWindow .iv 0 iv2) := by
  subst hn
  have hjoin := setWindow_append_sameBytes s .data off out1 out2
  have hover := setWindow_setWindow_sameBytes ((s.setWindow .data off out1).setWindow .data (off + out1.length) out2) .iv 0 h2
  have hcomm := setWindow_comm_sameBytes (s.setWindow .data off out1) (w := .iv) (v := .data) (by decide) (x := 0) (b := iv1)
    (by simpa [Window.size] using h1) hd
  exact ((hjoin.setWindow .iv 0 iv2).trans hover).trans (hcomm.symm.setWindow .iv 0 iv2)

/-- The operands that a chain leaves for the range behind its own: its chaining value, and the data as it was. -/
theorem ChainReady.result_behind {s t : State} {k : KeySel} {r : KeyRef} {q : ChainKind} {off a b : Nat}
    (h : ChainReady (withRange s off a) k r) (hoff : off + a < 65536) (hb : off + a + b ≤ 65536)
    (hd : ChainDone (withRange s off a) t (chainResult (withRange s off a) r q).out (chainResult (withRange s off a) r q).iv) :
    chainResult (withRange t (off + a) b) r q =
      q.run r.fam r.key (b / bs r.fam) (chainResult (withRange s off a) r q).iv (s.window .data (off + a) b) := by
  obtain ⟨hout, hiv⟩ := h.result_lengths q
  have hbs := bs_le r.fam
  rw [opLen_withRange s off (by omega)] at hout
  have hdata : t.window .data (off + a) b = s.window .data (off + a) b := by
    rw [(hd.bytes_withRange (by omega)).window, State.window_setWindow_other _ (by decide) (by simp [Window.size]; omega) hb,
      State.window_setWindow_apart _ _ _ _ _ _ (.inr (by omega))]
  rw [chainResult_withRange t r q hoff (by omega), hd.ivWindow hiv, hdata]

/-- A chain over two ranges side by side is the chain over the first and then, on what that leaves, over the second. -/
theorem ChainReady.result_add {s t : State} {k : KeySel} {r : KeyRef} {q : ChainKind} {off a b : Nat}
    (h : ChainReady (withRange s off a) k r) (ha : a % bs r.fam = 0) (hoff : off + a < 65536) (hb : off + a + b ≤ 65536)
    (hd : ChainDone (withRange s off a) t (chainResult (withRange s off a) r q).out (chainResult (withRange s off a) r q).iv) :
    chainResult (withRange s off (a + b)) r q =
      { out := (chainResult (withRange s off a) r q).out ++ (chainResult (withRange t (off + a) b) r q).out,
        iv := (chainResult (withRange t (off + a) b) r q).iv } := by
  have hdvd := Nat.dvd_of_mod_eq_zero ha
  rw [h.result_behind hoff hb hd, chainResult_withRange s r q (by omega) (by omega),
    chainResult_withRange s r q (by omega) (by omega), State.window_add, Nat.add_div_of_dvd_right hdvd]
  exact q.run_append _ _ _ _ _ ((State.window_length ..).trans (Nat.div_mul_cancel hdvd).symm)

/-- Rule R214, its third law: a chain may be split at a block boundary. -/
theorem ChainKind.split (q : ChainKind) {k : KeySel} {s : State} {off a b : Nat} {r : KeyRef} (hk : keyOf s k = some r)
    (ha : a % bs r.fam = 0) (hb : b % bs r.fam = 0) (hr : off + a + b ≤ 65536) (hoff : off + a < 65536) :
    ∃ t t1 t2, exec (q.instr k) (withRange s off (a + b)) = .next t ∧ exec (q.instr k) (withRange s off a) = .next t1 ∧
      exec (q.instr k) (withRange t1 (off + a) b) = .next t2 ∧ t.err = false ∧ t1.err = false ∧ t2.err = false ∧
      SameBytes t t2 := by
  have hbs := bs_le r.fam
  have hwhole : ChainReady (withRange s off (a + b)) k r :=
    chainReady_withRange hk (by omega) (by omega) (by rw [Nat.add_mod, ha, hb, Nat.zero_mod])
  have hfirst : ChainReady (withRange s off a) k r := chainReady_withRange hk (by omega) (by omega) ha
  obtain ⟨t, ht, hd⟩ := hwhole.exec_done q
  obtain ⟨t1, ht1, hd1⟩ := hfirst.exec_done q
  obtain ⟨hout1, hiv1⟩ := hfirst.result_lengths q
  have hk1 := (hd1.keyOf_eq (by rw [hout1]; exact hfirst.range) (by omega) k).trans hfirst.key
  rw [opLen_withRange s off (by omega)] at hout1
  have hsecond : ChainReady (withRange t1 (off + a) b) k r := chainReady_withRange hk1 hoff hr hb
  obtain ⟨t2, ht2, hd2⟩ := hsecond.exec_done q
  obtain ⟨hout2, hiv2⟩ := hsecond.result_lengths q
  rw [opLen_withRange t1 (off + a) (by omega)] at hout2
  refine ⟨t, t1, t2, ht, ht1, ht2, hd.completed.err, hd1.completed.err, hd2.completed.err, ?_⟩
  rw [hfirst.result_add ha hoff hr hd1] at hd
  have hjoin := setWindow_chain_sameBytes s hout1 (hiv1.trans_le hbs) (hiv1.trans hiv2.symm) (by rw [hout2]; exact hr)
  have hbytes : SameBytes _ t := hd.bytes_withRange (by omega)
  have hbytes1 : SameBytes _ t1 := hd1.bytes_withRange (by omega)
  have hbytes2 : SameBytes _ t2 := hd2.bytes_withRange hoff
  exact ((hbytes.symm.trans hjoin).trans ((hbytes1.setWindow _ _ _).setWindow _ _ _)).trans hbytes2

/-- Settles O36: the three laws, the last for each of the three commands. -/
theorem chainLawsHold : Obligations.ChainLawsHold := by
  refine ⟨fun k s t u he ht => cdec_undoes_cenc he ht, fun k s t => cmacb_leaves_iv_of_cenc,
    fun k s off a b r hk ha hb hr hoff i hi => ?_⟩
  rcases hi with rfl | rfl | rfl
  · exact ChainKind.enc.split hk ha hb hr hoff
  · exact ChainKind.dec.split hk ha hb hr hoff
  · exact ChainKind.mac.split hk ha hb hr hoff

end Sys2Proof.Machine

/-! KLOAD (rule R202): statement KloadLoadsTheKeySlot -/

namespace Sys2Proof.Machine

/-- The words of KLOAD's opcode: its forms with key numbers 0 to 13, or BAD_OPERAND (rule R113). -/
theorem kload_wordsDecodeTo : WordsDecodeTo 0x10 (fun i => ∃ c keyno version, i = .kload c keyno version ∧ keyno.toNat ≤ 13) := by
  have hd {w : Word} (hw : opField w = 0x10) : decode w = decodeFK w .kload := by rw [decode, hw]; rfl
  refine wordsDecodeTo_of_decode ?_ (fun w i hw h => decodeFK_ok ((hd hw).symm.trans h))
    fun w e hw h => ((decodeFK_eq_error_iff w _ e).1 ((hd hw).symm.trans h)).1
  rintro _ ⟨c, keyno, version, rfl, hn⟩
  exact decide_eq_true hn

/-- Keychains that one step and then another drop (rule R46). -/
theorem KeychainDropped.trans {p q : KeySel → Bool} {s t u : State} (h : KeychainDropped p s t) (h' : KeychainDropped q t u) :
    KeychainDropped (fun k => p k || q k) s u := by
  rcases h.cases with ⟨hn, hpad, hnopad⟩ | ⟨hsame, hp⟩
  · obtain ⟨h1, h2, h3⟩ := h'.kept fun c hc => by rw [hn] at hc; cases hc
    refine ⟨fun c _ _ => ⟨h1.trans hn, h2.trans hpad, h3.trans hnopad⟩, fun hk => ?_⟩
    obtain ⟨g1, g2, g3⟩ := h.kept fun c hc => (Bool.or_eq_false_iff.1 (hk c hc)).1
    exact ⟨h1.trans g1, h2.trans g2, h3.trans g3⟩
  · refine ⟨fun c hc hpq => h'.dropped c (hsame.slot.trans hc) (by simpa [hp c hc] using hpq), fun hk => ?_⟩
    obtain ⟨h1, h2, h3⟩ := h'.kept fun c hc => (Bool.or_eq_false_iff.1 (hk c (hsame.slot ▸ hc))).2
    exact ⟨h1.trans hsame.slot, h2.trans hsame.pad, h3.trans hsame.nopad⟩

theorem KeychainDropped.of_sameKeychain {p : KeySel → Bool} {s t u : State} (h : KeychainDropped p s t)
    (hk : SameKeychain t u) : KeychainDropped p s u := by
  refine ⟨fun c hc hp => ?_, fun hn => ?_⟩ <;> rw [hk.slot, hk.pad, hk.nopad]
  · exact h.dropped c hc hp
  · exact h.kept hn

/-- The long-term slot's record after KLOAD (rule R202). -/
def loadedSlot (s : State) (c : Option Family) (keyno : BitVec 4) (version : Byte) : Option LongTermKey :=
  c.map fun f => { ciph := f, keyno := keyno, version := version, degen := degenerate f (s.window .key 0 (klen f)) }

/-- LTK_KEY after KLOAD (rule R202). -/
def loadedKey (s : State) : Option Family → List Byte
  | none => zeros 24
  | some f => padTo 24 (s.window .key 0 (klen f))

/-- RES1 after KLOAD (rule R202). -/
def loadedLength : Option Family → Nat
  | none => 0
  | some f => klen f

theorem loadedKey_length (s : State) (c : Option Family) : (loadedKey s c).length = 24 := by
  cases c with
  | none => exact zeros_length 24
  | some f => exact padTo_length (by simpa using klen_le f)

/-- What KLOAD does before it writes the slot: the abort of a handshake in progress, then the drop of the slot's keychain. -/
def kloadCleared (s : State) : State := invalidateSlot (abortHandshake s) .ltk

/-- KEY reads as before after what KLOAD clears. -/
theorem kloadCleared_key (s : State) (f : Family) : (kloadCleared s).window .key 0 (klen f) = s.window .key 0 (klen f) := by
  have hn : 0 + klen f ≤ Window.size .key := by rw [Nat.zero_add]; exact klen_le f
  rw [kloadCleared, invalidateSlot_window _ _ (by decide) (by decide) hn]
  rcases abortHandshake_cases s with ⟨_, e⟩ | ⟨_, e⟩ <;> rw [e]
  exact logout_window s (by decide) (by decide) (by decide) (by decide) hn

/-- The state that KLOAD leaves (rule R202). -/
def kloaded (s : State) (c : Option Family) (keyno : BitVec 4) (version : Byte) : State :=
  succeed ({ kloadCleared s with ltk := loadedSlot s c keyno version }.setWindow .ltkKey 0 (loadedKey s c)) 0
    (wordOf (loadedLength c)) 0 0

/-- KLOAD of either kind of cipher type, in every state (rule R202). -/
theorem exec_kload (c : Option Family) (keyno : BitVec 4) (version : Byte) (s : State) :
    exec (.kload c keyno version) s = .next (kloaded s c keyno version) := by
  cases c with
  | none => rfl
  | some f =>
    rw [kloaded, loadedSlot, loadedKey, Option.map_some, ← kloadCleared_key]
    rfl

theorem kloaded_ltkKey (s : State) (c : Option Family) (keyno : BitVec 4) (version : Byte) :
    (kloaded s c keyno version).window .ltkKey 0 24 = loadedKey s c :=
  State.window_setWindow_same _ _ _ (loadedKey_length s c)

/-- KLOAD stores LTK_KEY over what it has cleared. -/
theorem kloaded_stores (s : State) (c : Option Family) (keyno : BitVec 4) (version : Byte) :
    Stores [.ltkKey] [Window.ltkKey.whole] (kloadCleared s).mem (kloaded s c keyno version).mem :=
  .setWhole (s := { kloadCleared s with ltk := loadedSlot s c keyno version }) .none (.head _) (.head _) (loadedKey_length s c)

theorem kloaded_sameKeychain (s : State) (c : Option Family) (keyno : BitVec 4) (version : Byte) :
    SameKeychain (kloadCleared s) (kloaded s c keyno version) :=
  .of_stores (kloaded_stores s c keyno version) (by decide) (by decide) rfl

/-- LTK_INFO as rule R39 lays it out. -/
theorem ltkInfoValue_of_ltk {s : State} {l : LongTermKey} (h : s.ltk = some l) :
    ltkInfoValue s = (ciphCode (some l.ciph)).setWidth 32 ||| l.keyno.setWidth 32 <<< 4 ||| l.version.setWidth 32 <<< 8 := by
  have shifted (z : BitVec 16) (v : BitVec 8) (n : BitVec 4) (o : BitVec 1) (c : BitVec 3) :
      (z ++ v ++ n ++ o ++ c).setWidth 32 =
        c.setWidth 32 ||| o.setWidth 32 <<< 3 ||| n.setWidth 32 <<< 4 ||| v.setWidth 32 <<< 8 ||| z.setWidth 32 <<< 16 := by
    iterate 4 rw [setWidth_append_eq_or]
    iterate 3 rw [or_or_shiftLeft]
  have hv := shifted 0#16 l.version l.keyno 0#1 (ciphCode (some l.ciph))
  rw [BitVec.setWidth_eq, BitVec.setWidth_zero, BitVec.setWidth_zero, BitVec.zero_shiftLeft, BitVec.zero_shiftLeft,
    BitVec.or_zero, BitVec.or_zero] at hv
  rw [ltkInfoValue, h]
  exact hv

/-- What KLOAD clears where a handshake is in progress: the handshake ends, and no keychain stays (rules R202 and R275). -/
theorem kloadCleared_of_pending {s : State} (h : s.authState = .awaitingChallenge ∨ s.authState = .responseSent) :
    (kloadCleared s).authState = .failed ∧ SessionEnded (kloadCleared s) ∧
      KeychainDropped (fun _ => true) s (kloadCleared s) := by
  have e : abortHandshake s = handshakeAbort s := if_pos h
  have hlog := handshakeAbort_loggedOut s
  have hst := invalidateSlot_stores (handshakeAbort s) .ltk
  have hdrop := hlog.keychain.trans (invalidateSlot_dropped (handshakeAbort s) .ltk)
  have hall : (fun k => sessionSlot k || decide (k = .ltk)) = fun _ => true := by funext k; cases k <;> rfl
  rw [hall] at hdrop
  rw [kloadCleared, e]
  exact ⟨(invalidateSlot_authState ..).trans (handshakeAbort_authState s),
    { session := (invalidateSlot_session ..).trans hlog.ended.session
      sessKey := (hst.window_other (v := .sessKey) (by decide)).trans hlog.ended.sessKey
      iv := (hst.window_other (v := .iv) (by decide)).trans hlog.ended.iv
      hidden := (invalidateSlot_hidden ..).trans hlog.ended.hidden }, hdrop⟩

/-- What KLOAD clears where none is: a keychain of the long-term slot (rule R202). -/
theorem kloadCleared_of_not_pending {s : State} (h : ¬ (s.authState = .awaitingChallenge ∨ s.authState = .responseSent)) :
    (kloadCleared s).authState = s.authState ∧ (kloadCleared s).hidden = s.hidden ∧ (kloadCleared s).session = s.session ∧
      KeychainDropped (fun k => !sessionSlot k) s (kloadCleared s) := by
  have e : abortHandshake s = s := if_neg h
  have hltk : (fun k : KeySel => !sessionSlot k) = fun k => decide (k = .ltk) := by funext k; cases k <;> rfl
  rw [kloadCleared, e, hltk]
  exact ⟨invalidateSlot_authState .., invalidateSlot_hidden .., invalidateSlot_session .., invalidateSlot_dropped s .ltk⟩

/-- Settles O29: what KLOAD clears, then the slot's record and key; the rest is as every completion leaves it. -/
theorem kloadLoadsTheKeySlot : Obligations.KloadLoadsTheKeySlot := by
  refine ⟨kload_wordsDecodeTo, fun c keyno version s => ?_⟩
  have hexec := exec_kload c keyno version s
  have heffect := exec_effect hexec
  have hkey := kloaded_ltkKey s c keyno version
  have hst := kloaded_stores s c keyno version
  have hchain := kloaded_sameKeychain s c keyno version
  refine ⟨_, hexec, ?_, heffect.sameInputs, (invalidateSlot_env ..).trans (abortHandshake_env s), ?_, ?_, fun h => ?_,
    fun h2 h3 => ?_, fun a ha => heffect.stores.readByte_outside ha⟩
  · cases c <;> exact succeed_completed ..
  · rintro rfl
    exact ⟨rfl, hkey, rfl⟩
  · rintro f rfl
    have hslot : (kloaded s (some f) keyno version).ltk = loadedSlot s (some f) keyno version := rfl
    refine ⟨hslot, hkey.trans ?_, ltkInfoValue_of_ltk hslot⟩
    rw [loadedKey, padTo, State.window_length]
  · obtain ⟨ha, hend, hdrop⟩ := kloadCleared_of_pending h
    exact ⟨ha, ⟨hend.session, (hst.window_other (v := .sessKey) (by decide)).trans hend.sessKey,
      (hst.window_other (v := .iv) (by decide)).trans hend.iv, hend.hidden⟩, hdrop.of_sameKeychain hchain⟩
  · obtain ⟨ha, hh, hs, hdrop⟩ := kloadCleared_of_not_pending (not_or.2 ⟨h2, h3⟩)
    exact ⟨ha, hh, hs, hdrop.of_sameKeychain hchain⟩

end Sys2Proof.Machine

/-! Doubling (rules R240 and R241): statement DoublingIsAReducedShift -/

namespace Sys2Proof.Machine

theorem byteAt_xorBytes {a c : List Byte} (h : a.length = c.length) (i : Nat) :
    byteAt (xorBytes a c) i = byteAt a i ^^^ byteAt c i := by
  by_cases hi : i < c.length <;> simp [byteAt, xorBytes, List.getD_eq_getElem?_getD, h, hi]

@[simp] theorem byteAt_zeros (n i : Nat) : byteAt (zeros n) i = 0 := by
  by_cases hi : i < n <;> simp [byteAt, zeros, List.getD_eq_getElem?_getD, hi]

theorem xorBytes_zeros {x : List Byte} {n : Nat} (h : x.length = n) : xorBytes x (zeros n) = x :=
  bytes_ext (by simp [h]) fun i _ =>
    (byteAt_xorBytes (by simp [h]) i).trans (by rw [byteAt_zeros]; exact BitVec.xor_zero)

theorem beNat_cons (x : Byte) (b : List Byte) : beNat (x :: b) = x.toNat * 256 ^ b.length + beNat b := rfl

theorem beNat_append (a b : List Byte) : beNat (a ++ b) = beNat a * 256 ^ b.length + beNat b := by
  induction a with
  | nil => simp [beNat]
  | cons x a ih => rw [List.cons_append, beNat_cons, ih, beNat_cons, List.length_append]; ring

@[simp] theorem beNat_zeros (n : Nat) : beNat (zeros n) = 0 := by
  induction n with
  | zero => rfl
  | succ n ih => simpa [zeros, List.replicate_succ, beNat] using ih

/-- XOR of two numbers in two parts of which the lower has `k` bits. -/
theorem xor_mul_two_pow_add {k x y r s : Nat} (hr : r < 2 ^ k) (hs : s < 2 ^ k) :
    (x * 2 ^ k + r) ^^^ (y * 2 ^ k + s) = (x ^^^ y) * 2 ^ k + (r ^^^ s) := by
  have hdiv {a b : Nat} (hb : b < 2 ^ k) : (a * 2 ^ k + b) / 2 ^ k = a := by
    rw [Nat.mul_comm, Nat.mul_add_div (Nat.two_pow_pos k), Nat.div_eq_of_lt hb, Nat.add_zero]
  have hmod {a b : Nat} (hb : b < 2 ^ k) : (a * 2 ^ k + b) % 2 ^ k = b := by
    rw [Nat.mul_comm, Nat.mul_add_mod, Nat.mod_eq_of_lt hb]
  rw [← Nat.div_add_mod' ((x * 2 ^ k + r) ^^^ (y * 2 ^ k + s)) (2 ^ k), Nat.xor_div_two_pow, Nat.xor_mod_two_pow,
    hdiv hr, hdiv hs, hmod hr, hmod hs]

/-- XOR of byte strings is XOR of their numbers. -/
theorem beNat_xorBytes {a c : List Byte} (h : a.length = c.length) : beNat (xorBytes a c) = beNat a ^^^ beNat c := by
  induction a generalizing c with
  | nil =>
    obtain rfl := List.length_eq_zero_iff.1 h.symm
    rfl
  | cons x a ih =>
    cases c with
    | nil => simp at h
    | cons y c =>
      have hl : a.length = c.length := by simpa using h
      have hpow : 256 ^ c.length = 2 ^ (8 * c.length) := by rw [pow_mul]; rfl
      have ha := beNat_lt a
      have hc := beNat_lt c
      have hcons : xorBytes (x :: a) (y :: c) = (x ^^^ y) :: xorBytes a c := rfl
      rw [hl, hpow] at ha
      rw [hpow] at hc
      rw [hcons, beNat_cons, beNat_cons, beNat_cons, ih hl, xorBytes_length, hl, Nat.min_self, hpow, BitVec.toNat_xor,
        xor_mul_two_pow_add ha hc]

/-- Each byte of a shifted block is its own byte's shift with the next one's top bit (rule R241). -/
theorem byteAt_shiftLeft1 (x : List Byte) (i : Nat) :
    byteAt (shiftLeft1 x) i = (byteAt x i <<< 1) ||| (byteAt x (i + 1) >>> 7) := by
  induction x using shiftLeft1.induct generalizing i with
  | case1 => simp [shiftLeft1, byteAt]
  | case2 x =>
    cases i <;> simp [shiftLeft1, byteAt]
  | case3 x y b ih =>
    cases i with
    | zero => rfl
    | succ i => exact ih i

/-- A byte with a carry into it, as numbers. -/
theorem toNat_shift_or_carry (x y : Byte) : ((x <<< 1) ||| (y >>> 7)).toNat = x.toNat * 2 % 256 + y.toNat / 128 := by
  have hy := y.isLt
  have hshift : x.toNat * 2 ^ 1 % 2 ^ 8 = 2 ^ 1 * (x.toNat % 128) := by omega
  rw [BitVec.toNat_or, BitVec.toNat_ushiftRight, BitVec.toNat_shiftLeft, Nat.shiftLeft_eq, Nat.shiftRight_eq_div_pow, hshift,
    ← Nat.two_pow_add_eq_or_of_lt (by omega)]
  omega

/-- The top bit of a byte string's number is the one of its first byte. -/
theorem half_le_beNat_cons_iff (x : Byte) (b : List Byte) :
    256 ^ (x :: b).length / 2 ≤ beNat (x :: b) ↔ 128 ≤ x.toNat := by
  have hb := beNat_lt b
  have hhalf : 256 ^ (x :: b).length / 2 = 128 * 256 ^ b.length := by rw [List.length_cons, pow_succ]; omega
  rw [hhalf, beNat_cons]
  constructor
  · intro h
    by_contra hx
    have := Nat.mul_le_mul_right (256 ^ b.length) (show x.toNat + 1 ≤ 128 by omega)
    rw [Nat.succ_mul] at this
    omega
  · intro h
    exact (Nat.mul_le_mul_right _ h).trans (Nat.le_add_right _ _)

/-- The bit that leaves a byte string doubled as a number is the top bit of its first byte. -/
theorem two_mul_beNat_div (y : Byte) (b : List Byte) : beNat (y :: b) * 2 / 256 ^ (y :: b).length = y.toNat / 128 := by
  have h := half_le_beNat_cons_iff y b
  have hlt := beNat_lt (y :: b)
  have hy := y.isLt
  have hpos : 0 < 256 ^ (y :: b).length := Nat.pow_pos (by decide)
  have heven : 256 ^ (y :: b).length % 2 = 0 := by rw [List.length_cons, pow_succ]; omega
  by_cases hc : 128 ≤ y.toNat
  · have := h.2 hc
    rw [Nat.div_eq_of_lt_le (k := 1)] <;> omega
  · have := mt h.1 hc
    rw [Nat.div_eq_of_lt] <;> omega

/-- A shifted block as a number: twice the block, less the bit shifted out (rule R241). -/
theorem beNat_shiftLeft1 (x : List Byte) : beNat (shiftLeft1 x) = beNat x * 2 % 256 ^ x.length := by
  induction x using shiftLeft1.induct with
  | case1 => rfl
  | case2 x => simp [shiftLeft1, beNat, BitVec.toNat_shiftLeft, Nat.shiftLeft_eq]
  | case3 x y b ih =>
    have hdiv := two_mul_beNat_div y b
    have hy := y.isLt
    have hpos : 0 < 256 ^ (y :: b).length := Nat.pow_pos (by decide)
    rw [shiftLeft1, beNat_cons, shiftLeft1_length, ih, toNat_shift_or_carry, ← hdiv, beNat_cons x, List.length_cons (a := x),
      pow_succ]
    generalize 256 ^ (y :: b).length = p at hdiv hpos ⊢
    generalize beNat (y :: b) = n at hdiv ⊢
    have hcarry : (n * 2 / p + x.toNat * 2) % 256 = x.toNat * 2 % 256 + n * 2 / p := by omega
    have hdouble : (x.toNat * p + n) * 2 = n * 2 + p * (x.toNat * 2) := by ring
    rw [hdouble, Nat.mod_mul, Nat.add_mul_mod_self_left, Nat.add_mul_div_left _ _ hpos, hcarry,
      Nat.add_comm (n * 2 % p), Nat.mul_comm p]

/-- What doubling XORs into the shifted block: `Rb` in the last byte where the bit shifted out was 1 (rule R241). -/
def reduction (b : Nat) (x : List Byte) : List Byte := if (byteAt x 0).msb then zeros (b - 1) ++ [rb b] else zeros b

theorem reduction_length {b : Nat} (hb : 0 < b) (x : List Byte) : (reduction b x).length = b := by
  unfold reduction
  split
  · simp only [List.length_append, zeros_length, List.length_singleton]; omega
  · exact zeros_length b

/-- Doubling is the shift with the reduction XORed in (rule R241). -/
theorem dbl_eq_xorBytes {b : Nat} {x : List Byte} (h : x.length = b) :
    dbl b x = xorBytes (shiftLeft1 x) (reduction b x) := by
  unfold dbl reduction
  split
  · rfl
  · exact (xorBytes_zeros ((shiftLeft1_length x).trans h)).symm

theorem beNat_reduction (b : Nat) (x : List Byte) :
    beNat (reduction b x) = if (byteAt x 0).msb then (rb b).toNat else 0 := by
  unfold reduction
  split
  · simp [beNat_append, beNat]
  · exact beNat_zeros b

theorem byteAt_reduction_of_lt {b i : Nat} (h : i + 1 < b) (x : List Byte) : byteAt (reduction b x) i = 0 := by
  unfold reduction
  split
  · rw [byteAt_append_left (by simp only [zeros_length]; omega), byteAt_zeros]
  · exact byteAt_zeros b i

theorem byteAt_reduction_last (b : Nat) (x : List Byte) :
    byteAt (reduction b x) (b - 1) = if (byteAt x 0).msb then rb b else 0 := by
  unfold reduction
  split
  · have h := byteAt_append_right (zeros (b - 1)) [rb b] 0
    rwa [zeros_length, Nat.add_zero, byteAt_cons_zero] at h
  · exact byteAt_zeros b _

/-- The bit shifted out of a block is the top bit of its number (rule R241). -/
theorem msb_byteAt_zero_iff {x : List Byte} (h : 0 < x.length) :
    (byteAt x 0).msb = true ↔ 256 ^ x.length / 2 ≤ beNat x := by
  cases x with
  | nil => cases h
  | cons y b => rw [half_le_beNat_cons_iff, byteAt_cons_zero, BitVec.msb_eq_true_iff_two_mul_ge]; omega

theorem rb_toNat (b : Nat) : (rb b).toNat = if b = 8 then 0x1B else 0x87 := by
  unfold rb
  split <;> rfl

/-- Rule R241 as a number and byte by byte, for a block of any size. -/
theorem dbl_spec {x : List Byte} (h : 0 < x.length) :
    beNat (dbl x.length x) =
        (beNat x * 2) % 256 ^ x.length ^^^
          (if 256 ^ x.length / 2 ≤ beNat x then (if x.length = 8 then 0x1B else 0x87) else 0) ∧
      (∀ i, i + 1 < x.length → byteAt (dbl x.length x) i = (byteAt x i <<< 1) ||| (byteAt x (i + 1) >>> 7)) ∧
      byteAt (dbl x.length x) (x.length - 1) =
        (byteAt x (x.length - 1) <<< 1) ^^^ (if (byteAt x 0).getLsbD 7 then rb x.length else 0) := by
  have hl : (shiftLeft1 x).length = (reduction x.length x).length := by rw [shiftLeft1_length, reduction_length h]
  have hpast : byteAt x x.length = 0#8 := by simp [byteAt]
  rw [dbl_eq_xorBytes rfl]
  refine ⟨?_, fun i hi => ?_, ?_⟩
  · rw [beNat_xorBytes hl, beNat_shiftLeft1, beNat_reduction, rb_toNat]
    simp only [msb_byteAt_zero_iff h]
  · rw [byteAt_xorBytes hl, byteAt_shiftLeft1, byteAt_reduction_of_lt hi]
    exact BitVec.xor_zero
  · rw [byteAt_xorBytes hl, byteAt_shiftLeft1, byteAt_reduction_last, Nat.sub_add_cancel h, hpast, BitVec.zero_ushiftRight,
      BitVec.or_zero, BitVec.msb_eq_getLsbD_last]

/-- The cryptogram is the CBC-MAC of the zero block from a zero IV (rules R207 and R241). -/
theorem cryptogram_eq_cbcMac (c : Family) (k : List Byte) :
    cryptogram c k = cbcMac c k 1 (zeros (bs c)) (zeros (bs c)) := by
  have hone := cbcEnc_append_succ k (zeros (bs c)) 0 [] (zeros_length (bs c))
  rw [List.append_nil, xorBytes_zeros (zeros_length _)] at hone
  rw [cbcMac, hone]
  rfl

/-- Settles O37: doubling is the shift XOR the reduction, read as a number and byte by byte; the cryptogram is one block of the
chain. -/
theorem doublingIsAReducedShift : Obligations.DoublingIsAReducedShift := by
  refine ⟨rfl, rfl, fun x hx => ?_, fun c k _ => ⟨rfl, cryptogram_eq_cbcMac c k⟩⟩
  have hpos : 0 < x.length := by omega
  exact ⟨dbl_length rfl hpos, dbl_spec hpos⟩

end Sys2Proof.Machine

/-! CMSUBK (rules R242 and R243): statement CmsubkDerivesTheKeychain -/

namespace Sys2Proof.Machine

theorem exec_cmsubk {s : State} {k : KeySel} {r : KeyRef} (h : keyOf s k = some r) :
    exec (.cmsubk k) s = .next (succeed (installKeychain s k (bs r.fam) (subkeys r.fam r.key).nopad
      (subkeys r.fam r.key).pad) 0 (wordOf (bs r.fam)) 0 0) := by rw [exec, execCmsubk, h]

/-- SUBK_INFO of a keychain of a family's block size (rule R46). -/
theorem subkInfoValue_of_keychain {s : State} {k : KeySel} {c : Family}
    (h : s.keychain = some { slot := k, bs := BitVec.ofNat 5 (bs c) }) : subkInfoValue s = wordOf (bs c) := by
  have hword : 0#27 ++ BitVec.ofNat 5 (bs c) = wordOf (bs c) := by cases c <;> decide
  rw [subkInfoValue, h]
  exact hword

/-- Settles O38: no key, or the keychain of the key's two doublings in its record and windows; the rest is as a completion leaves
it. -/
theorem cmsubkDerivesTheKeychain : Obligations.CmsubkDerivesTheKeychain := by
  refine ⟨wordsDecodeTo_of_decodeFS (fun _ => rfl) fun w h => by rw [decode, h]; rfl, fun k s => ⟨fun h => ?_, fun r hk => ?_⟩⟩
  · obtain ⟨-, -, -, -, hnone⟩ := keySlotSelection s
    obtain ⟨-, -, -, hcmsubk, -⟩ := hnone k h
    exact hcmsubk
  · have hexec := exec_cmsubk hk
    obtain ⟨hnopad, hpad⟩ := subkeys_length (keyOf_length hk)
    have hnopadLe := hnopad.trans_le (bs_le r.fam)
    have hpadLe := hpad.trans_le (bs_le r.fam)
    obtain ⟨hnopadWin, hpadWin⟩ := installKeychain_windows s k (bs r.fam) hnopadLe hpadLe
    rw [padTo, hnopad] at hnopadWin
    rw [padTo, hpad] at hpadWin
    have hrecord := installKeychain_keychain s k (bs r.fam) (subkeys r.fam r.key).nopad (subkeys r.fam r.key).pad
    exact ⟨_, hexec, succeed_completed .., (exec_effect hexec).sameInputs, rfl, subkInfoValue_of_keychain hrecord,
      hnopadWin, hpadWin, rfl, rfl, rfl, rfl, rfl, installKeychain_outside s k (bs r.fam) hnopadLe hpadLe⟩

end Sys2Proof.Machine

/-! The prepared message (rules R244 and R245): statement PreparedMessageFollowsItsRule -/

namespace Sys2Proof.Machine

section
variable {d : List Byte} {t b : Nat} {sk : Subkeys}

/-- Whole blocks with no target (rule R244). -/
theorem prepare_of_whole (h0 : d.length ≠ 0) (hb : d.length % b = 0) : prepare d 0 sk b = xorLast b d sk.nopad := by
  rw [prepare, if_pos rfl, if_pos ⟨Nat.pos_of_ne_zero h0, hb⟩]

/-- Anything else with no target, the empty message included (rule R244). -/
theorem prepare_of_part (h : d.length = 0 ∨ d.length % b ≠ 0) :
    prepare d 0 sk b = xorLast b (d ++ padding b d.length) sk.pad := by
  rw [prepare, if_pos rfl, if_neg (by omega)]

/-- A message of the target's length (rule R244). -/
theorem prepare_of_target_eq (h0 : t ≠ 0) (h : d.length = t) : prepare d t sk b = xorLast b d sk.nopad := by
  rw [prepare, if_neg h0, if_pos h]

/-- A message of another length than the target's (rule R244). -/
theorem prepare_of_target_ne (h0 : t ≠ 0) (h : d.length ≠ t) :
    prepare d t sk b = xorLast b (d ++ 0x80 :: zeros (t - d.length - 1)) sk.pad := by
  rw [prepare, if_neg h0, if_neg h]

end

/-- The conditions of rule R245. -/
theorem legalTarget_iff (t b len : Nat) :
    legalTarget t b len = true ↔ t % b = 0 ∧ b ≤ t ∧ len ≤ t ∧ t ≤ 65536 := decide_eq_true_iff

/-- Whole blocks, of which there is one, are no shorter than a block. -/
theorem le_of_pos_of_mod_eq_zero {b n : Nat} (h0 : 0 < n) (h : n % b = 0) : b ≤ n :=
  Nat.le_of_dvd h0 (Nat.dvd_of_mod_eq_zero h)

/-- The padded message is a block long or longer (rule R244). -/
theorem le_padded_length {b : Nat} (hb : 0 < b) (d : List Byte) : b ≤ (d ++ padding b d.length).length :=
  le_of_pos_of_mod_eq_zero (by simp [padding]) (padding_boundary hb d)

/-- A message shorter than its target is filled up to it (rule R244). -/
theorem filled_length {d : List Byte} {t : Nat} (hle : d.length ≤ t) (hne : d.length ≠ t) :
    (d ++ 0x80 :: zeros (t - d.length - 1)).length = t := by
  rw [List.length_append, List.length_cons, zeros_length]
  omega

/-- Settles O39: the four forms of the prepared message, each with the length of what its last block is XORed in. -/
theorem preparedMessageFollowsItsRule : Obligations.PreparedMessageFollowsItsRule := by
  intro d t sk b hb hnopad hpad m
  refine ⟨?_, ?_, fun h0 hlegal heq => ?_, fun h0 hlegal hne => ?_⟩
  · rintro rfl h0 hblocks
    have hm : m = xorLast b d sk.nopad := prepare_of_whole h0 hblocks
    have hle := le_of_pos_of_mod_eq_zero (Nat.pos_of_ne_zero h0) hblocks
    exact ⟨hm, by rw [hm, xorLast_length hnopad hle]⟩
  · rintro rfl hpart
    have hm : m = xorLast b (d ++ padding b d.length) sk.pad := prepare_of_part hpart
    have hlen : (d ++ padding b d.length).length = d.length + 1 + (b - (d.length + 1) % b) % b := by
      rw [padding, List.length_append, List.length_cons, zeros_length]
      omega
    refine ⟨(b - (d.length + 1) % b) % b, Nat.mod_lt _ hb, ?_, ?_, ?_⟩
    · rw [← hlen]; exact padding_boundary hb d
    · rw [hm, xorLast_length hpad (le_padded_length hb d), hlen]
    · rw [hm, padding, List.append_cons d 0x80 (zeros _)]; rfl
  · have hm : m = xorLast b d sk.nopad := prepare_of_target_eq h0 heq
    obtain ⟨-, hle, -, -⟩ := (legalTarget_iff t b d.length).1 hlegal
    exact ⟨hm, by rw [hm, xorLast_length hnopad (heq ▸ hle), heq]⟩
  · have hm : m = xorLast b (d ++ 0x80 :: zeros (t - d.length - 1)) sk.pad := prepare_of_target_ne h0 hne
    obtain ⟨-, hle, hdle, -⟩ := (legalTarget_iff t b d.length).1 hlegal
    have hlen := filled_length hdle hne
    refine ⟨?_, by rw [hm, xorLast_length hpad (hle.trans_eq hlen.symm), hlen]⟩
    rw [hm, List.append_cons d 0x80 (zeros _)]
    rfl

end Sys2Proof.Machine

/-! CMAC (rule R247): statement CmacComputesTheMac -/

namespace Sys2Proof.Machine

/-- The operands that CMAC accepts, with the key it uses (rule R247). -/
structure CmacReady (s : State) (k : KeySel) (r : KeyRef) : Prop where
  key : keyOf s k = some r
  keychain : keychainOf s k = true
  range : opOff s + opLen s ≤ 65536
  target : opAux s = 0 ∨ legalTarget (opAux s) (bs r.fam) (opLen s) = true

/-- The subkeys that CMAC uses (rule R247). -/
def cmacSubkeys (s : State) (r : KeyRef) : Subkeys :=
  { nopad := s.window .subkNopad 0 (bs r.fam), pad := s.window .subkPad 0 (bs r.fam) }

/-- The message that CMAC prepares from a state's operands (rule R247). -/
def cmacMessage (s : State) (r : KeyRef) : List Byte :=
  prepare (s.window .data (opOff s) (opLen s)) (opAux s) (cmacSubkeys s r) (bs r.fam)

/-- The chaining value that CMAC computes (rule R247). -/
def cmacIv (s : State) (r : KeyRef) : List Byte :=
  cbcMac r.fam r.key ((cmacMessage s r).length / bs r.fam) (s.window .iv 0 (bs r.fam)) (cmacMessage s r)

/-- What CMAC leaves where it succeeds (rule R247). -/
def cmacked (s : State) (r : KeyRef) : State :=
  succeed ((s.setWindow .iv 0 (cmacIv s r)).setWindow .mac 0 (macOf (cmacIv s r) ++ zeros 8)) 0 8
    (wordOf (cmacMessage s r).length) 0

section
variable {s : State} {k : KeySel} {r : KeyRef}

theorem cmacOperands_eq_error_of_noKeychain (hk : keyOf s k = some r) (h : keychainOf s k = false) :
    cmacOperands s k = .error .noSubkeys := by
  rw [cmacOperands, hk]
  exact if_pos h

theorem cmacOperands_eq_error_of_range (hk : keyOf s k = some r) (hc : keychainOf s k = true)
    (h : 65536 < opOff s + opLen s) : cmacOperands s k = .error .badOperand := by
  rw [cmacOperands, hk]
  exact (if_neg (by simp [hc])).trans (if_pos h)

theorem cmacOperands_eq_error_of_target (hk : keyOf s k = some r) (hc : keychainOf s k = true)
    (hr : opOff s + opLen s ≤ 65536) (h0 : opAux s ≠ 0) (h : legalTarget (opAux s) (bs r.fam) (opLen s) = false) :
    cmacOperands s k = .error .badTargetLength := by
  rw [cmacOperands, hk]
  exact ((if_neg (by simp [hc])).trans (if_neg (Nat.not_lt.2 hr))).trans (if_pos ⟨h0, h⟩)

theorem CmacReady.operands (h : CmacReady s k r) :
    cmacOperands s k = .ok { ref := r, iv := s.window .iv 0 (bs r.fam), msg := cmacMessage s r } := by
  have htarget : ¬ (opAux s ≠ 0 ∧ legalTarget (opAux s) (bs r.fam) (opLen s) = false) := by
    rintro ⟨h0, hillegal⟩
    rcases h.target with hzero | hlegal
    · exact h0 hzero
    · rw [hlegal] at hillegal; cases hillegal
  rw [cmacOperands, h.key]
  exact ((if_neg (by simp [h.keychain])).trans (if_neg (Nat.not_lt.2 h.range))).trans (if_neg htarget)

theorem CmacReady.exec_cmac (h : CmacReady s k r) : exec (.cmac k) s = .next (cmacked s r) := by
  rw [exec, execCmac, h.operands]
  rfl

theorem CmacReady.iv_length (h : CmacReady s k r) : (cmacIv s r).length = bs r.fam := cmac_length h.operands

/-- A failed check fails CMAC with its code (rule R312). -/
theorem cmac_fails {code : ErrCode} (h : cmacOperands s k = .error code) : Fails (.cmac k) s code 0 :=
  ⟨fail s code, by rw [exec, execCmac, h], fail_failsWith s (cmacOperands_ne_ok h) 0⟩

/-- The MAC and its zeros fill the MAC window (rule R246). -/
theorem CmacReady.mac_length (h : CmacReady s k r) :
    (macOf (cmacIv s r)).length = 8 ∧ (macOf (cmacIv s r) ++ zeros 8).length = 16 := by
  have h8 : 8 ≤ bs r.fam := by cases r.fam <;> decide
  have hmac : (macOf (cmacIv s r)).length = 8 := by rw [macOf, List.length_take, h.iv_length, Nat.min_eq_left h8]
  exact ⟨hmac, by rw [List.length_append, hmac, zeros_length]⟩

theorem CmacReady.macWindow (h : CmacReady s k r) :
    (cmacked s r).window .mac 0 16 = (cmacIv s r).take 8 ++ zeros 8 :=
  State.window_setWindow_same _ _ _ h.mac_length.2

theorem CmacReady.macFront (h : CmacReady s k r) : (cmacked s r).window .mac 0 8 = (cmacIv s r).take 8 := by
  have hpad : (cmacked s r).window .mac 0 16 = padTo 16 (macOf (cmacIv s r)) := by
    rw [padTo, h.mac_length.1]
    exact h.macWindow
  exact (State.window_tail hpad h.mac_length.1 (by decide)).1

/-- The part of IV that CMAC reads as it leaves it. -/
theorem CmacReady.ivPart (h : CmacReady s k r) {x n : Nat} (hn : x + n ≤ 16) :
    (cmacked s r).window .iv x n = (s.setWindow .iv 0 (cmacIv s r)).window .iv x n :=
  State.window_setWindow_other _ (by decide) (by rw [h.mac_length.2]; decide) hn

theorem CmacReady.ivWindow (h : CmacReady s k r) : (cmacked s r).window .iv 0 (bs r.fam) = cmacIv s r :=
  (h.ivPart (by rw [Nat.zero_add]; exact bs_le _)).trans (State.window_setWindow_same _ _ _ h.iv_length)

/-- The whole of IV after CMAC: the new chaining value, and the bytes beyond the block as before. -/
theorem CmacReady.ivWhole (h : CmacReady s k r) :
    (cmacked s r).window .iv 0 16 = cmacIv s r ++ s.window .iv (bs r.fam) (16 - bs r.fam) := by
  have hsplit : 16 = bs r.fam + (16 - bs r.fam) := (Nat.add_sub_cancel' (bs_le _)).symm
  conv_lhs => rw [hsplit, State.window_add, Nat.zero_add]
  rw [h.ivWindow, h.ivPart hsplit.ge, State.window_setWindow_apart _ _ _ _ _ _ (.inr (by rw [h.iv_length, Nat.zero_add]))]

theorem CmacReady.sameOutside (h : CmacReady s k r) :
    SameOutside [Window.iv.range 0 (bs r.fam), Window.mac.whole] s (cmacked s r) := fun a ha => by
  simp only [inRanges_cons, inRanges_nil, Bool.or_false, Bool.or_eq_false_iff] at ha
  obtain ⟨hiv, hmac⟩ := ha
  rw [cmacked, succeed_mem, readByte_setWindow_outside _ h.mac_length.2.le hmac,
    readByte_setWindow_outside _ h.iv_length.le hiv]

end

/-- The targets that rule R245 forbids. -/
theorem legalTarget_eq_false_iff (t b len : Nat) :
    legalTarget t b len = false ↔ t % b ≠ 0 ∨ t < b ∨ t < len ∨ 65536 < t := by
  rw [← Bool.not_eq_true, legalTarget_iff]
  omega

/-- No keychain, or one of the other slot. -/
theorem keychainOf_eq_false_of {s : State} {k : KeySel} (h : ∀ c, s.keychain = some c → c.slot ≠ k) :
    keychainOf s k = false := by
  rw [← Bool.not_eq_true, keychainOf_iff]
  rintro ⟨c, hc, hk⟩
  exact h c hc hk

/-- A valid keychain of a slot has the block size of the slot's key (rules R54 and R247). -/
theorem Inductive.keychain_bs {s : State} {k : KeySel} {r : KeyRef} {c : Keychain} (h : Inductive s) (hk : keyOf s k = some r)
    (hc : s.keychain = some c) (hslot : c.slot = k) : c.bs = BitVec.ofNat 5 (bs r.fam) := by
  cases k with
  | ltk =>
    obtain ⟨l, hl, hb⟩ := h.slotLtk c hc hslot
    rw [keyOf_ltk, hl] at hk
    cases hk
    exact hb
  | sess =>
    obtain ⟨l, hl, hb⟩ := h.slotSess c hc hslot
    rw [keyOf_sess, hl] at hk
    cases hk
    exact hb

/-- Settles O40: the checks in their order, then the chain over the prepared message, whose value IV and MAC hold. -/
theorem cmacComputesTheMac : Obligations.CmacComputesTheMac := by
  refine ⟨wordsDecodeTo_of_decodeFS (fun _ => rfl) fun w h => by rw [decode, h]; rfl, fun k s => ⟨fun h => ?_, fun r hk => ?_,
    fun r c hs hk hc hslot => hs.keychain_bs hk hc hslot⟩⟩
  · obtain ⟨-, -, -, -, hnone⟩ := keySlotSelection s
    obtain ⟨-, -, -, -, hcmac⟩ := hnone k h
    exact hcmac
  · intro b target illegal
    refine ⟨fun h => cmac_fails (cmacOperands_eq_error_of_noKeychain hk (keychainOf_eq_false_of h)), fun c hc hslot => ?_⟩
    have hchain : keychainOf s k = true := (keychainOf_iff s k).2 ⟨c, hc, hslot⟩
    refine ⟨fun h => cmac_fails (cmacOperands_eq_error_of_range hk hchain h), fun hr hill => ?_, fun hr hlegal => ?_⟩
    · obtain ⟨h0, hbad⟩ := hill
      exact cmac_fails (cmacOperands_eq_error_of_target hk hchain hr h0 ((legalTarget_eq_false_iff ..).2 hbad))
    · have htarget : opAux s = 0 ∨ legalTarget (opAux s) (bs r.fam) (opLen s) = true := by
        rcases not_and_or.1 hlegal with h0 | hgood
        · exact .inl (not_not.1 h0)
        · exact .inr (Bool.of_not_eq_false (mt (legalTarget_eq_false_iff ..).1 hgood))
      have h : CmacReady s k r := ⟨hk, hchain, hr, htarget⟩
      exact ⟨_, h.exec_cmac, succeed_completed .., (exec_effect h.exec_cmac).sameInputs, ⟨rfl, rfl, rfl, rfl, rfl, rfl⟩,
        h.ivWindow, h.macWindow, h.sameOutside⟩

end Sys2Proof.Machine

/-! SUPPORT. What a changed byte of the message changes (rules R205, R207 and R244): the prepared message in the same place, and
then the chaining value. -/

namespace Sys2Proof.Machine

/-- Byte strings of one length that differ in one place and nowhere else. -/
structure DifferAt (j : Nat) (p q : List Byte) : Prop where
  length : p.length = q.length
  place : j < p.length
  differ : byteAt p j ≠ byteAt q j
  agree : ∀ i, i ≠ j → byteAt p i = byteAt q i

theorem byteAt_eq_zero_of_le {b : List Byte} {i : Nat} (h : b.length ≤ i) : byteAt b i = 0 :=
  List.getD_eq_default _ _ h

/-- Byte strings that differ in one place up to their length. -/
theorem DifferAt.of_agree_lt {j n : Nat} {p q : List Byte} (hp : p.length = n) (hq : q.length = n) (hj : j < n)
    (hne : byteAt p j ≠ byteAt q j) (h : ∀ i < n, i ≠ j → byteAt p i = byteAt q i) : DifferAt j p q where
  length := hp.trans hq.symm
  place := hp.symm ▸ hj
  differ := hne
  agree := fun i hi => by
    by_cases hlt : i < n
    · exact h i hlt hi
    · rw [byteAt_eq_zero_of_le (by omega), byteAt_eq_zero_of_le (by omega)]

/-- The same bytes behind both. -/
theorem DifferAt.append_right {j : Nat} {p q : List Byte} (h : DifferAt j p q) (z : List Byte) :
    DifferAt j (p ++ z) (q ++ z) where
  length := by rw [List.length_append, List.length_append, h.length]
  place := by rw [List.length_append]; exact Nat.lt_add_right _ h.place
  differ := by
    rw [byteAt_append_left h.place, byteAt_append_left (h.length ▸ h.place)]
    exact h.differ
  agree := fun i hi => by
    rcases Nat.lt_or_ge i p.length with hlt | hge
    · rw [byteAt_append_left hlt, byteAt_append_left (h.length ▸ hlt)]
      exact h.agree i hi
    · obtain ⟨n, rfl⟩ := Nat.exists_eq_add_of_le hge
      rw [byteAt_append_right, h.length, byteAt_append_right]

/-- The same bytes XORed into both. -/
theorem DifferAt.xorBytes_right {j : Nat} {p q l : List Byte} (h : DifferAt j p q) (hl : p.length = l.length) :
    DifferAt j (xorBytes p l) (xorBytes q l) where
  length := by rw [xorBytes_length, xorBytes_length, h.length]
  place := by rw [xorBytes_length, hl, Nat.min_self, ← hl]; exact h.place
  differ := by
    rw [byteAt_xorBytes hl, byteAt_xorBytes (h.length ▸ hl)]
    exact fun e => h.differ ((BitVec.xor_left_inj _).1 e)
  agree := fun i hi => by rw [byteAt_xorBytes hl, byteAt_xorBytes (h.length ▸ hl), h.agree i hi]

/-- The place where two joined byte strings differ lies in the first parts or in the second. -/
theorem DifferAt.parts {j : Nat} {x y r s : List Byte} (h : DifferAt j (x ++ r) (y ++ s)) (hl : x.length = y.length) :
    (x ≠ y ∧ r = s) ∨ (x = y ∧ ∃ i, DifferAt i r s) := by
  have hrs : r.length = s.length := by
    have := h.length
    rw [List.length_append, List.length_append] at this
    omega
  have hfront (i : Nat) (hi : i < x.length) : byteAt (x ++ r) i = byteAt x i ∧ byteAt (y ++ s) i = byteAt y i :=
    ⟨byteAt_append_left hi r, byteAt_append_left (hl ▸ hi) s⟩
  have hback (i : Nat) : byteAt (x ++ r) (x.length + i) = byteAt r i ∧ byteAt (y ++ s) (x.length + i) = byteAt s i :=
    ⟨byteAt_append_right x r i, hl ▸ byteAt_append_right y s i⟩
  rcases Nat.lt_or_ge j x.length with hj | hj
  · refine .inl ⟨fun e => h.differ ?_, bytes_ext hrs fun i _ => ?_⟩
    · rw [(hfront j hj).1, (hfront j hj).2, e]
    · have := h.agree (x.length + i) (by omega)
      rwa [(hback i).1, (hback i).2] at this
  · obtain ⟨n, rfl⟩ := Nat.exists_eq_add_of_le hj
    refine .inr ⟨bytes_ext hl fun i hi => ?_, n, hrs, ?_, ?_, fun i hi => ?_⟩
    · have := h.agree i (by omega)
      rwa [(hfront i hi).1, (hfront i hi).2] at this
    · have := h.place
      rw [List.length_append] at this
      omega
    · have := h.differ
      rwa [(hback n).1, (hback n).2] at this
    · have := h.agree (x.length + i) (by omega)
      rwa [(hback i).1, (hback i).2] at this

/-- XOR into the last block is XOR of the whole message with that block behind zeros (rule R244). -/
theorem xorLast_eq_xorBytes {b : Nat} {m l : List Byte} (hb : b ≤ m.length) (hl : l.length = b) :
    xorLast b m l = xorBytes m (zeros (m.length - b) ++ l) := by
  have hfront : (m.take (m.length - b)).length = m.length - b := by rw [List.length_take]; omega
  conv_rhs => rw [← List.take_append_drop (m.length - b) m]
  rw [xorLast, xorBytes, xorBytes, List.zipWith_append (by simp)]
  congr 1
  rw [List.take_append_drop]
  exact (xorBytes_zeros hfront).symm

theorem DifferAt.xorLast_right {j b : Nat} {p q l : List Byte} (h : DifferAt j p q) (hb : b ≤ p.length) (hl : l.length = b) :
    DifferAt j (xorLast b p l) (xorLast b q l) := by
  rw [xorLast_eq_xorBytes hb hl, xorLast_eq_xorBytes (h.length ▸ hb) hl, ← h.length]
  exact h.xorBytes_right (by rw [List.length_append, zeros_length, hl, Nat.sub_add_cancel hb])

/-- Prepared messages differ where the messages do (rules R244 and R245). -/
theorem DifferAt.prepare_of_legal {j t b : Nat} {d e : List Byte} {sk : Subkeys} (h : DifferAt j d e) (hb : 0 < b)
    (hn : sk.nopad.length = b) (hp : sk.pad.length = b) (ht : t = 0 ∨ legalTarget t b d.length = true) :
    DifferAt j (prepare d t sk b) (prepare e t sk b) := by
  have hd : 0 < d.length := Nat.zero_lt_of_lt h.place
  by_cases h0 : t = 0
  · subst h0
    by_cases hblocks : d.length % b = 0
    · rw [prepare_of_whole hd.ne' hblocks, prepare_of_whole (h.length ▸ hd.ne') (h.length ▸ hblocks)]
      exact h.xorLast_right (le_of_pos_of_mod_eq_zero hd hblocks) hn
    · rw [prepare_of_part (.inr hblocks), prepare_of_part (.inr (h.length ▸ hblocks)), ← h.length]
      exact (h.append_right _).xorLast_right (le_padded_length hb d) hp
  · obtain ⟨-, hle, hdle, -⟩ := (legalTarget_iff t b d.length).1 (ht.resolve_left h0)
    by_cases heq : d.length = t
    · rw [prepare_of_target_eq h0 heq, prepare_of_target_eq h0 (h.length ▸ heq)]
      exact h.xorLast_right (heq ▸ hle) hn
    · rw [prepare_of_target_ne h0 heq, prepare_of_target_ne h0 (h.length ▸ heq), ← h.length]
      exact (h.append_right _).xorLast_right (hle.trans_eq (filled_length hdle heq).symm) hp

theorem xorBytes_comm (a b : List Byte) : xorBytes a b = xorBytes b a :=
  List.zipWith_comm_of_comm BitVec.xor_comm

theorem xorBytes_right_cancel {a b k : List Byte} (ha : a.length = k.length) (hb : b.length = k.length)
    (h : xorBytes a k = xorBytes b k) : a = b := by
  rw [← xorBytes_cancel ha.le, h, xorBytes_cancel hb.le]

theorem xorBytes_left_cancel {a b k : List Byte} (ha : a.length = k.length) (hb : b.length = k.length)
    (h : xorBytes k a = xorBytes k b) : a = b :=
  xorBytes_right_cancel ha hb (by rwa [xorBytes_comm a, xorBytes_comm b])

/-- Rule R207 for the first block of some. -/
theorem cbcMac_append_succ {c : Family} (k iv : List Byte) (m : Nat) {x : List Byte} (r : List Byte)
    (hx : x.length = bs c) :
    cbcMac c k (m + 1) iv (x ++ r) = cbcMac c k m (encBlock c k (xorBytes x iv)) r := by
  rw [cbcMac, cbcEnc_append_succ k iv m r hx]
  rfl

section
variable {c : Family} {k : List Byte} (hk : k.length = klen c)
include hk

/-- A block function maps different blocks to different ones (rule R201). -/
theorem encBlock_injective {x y : List Byte} (hx : x.length = bs c) (hy : y.length = bs c)
    (h : encBlock c k x = encBlock c k y) : x = y := by
  rw [← decBlock_encBlock hk hx, h, decBlock_encBlock hk hy]

theorem encBlock_xorBytes_length {x iv : List Byte} (hx : x.length = bs c) (hiv : iv.length = bs c) :
    (encBlock c k (xorBytes x iv)).length = bs c := encBlock_length hk (by rw [xorBytes_length, hx, hiv, Nat.min_self])

/-- Over the same message, different chaining values lead to different ones (rule R249). -/
theorem cbcMac_iv_injective (m : Nat) {iv jv p : List Byte} (hiv : iv.length = bs c) (hjv : jv.length = bs c)
    (hp : p.length = m * bs c) (h : cbcMac c k m iv p = cbcMac c k m jv p) : iv = jv := by
  induction m generalizing iv jv p with
  | zero => exact h
  | succ m ih =>
    obtain ⟨x, r, rfl, hx, hr⟩ := exists_append_of_length_succ_mul hp
    rw [cbcMac_append_succ k iv m r hx, cbcMac_append_succ k jv m r hx] at h
    have hblock := ih (encBlock_xorBytes_length hk hx hiv) (encBlock_xorBytes_length hk hx hjv) hr h
    have hinput := encBlock_injective hk (by simp [hx, hiv]) (by simp [hx, hjv]) hblock
    exact xorBytes_left_cancel (hiv.trans hx.symm) (hjv.trans hx.symm) hinput

/-- From one chaining value, messages with one byte changed lead to different ones: the chains part in the block of that byte, and
no later block brings them together (rule R249). -/
theorem cbcMac_ne_of_differAt (m : Nat) {j : Nat} {iv p q : List Byte} (hiv : iv.length = bs c) (hp : p.length = m * bs c)
    (h : DifferAt j p q) : cbcMac c k m iv p ≠ cbcMac c k m iv q := by
  induction m generalizing j iv p q with
  | zero =>
    have := h.place
    omega
  | succ m ih =>
    obtain ⟨y, s, rfl, hy, hs⟩ := exists_append_of_length_succ_mul (h.length ▸ hp)
    obtain ⟨x, r, rfl, hx, hr⟩ := exists_append_of_length_succ_mul hp
    rw [cbcMac_append_succ k iv m r hx, cbcMac_append_succ k iv m s hy]
    rcases h.parts (hx.trans hy.symm) with ⟨hne, rfl⟩ | ⟨rfl, i, hi⟩
    · intro heq
      have hblock := cbcMac_iv_injective hk m (encBlock_xorBytes_length hk hx hiv) (encBlock_xorBytes_length hk hy hiv) hr heq
      have hinput := encBlock_injective hk (by simp [hx, hiv]) (by simp [hy, hiv]) hblock
      exact hne (xorBytes_right_cancel (hx.trans hiv.symm) (hy.trans hiv.symm) hinput)
    · exact ih (encBlock_xorBytes_length hk hx hiv) hr hi

end

end Sys2Proof.Machine

/-! CMAC as a function of its inputs (rule R249): statement CmacIsDeterminedAndSensitive -/

namespace Sys2Proof.Machine

/-- A command that fails reports it (rule R312). -/
theorem Fails.err_eq_true {i : Instr} {s t : State} {code : ErrCode} {need : Nat} (h : Fails i s code need) (hc : code ≠ .ok)
    (he : exec i s = .next t) : t.err = true := by
  obtain ⟨u, hu, hf⟩ := h
  cases hu.symm.trans he
  exact hf.completed.err.trans (decide_eq_true hc)

/-- CMAC that reports no error was ready to run, and is done. -/
theorem CmacReady.of_exec {s t : State} {k : KeySel} {r : KeyRef} (h : exec (.cmac k) s = .next t) (ht : t.err = false)
    (hk : keyOf s k = some r) : CmacReady s k r ∧ t = cmacked s r := by
  cases hx : cmacOperands s k with
  | error code =>
    have herr := (cmac_fails hx).err_eq_true (cmacOperands_ne_ok hx) h
    rw [ht] at herr
    cases herr
  | ok x =>
    obtain ⟨hkey, hchain, hrange, htarget, -, -⟩ := cmacOperands_cases hx
    cases hkey.symm.trans hk
    have hready : CmacReady s k x.ref := ⟨hkey, hchain, hrange, htarget⟩
    cases hready.exec_cmac.symm.trans h
    exact ⟨hready, rfl⟩

/-- The prepared message is whole blocks (rules R244 and R245). -/
theorem CmacReady.message_blocks {s : State} {k : KeySel} {r : KeyRef} (h : CmacReady s k r) :
    (cmacMessage s r).length = (cmacMessage s r).length / bs r.fam * bs r.fam := by
  refine (Nat.div_mul_cancel (Nat.dvd_of_mod_eq_zero ?_)).symm
  exact prepare_blocks (bs_pos _) (State.window_length ..) (State.window_length ..) (by simpa using h.target)

/-- What CMAC reads besides the message (rule R247). -/
structure SameCmacInputs (r : KeyRef) (s u : State) : Prop where
  aux : opAux u = opAux s
  iv : u.window .iv 0 16 = s.window .iv 0 16
  subkeys : cmacSubkeys u r = cmacSubkeys s r

/-- The same message with the same other inputs gives the same chaining value (rule R249). -/
theorem SameCmacInputs.cmacIv_eq {r : KeyRef} {s u : State} (h : SameCmacInputs r s u)
    (hdata : u.window .data (opOff u) (opLen u) = s.window .data (opOff s) (opLen s)) : cmacIv u r = cmacIv s r := by
  have hmsg : cmacMessage u r = cmacMessage s r := by rw [cmacMessage, hdata, h.aux, h.subkeys, cmacMessage]
  rw [cmacIv, hmsg, State.window_part h.iv (by rw [Nat.zero_add]; exact bs_le _), cmacIv]

/-- A changed byte of the message gives another chaining value (rule R249). -/
theorem SameCmacInputs.cmacIv_ne {r : KeyRef} {s u : State} {k : KeySel} {j : Nat} (h : SameCmacInputs r s u)
    (hs : CmacReady s k r)
    (hdata : DifferAt j (s.window .data (opOff s) (opLen s)) (u.window .data (opOff u) (opLen u))) :
    cmacIv u r ≠ cmacIv s r := by
  have hmsg : DifferAt j (cmacMessage s r) (cmacMessage u r) := by
    rw [cmacMessage, cmacMessage, h.aux, h.subkeys]
    exact hdata.prepare_of_legal (bs_pos _) (State.window_length ..) (State.window_length ..) (by simpa using hs.target)
  rw [cmacIv, ← hmsg.length, State.window_part h.iv (by rw [Nat.zero_add]; exact bs_le _), cmacIv]
  exact (cbcMac_ne_of_differAt (keyOf_length hs.key) _ (State.window_length ..) hs.message_blocks hmsg).symm

/-- Settles O41: CMAC is a function of the listed inputs, and its chain over a changed message ends elsewhere. -/
theorem cmacIsDeterminedAndSensitive : Obligations.CmacIsDeterminedAndSensitive := by
  intro k s u t r hexec herr hks hku hchain hrange hlen haux hiv hpad hnopad d e
  obtain ⟨hs, rfl⟩ := CmacReady.of_exec hexec herr hks
  have hb : 0 + bs r.fam ≤ 16 := by rw [Nat.zero_add]; exact bs_le _
  have hu : CmacReady u k r := ⟨hku, hchain, hrange, by rw [haux, hlen]; exact hs.target⟩
  have hin : SameCmacInputs r s u :=
    ⟨haux, hiv, by rw [cmacSubkeys, State.window_part hnopad hb, State.window_part hpad hb, cmacSubkeys]⟩
  refine ⟨_, hu.exec_cmac, rfl, fun he => ?_, fun j hj hne hagree => ?_⟩
  · rw [hu.ivWhole, hs.ivWhole, hu.macWindow, hs.macWindow, hin.cmacIv_eq he,
      State.window_part hiv (Nat.add_sub_cancel' (bs_le _)).le]
    exact ⟨rfl, rfl⟩
  · have hde : DifferAt j d e := .of_agree_lt (State.window_length ..) ((State.window_length ..).trans hlen) hj hne.symm
      fun i hi hij => (hagree i hi hij).symm
    have hivNe := hin.cmacIv_ne hs hde
    rw [hu.ivWindow, hs.ivWindow]
    refine ⟨hivNe, fun h8 hmac => hivNe ?_⟩
    rw [hu.macFront, hs.macFront, List.take_of_length_le (hu.iv_length.trans h8).le,
      List.take_of_length_le (hs.iv_length.trans h8).le] at hmac
    exact hmac

end Sys2Proof.Machine

/-! SUPPORT. The handshake commands' words, and what their logout leaves when a window is written after it (rules R113 and R272):
statements LogoutEndsTheSession and AuthStartBeginsAHandshake -/

namespace Sys2Proof.Machine

/-- What a logout left holds after stores to other windows. -/
theorem LoggedOut.of_stores {s t u : State} {ws : List Window} {rs : List Range} (h : LoggedOut s t)
    (hm : Stores ws rs t.mem u.mem) (hw : ∀ w ∈ [Window.sessKey, .iv, .subkPad, .subkNopad], w ∉ ws)
    (hs : u.session = t.session) (hh : u.hidden = t.hidden) (hk : u.keychain = t.keychain) (hl : u.ltk = t.ltk) :
    LoggedOut s u where
  ended :=
    { session := hs.trans h.ended.session
      sessKey := (hm.window_other (v := .sessKey) (hw _ (by decide))).trans h.ended.sessKey
      iv := (hm.window_other (v := .iv) (hw _ (by decide))).trans h.ended.iv
      hidden := hh.trans h.ended.hidden }
  keychain := h.keychain.of_sameKeychain (.of_stores hm (hw _ (by decide)) (hw _ (by decide)) hk)
  ltk := hl.trans h.ltk

/-- Settles O45: a logout and AUTH_STATE 0. -/
theorem logoutEndsTheSession : Obligations.LogoutEndsTheSession := by
  refine ⟨wordsDecodeTo_of_decodeF0 rfl fun w h => by rw [decode, h]; rfl, fun s => ?_⟩
  exact ⟨_, rfl, succeed_completed .., (logout_loggedOut s).of_same rfl rfl rfl rfl rfl, rfl, Effect.logsOut.sameInputs,
    logout_env s, fun a ha => logout_outside s ha⟩

theorem exec_authStart_of_noKey {s : State} (h : s.ltk = none) : exec .authStart s = .next (authFail s .noKey) := by
  simp only [exec, execAuthStart]
  split
  · rfl
  · rename_i l hl
    rw [logout_ltk, h] at hl
    cases hl

/-- What AUTH.START leaves where a long-term key is held (rule R273). -/
def authStarted (s : State) (l : LongTermKey) : State :=
  succeed { (logout s).setWindow .acTx 0 [authCmd l.ciph, 0#4 ++ l.keyno] with authState := .awaitingChallenge } 0 2 0 0

theorem exec_authStart {s : State} {l : LongTermKey} (h : s.ltk = some l) :
    exec .authStart s = .next (authStarted s l) := by
  simp only [exec, execAuthStart, logout_ltk, h, authStarted]

/-- The authenticate command for the card: its byte, and the key number as a byte (rule R273). -/
theorem authStarted_acTx (s : State) (l : LongTermKey) :
    (authStarted s l).window .acTx 0 2 = [authCmd l.ciph, l.keyno.setWidth 8] := by
  have hkeyno : 0#4 ++ l.keyno = l.keyno.setWidth 8 := (BitVec.setWidth_eq_append (by decide)).symm
  rw [← hkeyno]
  exact State.window_setWindow_same (logout s) .acTx 0 rfl

theorem authStarted_loggedOut (s : State) (l : LongTermKey) : LoggedOut s (authStarted s l) :=
  (logout_loggedOut s).of_stores (authStart_stores s l) (by decide) rfl rfl rfl rfl

/-- Settles O42: a logout, then NO_KEY or the authenticate command for the card. -/
theorem authStartBeginsAHandshake : Obligations.AuthStartBeginsAHandshake := by
  refine ⟨wordsDecodeTo_of_decodeF0 rfl fun w h => by rw [decode, h]; rfl, rfl, rfl, rfl, rfl, fun s =>
    ⟨fun h => ⟨_, exec_authStart_of_noKey h, authFail_authFailsWith s (by decide)⟩, fun l hl => ?_⟩⟩
  have hstores := (logout_stores s).mono (List.subset_append_left _ [.acTx])
    (List.subset_append_left _ [Window.acTx.range 0 2])
  have htx := (authStart_stores s l).mono (List.subset_append_right [.sessKey, .iv, .subkPad, .subkNopad] _)
    (List.subset_append_right (logoutOutputs s) _)
  exact ⟨_, exec_authStart hl, succeed_completed .., authStarted_loggedOut s l, authStarted_acTx s l, rfl,
    (Effect.starts hl).sameInputs, logout_env s, fun a ha => (hstores.trans htx).readByte_outside ha⟩

end Sys2Proof.Machine

/-! SUPPORT. Byte strings of the handshake: rotations (rule R8), the challenges drawn (rule R324), the session key's rows (rule
R210), and what the chain hands on from message to message (rules R205, R206 and R270). -/

namespace Sys2Proof.Machine

theorem rotr1_rotl1 (b : List Byte) : rotr1 (rotl1 b) = b := by
  cases b with
  | nil => rfl
  | cons x r => simp [rotl1, rotr1]

theorem rotl1_rotr1 (b : List Byte) : rotl1 (rotr1 b) = b := by
  rcases List.eq_nil_or_concat b with rfl | ⟨r, x, rfl⟩
  · rfl
  · simp [rotl1, rotr1]

/-- The comparison of AUTH.FINISH either way round (rule R277). -/
theorem eq_rotl1_iff_rotr1_eq (d a : List Byte) : d = rotl1 a ↔ rotr1 d = a :=
  ⟨fun h => h ▸ rotr1_rotl1 a, fun h => h ▸ (rotl1_rotr1 d).symm⟩

@[simp] theorem rotl1_length (b : List Byte) : (rotl1 b).length = b.length := by
  cases b <;> simp [rotl1]

@[simp] theorem drawnBytes_length (s : State) (n : Nat) : (drawnBytes s n).length = n := by simp [drawnBytes]

/-- A draw that the listed random bytes cover gives the next of them (rule R324). -/
theorem drawnBytes_eq_take {s : State} {n : Nat} (h : n ≤ s.env.entropy.length) :
    drawnBytes s n = s.env.entropy.take n := by
  refine List.ext_getElem (by simp [h]) fun i hi _ => ?_
  have hlt : i < s.env.entropy.length := lt_of_lt_of_le (by simpa using hi) h
  simp [drawnBytes, List.getD_eq_getElem?_getD, hlt]

/-- Runs of four bytes joined, each from an offset of a byte string. -/
def runsOf (ps : List (List Byte × Nat)) : List Byte := (ps.map fun p => slice p.1 p.2 (p.2 + 4)).flatten

theorem slice_four_length {b : List Byte} {i : Nat} (h : i + 4 ≤ b.length) : (slice b i (i + 4)).length = 4 := by
  rw [slice_length]
  omega

theorem runsOf_cons (p : List Byte × Nat) (ps : List (List Byte × Nat)) :
    runsOf (p :: ps) = slice p.1 p.2 (p.2 + 4) ++ runsOf ps := rfl

/-- Byte `i` of run `j`. -/
theorem byteAt_runsOf {ps : List (List Byte × Nat)} (h : ∀ p ∈ ps, p.2 + 4 ≤ p.1.length) {i : Nat} (hi : i < 4) {j : Nat}
    {p : List Byte × Nat} (hj : ps[j]? = some p) : byteAt (runsOf ps) (4 * j + i) = byteAt p.1 (p.2 + i) := by
  induction ps generalizing j with
  | nil => cases hj
  | cons q ps ih =>
    obtain ⟨hq, hps⟩ := List.forall_mem_cons.1 h
    have hlen := slice_four_length hq
    rw [runsOf_cons]
    cases j with
    | zero =>
      cases hj
      rw [Nat.mul_zero, Nat.zero_add, byteAt_append_left (by omega), byteAt_slice _ (by omega)]
    | succ j =>
      have hplace : 4 * (j + 1) + i = (slice q.1 q.2 (q.2 + 4)).length + (4 * j + i) := by omega
      rw [hplace, byteAt_append_right, ih hps hj]

/-- The session key has the bytes that rule R210's table places there. -/
theorem deriveSessionKey_row {c : Family} (degen : Bool) {a b : List Byte} (ha : a.length = challengeLen c)
    (hb : b.length = challengeLen c) : SessionKeyRow c degen a b (deriveSessionKey c degen a b) := by
  have hlen := deriveSessionKey_length degen ha hb
  have runs {ps : List (List Byte × Nat)} (hk : deriveSessionKey c degen a b = runsOf ps)
      (h : ∀ p ∈ ps, p.2 + 4 ≤ p.1.length) {i : Nat} (hi : i < 4) (j : Nat) {p : List Byte × Nat} (hj : ps[j]? = some p) :
      byteAt (deriveSessionKey c degen a b) (4 * j + i) = byteAt p.1 (p.2 + i) := hk ▸ byteAt_runsOf h hi hj
  cases c with
  | des =>
    have run {i : Nat} := runs (ps := [(a, 0), (b, 0)]) (i := i) (by simp [deriveSessionKey, runsOf])
      (by simp [ha, hb, challengeLen])
    exact ⟨hlen, fun i hi => ⟨by simpa using run hi 0 rfl, by simpa using run hi 1 rfl⟩⟩
  | tdes2 =>
    cases degen with
    | true =>
      have run {i : Nat} := runs (ps := [(a, 0), (b, 0), (a, 0), (b, 0)]) (i := i) (by simp [deriveSessionKey, runsOf])
        (by simp [ha, hb, challengeLen])
      exact ⟨hlen, fun i hi => ⟨by simpa using run hi 0 rfl, by simpa using run hi 1 rfl, by simpa using run hi 2 rfl,
        by simpa using run hi 3 rfl⟩⟩
    | false =>
      have run {i : Nat} := runs (ps := [(a, 0), (b, 0), (a, 4), (b, 4)]) (i := i) (by simp [deriveSessionKey, runsOf])
        (by simp [ha, hb, challengeLen])
      exact ⟨hlen, fun i hi => ⟨by simpa using run hi 0 rfl, by simpa using run hi 1 rfl, run hi 2 rfl, run hi 3 rfl⟩⟩
  | tdes3 =>
    have run {i : Nat} := runs (ps := [(a, 0), (b, 0), (a, 6), (b, 6), (a, 12), (b, 12)]) (i := i)
      (by simp [deriveSessionKey, runsOf]) (by simp [ha, hb, challengeLen])
    exact ⟨hlen, fun i hi => ⟨by simpa using run hi 0 rfl, by simpa using run hi 1 rfl, run hi 2 rfl, run hi 3 rfl,
      run hi 4 rfl, run hi 5 rfl⟩⟩
  | aes128 =>
    have run {i : Nat} := runs (ps := [(a, 0), (b, 0), (a, 12), (b, 12)]) (i := i) (by simp [deriveSessionKey, runsOf])
      (by simp [ha, hb, challengeLen])
    exact ⟨hlen, fun i hi => ⟨by simpa using run hi 0 rfl, by simpa using run hi 1 rfl, run hi 2 rfl, run hi 3 rfl⟩⟩

/-- CBC decryption under one key and chaining value tells any two byte strings apart (rule R281). -/
theorem cbcDec_out_injective {c : Family} {k : List Byte} (hk : k.length = klen c) {m : Nat} {iv p q : List Byte}
    (hiv : iv.length = bs c) (hp : p.length = m * bs c) (hq : q.length = m * bs c)
    (h : (cbcDec c k m iv p).out = (cbcDec c k m iv q).out) : p = q := by
  have hpBack := congrArg Chain.out (cbcEnc_cbcDec hk m hiv hp)
  have hqBack := congrArg Chain.out (cbcEnc_cbcDec hk m hiv hq)
  rw [h] at hpBack
  exact hpBack.symm.trans hqBack

/-- The last block of what a chain of encryptions sends is the value it hands on (rules R205 and R270). -/
theorem lastBlock_cbcEnc {c : Family} {k : List Byte} (hk : k.length = klen c) {m : Nat} (hm : 0 < m) {iv p : List Byte}
    (hiv : iv.length = bs c) (hp : p.length = m * bs c) :
    lastBlock (bs c) (cbcEnc c k m iv p).out = (cbcEnc c k m iv p).iv := by
  obtain ⟨j, rfl⟩ : ∃ j, m = j + 1 := ⟨m - 1, by omega⟩
  obtain ⟨hout, -⟩ := cbcEnc_lengths hk (j + 1) hiv hp
  rw [(cbcEnc_blocks hk (j + 1) hiv hp).2, priorBlock, if_neg (Nat.succ_ne_zero j), Nat.add_sub_cancel, block_eq_take_drop,
    lastBlock, hout, Nat.succ_mul, Nat.add_sub_cancel, List.take_of_length_le]
  rw [List.length_drop, hout, Nat.succ_mul, Nat.add_sub_cancel_left]

end Sys2Proof.Machine

/-! SUPPORT. The checks that AUTH.CHAL and AUTH.FINISH make on the card's answer (rules R276 and R277) -/

namespace Sys2Proof.Machine

theorem challengeLen_le (c : Family) : challengeLen c ≤ 16 := by cases c <;> decide

/-- The card's answer, with its status, fits AC_RX. -/
theorem challengeLen_fits (c : Family) : challengeLen c < 64 := by cases c <;> decide

/-- A challenge is whole blocks, and at least one. -/
theorem challengeLen_div_mul (c : Family) : challengeLen c / bs c * bs c = challengeLen c := by cases c <;> rfl

theorem challengeLen_div_pos (c : Family) : 0 < challengeLen c / bs c := by cases c <;> decide

theorem two_challengeLen_div_mul (c : Family) : 2 * challengeLen c / bs c * bs c = 2 * challengeLen c := by cases c <;> rfl

theorem two_challengeLen_div_pos (c : Family) : 0 < 2 * challengeLen c / bs c := by cases c <;> decide

/-- A byte string of zeros after one of a known length (rule R8). -/
theorem padTo_of_length {n m : Nat} {b : List Byte} (h : b.length = m) : padTo n b = b ++ zeros (n - m) := by rw [padTo, h]

/-- The status of the card's answer is its last byte. -/
theorem byteAt_window_last {s : State} {w : Window} {n : Nat} (h : 1 ≤ n) :
    byteAt (s.window w 0 n) (n - 1) = readByte s.mem (w.base + (n - 1)) :=
  readBytes_getD s.mem w.base n (n - 1) (by omega)

/-- An answer of `n` bytes and the status that a command takes, with the long-term key that it is checked under. -/
structure AnswerReady (s : State) (status : Byte) (n : Nat) (l : LongTermKey) : Prop where
  ltk : s.ltk = some l
  length : opLen s = n + 1
  fits : n < 64
  status : readByte s.mem (Window.base .acRx + n) = status

section
variable {s : State} {l : LongTermKey} {status : Byte} {n : Family → Nat}

theorem answerOperands_eq_error_of_range (h : 64 < opLen s) : answerOperands s status n = .error .badOperand := if_pos h

theorem answerOperands_eq_error_of_empty (h : opLen s < 1) : answerOperands s status n = .error .authBadLength :=
  (if_neg (by simp only [acBufBytes]; omega)).trans (if_pos h)

/-- An answer that fits AC_RX and is not empty is checked for its status and its length. -/
theorem answerOperands_of_fits (hl : s.ltk = some l) (h1 : 1 ≤ opLen s) (h64 : opLen s ≤ 64) :
    answerOperands s status n =
      if readByte s.mem (Window.base .acRx + (opLen s - 1)) ≠ status then .error .authBadStatus
      else if opLen s - 1 ≠ n l.ciph then .error .authBadLength
      else .ok { ltk := l, key := ltkKeyBytes s l.ciph, answer := s.window .acRx 0 (n l.ciph) } := by
  rw [answerOperands, if_neg (show ¬ opLen s > acBufBytes from Nat.not_lt.2 h64), if_neg (Nat.not_lt.2 h1), hl,
    ← byteAt_window_last h1]

theorem AnswerReady.operands (h : AnswerReady s status (n l.ciph) l) :
    answerOperands s status n =
      .ok { ltk := l, key := ltkKeyBytes s l.ciph, answer := s.window .acRx 0 (n l.ciph) } := by
  have hlen := h.length
  have hfits := h.fits
  have hlast : opLen s - 1 = n l.ciph := by omega
  rw [answerOperands_of_fits h.ltk (by omega) (by omega), hlast, if_neg (not_not.2 h.status), if_neg (not_not.2 rfl)]

/-- The failing checks on an answer, in their order, for a command that fails where they do. -/
theorem answerOperands_checks {i : Instr} (hl : s.ltk = some l)
    (hfail : ∀ code, answerOperands s status n = .error code → AuthFails i s code) :
    let last := readByte s.mem (Window.base .acRx + (opLen s - 1))
    (64 < opLen s → AuthFails i s .badOperand) ∧
    (opLen s < 1 → AuthFails i s .authBadLength) ∧
    (1 ≤ opLen s → opLen s ≤ 64 → last ≠ status → AuthFails i s .authBadStatus) ∧
    (1 ≤ opLen s → opLen s ≤ 64 → last = status → opLen s - 1 ≠ n l.ciph → AuthFails i s .authBadLength) := by
  refine ⟨fun h => hfail _ (answerOperands_eq_error_of_range h), fun h => hfail _ (answerOperands_eq_error_of_empty h),
    fun h1 h64 hs => hfail _ ?_, fun h1 h64 hs hn => hfail _ ?_⟩ <;> rw [answerOperands_of_fits hl h1 h64]
  · rw [if_pos hs]
  · rw [if_neg (not_not.2 hs), if_pos hn]

end

end Sys2Proof.Machine

/-! AUTH.CHAL (rule R276): statement AuthChalAnswersTheChallenge -/

namespace Sys2Proof.Machine

/-- A failed check fails AUTH.CHAL with its code (rule R275). -/
theorem authChal_fails {s : State} {code : ErrCode} (h : chalOperands s = .error code) : AuthFails .authChal s code :=
  ⟨authFail s code, by rw [exec, execAuthChal, h], authFail_authFailsWith s (chalOperands_ne_ok h)⟩

theorem chalOperands_of_awaiting {s : State} (h : s.authState = .awaitingChallenge) :
    chalOperands s = answerOperands s contCmd challengeLen := if_neg (not_not.2 h)

/-- A challenge that AUTH.CHAL accepts (rule R276). -/
structure ChalReady (s : State) (l : LongTermKey) : Prop extends AnswerReady s 0xAF (challengeLen l.ciph) l where
  awaiting : s.authState = .awaitingChallenge

/-- The card's challenge decrypted: RndB, and the chaining value of the answer (rule R276). -/
def chalRndB (s : State) (l : LongTermKey) : Chain :=
  cbcDec l.ciph (s.window .ltkKey 0 (klen l.ciph)) (challengeLen l.ciph / bs l.ciph) (zeros (bs l.ciph))
    (s.window .acRx 0 (challengeLen l.ciph))

/-- The encrypted answer to the card: RndA and the rotated RndB (rule R276). -/
def chalAnswer (s : State) (l : LongTermKey) : Chain :=
  cbcEnc l.ciph (s.window .ltkKey 0 (klen l.ciph)) (2 * challengeLen l.ciph / bs l.ciph) (chalRndB s l).iv
    (drawnBytes s (challengeLen l.ciph) ++ rotl1 (chalRndB s l).out)

/-- What AUTH.CHAL leaves where it succeeds (rule R276). -/
def authAnswered (s : State) (l : LongTermKey) : State :=
  let n := challengeLen l.ciph
  succeed
    { (afterDraw s n).setWindow .acTx 0 (0xAF :: (chalAnswer s l).out) with
      hidden := handshakeRecord n (drawnBytes s n) (chalRndB s l).out (chalAnswer s l).iv
      authState := .responseSent } 0 (wordOf (1 + 2 * n)) 0 0

section
variable {s : State} {l : LongTermKey}

theorem ChalReady.operands (h : ChalReady s l) :
    chalOperands s =
      .ok { ltk := l, key := ltkKeyBytes s l.ciph, answer := s.window .acRx 0 (challengeLen l.ciph) } :=
  (chalOperands_of_awaiting h.awaiting).trans h.toAnswerReady.operands

theorem ChalReady.exec_authChal (h : ChalReady s l) : exec .authChal s = .next (authAnswered s l) := by
  rw [exec, execAuthChal, h.operands]
  rfl

/-- The lengths of RndB, of the answer and of their chaining values. -/
theorem ChalReady.lengths (h : ChalReady s l) :
    (chalAnswer s l).out.length = 2 * challengeLen l.ciph ∧ (chalAnswer s l).iv.length = bs l.ciph ∧
      (chalRndB s l).out.length = challengeLen l.ciph :=
  chal_lengths h.operands (drawnBytes_length s _)

theorem ChalReady.acTx (h : ChalReady s l) :
    (authAnswered s l).window .acTx 0 (1 + 2 * challengeLen l.ciph) = 0xAF :: (chalAnswer s l).out := by
  obtain ⟨hout, -, -⟩ := h.lengths
  exact State.window_setWindow_same (afterDraw s _) .acTx 0 (by rw [List.length_cons, hout, Nat.add_comm])

/-- The hidden record that AUTH.CHAL leaves: each part filled up with zeros (rules R49 and R276). -/
theorem ChalReady.hidden (h : ChalReady s l) :
    (authAnswered s l).hidden =
      { n := challengeLen l.ciph
        rnda := drawnBytes s (challengeLen l.ciph) ++ zeros (16 - challengeLen l.ciph)
        rndb := (chalRndB s l).out ++ zeros (16 - challengeLen l.ciph)
        civ := (chalAnswer s l).iv ++ zeros (16 - bs l.ciph) } := by
  obtain ⟨-, hiv, hrndb⟩ := h.lengths
  rw [← padTo_of_length (drawnBytes_length s _), ← padTo_of_length hrndb, ← padTo_of_length hiv]
  rfl

theorem ChalReady.handshakeForm (h : ChalReady s l) : HandshakeForm (authAnswered s l) l := by
  obtain ⟨-, hiv, hrndb⟩ := h.lengths
  have hn := challengeLen_le l.ciph
  exact ⟨h.ltk, rfl, padTo_length (by simpa using hn), padTo_length (hrndb.trans_le hn), padTo_length (hiv.trans_le (bs_le _))⟩

end

/-- Settles O43: the checks in their order, then the answer to the card and the hidden record of the handshake. -/
theorem authChalAnswersTheChallenge : Obligations.AuthChalAnswersTheChallenge := by
  refine ⟨wordsDecodeTo_of_decodeF0 rfl fun w h => by rw [decode, h]; rfl, fun s h => authChal_fails (if_pos h),
    fun s l hl ha => ?_, fun s n h => drawnBytes_eq_take h⟩
  obtain ⟨hrange, hempty, hstatus, hlength⟩ := answerOperands_checks (status := contCmd) (n := challengeLen) hl
    fun code h => authChal_fails ((chalOperands_of_awaiting ha).trans h)
  refine ⟨hrange, hempty, hstatus, hlength, fun hlen hs => ?_⟩
  have hready : ChalReady s l := ⟨⟨hl, hlen, challengeLen_fits l.ciph, by rw [hlen] at hs; exact hs⟩, ha⟩
  have hexec := hready.exec_authChal
  exact ⟨_, hexec, succeed_completed .., (exec_effect hexec).sameInputs, hready.acTx, hready.hidden, rfl, rfl, rfl, rfl, rfl,
    fun a hout => (answerChallenge_stores hready.operands).readByte_outside hout, hready.handshakeForm⟩

end Sys2Proof.Machine

/-! SUPPORT. AUTH.FINISH (rules R277 and R278): its comparison, and the session that it installs -/

namespace Sys2Proof.Machine

/-- A failed check fails AUTH.FINISH with its code (rule R275). -/
theorem authFinish_fails {s : State} {code : ErrCode} (h : finishOperands s = .error code) : AuthFails .authFinish s code :=
  ⟨authFail s code, by rw [exec, execAuthFinish, h], authFail_authFailsWith s (finishOperands_ne_ok h)⟩

/-- In state 4 a failing check on the answer is AUTH.FINISH's. -/
theorem finishOperands_of_answer_error {s : State} {code : ErrCode} (ha : s.authState = .verifying)
    (h : answerOperands s statusOk (fun _ => s.hidden.n) = .error code) : finishOperands s = .error code := by
  rw [finishOperands, if_neg (not_not.2 ha), h]

/-- The card's final answer decrypted, over the chain of the hidden record (rule R277). -/
def finishReply (s : State) (l : LongTermKey) : List Byte :=
  (cbcDec l.ciph (s.window .ltkKey 0 (klen l.ciph)) (challengeLen l.ciph / bs l.ciph) (s.hidden.civ.take (bs l.ciph))
    (s.window .acRx 0 (challengeLen l.ciph))).out

/-- A final answer that reaches AUTH.FINISH's comparison (rule R277). -/
structure FinishReady (s : State) (l : LongTermKey) : Prop where
  form : HandshakeForm s l
  answer : AnswerReady s 0x00 (challengeLen l.ciph) l
  verifying : s.authState = .verifying

section
variable {s : State} {l : LongTermKey}

theorem HandshakeForm.hidden_lengths (h : HandshakeForm s l) :
    (s.hidden.rnda.take (challengeLen l.ciph)).length = challengeLen l.ciph ∧
      (s.hidden.rndb.take (challengeLen l.ciph)).length = challengeLen l.ciph ∧
      (s.hidden.civ.take (bs l.ciph)).length = bs l.ciph := by
  simp [h.rnda, h.rndb, h.civ, challengeLen_le, bs_le]

/-- AUTH.FINISH compares the decrypted answer with the rotated RndA (rule R277). -/
theorem FinishReady.operands (h : FinishReady s l) :
    finishOperands s =
      if finishReply s l ≠ rotl1 (s.hidden.rnda.take (challengeLen l.ciph)) then .error .authMismatch
      else .ok { ltk := l, key := ltkKeyBytes s l.ciph, answer := s.window .acRx 0 (challengeLen l.ciph) } := by
  rw [finishOperands, if_neg (not_not.2 h.verifying), h.form.n,
    h.answer.operands (status := statusOk) (n := fun _ => challengeLen l.ciph)]
  rfl

theorem FinishReady.authMismatch (h : FinishReady s l)
    (hne : finishReply s l ≠ rotl1 (s.hidden.rnda.take (challengeLen l.ciph))) : AuthFails .authFinish s .authMismatch :=
  authFinish_fails (h.operands.trans (if_pos hne))

/-- What AUTH.FINISH leaves where it succeeds (rules R277 and R278). -/
def authFinished (s : State) (l : LongTermKey) : State :=
  succeed { installSession s l with authState := .authenticated } 0 0 0 0

theorem FinishReady.exec_authFinish (h : FinishReady s l)
    (heq : finishReply s l = rotl1 (s.hidden.rnda.take (challengeLen l.ciph))) :
    exec .authFinish s = .next (authFinished s l) := by
  rw [exec, execAuthFinish, h.operands, if_neg (not_not.2 heq)]
  rfl

/-- The session's record, its key and its zero IV, before its keychain (rule R278). -/
def sessionStored (s : State) (l : LongTermKey) : State :=
  ({ s with session := some { ciph := l.ciph, keyno := l.keyno, degen := l.degen } }.setWindow .sessKey 0
    (padTo 24 (sessionKey s l))).setWindow .iv 0 (zeros 16)

theorem sessionStored_stores (s : State) (l : LongTermKey) :
    Stores [.sessKey, .iv] [Window.sessKey.whole, Window.iv.whole] s.mem (sessionStored s l).mem :=
  .setWhole (.setWhole (s := { s with session := some { ciph := l.ciph, keyno := l.keyno, degen := l.degen } }) .none (by simp)
    (by simp) (padTo_length (deriveSessionKey_length_le ..))) (by simp) (by simp) (zeros_length 16)

theorem sessionKeychain_stores (s : State) (c : Family) (sk : List Byte) :
    Stores [.subkPad, .subkNopad] (if usesKeychain c then [Window.subkPad.whole, Window.subkNopad.whole] else []) s.mem
      (sessionKeychain s c sk).mem := by
  have hlen := subkeys_length_le c sk
  unfold sessionKeychain
  split
  · exact installKeychain_stores s .sess (bs c) hlen.1 hlen.2
  · exact .none

/-- The bytes that AUTH.FINISH leaves alone where it succeeds (rule R278). -/
theorem authFinished_outside (s : State) (l : LongTermKey) :
    SameOutside ([Window.sessKey.whole, Window.iv.whole] ++
      if usesKeychain l.ciph then [Window.subkPad.whole, Window.subkNopad.whole] else []) s (authFinished s l) := fun a ha => by
  rw [inRanges_append, Bool.or_eq_false_iff] at ha
  obtain ⟨hsession, hkeychain⟩ := ha
  exact ((sessionKeychain_stores _ _ _).readByte_outside hkeychain).trans
    ((sessionStored_stores s l).readByte_outside hsession)

theorem authFinished_iv (s : State) (l : LongTermKey) : (authFinished s l).window .iv 0 16 = zeros 16 :=
  ((sessionKeychain_stores (sessionStored s l) l.ciph (sessionKey s l)).window_other (v := .iv) (by simp)).trans
    (State.window_setWindow_same _ .iv 0 (zeros_length 16))

theorem authFinished_env (s : State) (l : LongTermKey) : (authFinished s l).env = s.env := by
  show (sessionKeychain (sessionStored s l) l.ciph (sessionKey s l)).env = s.env
  unfold sessionKeychain
  split <;> rfl

/-- The families of the legacy strategy leave the keychain as it was (rule R278). -/
theorem authFinished_keychain_of_legacy (s : State) (h : usesKeychain l.ciph = false) :
    (authFinished s l).keychain = s.keychain := by
  show (sessionKeychain (sessionStored s l) l.ciph (sessionKey s l)).keychain = s.keychain
  rw [sessionKeychain, h, if_neg Bool.false_ne_true]
  rfl

/-- The session key of the hidden record's challenges (rules R210 and R278). -/
theorem HandshakeForm.sessionKey_eq (h : HandshakeForm s l) :
    sessionKey s l = deriveSessionKey l.ciph l.degen (s.hidden.rnda.take (challengeLen l.ciph))
      (s.hidden.rndb.take (challengeLen l.ciph)) := by
  rw [sessionKey, h.n]

theorem HandshakeForm.sessionKey_length (h : HandshakeForm s l) : (sessionKey s l).length = klen l.ciph :=
  Machine.sessionKey_length ⟨h.rnda, h.rndb, h.civ⟩ h.n

/-- SESS_KEY after AUTH.FINISH: the derived key, and zeros behind it (rule R278). -/
theorem HandshakeForm.sessKey_whole (h : HandshakeForm s l) :
    (authFinished s l).window .sessKey 0 24 = sessionKey s l ++ zeros (24 - klen l.ciph) :=
  (installSession_session s l).2.trans (padTo_of_length h.sessionKey_length)

theorem HandshakeForm.sessKey_front (h : HandshakeForm s l) :
    (authFinished s l).window .sessKey 0 (klen l.ciph) = sessionKey s l :=
  (State.window_tail (s := authFinished s l) (installSession_session s l).2 h.sessionKey_length (klen_le _)).1

/-- The families of the modern strategy get a fresh keychain of the session key's two doublings (rules R242 and R278). -/
theorem HandshakeForm.keychain_of_modern (h : HandshakeForm s l) (hu : usesKeychain l.ciph = true) :
    let lc := encBlock l.ciph (sessionKey s l) (zeros (bs l.ciph))
    (authFinished s l).keychain = some { slot := .sess, bs := BitVec.ofNat 5 (bs l.ciph) } ∧
      (authFinished s l).window .subkNopad 0 16 = dbl (bs l.ciph) lc ++ zeros (16 - bs l.ciph) ∧
      (authFinished s l).window .subkPad 0 16 = dbl (bs l.ciph) (dbl (bs l.ciph) lc) ++ zeros (16 - bs l.ciph) := by
  intro lc
  obtain ⟨hnopad, hpad⟩ := subkeys_length h.sessionKey_length
  have hfresh : sessionKeychain (sessionStored s l) l.ciph (sessionKey s l) =
      installKeychain (sessionStored s l) .sess (bs l.ciph) (subkeys l.ciph (sessionKey s l)).nopad
        (subkeys l.ciph (sessionKey s l)).pad := if_pos hu
  obtain ⟨hnopadWin, hpadWin⟩ := installKeychain_windows (sessionStored s l) .sess (bs l.ciph) (hnopad.trans_le (bs_le _))
    (hpad.trans_le (bs_le _))
  rw [← hfresh] at hnopadWin hpadWin
  exact ⟨congrArg State.keychain hfresh, hnopadWin.trans (padTo_of_length hnopad), hpadWin.trans (padTo_of_length hpad)⟩

end

/-- SESS_INFO as rule R40 lays it out. -/
theorem sessInfoValue_of_session {s : State} {l : Session} (h : s.session = some l) :
    sessInfoValue s = (ciphCode (some l.ciph)).setWidth 32 ||| l.keyno.setWidth 32 <<< 4 := by
  have shifted (z : BitVec 24) (n : BitVec 4) (o : BitVec 1) (c : BitVec 3) :
      (z ++ n ++ o ++ c).setWidth 32 =
        c.setWidth 32 ||| o.setWidth 32 <<< 3 ||| n.setWidth 32 <<< 4 ||| z.setWidth 32 <<< 8 := by
    iterate 3 rw [setWidth_append_eq_or]
    iterate 2 rw [or_or_shiftLeft]
  have hv := shifted 0#24 l.keyno 0#1 (ciphCode (some l.ciph))
  rw [BitVec.setWidth_eq, BitVec.setWidth_zero, BitVec.setWidth_zero, BitVec.zero_shiftLeft, BitVec.zero_shiftLeft,
    BitVec.or_zero, BitVec.or_zero] at hv
  rw [sessInfoValue, h]
  exact hv

end Sys2Proof.Machine

/-! AUTH.FINISH (rules R277, R278 and R210): statement AuthFinishInstallsTheSession -/

namespace Sys2Proof.Machine

/-- Settles O44: the table of session keys, the checks in their order, then the session of the hidden record's challenges. -/
theorem authFinishInstallsTheSession : Obligations.AuthFinishInstallsTheSession := by
  refine ⟨wordsDecodeTo_of_decodeF0 rfl fun w h => by rw [decode, h]; rfl, fun c degen a b ha hb => ?_,
    fun s h => authFinish_fails (if_pos h), fun s l h hv => ?_⟩
  · refine ⟨deriveSessionKey_row degen ha hb, deriveSessionKey_length degen ha hb, ?_⟩
    rintro rfl rfl
    exact deriveSessionKey_degenerate ha hb
  obtain ⟨hrange, hempty, hstatus, hlength⟩ := answerOperands_checks (status := statusOk) (n := fun _ => s.hidden.n) h.ltk
    fun code he => authFinish_fails (finishOperands_of_answer_error hv he)
  rw [h.n] at hlength
  have ready (hlen : opLen s = challengeLen l.ciph + 1)
      (hs : readByte s.mem (Window.base .acRx + (opLen s - 1)) = 0x00) : FinishReady s l :=
    ⟨h, ⟨h.ltk, hlen, challengeLen_fits l.ciph, by rw [hlen] at hs; exact hs⟩, hv⟩
  refine ⟨hrange, hempty, hstatus, hlength, fun hlen hs => (ready hlen hs).authMismatch, eq_rotl1_iff_rotr1_eq _ _,
    fun hlen hs heq => ?_⟩
  have hexec := (ready hlen hs).exec_authFinish heq
  have heffect := exec_effect hexec
  have hsession := (installSession_session s l).1
  obtain ⟨hrnda, hrndb, -⟩ := h.hidden_lengths
  rw [← h.sessionKey_eq]
  refine ⟨_, hexec, succeed_completed .., heffect.sameInputs, authFinished_env s l, hsession, h.sessionKey_length, ?_,
    h.sessKey_whole, sessInfoValue_of_session hsession, authFinished_iv s l, rfl, rfl, (heffect.sameLtk nofun).slot,
    fun hmodern => ?_, fun hlegacy => ?_⟩
  · rw [h.sessKey_front, h.sessionKey_eq]
    exact deriveSessionKey_row l.degen hrnda hrndb
  · have hu : usesKeychain l.ciph = true := by rcases hmodern with e | e <;> rw [e] <;> rfl
    obtain ⟨hrecord, hnopad, hpad⟩ := h.keychain_of_modern hu
    have hout := authFinished_outside s l
    rw [if_pos hu] at hout
    exact ⟨hrecord, hnopad, hpad, hout⟩
  · have hu : usesKeychain l.ciph = false := by rcases hlegacy with e | e <;> rw [e] <;> rfl
    have hout := authFinished_outside s l
    rw [hu] at hout
    exact ⟨authFinished_keychain_of_legacy s hu, hout⟩

end Sys2Proof.Machine

/-! A changed reply (rule R281): statement TamperedReplyIsRejected -/

namespace Sys2Proof.Machine

/-- A reply that AUTH.FINISH accepted reached the comparison and passed it (rule R277). -/
theorem FinishReady.of_exec {s t : State} {l : LongTermKey} (h : HandshakeForm s l) (hexec : exec .authFinish s = .next t)
    (herr : t.err = false) :
    FinishReady s l ∧ finishReply s l = rotl1 (s.hidden.rnda.take (challengeLen l.ciph)) := by
  cases hops : finishOperands s with
  | error code =>
    obtain ⟨u, hu, hfails⟩ := authFinish_fails hops
    cases hu.symm.trans hexec
    have hok := finishOperands_ne_ok hops
    rw [hfails.completed.err] at herr
    exact absurd (of_decide_eq_false herr) (not_not.2 hok)
  | ok x =>
    obtain ⟨hv, hanswer, -⟩ := finishOperands_cases hops
    obtain ⟨-, hlen, -, -, hstatus, -⟩ := answerOperands_cases hanswer
    rw [byteAt_window_last (by omega), hlen, h.n] at hstatus
    have hready : FinishReady s l := ⟨h, ⟨h.ltk, hlen.trans (by rw [h.n]), challengeLen_fits _, hstatus⟩, hv⟩
    refine ⟨hready, ?_⟩
    by_contra hne
    rw [hready.operands, if_pos hne] at hops
    cases hops

theorem HandshakeForm.of_same {s u : State} {l : LongTermKey} (h : HandshakeForm s l) (hl : u.ltk = s.ltk)
    (hh : u.hidden = s.hidden) : HandshakeForm u l := by
  constructor
  · rw [hl]; exact h.ltk
  all_goals rw [hh]
  exacts [h.n, h.rnda, h.rndb, h.civ]

/-- Replies of the right length decrypt alike under one key and one hidden record only where they are the same bytes. -/
theorem acRx_eq_of_finishReply_eq {s u : State} {l : LongTermKey} (h : HandshakeForm s l) (hh : u.hidden = s.hidden)
    (hkey : u.window .ltkKey 0 24 = s.window .ltkKey 0 24) (heq : finishReply u l = finishReply s l) :
    u.window .acRx 0 (challengeLen l.ciph) = s.window .acRx 0 (challengeLen l.ciph) := by
  have hblocks (v : State) : (v.window .acRx 0 (challengeLen l.ciph)).length = challengeLen l.ciph / bs l.ciph * bs l.ciph := by
    rw [State.window_length, challengeLen_div_mul]
  obtain ⟨-, -, hciv⟩ := h.hidden_lengths
  rw [finishReply, finishReply, hh, State.window_part hkey (by rw [Nat.zero_add]; exact klen_le _)] at heq
  exact cbcDec_out_injective (State.window_length ..) hciv (hblocks u) (hblocks s) heq

/-- Settles O47: a changed reply decrypts to other bytes than the accepted one, so it fails the comparison. -/
theorem tamperedReplyIsRejected : Obligations.TamperedReplyIsRejected := by
  intro s t u l h hexec herr hl hh ha hlen hkey hstatus hne
  obtain ⟨hs, haccepted⟩ := FinishReady.of_exec h hexec herr
  rw [h.n] at hstatus hne
  have hu : FinishReady u l :=
    ⟨h.of_same hl hh, ⟨hl.trans h.ltk, hlen.trans hs.answer.length, challengeLen_fits _, hstatus.trans hs.answer.status⟩,
      ha.trans hs.verifying⟩
  have hmismatch : finishReply u l ≠ rotl1 (u.hidden.rnda.take (challengeLen l.ciph)) := fun heq =>
    hne (acRx_eq_of_finishReply_eq h hh hkey (heq.trans (hh ▸ haccepted.symm)))
  obtain ⟨v, hv, hfails⟩ := hu.authMismatch hmismatch
  exact ⟨v, hv, hfails, hfails.loggedOut.ended.session, hfails.authState⟩

end Sys2Proof.Machine

/-! The handshake with an honest card (rule R270): statement HonestCardAuthenticates -/

namespace Sys2Proof.Machine

section
variable {c : Family} {k iv x : List Byte} {m : Nat}

theorem cardSends_eq (hx : x.length = m * bs c) : cardSends c k iv x = (cbcEnc c k m iv x).out := by
  rw [cardSends, hx, Nat.mul_div_cancel _ (bs_pos c)]

/-- Decrypting what was sent over the same chain gives the bytes back, and the last block sent as the next chaining value. -/
theorem cbcDec_cardSends (hk : k.length = klen c) (hiv : iv.length = bs c) (hm : 0 < m) (hx : x.length = m * bs c) :
    cbcDec c k m iv (cardSends c k iv x) = { out := x, iv := lastBlock (bs c) (cardSends c k iv x) } := by
  rw [cardSends_eq hx, cbcDec_cbcEnc hk m hiv hx, lastBlock_cbcEnc hk hm hiv hx]

theorem cardSends_length (hk : k.length = klen c) (hiv : iv.length = bs c) (hx : x.length = m * bs c) :
    (cardSends c k iv x).length = m * bs c := by
  rw [cardSends_eq hx]
  exact (cbcEnc_lengths hk m hiv hx).1

/-- The card reads what was sent to it over its chain. -/
theorem cardReads_cardSends (hk : k.length = klen c) (hiv : iv.length = bs c) (hm : 0 < m) (hx : x.length = m * bs c) :
    cardReads c k iv (cardSends c k iv x) = x := by
  rw [cardReads, cardSends_length hk hiv hx, Nat.mul_div_cancel _ (bs_pos c), cbcDec_cardSends hk hiv hm hx]

end

/-- A window's bytes but the last, and the last. -/
theorem State.window_snoc {s : State} {w : Window} {n : Nat} {b : List Byte} {x : Byte} (h : s.window w 0 (n + 1) = b ++ [x]) :
    s.window w 0 n = b ∧ readByte s.mem (w.base + n) = x := by
  rw [State.window_add, Nat.zero_add] at h
  obtain ⟨hfront, hlast⟩ := List.append_inj' h rfl
  exact ⟨hfront, List.head_eq_of_cons_eq hlast⟩

theorem lastBlock_length {b : Nat} {x : List Byte} (h : b ≤ x.length) : (lastBlock b x).length = b := by
  rw [lastBlock, List.length_drop]
  omega

/-- The last block sent is the chaining value of the next message: one block. -/
theorem lastBlock_cardSends_length {c : Family} {k iv x : List Byte} {m : Nat} (hk : k.length = klen c)
    (hiv : iv.length = bs c) (hm : 0 < m) (hx : x.length = m * bs c) :
    (lastBlock (bs c) (cardSends c k iv x)).length = bs c :=
  lastBlock_length (by rw [cardSends_length hk hiv hx]; exact Nat.le_mul_of_pos_left _ hm)

section
variable {s : State} {l : LongTermKey} {rndb : List Byte}

/-- The card's encrypted RndB (rule R270). -/
def honestChallenge (s : State) (l : LongTermKey) (rndb : List Byte) : List Byte :=
  cardSends l.ciph (s.window .ltkKey 0 (klen l.ciph)) (zeros (bs l.ciph)) rndb

theorem lastBlock_honestChallenge_length (s : State) (hb : rndb.length = challengeLen l.ciph) :
    (lastBlock (bs l.ciph) (honestChallenge s l rndb)).length = bs l.ciph :=
  lastBlock_cardSends_length (State.window_length ..) (zeros_length _) (challengeLen_div_pos _)
    (hb.trans (challengeLen_div_mul _).symm)

/-- AUTH.CHAL decrypts an honest challenge to RndB, and chains its answer on the challenge's last block. -/
theorem chalRndB_of_honest (hb : rndb.length = challengeLen l.ciph)
    (hrx : s.window .acRx 0 (challengeLen l.ciph) = honestChallenge s l rndb) :
    chalRndB s l = { out := rndb, iv := lastBlock (bs l.ciph) (honestChallenge s l rndb) } := by
  rw [chalRndB, hrx]
  exact cbcDec_cardSends (State.window_length ..) (zeros_length _) (challengeLen_div_pos _)
    (hb.trans (challengeLen_div_mul _).symm)

/-- RndA and the rotated RndB, which the answer encrypts, are whole blocks. -/
theorem drawn_rotl1_length (s : State) (hb : rndb.length = challengeLen l.ciph) :
    (drawnBytes s (challengeLen l.ciph) ++ rotl1 rndb).length = 2 * challengeLen l.ciph / bs l.ciph * bs l.ciph := by
  rw [List.length_append, drawnBytes_length, rotl1_length, hb, two_challengeLen_div_mul, Nat.two_mul]

/-- The answer to an honest challenge, as a message over the card's chain, and the value it hands on. -/
theorem chalAnswer_of_honest (hb : rndb.length = challengeLen l.ciph)
    (hrx : s.window .acRx 0 (challengeLen l.ciph) = honestChallenge s l rndb) :
    (chalAnswer s l).out = cardSends l.ciph (s.window .ltkKey 0 (klen l.ciph))
        (lastBlock (bs l.ciph) (honestChallenge s l rndb)) (drawnBytes s (challengeLen l.ciph) ++ rotl1 rndb) ∧
      (chalAnswer s l).iv = lastBlock (bs l.ciph) (chalAnswer s l).out := by
  have hblocks := drawn_rotl1_length s hb
  have hiv := lastBlock_honestChallenge_length s hb
  rw [chalAnswer, chalRndB_of_honest hb hrx]
  exact ⟨(cardSends_eq hblocks).symm,
    (lastBlock_cbcEnc (State.window_length ..) (two_challengeLen_div_pos _) hiv hblocks).symm⟩

/-- The card reads RndA and its rotated RndB from the answer (rule R270). -/
theorem cardReads_chalAnswer (hb : rndb.length = challengeLen l.ciph)
    (hrx : s.window .acRx 0 (challengeLen l.ciph) = honestChallenge s l rndb) :
    cardReads l.ciph (s.window .ltkKey 0 (klen l.ciph)) (lastBlock (bs l.ciph) (honestChallenge s l rndb))
      (chalAnswer s l).out = drawnBytes s (challengeLen l.ciph) ++ rotl1 rndb := by
  rw [(chalAnswer_of_honest hb hrx).1]
  exact cardReads_cardSends (State.window_length ..) (lastBlock_honestChallenge_length s hb) (two_challengeLen_div_pos _)
    (drawn_rotl1_length s hb)

/-- An honest reply to AUTH.CHAL's answer decrypts to the rotated RndA (rules R270 and R277). -/
theorem finishReply_of_honest {u : State} (h : ChalReady s l)
    (hanswer : (chalAnswer s l).iv = lastBlock (bs l.ciph) (chalAnswer s l).out)
    (hkey : u.window .ltkKey 0 (klen l.ciph) = s.window .ltkKey 0 (klen l.ciph)) (hh : u.hidden = (authAnswered s l).hidden)
    (hrx : u.window .acRx 0 (challengeLen l.ciph) = cardSends l.ciph (s.window .ltkKey 0 (klen l.ciph))
      (lastBlock (bs l.ciph) (chalAnswer s l).out) (rotl1 (drawnBytes s (challengeLen l.ciph)))) :
    finishReply u l = rotl1 (drawnBytes s (challengeLen l.ciph)) := by
  obtain ⟨-, hiv, -⟩ := h.lengths
  rw [finishReply, hkey, hrx, hh, h.hidden, List.take_left' hiv, ← hanswer, cbcDec_cardSends (State.window_length ..) hiv
    (challengeLen_div_pos _) (by rw [rotl1_length, drawnBytes_length, challengeLen_div_mul])]

end

/-- Settles O48: each side decrypts, on the chain that both carry, what the other encrypted. -/
theorem honestCardAuthenticates : Obligations.HonestCardAuthenticates := by
  intro s l rndb hl ha hb hlen n b key challenge hrx
  obtain ⟨hchallenge, hstatus⟩ := State.window_snoc hrx
  have hs : ChalReady s l := ⟨⟨hl, hlen, challengeLen_fits _, hstatus⟩, ha⟩
  have hexec := hs.exec_authChal
  have hkeys := (exec_effect hexec).sameLtk nofun
  obtain ⟨-, -, hrndb⟩ := hs.lengths
  have htx : (authAnswered s l).window .acTx 1 (2 * n) = (chalAnswer s l).out := by
    have hwhole := hs.acTx
    rw [State.window_add, Nat.zero_add] at hwhole
    exact (List.append_inj (s₂ := [0xAF]) hwhole (State.window_length ..)).2
  refine ⟨_, hexec, rfl, ?_⟩
  rw [htx]
  refine ⟨cardReads_chalAnswer hb hchallenge, fun u hul hukey huh huv hulen hurx => ?_⟩
  obtain ⟨hreply, hok⟩ := State.window_snoc hurx
  have hform : HandshakeForm u l := hs.handshakeForm.of_same hul huh
  have hu : FinishReady u l := ⟨hform, ⟨hform.ltk, hulen, challengeLen_fits _, hok⟩, huv⟩
  have hkey : u.window .ltkKey 0 (klen l.ciph) = s.window .ltkKey 0 (klen l.ciph) :=
    State.window_part (hukey.trans hkeys.key) (by rw [Nat.zero_add]; exact klen_le _)
  have hrnda : u.hidden.rnda.take n = drawnBytes s n := by rw [huh, hs.hidden, List.take_left' (drawnBytes_length ..)]
  have hrndbTaken : u.hidden.rndb.take n = rndb := by
    rw [huh, hs.hidden, List.take_left' hrndb, chalRndB_of_honest hb hchallenge]
  have haccepted := finishReply_of_honest hs (chalAnswer_of_honest hb hchallenge).2 hkey huh hreply
  refine ⟨_, hu.exec_authFinish (haccepted.trans (congrArg rotl1 hrnda.symm)), rfl, rfl, (installSession_session u l).1, ?_⟩
  rw [hform.sessKey_front, hform.sessionKey_eq, hrnda, hrndbTaken]

end Sys2Proof.Machine

/-! AUTH_STATE from command to command (rule R280): statement AuthStateFollowsTheTransitionTable -/

namespace Sys2Proof.Machine

/-- The completion of a word issued with no delay is the next step (rule R88). -/
theorem step_issueWith_zero (s : State) (w : Word) : step (issueWith s w 0) = complete (issueWith s w 0) := if_pos rfl

/-- AUTH.START's column (rule R280). -/
theorem Effect.authState_authStart {s t : State} (h : Effect s .authStart t) :
    t.authState = if t.err then .failed else .awaitingChallenge := by
  cases h with
  | fails _ hi | works _ _ _ _ hi => cases hi
  | aborts | starts => rfl

/-- AUTH.CHAL's column: a failure outside state 2 (rule R280). -/
theorem Effect.authState_authChal {s t : State} (h : Effect s .authChal t) :
    (s.authState = .awaitingChallenge → t.authState = if t.err then .failed else .responseSent) ∧
      (s.authState ≠ .awaitingChallenge → t.err = true ∧ t.authState = .failed) := by
  cases h with
  | fails _ hi | works _ _ _ _ hi => cases hi
  | aborts => exact ⟨fun _ => rfl, fun _ => ⟨rfl, rfl⟩⟩
  | answers hx => exact ⟨fun _ => rfl, fun hne => absurd (chalOperands_cases hx).1 hne⟩

/-- AUTH.FINISH's column: a failure outside state 4, which it shows where it was issued in state 3 (rules R274 and R280). -/
theorem Effect.authState_authFinish {s t : State} (h : Effect s .authFinish t) :
    (s.authState = .verifying → t.authState = if t.err then .failed else .authenticated) ∧
      (s.authState ≠ .verifying → t.err = true ∧ t.authState = .failed) := by
  cases h with
  | fails _ hi | works _ _ _ _ hi => cases hi
  | aborts => exact ⟨fun _ => rfl, fun _ => ⟨rfl, rfl⟩⟩
  | finishes hx => exact ⟨fun _ => rfl, fun hne => absurd (finishOperands_cases hx).1 hne⟩

/-- KLOAD's column: a handshake in progress fails, and AUTH_STATE is else as before (rules R202 and R280). -/
theorem kloaded_authState (s : State) (c : Option Family) (keyno : BitVec 4) (version : Byte) :
    (kloaded s c keyno version).authState =
      if s.authState = .awaitingChallenge ∨ s.authState = .responseSent then .failed else s.authState := by
  show (kloadCleared s).authState = _
  split
  · exact (kloadCleared_of_pending ‹_›).1
  · exact (kloadCleared_of_not_pending ‹_›).1

/-- The issue of AUTH.FINISH shows state 4 in state 3, and leaves every other state (rule R271). -/
theorem issueAuthState_authFinish {w : Word} (h : decode w = .ok .authFinish) (a : AuthState) :
    issueAuthState w a = if a = .responseSent then .verifying else a := by rw [issueAuthState, h]

/-- The issue of a command other than AUTH.START and AUTH.FINISH leaves AUTH_STATE (rule R271). -/
theorem issueAuthState_of_other {w : Word} {i : Instr} (h : decode w = .ok i) (h1 : i ≠ .authStart) (h4 : i ≠ .authFinish)
    (a : AuthState) : issueAuthState w a = a := by
  unfold issueAuthState
  split
  · rename_i hd
    exact absurd (Except.ok.inj (h.symm.trans hd)) h1
  · rename_i hd
    exact absurd (Except.ok.inj (h.symm.trans hd)) h4
  · rfl

/-- Settles O46: the issue shows the transient values, and each command's completion has its column of the table. -/
theorem authStateFollowsTheTransitionTable : Obligations.AuthStateFollowsTheTransitionTable := by
  refine ⟨rfl, fun s w _ _ hv => ?_⟩
  rw [step_issueWith_zero]
  cases hd : decode w with
  | error e =>
    exact ⟨rejectWord (issueWith s w 0) e, by rw [complete, show decode (issueWith s w 0).latch.cmd = .error e from hd],
      issueAuthState_of_decode_error hd s.authState⟩
  | ok i =>
    obtain ⟨t, ht⟩ := exec_next i (issueWith s w 0)
    have heffect := exec_effect ht
    refine ⟨t, by rw [complete, show decode (issueWith s w 0).latch.cmd = .ok i from hd, ← ht], ?_⟩
    have issued (h1 : i ≠ .authStart) (h4 : i ≠ .authFinish) : (issueWith s w 0).authState = s.authState :=
      issueAuthState_of_other hd h1 h4 s.authState
    cases i
    case authStart => exact heffect.authState_authStart
    case authChal =>
      obtain ⟨hawaiting, hother⟩ := heffect.authState_authChal
      rw [issued nofun nofun] at hawaiting hother
      dsimp only
      split
      · exact hawaiting ‹_›
      · exact hother ‹_›
    case authFinish =>
      obtain ⟨hverifying, hother⟩ := heffect.authState_authFinish
      have hissued : (issueWith s w 0).authState = if s.authState = .responseSent then .verifying else s.authState :=
        issueAuthState_authFinish hd s.authState
      dsimp only
      split
      · exact hverifying (hissued.trans (if_pos ‹_›))
      · exact hother (by rw [hissued, if_neg ‹_›]; exact hv)
    case logout =>
      cases ht
      exact ⟨rfl, rfl⟩
    case kload c keyno version =>
      cases (exec_kload c keyno version _).symm.trans ht
      refine ⟨rfl, (kloaded_authState ..).trans ?_⟩
      rw [issued nofun nofun]
    all_goals exact (heffect.sameHandshake rfl).2.2.trans (issued nofun nofun)

end Sys2Proof.Machine

/-! SUPPORT. How a command fails (rules R275, R312 and R315): statement FailingCommandsChangeNothingElse -/

namespace Sys2Proof.Machine

theorem failsByLogout_iff (i : Instr) : failsByLogout i = true ↔ i = .authStart ∨ i = .authChal ∨ i = .authFinish := by
  cases i <;> simp [failsByLogout]

/-- RES1 of a failing command is 0 but for the length that FIDENT and FDEC report with FRAME_TRUNCATED (rule R312). -/
theorem exec_res1_of_err {i : Instr} {s t : State} (h : exec i s = .next t) (ht : t.err = true)
    (hc : t.errCode ≠ .frameTruncated) : t.res1 = 0 := by
  cases i with
  | nop | fencAck | fencNack | fencErr | logout => cases h; cases ht
  | kload c => cases c <;> cases h <;> cases ht
  | fident =>
    simp only [exec, execFident] at h
    split at h <;> cases h
    · exact absurd rfl hc
    · rfl
    · cases ht
  | fdec =>
    simp only [exec, execFdec] at h
    split at h
    · cases h; exact absurd rfl hc
    · cases h; rfl
    · split at h <;> cases h <;> cases ht
  | fencInfo | cenc | cdec | cmacb | cmsubk | cmac | authStart | authChal | authFinish =>
    simp only [exec, execFencInfo, execCenc, execCdec, execCmacb, execCmsubk, execCmac, execAuthStart, execAuthChal,
      execAuthFinish] at h
    split at h <;> cases h
    · rfl
    · cases ht

/-- A failing command whose failure ends the handshake fails by `auth_fail` (rule R275). -/
theorem authFailsWith_of_exec {i : Instr} {s t : State} (h : exec i s = .next t) (ht : t.err = true)
    (hi : failsByLogout i = true) : AuthFailsWith s t t.errCode := by
  cases exec_effect h with
  | fails _ hi' => rw [hi] at hi'; cases hi'
  | aborts _ hc => exact authFail_authFailsWith s hc
  | works | derives | empties | loads | starts | answers | finishes | logsOut => cases ht

/-- Any other failing command fails by `fail` (rule R312), and reports a needed length with FRAME_TRUNCATED alone. -/
theorem failsWith_of_exec {i : Instr} {s t : State} (h : exec i s = .next t) (ht : t.err = true)
    (hi : failsByLogout i = false) :
    ∃ need, FailsWith s t t.errCode need ∧ (t.errCode ≠ .frameTruncated → need = 0) := by
  have hres1 := exec_res1_of_err h ht
  cases exec_effect h with
  | @fails _ code need _ hc =>
    by_cases hcode : code = .frameTruncated
    · exact ⟨need, fail_failsWith s hc need, absurd hcode⟩
    · have hneed : wordOf need = wordOf 0 := hres1 hcode
      have hfail : fail s code need = fail s code 0 := by rw [fail, hneed]; rfl
      rw [hfail]
      exact ⟨0, fail_failsWith s hc 0, fun _ => rfl⟩
  | aborts hi' => rw [hi] at hi'; cases hi'
  | works | derives | empties | loads | starts | answers | finishes | logsOut => cases ht

/-- A completion that sets ERR has an error code proper (rule R312). -/
theorem Completed.code_ne_ok {t : State} {code : ErrCode} {r0 r1 r2 r3 : Word} (h : Completed t code r0 r1 r2 r3)
    (ht : t.err = true) : code ≠ .ok := of_decide_eq_true (h.err.symm.trans ht)

/-- Settles O8: a failing command fails by `auth_fail` where its failure ends the handshake, and else by `fail`. -/
theorem failingCommandsChangeNothingElse : Obligations.FailingCommandsChangeNothingElse := by
  intro i s t h ht
  simp only [← failsByLogout_iff]
  cases hi : failsByLogout i with
  | true =>
    have hf := authFailsWith_of_exec h ht hi
    exact ⟨⟨0, hf.completed, fun _ => rfl⟩, hf.completed.code_ne_ok ht, hf.inputs,
      hf.loggedOut, hf.authState, hf.env, hf.bytes⟩
  | false =>
    obtain ⟨need, hf, hneed⟩ := failsWith_of_exec h ht hi
    exact ⟨⟨need, hf.completed, hneed⟩, hf.completed.code_ne_ok ht, hf.inputs, hf.keys, hf.bytes⟩

end Sys2Proof.Machine

/-! SUPPORT. The interrupt output (rule R318): statement InterruptFollowsDoneAndEnable -/

namespace Sys2Proof.Machine

/-- IRQ_EN in CTRL (rule R33). -/
theorem ctrlValue_irqEn (s : State) : (ctrlValue s).getLsbD 0 = s.irqEn := by
  rw [ctrlValue, BitVec.getLsbD_append, BitVec.getLsbD_ofBool]
  simp

/-- DONE in STATUS (rule R35). -/
theorem statusValue_done (s : State) : (statusValue s).getLsbD 1 = s.done := by
  calc (statusValue s).getLsbD 1
    _ = ((statusValue s).extractLsb' 0 3).getLsbD 1 := by rw [BitVec.getLsbD_extractLsb']; simp
    _ = s.done := by rw [statusValue_flags, BitVec.getLsbD_append, BitVec.getLsbD_append]; simp

/-- A write to CTRL is accepted at any time (rule R356). -/
theorem step_of_ctrlWrite {s : State} {v : Word} (h : HostWrites s 0x008 4 v) :
    step s = .next (hostAdvance (writeCtrl (countDown s) v)) := by
  rw [step_of_hostWrites h (busTarget_regOffset .ctrl)]
  simp [writeTarget, writableWhileBusy, writeReg]

/-- No reset leaves the interrupt asserted (rules R318, R350 and R351). -/
theorem ResetValues.irq_eq_false {t : State} (h : ResetValues t) : irq t = false := congrArg irq h.fields

/-- Settles O11: each event sets IRQ_EN or DONE, or leaves the reset values. -/
theorem interruptFollowsDoneAndEnable : Obligations.InterruptFollowsDoneAndEnable := by
  refine ⟨fun s => ?_, fun s t hd ht => ?_, fun s w h hb => ?_, fun s v h hv => ?_, fun s v h hv hdone => ?_, fun s h => ?_,
    fun s h => h.resetValues.irq_eq_false⟩
  · rw [regValue, regValue, ctrlValue_irqEn, statusValue_done, irq]
  · obtain ⟨u, hu, -, hdone, hinputs⟩ := step_of_completionDue hd
    cases hu.symm.trans ht
    rw [irq, hdone, hinputs.irqEn, Bool.and_true]
  · exact ⟨_, step_of_regWrite (r := .cmd) hb h, Bool.and_false _⟩
  · obtain ⟨t, ht, -, -, hirq⟩ := statusWriteClearsItsBits s v h
    exact ⟨t, ht, hirq hv⟩
  · have hwrite : writeCtrl (countDown s) v = { countDown s with irqEn := v.getLsbD 0 } :=
      if_neg (by rw [hv]; exact Bool.false_ne_true)
    refine ⟨_, step_of_ctrlWrite h, ?_⟩
    rw [hwrite, irq, hostAdvance_irqEn, hostAdvance_done, countDown_done, hdone, Bool.and_true]
  · obtain ⟨v, hw, hv⟩ := h
    have hreset : writeCtrl (countDown s) v = softReset (countDown s) := if_pos hv
    refine ⟨_, step_of_ctrlWrite hw, ?_⟩
    rw [hreset]
    exact (softReset_resetValues _).of_hostAdvance.irq_eq_false

end Sys2Proof.Machine

/-! NOP (rule R319): statement NopOnlyCompletes -/

namespace Sys2Proof.Machine

/-- Settles O6: NOP is a successful completion with zero results, and no more. -/
theorem nopOnlyCompletes : Obligations.NopOnlyCompletes := by
  refine ⟨wordsDecodeTo_of_decodeF0 rfl fun w h => by rw [decode, h]; rfl,
    fun s => ⟨_, rfl, succeed_completed .., succeed_sameInputs .., succeed_sameKeys .., fun _ => rfl⟩, ?_⟩
  have hstep : step (issueWith State.reset 0 0) = exec .nop (issueWith State.reset 0 0) :=
    (stepRunsTheDecodedCommand.1 _ .nop rfl rfl wordsOfTheTableDecode.1).2
  exact ⟨_, hstep, by decide, succeed_completed ..⟩

end Sys2Proof.Machine

/-! What a command leaves of the handshake (rules R44, R45, R47 and R358): statement OtherCommandsKeepTheHandshake -/

namespace Sys2Proof.Machine

/-- AUTH.CHAL alone draws random bytes (rule R324). -/
theorem Effect.env {i : Instr} {s t : State} (h : Effect s i t) (hi : i ≠ .authChal) : t.env = s.env := by
  cases h with
  | fails | derives => rfl
  | aborts hf hc => exact (authFail_authFailsWith s hc).env
  | works _ _ _ _ _ hu => rw [hu]; rfl
  | empties | loads | starts | logsOut => simp [clearKey, loadKey]
  | answers => exact absurd rfl hi
  | finishes => exact authFinished_env s _

/-- AC_TX is for AUTH.START and AUTH.CHAL to write (rules R273 and R276), and AC_RX for the host alone (rule R43). -/
theorem acWindows_notMem_writtenWindows {i : Instr} (hi : handshakeCommand i = false) :
    Window.acTx ∉ writtenWindows i ∧ Window.acRx ∉ writtenWindows i := by
  cases i <;> simp_all [handshakeCommand, writtenWindows]

/-- Settles O57: the effect of any other command keeps each slot, and its stores reach neither a key window nor an AC window. -/
theorem otherCommandsKeepTheHandshake : Obligations.OtherCommandsKeepTheHandshake := by
  intro i s t h hstart hchal hfinish hlogout hkload
  have he := exec_effect h
  have hi : handshakeCommand i = false := by
    rw [← Bool.not_eq_true, handshakeCommand_iff]
    rintro (e | e | e | e | ⟨c, k, v, e⟩)
    · exact hstart e
    · exact hchal e
    · exact hfinish e
    · exact hlogout e
    · exact hkload c k v e
  have hltk := he.sameLtk hkload
  obtain ⟨hsession, hhidden, hauth⟩ := he.sameHandshake hi
  obtain ⟨htx, hrx⟩ := acWindows_notMem_writtenWindows hi
  exact ⟨hauth, hhidden, hltk.slot, hsession.slot, he.env hchal, hltk.key, hsession.key, he.stores.window_other htx,
    he.stores.window_other hrx⟩

end Sys2Proof.Machine

/-! SUPPORT. The host's writes while a command runs (rules R355 and R356): statements BusyWritesAreDropped and
BusyControlWritesTakeEffect -/

namespace Sys2Proof.Machine

/-- CTRL and STATUS alone accept a write while a command runs (rule R356). -/
theorem writableWhileBusy_iff (g : Target) : writableWhileBusy g = true ↔ g = .reg .ctrl ∨ g = .reg .status := by
  cases g with
  | reg r => cases r <;> simp [writableWhileBusy]
  | win w i => simp [writableWhileBusy]

/-- A write that a running command does not accept is dropped, and recorded in CMD_OVR (rule R355). -/
theorem writeTarget_dropped {s : State} {g : Target} (hb : s.busy = true) (hg : writableWhileBusy g = false) (width : Nat)
    (v : Word) : writeTarget s g width v = { s with cmdOvr := true } := if_pos ⟨hb, hg⟩

/-- What a permitted write does while a command runs (rules R355 and R356). -/
theorem writeTarget_running {s : State} (hb : s.busy = true) (g : Target) (width : Nat) (v : Word) :
    writeTarget s g width v = { s with cmdOvr := true } ∨
      (g = .reg .ctrl ∧ writeTarget s g width v = writeCtrl s v) ∨
      (g = .reg .status ∧ writeTarget s g width v = clearW1C s v) := by
  cases hg : writableWhileBusy g with
  | false => exact .inl (writeTarget_dropped hb hg width v)
  | true =>
    rcases (writableWhileBusy_iff g).1 hg with rfl | rfl
    · exact .inr (.inl ⟨rfl, by simp [writeTarget, writableWhileBusy, writeReg]⟩)
    · exact .inr (.inr ⟨rfl, by simp [writeTarget, writableWhileBusy, writeReg]⟩)

/-- A write to CTRL that does not reset stores IRQ_EN (rule R33). -/
theorem writeCtrl_of_not_srst (s : State) {v : Word} (hv : v.getLsbD 1 = false) :
    writeCtrl s v = { s with irqEn := v.getLsbD 0 } := if_neg (by rw [hv]; exact Bool.false_ne_true)

/-- A write to CTRL that resets (rule R351). -/
theorem writeCtrl_of_srst (s : State) {v : Word} (hv : v.getLsbD 1 = true) : writeCtrl s v = softReset s := if_pos hv

/-- A target at another offset than those of CTRL and STATUS accepts no write while a command runs (rules R30 and R355). -/
theorem writableWhileBusy_eq_false {off width : Nat} {g : Target} (hg : busTarget off width = some g) (hctrl : off ≠ 0x008)
    (hstatus : off ≠ 0x010) : writableWhileBusy g = false := by
  rw [← Bool.not_eq_true, writableWhileBusy_iff]
  rintro (rfl | rfl)
  · exact hctrl (busTarget_reg hg).2
  · exact hstatus (busTarget_reg hg).2

/-- Settles O17: the access reaches a target that accepts no write while a command runs. -/
theorem busyWritesAreDropped : Obligations.BusyWritesAreDropped := by
  intro s off width v h hb hp hctrl hstatus
  obtain ⟨g, hg⟩ := busTarget_of_permitted hp
  have hdrop := writeTarget_dropped ((countDown_busy s).trans hb) (writableWhileBusy_eq_false hg hctrl hstatus) width v
  refine ⟨_, step_of_hostWrites h hg, ?_, ?_⟩ <;> rw [hdrop]
  · rw [countDown_eq]
    rfl
  · exact countDown_env s

/-- Settles O18: CTRL takes the write as it always does, and STATUS by its own rule (rule R36). -/
theorem busyControlWritesTakeEffect : Obligations.BusyControlWritesTakeEffect := by
  intro s v _
  refine ⟨fun h hv => ?_, fun h hv => ?_, fun h => ?_⟩
  · refine ⟨_, step_of_ctrlWrite h, ?_, ?_⟩ <;> rw [writeCtrl_of_not_srst _ hv]
    · rw [countDown_eq]
      rfl
    · exact countDown_cmdOvr s
  · refine ⟨_, step_of_ctrlWrite h, ?_⟩
    rw [writeCtrl_of_srst _ hv]
    exact ⟨(softReset_resetValues _).of_hostAdvance, rfl⟩
  · obtain ⟨t, ht, hfcse, -⟩ := statusWriteClearsItsBits s v h
    exact ⟨t, ht, congrArg State.done hfcse, congrArg State.err hfcse, congrArg State.cmdOvr hfcse⟩

end Sys2Proof.Machine

/-! The countdown of a running command (rule R361): statement CommandsCompleteWithinTheirCountdown -/

namespace Sys2Proof.Machine

/-- The command engine is as before: whether a command runs, its countdown, and its word as issued (rules R34 and R50). -/
structure SameEngine (s t : State) : Prop where
  busy : t.busy = s.busy
  countdown : t.countdown = s.countdown
  latch : t.latch = s.latch
  cmd : t.cmd = s.cmd

/-- No write but one that resets reaches the engine while a command runs (rules R355 and R356). -/
theorem writeTarget_sameEngine {s : State} (hb : s.busy = true) {g : Target} {width : Nat} {v : Word}
    (hn : ¬ (g = .reg .ctrl ∧ v.getLsbD 1 = true)) : SameEngine s (writeTarget s g width v) := by
  rcases writeTarget_running hb g width v with e | ⟨hg, e⟩ | ⟨-, e⟩ <;> rw [e]
  · exact ⟨rfl, rfl, rfl, rfl⟩
  · rw [writeCtrl_of_not_srst s (by simpa [hg] using hn)]
    exact ⟨rfl, rfl, rfl, rfl⟩
  · exact ⟨rfl, rfl, rfl, rfl⟩

/-- A step of the host is a permitted write, or touches only the countdown, the host and the environment (rules R83 and R118). -/
theorem hostStep_cases {s t : State} (hd : completionDue s = false) (h : step s = .next t) :
    (∃ off width v g, HostWrites s off width v ∧ busTarget off width = some g ∧
        t = hostAdvance (writeTarget (countDown s) g width v)) ∨
      t = { countDown s with host := t.host, env := t.env } := by
  rcases step_cases h with ⟨i, hc, -⟩ | ⟨e, hc, -⟩ | ⟨op, -, hop, ho⟩ | ⟨-, -, rfl⟩
  · rw [hd] at hc; cases hc
  · rw [hd] at hc; cases hc
  · rcases hostOp_cases ho with ⟨width, off, v, g, hg, hw, rfl⟩ | ⟨width, off, x, g, hg, -, rfl⟩ | ⟨taken, target, rfl⟩
    · refine .inl ⟨off, width, v, g, ⟨hd, op, hop, ?_⟩, hg, rfl⟩
      rcases hw with rfl | ⟨x, rfl, rfl⟩
      · rfl
      · rw [countDown_host]; rfl
    · right
      unfold afterRead
      split <;> rfl
    · right
      split <;> rfl
  · exact .inr rfl

/-- A host step that does not reset takes one from the countdown of the running command, and leaves its engine alone otherwise. -/
theorem step_sameEngine {s t : State} (hb : s.busy = true) (hc : s.countdown ≠ 0) (hn : ¬ SoftResetNow s)
    (h : step s = .next t) : SameEngine (countDown s) t := by
  rcases hostStep_cases ((completionDue_eq_false_iff s).2 (.inr hc)) h with ⟨off, width, v, g, hw, hg, rfl⟩ | e
  · have hreset : ¬ (g = .reg .ctrl ∧ v.getLsbD 1 = true) := by
      rintro ⟨rfl, hv⟩
      obtain ⟨rfl, rfl⟩ := busTarget_reg hg
      exact hn ⟨v, hw, hv⟩
    have he := writeTarget_sameEngine (width := width) ((countDown_busy s).trans hb) hreset
    exact ⟨he.busy, he.countdown, he.latch, he.cmd⟩
  · rw [e]
    exact ⟨rfl, rfl, rfl, rfl⟩

theorem countDown_countdown {s : State} (hb : s.busy = true) : (countDown s).countdown = s.countdown - 1 := by
  rw [countDown, if_pos hb]

/-- After as many host steps as the countdown says the command still runs, with nothing left of its countdown. -/
theorem steps_countdown {n : Nat} {s t : State} (hb : s.busy = true) (hc : s.countdown = n) (h : Steps n s t)
    (hn : ∀ k u, k < n → Steps k s u → ¬ SoftResetNow u) :
    t.busy = true ∧ t.countdown = 0 ∧ t.latch = s.latch ∧ t.cmd = s.cmd := by
  induction n generalizing s with
  | zero =>
    obtain rfl : s = t := h
    exact ⟨hb, hc, rfl, rfl⟩
  | succ n ih =>
    obtain ⟨u, hu, hsteps⟩ := h
    have he := step_sameEngine hb (by omega) (hn 0 s (by omega) rfl) hu
    have hbu : u.busy = true := he.busy.trans ((countDown_busy s).trans hb)
    have hcu : u.countdown = n := by rw [he.countdown, countDown_countdown hb, hc, Nat.add_sub_cancel]
    obtain ⟨hbt, hct, hlatch, hcmd⟩ := ih hbu hcu hsteps fun k v hk hv => hn (k + 1) v (by omega) ⟨u, hu, hv⟩
    exact ⟨hbt, hct, hlatch.trans (he.latch.trans (countDown_latch s)), hcmd.trans (he.cmd.trans (countDown_cmd s))⟩

/-- Settles O10: each host step but a soft reset takes one from the countdown, by induction on it. -/
theorem commandsCompleteWithinTheirCountdown : Obligations.CommandsCompleteWithinTheirCountdown := by
  intro s t hb h hn
  obtain ⟨hbusy, hcount, hlatch, hcmd⟩ := steps_countdown hb rfl h hn
  exact ⟨by simp [completionDue, hbusy, hcount], hlatch, hcmd⟩

end Sys2Proof.Machine

/-! The resets (rules R350, R351 and R362): statements PowerOnLeavesTheResetValues, SoftResetKeepsOnlyTheBuffers and
ResetMeetsEveryInvariant -/

namespace Sys2Proof.Machine

/-- After a reset every register reads as in `State.reset`: none shows a window byte, the host or the environment. -/
theorem ResetValues.regValue_eq {t : State} (h : ResetValues t) (r : Reg) : regValue t r = regValue State.reset r := by
  rw [h.fields]
  cases r <;> rfl

/-- The registers that reset to 0 (rule R350): all but the two constants. -/
theorem regValue_reset_eq_zero : ∀ r ∈ [Reg.ctrl, .cmd, .status, .oplen, .opoff, .opaux, .frhdr, .ltkInfo, .sessInfo, .subkInfo,
    .res0, .res1, .res2, .res3], regValue State.reset r = 0 := by decide

/-- The small windows lie before DATA (rule R43). -/
theorem smallWindows_before_data : ∀ w ∈ [Window.key, .iv, .mac, .subkPad, .subkNopad, .ltkKey, .sessKey, .acTx, .acRx],
    w.base < Window.base .data := by decide

/-- Settles O50: a power-on leaves the reset values, which read as the table says. -/
theorem powerOnLeavesTheResetValues : Obligations.PowerOnLeavesTheResetValues := by
  intro s hs
  have h := hs.resetValues
  have hhidden : s.hidden = Handshake.clear := congrArg State.hidden h.fields
  refine ⟨rfl, rfl, fun r hr => (h.regValue_eq r).trans (regValue_reset_eq_zero r hr),
    fun w hw => h.windows w (smallWindows_before_data w hw), ?_, ?_, ?_, ?_, congrArg State.busy h.fields,
    congrArg State.latch h.fields, h.irq_eq_false⟩ <;>
    rw [hhidden] <;> rfl

/-- A byte outside the ranges made unspecified reads as before (rule R362). -/
theorem readByte_scramble_outside (s : State) {rs : List Range} (m : List Host.Cell) {a : Nat} (ha : inRanges rs a = false) :
    readByte (scramble s rs m) a = readByte m a := by
  induction rs generalizing m with
  | nil => rfl
  | cons r rs ih =>
    rw [inRanges_cons, Bool.or_eq_false_iff] at ha
    obtain ⟨hr, hrs⟩ := ha
    have hout : ¬ (r.start ≤ a ∧ a < r.start + r.count) := of_decide_eq_false hr
    simp only [scramble]
    split
    · rw [ih _ hrs, readByte_writeBytes, if_neg (by simpa [freeBytes] using hout)]
    · exact ih m hrs

/-- A byte from DATA on that no abandoned command could have written reads as before a soft reset (rules R351 and R362). -/
theorem readByte_softReset {s : State} {a : Nat} (ha : Window.base .data ≤ a) (hr : inRanges (runningOutputs s) a = false) :
    readByte (softReset s).mem a = readByte s.mem a := by
  calc readByte (softReset s).mem a
    _ = readByte (s.mem.filter keepsOverReset) a := readByte_scramble_outside s _ hr
    _ = if decide (Window.base .data ≤ a) then readByte s.mem a else 0 :=
      readByte_filter (fun i => decide (Window.base .data ≤ i)) s.mem a
    _ = readByte s.mem a := if_pos (decide_eq_true ha)

/-- Settles O51: the step is the soft reset, and while no command runs there is nothing that one could have written. -/
theorem softResetKeepsOnlyTheBuffers : Obligations.SoftResetKeepsOnlyTheBuffers := by
  rintro s ⟨v, hw, hv⟩
  have hkept : ∀ a, Window.base .data ≤ a → inRanges (runningOutputs s) a = false →
      readByte (softReset (countDown s)).mem a = readByte s.mem a := fun a ha hr => by
    rw [readByte_softReset ha (by rwa [runningOutputs_countDown]), countDown_mem]
  refine ⟨_, step_of_ctrlWrite hw, ?_⟩
  rw [writeCtrl_of_srst _ hv]
  refine ⟨(softReset_resetValues _).of_hostAdvance, rfl, rfl, fun hb a ha => hkept a ha ?_, fun _ => hkept⟩
  rw [runningOutputs, hb]
  rfl

/-- DATA, FIN and FOUT fill the offsets from DATA to the end of FOUT (rule R43). -/
theorem windowAt_buffers {a : Nat} (h1 : Window.base .data ≤ a) (h2 : a < Window.base .fout + Window.size .fout) :
    (windowAt a).isSome := by
  by_cases hfin : a < Window.base .fin
  · exact windowAt_isSome h1 hfin
  by_cases hfout : a < Window.base .fout
  · exact windowAt_isSome (not_lt.1 hfin) hfout
  · exact windowAt_isSome (not_lt.1 hfout) h2

theorem PowerOn.memoryForm {s : State} (h : PowerOn s) : MemoryForm s where
  form := h.form
  mapped := fun c hc => by
    obtain ⟨hdata, hfout⟩ := h.buffers c hc
    exact windowAt_buffers hdata hfout

/-- The reset state is the power-on state with no byte listed (rule R350). -/
theorem powerOn_reset : PowerOn State.reset := ⟨rfl, reset_wf, nofun⟩

/-- Settles O52: each invariant follows from the reset values, which every power-on state has, the reset state among them. -/
theorem resetMeetsEveryInvariant : Obligations.ResetMeetsEveryInvariant := by
  have hpower : ∀ s, PowerOn s → Inductive s ∧ KeyForm s ∧ MemoryForm s := fun s h =>
    ⟨h.resetValues.inductive, h.resetValues.keyForm, h.memoryForm⟩
  obtain ⟨hinductive, hkeys, hmemory⟩ := hpower _ powerOn_reset
  exact ⟨hinductive.stateInvariant, hinductive, hkeys, hmemory, powerOn_reset, hpower⟩

end Sys2Proof.Machine
